-- ==== Sys2Proof/Word.lean ====
section
/-! DEFINITION. The sizes of R8 and the bit-level shapes the whole model uses. -/

namespace Sys2Proof

/-- A byte (R8). -/
abbrev Byte := BitVec 8

/-- A word of 32 bits (R8): one register element, one scalar register. -/
abbrev Word := BitVec 32

/-- A doubleword of 64 bits (R8): a register pair (R7, R15), an address. -/
abbrev DWord := BitVec 64

/-- One bit for each of the 96 lanes (R11, R17): bit i is lane i, beat 0 in bits 31:0. -/
abbrev LaneMask := BitVec 96

/-- The sticky flags of R45: bit 0 NV, 1 DZ, 2 OF, 3 UF, 4 NX, 5 SAT. -/
abbrev Flags := BitVec 6

/-- The 96 bits of an instruction word (R60, R67). -/
abbrev InstrWord := BitVec 96

/-- The number of lanes of a group (R11). -/
abbrev lanes : Nat := 96

end Sys2Proof
end

