-- ==== Sys2Proof/Syntax.lean ====
section
/-! DEFINITION. The steps of the machine: one constructor of `Instr` for each row of
spec/opcode_table.json. The first 137 are instruction words (R67, R76), the others are the steps
that the device, the host and the plant perform (95_what_each_step_holds.md). -/

namespace Sys2Proof

/-- The type codes of R74. -/
inductive Ty where
  | i8 | i16 | i32 | i64 | z8 | z16 | z32 | z64 | b32 | b64 | f64 | f32 | f16 | bf16 | e4m3 | e5m2 | e2m1
deriving DecidableEq, Repr

/-- The operand codes of R69. The codes 328 to 511 are reserved and name no operand. -/
inductive Opd where
  | v (n : Fin 256)
  | s (n : Fin 64)
  | imm | zero | lane | beat | blane | ones | immHi | immZ
deriving DecidableEq, Repr

/-- The fields of a full instruction word other than its opcode (R67). `v` and `t` are MIN bits 7:5
and 4:0 where the opcode leaves them to the instruction (R81). A field that an instruction does not
use holds the operand coded 0 (R68). `c` holds the code of a type in cvt, pk and upk. -/
structure W where
  sw  : Bool
  ms  : Fin 8
  mn  : Bool
  v   : Fin 8
  t   : Ty
  d   : Opd
  a   : Opd
  b   : Opd
  c   : Opd
  mod : BitVec 7
  imm : Word
deriving DecidableEq, Repr

/-- The pipe A half-operations of R77. -/
inductive HopA where
  | fadd32 | fsub32 | fmul32 | ffma32 | fmin32 | fmax32 | fadd16 | fsub16 | fmul16 | ffma16 | fmin16 | fmax16
deriving DecidableEq, Repr

/-- The pipe B half-operations of R77. -/
inductive HopB where
  | addI | subI | andB | orB | xorB | shlB | shrB | sarB | minI | maxI | minZ | maxZ | movB | bfxI | bfxZ | bfi
  | fshL | fshR | popcB | clzB | notB | mulZ
deriving DecidableEq, Repr

/-- The fields of a half-operation beside its opcode (R76). `rnd` is HMOD bits 2:0. -/
structure Half where
  ms  : Fin 8
  d   : Fin 256
  a   : Fin 256
  b   : Fin 256
  c   : Fin 256
  rnd : Fin 8
deriving DecidableEq, Repr

/-- Where a soft error strikes (R306, R377, R155, R153, R62, R242, R161). -/
inductive SoftError where
  /-- a corrected error, counted on a die -/
  | corrected (die : Nat)
  /-- an uncorrectable error in a 32-byte sector of HBM, named by its number PA / 32 -/
  | hbm (sector : Nat)
  /-- an uncorrectable error in bytes of a line in an L2 slice -/
  | l2 (slice asid line : Nat) (bytes : BitVec 128)
  /-- an uncorrectable error in a line of an L1 -/
  | l1 (core asid line : Nat)
  /-- a corrected error in an L1, counted on its core (R153) -/
  | l1Corrected (core : Nat)
  /-- an uncorrectable error in a line of an instruction cache -/
  | icache (core asid line : Nat)
  /-- an uncorrectable error in a 4-byte word of a scratchpad -/
  | scratch (core word : Nat)
  /-- an uncorrectable error in an accumulator tile -/
  | tile (core tile : Nat)
  /-- an uncorrectable error in a register of a group, named by its operand code -/
  | register (grp code : Nat)
  /-- an uncorrectable error in a held entry, named by its place in arrival order -/
  | held (index : Nat)
  /-- an uncorrectable error in an Arcade record (R380) -/
  | arcade (pipe stage slot : Nat)
  /-- an uncorrectable error in a page table entry, named by its physical address (R353) -/
  | pte (pa : Nat)
deriving DecidableEq, Repr

/-- What a peer module asks of this module (R440): an access at a virtual address of an ASID. -/
inductive PeerOp where
  | read (size : Nat)
  | write (bytes : List Byte)
  /-- the lanes of an atomic of variant `v` and type `t` (R225) in one beat and line: for each its offset in the line of the address,
  operand and comparison value -/
  | atomic (v : Fin 8) (t : Ty) (fadd : Bool) (lanes : List (Nat × DWord × DWord))
deriving DecidableEq, Repr

/-- A unit that the self-test may repair around (R4, R443), by its physical place: a core of a die, 0 to 111, or a lane of
a pipe of such a core, 0 to 33. -/
inductive RepairUnit where
  | core (die core : Nat)
  | lane (die core pipe lane : Nat)
deriving DecidableEq, Repr

/-- What the self-test of R443 finds: the units that fail its tests, those that the repair manifest names, and what became
of the manifest. -/
structure SelfTestReport where
  bad        : List RepairUnit
  named      : List RepairUnit
  dieZeroGood : Bool
  /-- a slice or SRAM is bad that the manifest does not name -/
  otherDrift : Bool
  manifestGood : Bool
  manifestHash : BitVec 384
deriving DecidableEq, Repr

/-- One step of the machine, one constructor for each row of spec/opcode_table.json. In the events
`core` is a global core number, `cluster`, `slice` and `die` are package numbers (R5, R6), `grp` and `id`
are the model's own keys of a group, a request or a command, `pkt` that of a packet in the Forum. -/
inductive Instr where
  -- words: control (05 R130 to R139)
  | nop (w : W) | pairedWord (oa : HopA) (ha : Half) (ob : HopB) (hb : Half)
  | bra (w : W) | braNz (w : W) | braZ (w : W) | braEmpty (w : W) | braFull (w : W)
  | brx (w : W) | call (w : W) | ret (w : W) | loop (w : W) | waitc (w : W) | sleep (w : W) | errst (w : W)
  -- words: integer (04 R97 to R103)
  | add (w : W) | sub (w : W) | mul (w : W) | mulhi (w : W) | mad (w : W) | abs (w : W) | min (w : W) | max (w : W)
  | and (w : W) | or (w : W) | xor (w : W) | not (w : W) | shl (w : W) | shr (w : W) | sar (w : W) | rot (w : W)
  | clz (w : W) | popc (w : W) | brev (w : W) | ffs (w : W) | cmp (w : W) | sel (w : W) | mov (w : W)
  | movi (w : W) | moviHi (w : W)
  -- words: floating point (04 R104 to R109)
  | fadd (w : W) | fsub (w : W) | fmul (w : W) | ffma (w : W) | fmin (w : W) | fmax (w : W) | fcmp (w : W)
  | fclass (w : W) | frnd (w : W) | fdiv (w : W) | fsqrt (w : W)
  -- words: conversions, bitfields, special functions (04 R110 to R119)
  | cvt (w : W) | pk (w : W) | upk (w : W) | mxs (w : W) | bfx (w : W) | bfi (w : W) | fsh (w : W)
  | rcp (w : W) | rsq (w : W) | exp2 (w : W) | log2 (w : W) | sinpi (w : W) | cospi (w : W) | tanh (w : W)
  -- words: lanes (05 R124 to R129)
  | shfl (w : W) | bcast (w : W) | vote (w : W) | matchLanes (w : W) | redsum (w : W) | redmin (w : W) | redmax (w : W)
  | redand (w : W) | redor (w : W) | scan (w : W)
  -- words: memory (09 R212 to R231)
  | ld (w : W) | ldx (w : W) | st (w : W) | stx (w : W) | ldS (w : W) | stS (w : W) | ldd (w : W)
  | atom (w : W) | atomS (w : W) | atomFadd (w : W) | watch (w : W) | fence (w : W)
  -- words: system (09 R233 to R239)
  | mfk (w : W) | mtk (w : W) | sys (w : W) | trap (w : W) | sysret (w : W) | mapft (w : W) | fltrd (w : W)
  -- words: tasks and buffer handles (08 R187 to R206)
  | spawn (w : W) | spawnS (w : W) | spawnL (w : W) | spawnG (w : W) | join (w : W) | joinall (w : W) | fprobe (w : W)
  | fres (w : W) | fresFail (w : W) | yield (w : W) | tret (w : W) | tid (w : W) | stage (w : W)
  | bufget (w : W) | bufput (w : W) | bufwaitFull (w : W) | bufwaitFree (w : W)
  -- words: pipelines and the Forum (18 R385 to R388, 19 R410)
  | enq (w : W) | enqEos (w : W) | arcq (w : W) | qput (w : W)
  -- words: matrix (10 R245 to R260)
  | mloop (w : W) | mfence (w : W) | mwait (w : W) | mzero (w : W) | epi (w : W) | mstat (w : W)
  -- words: cluster (11 R267 to R282)
  | put (w : W) | dsld (w : W) | mcast (w : W) | phregSig (w : W) | phregWait (w : W) | phregSw (w : W)
  | phdrop (w : W) | phsig (w : W) | phwait (w : W) | phsw (w : W)
  -- words: die (15 R315 to R330)
  | copy (w : W) | barInit (w : W) | barExp (w : W) | barArr (w : W) | barWait (w : W) | barTest (w : W) | migrate (w : W)
  -- steps of the core
  | groupStart (core : Nat) | reserveStart (core : Nat) | schedulerDisplace (grp : Nat) | sleepExpiry (grp : Nat)
  | heldTrap (grp : Nat) | trapBudgetEscalate (grp : Nat) | errorLogWindowClose (grp : Nat) | driftRollover (grp : Nat)
  | icacheFill (grp : Nat) | plbFill (grp : Nat)
  -- steps of the memory system
  | loadReturn (id : Nat) (mask : LaneMask) | storeAck (id : Nat) | atomicReturn (id : Nat) (mask : LaneMask)
  | renewal (id : Nat) | renewalReturn (id : Nat) | writeEvent (id : Nat) | watchPoll (grp : Nat) | rebase (asid : Nat)
  | sfuResult (id : Nat) (mask : LaneMask) | divideResult (id : Nat) (mask : LaneMask)
  | crossLaneResult (id : Nat) (mask : LaneMask) | tokenRefill (core die : Nat)
  | homeMissFill (id : Nat) | faultRingPoll (id : Nat) | patrolRead (pa : Nat) (bad : BitVec 4) | frameSweepAdvance (ctl : Nat)
  -- steps of the deque, the Alley and the stager
  | entryTakeable (core serial : Nat) | stealAttempt (core : Nat) | stealTransfer (core : Nat) (intact : Bool)
  | stealBackoffExpiry (core : Nat) | stagingStart (core serial : Nat) | stagingFillComplete (core serial : Nat)
  -- steps of the engines
  | commandAccept (id : Nat) | mloopStart (core : Nat) | mloopStep (core : Nat) | mzeroPerform (core : Nat)
  | epiStart (core : Nat) | epiComplete (id : Nat) | putStart (id : Nat) | putArrival (id : Nat) | dsldTargetRead (id : Nat)
  | mcastRead (id : Nat) | mcastGrant (id : Nat) | mcastDelivery (id core : Nat) | networkWatchdog (die : Nat)
  | barrierArrival (id : Nat) | copyStart (id : Nat) | copyPieceDone (id piece : Nat) | migrateLand (grp : Nat)
  -- steps of the pipelines
  | arcadeSlotVisible (pipe stage slot : Nat) | enqWaitServed (pipe stage : Nat) | recordTake (core : Nat)
  | roundaboutInterval (pipe : Nat) | drainSwitch (core : Nat)
  -- steps of the Forum
  | packetTake (queue : Nat) | queueMap (queue : Nat) | queueUnmap (queue : Nat)
  | barrierAnd (pkt : Nat) | barrierAndSettle (pkt index : Nat) | signal (pkt : Nat)
  | mapopMap (pkt : Nat) | mapopClear (pkt : Nat) | mapopUnmap (pkt : Nat) | mapopProtect (pkt : Nat)
  | mapopPooladd (pkt : Nat) | mapopPooltake (pkt : Nat) | mapopSweep (pkt : Nat) | mapopSpill (pkt : Nat) | mapopCold (pkt : Nat)
  | ctxopSave (pkt : Nat) | ctxopRestore (pkt : Nat) | ctxopTeardown (pkt : Nat)
  | resumeSysret (pkt : Nat) | resumeFailTask (pkt : Nat) | resumeReissue (pkt : Nat) | resumeFailItem (pkt : Nat)
  | copyPacket (pkt : Nat) | launch (pkt : Nat) | pipeline (pkt : Nat) | allotmentPlacement (pkt : Nat)
  | contextEnd (asid : Nat) | firmwarePacket (pkt : Nat)
  -- steps of the host, the peers, the ROM and the plant
  | apertureWrite (offset : Nat) (bytes : List Byte) | apertureRead (offset size : Nat)
  | firmwareWindowAccess (offset : Nat) (bytes : Option (List Byte)) | doorbell (queue : Nat)
  | coreDomainLower (die : Nat) | coreDomainRaise (die : Nat) | memoryDomainLower (die : Nat) | memoryDomainRaise (die : Nat)
  | recovery (value : Word) | hostRegisterWrite (offset : Nat) (value : Word)
  | peerAccess (asid : Nat) (va : Nat) (op : PeerOp) | linkTraining (port module : Nat) | linkDown (port : Nat) | flitRetry (port : Nat)
  | selftest (report : SelfTestReport) | train0 (good : Bool) | early (die : Nat) (good : Bool)
  | powerCapClockDown (die : Nat) | powerCapClockUp (die : Nat) | thermalThrottle (die : Nat) | thermalTrip (die : Nat)
  | illegalInstruction (detail : Nat) | softError (e : SoftError) | scrubComplete (cover : BitVec 11)
  | coolBelow90 (die : Nat) | firmwarePacketComplete (pkt : Nat) (code detail : Byte)
  -- steps of the ROM and of power that carry nothing
  | bootStart | attest | scrub | powerOn | powerLoss
deriving DecidableEq, Repr

end Sys2Proof
end

