-- ==== Sys2Proof/Machine/Legality.lean ====
section
/-! DEFINITION. Which instruction words are legal: the opcode map (R81, R82), the operand fields each
instruction uses (R96, R123, R187, R212 to R245, R267, R315, R321, R385) and the detail code of every
violation (R83). The decoder and the well-formedness of an instruction both rest on this file. -/

namespace Sys2Proof

/-! ### Type codes (R74) -/

/-- The code of a type (R74). -/
def Ty.code : Ty → Nat
  | .i8 => 0 | .i16 => 1 | .i32 => 2 | .i64 => 3 | .z8 => 4 | .z16 => 5 | .z32 => 6 | .z64 => 7 | .b32 => 8 | .b64 => 9
  | .f64 => 10 | .f32 => 11 | .f16 => 12 | .bf16 => 13 | .e4m3 => 14 | .e5m2 => 15 | .e2m1 => 16

/-- The type of a code; the codes from 0x11 are reserved (R74). -/
def Ty.ofCode (n : Nat) : Option Ty :=
  match n with
  | 0 => some .i8 | 1 => some .i16 | 2 => some .i32 | 3 => some .i64 | 4 => some .z8 | 5 => some .z16 | 6 => some .z32
  | 7 => some .z64 | 8 => some .b32 | 9 => some .b64 | 10 => some .f64 | 11 => some .f32 | 12 => some .f16
  | 13 => some .bf16 | 14 => some .e4m3 | 15 => some .e5m2 | 16 => some .e2m1 | _ => none

/-- The sets of R74. -/
def Ty.isInt (t : Ty) : Bool := t.code ≤ 7
def Ty.isSgn (t : Ty) : Bool := t.code ≤ 3
def Ty.isBit (t : Ty) : Bool := t == .b32 || t == .b64
def Ty.isFlt (t : Ty) : Bool := t == .f64 || t == .f32 || t == .f16 || t == .bf16
def Ty.isNar (t : Ty) : Bool := t == .e4m3 || t == .e5m2 || t == .e2m1
/-- A floating-point type of any width. -/
def Ty.isFp (t : Ty) : Bool := t.isFlt || t.isNar
/-- The types that take a register pair (R41). -/
def Ty.isWide (t : Ty) : Bool := t == .i64 || t == .z64 || t == .b64 || t == .f64

/-- The width of a value of a type in bits (R38, R41). -/
def Ty.bits : Ty → Nat
  | .i8 | .z8 | .e4m3 | .e5m2 => 8
  | .i16 | .z16 | .f16 | .bf16 => 16
  | .i32 | .z32 | .b32 | .f32 => 32
  | .i64 | .z64 | .b64 | .f64 => 64
  | .e2m1 => 4

/-- The number of bytes of a memory access of a type (R213). -/
def Ty.bytes (t : Ty) : Nat := t.bits / 8

/-! ### Operand codes (R69) -/

/-- The code of an operand (R69). -/
def Opd.code : Opd → Nat
  | .v n => n | .s n => 256 + n | .imm => 320 | .zero => 321 | .lane => 322 | .beat => 323 | .blane => 324
  | .ones => 325 | .immHi => 326 | .immZ => 327

/-- The operand of a code; the codes from 328 are reserved (R69). -/
def Opd.ofCode (n : Nat) : Option Opd :=
  if h : n < 256 then some (.v ⟨n, h⟩)
  else if h : n - 256 < 64 then some (.s ⟨n - 256, h⟩)
  else match n - 320 with
    | 0 => some .imm | 1 => some .zero | 2 => some .lane | 3 => some .beat | 4 => some .blane
    | 5 => some .ones | 6 => some .immHi | 7 => some .immZ | _ => none

/-- A vector register or a per-lane special code (R70). -/
def perLane (code : Nat) : Bool := code < 256 || (322 ≤ code && code ≤ 324)

/-- The code of a scalar register. -/
def isScalarCode (code : Nat) : Bool := 256 ≤ code && code < 320

/-- The codes of the mask triples q1 to q7 and am (R70). -/
def isTripleCode (code : Nat) : Bool := 296 ≤ code && code ≤ 317 && (code - 296) % 3 == 0

/-! ### The use of a field -/

/-- How an instruction uses one of its four operand fields. -/
inductive Fld where
  /-- unused: must be zero -/
  | no
  /-- any source; `wide` for a 64-bit type -/
  | src (wide : Bool)
  /-- any source but 320, 326 and 327, because IMM is the displacement (R212) -/
  | srcNoImm (wide : Bool)
  /-- unused: must be zero, as code 0 (R238) or as the operand 321 (R212) -/
  | noOrZero
  /-- a source of a scalar-only instruction that may read IMM through 320 alone (R316): no vector register and no per-lane code -/
  | srcScalar
  /-- the same without 320, 326 and 327 -/
  | srcScalarNoImm
  /-- a destination: vector register, scalar register or 321 -/
  | dst (wide : Bool)
  /-- a destination of the vector form: vector register or 321 -/
  | dstVec (wide : Bool)
  /-- a register that is read and written, so that 321 is not allowed -/
  | dstRead (wide : Bool)
  /-- the code of a mask triple -/
  | triple
  /-- the code of a mask triple, or 321 -/
  | tripleOrZero
  /-- a vector register or a mask triple -/
  | vecOrTriple
  /-- a scalar register or one of these special codes -/
  | scalarOr (codes : List Nat)
  /-- an even scalar register, or one of these special codes -/
  | spairOr (codes : List Nat)
  /-- an even vector register -/
  | vpair
  /-- an even scalar or an even vector register -/
  | anyPair
  /-- the first of `n` scalar registers; `even` asks for an even one, `orZero` allows 321 -/
  | block (n : Nat) (even orZero : Bool)
  /-- 321 and nothing else -/
  | onlyZero
  /-- the code of a type -/
  | typeCode
deriving DecidableEq, Repr

/-- The detail codes that a code in a field of a given use raises (R68, R69, R70, R71). -/
def Fld.details (f : Fld) (code : Nat) : List Nat :=
  let reserved := if code ≥ 328 then [5] else []
  let odd := if code % 2 = 1 then [7] else []
  match f with
  | .no => if code = 0 then [] else [4]
  | .noOrZero => if code = 0 ∨ code = 321 then [] else [4]
  | .src w => reserved ++ (if w then (if code < 320 then odd else []) else if code = 326 then [6] else [])
  | .srcNoImm w =>
    reserved ++ (if code = 320 ∨ code = 326 ∨ code = 327 then [6] else if w && code < 320 then odd else [])
  | .srcScalar => reserved ++ (if perLane code || code == 326 then [6] else [])
  | .srcScalarNoImm => reserved ++ (if perLane code || code == 320 || code == 326 || code == 327 then [6] else [])
  | .dst w =>
    reserved ++ (if code < 320 then (if w then odd else []) else if code = 321 ∨ code ≥ 328 then [] else [6])
  | .dstVec w =>
    reserved ++ (if code < 256 then (if w then odd else []) else if code = 321 ∨ code ≥ 328 then [] else [6])
  | .dstRead w => reserved ++ (if code < 320 then (if w then odd else []) else if code ≥ 328 then [] else [6])
  | .triple => reserved ++ (if isTripleCode code || code ≥ 328 then [] else [6])
  | .tripleOrZero => reserved ++ (if isTripleCode code || code == 321 || code ≥ 328 then [] else [6])
  | .vecOrTriple => reserved ++ (if code < 256 || isTripleCode code || code ≥ 328 then [] else [6])
  | .scalarOr cs => reserved ++ (if isScalarCode code || cs.contains code || code ≥ 328 then [] else [6])
  | .spairOr cs =>
    reserved ++ (if isScalarCode code then odd else if cs.contains code || code ≥ 328 then [] else [6])
  | .vpair => reserved ++ (if code < 256 then odd else if code ≥ 328 then [] else [6])
  | .anyPair => reserved ++ (if code < 320 then odd else if code ≥ 328 then [] else [6])
  | .block n even orZero =>
    reserved ++
    (if isScalarCode code then (if even then odd else []) ++ (if code + n > 320 then [6] else [])
     else if (orZero && code == 321) || code ≥ 328 then [] else [6])
  | .onlyZero => reserved ++ (if code = 321 ∨ code ≥ 328 then [] else [6])
  | .typeCode => []

/-- A field that reads IMM through its code (R68: otherwise IMM is unused). -/
def Fld.readsImm (f : Fld) (code : Nat) : Bool :=
  match f with
  | .src _ => code == 320 || code == 326 || code == 327
  | .srcScalar => code == 320
  | .scalarOr cs => cs.contains code && (code == 320 || code == 327)
  | _ => false

/-- One more than the highest vector register that a field names, 0 when it names none (R14): the odd
partner of a pair counts. -/
def Fld.vecEnd (f : Fld) (code : Nat) : Nat :=
  match f with
  | .src w | .srcNoImm w | .dst w | .dstVec w | .dstRead w => if code < 256 then code + (if w then 2 else 1) else 0
  | .vpair | .anyPair => if code < 256 then code + 2 else 0
  | .vecOrTriple => if code < 256 then code + 1 else 0
  | _ => 0

/-- A source field whose code gives each lane a value of its own. -/
def Fld.laneSource (f : Fld) (code : Nat) : Bool :=
  match f with
  | .src _ | .srcNoImm _ => perLane code
  | .vpair | .anyPair => code < 256
  | _ => false

/-- What decides between the vector and the scalar form of an instruction. -/
inductive FormRule where
  /-- D decides, and for 321 the sources (R70) -/
  | byD
  /-- always the vector form -/
  | vector
  /-- the group form of R120 -/
  | group
  /-- one execution for the group -/
  | scalar
  /-- vector when B or C is per-lane: st, st.s, ldd -/
  | byBC
  /-- vector when A is a vector pair: mapft -/
  | byA
deriving DecidableEq, Repr

/-- The fields of an instruction and how it uses IMM and MOD. `imm` and `mod` list the details that the
word's IMM and MOD raise by themselves. -/
structure Shape where
  d : Fld
  a : Fld
  b : Fld
  c : Fld
  form : FormRule
  /-- IMM has a meaning of its own in the instruction -/
  usesImm : Bool
  own : List Nat

/-! ### MOD (R73, R96, R123) -/

def W.rnd (w : W) : Nat := (w.mod.extractLsb' 0 3).toNat
def W.sat (w : W) : Bool := w.mod.getLsbD 3
def W.x (w : W) : Bool := w.mod.getLsbD 4
def W.scope (w : W) : Nat := (w.mod.extractLsb' 0 3).toNat
def W.ord (w : W) : Nat := (w.mod.extractLsb' 3 2).toNat
def W.scl (w : W) : Nat := (w.mod.extractLsb' 5 2).toNat

/-- MOD unused. -/
def modZero (w : W) : List Nat := if w.mod = 0 then [] else [4]
/-- RND from 0 to 4 and nothing else. -/
def modRnd (w : W) : List Nat := (if w.mod.extractLsb' 3 4 = 0 then [] else [4]) ++ (if w.rnd ≤ 4 then [] else [9])
/-- SAT and nothing else. -/
def modSat (w : W) : List Nat := if w.mod.extractLsb' 0 3 = 0 ∧ w.mod.extractLsb' 4 3 = 0 then [] else [4]
/-- X and nothing else. -/
def modX (w : W) : List Nat := if w.mod.extractLsb' 0 4 = 0 ∧ w.mod.extractLsb' 5 2 = 0 then [] else [4]
/-- RND and SAT as the conversion from `ts` to `td` admits them (R110). -/
def modConv (td ts : Ty) (w : W) : List Nat :=
  (if w.mod.extractLsb' 4 3 = 0 then [] else [4]) ++
  (if td.isFp then
    (if w.rnd ≤ 5 then [] else [9]) ++ (if w.sat && !(td == .e4m3 || td == .e5m2) then [4] else [])
  else if ts.isFp then (if w.rnd ≤ 4 then [] else [9]) ++ (if w.sat then [4] else [])
  else if w.rnd = 0 then [] else [4])
/-- SCOPE from 0 to 5, one of the allowed ORD values, any SCL. -/
def modMem (ords : List Nat) (w : W) : List Nat := if w.scope ≤ 5 ∧ ords.contains w.ord then [] else [4]
/-- The reductions and scans of R123: RND for floating sums, SAT for integer sums, X where `x`. -/
def modRed (sum x : Bool) (w : W) : List Nat :=
  (if w.mod.extractLsb' 5 2 = 0 ∧ (x ∨ w.x = false) then [] else [4]) ++
  (if sum && w.t.isFlt then (if w.rnd ≤ 4 then [] else [9]) ++ (if w.sat then [4] else [])
   else (if w.rnd = 0 then [] else [4]) ++ (if w.sat && !(sum && w.t.isInt) then [4] else []))

/-! ### IMM -/

/-- A direct target: slots 5 to 7 raise detail 11 (R75). -/
def immTarget (w : W) : List Nat := if (w.imm.extractLsb' 0 3).toNat ≤ 4 then [] else [11]
/-- IMM below a bound. -/
def immBelow (n : Nat) (w : W) : List Nat := if w.imm.toNat < n then [] else [4]

/-- The number of values of an element packed to a type (R111). -/
def packCount (t : Ty) : Nat := 32 / t.bits
/-- The position of pk: even and within the element (R111). -/
def immPack (w : W) : List Nat := if w.imm.toNat < packCount w.t ∧ w.imm.toNat % 2 = 0 then [] else [4]

/-- The source type that cvt, pk and upk carry in C (R110 to R112). -/
def W.srcTy (w : W) : Ty := (Ty.ofCode w.c.code).getD .i8

/-- The wide type that a packed type pairs with (R111, R112). -/
def packPartner (t : Ty) : Option Ty :=
  match t with
  | .f16 | .bf16 | .e4m3 | .e5m2 | .e2m1 => some .f32
  | .i8 | .i16 => some .i32
  | .z8 | .z16 => some .z32
  | _ => none

/-! ### Control register selectors (R233, R26, R140, R157, R160, R177, R232, R264, R331, R332, R334, R364,
R370, R372, R398, R440) -/

/-- The control registers by selector. `wide` registers occupy two selectors. -/
inductive KReg where
  | gid | gmode | demand | pathlo | pathhi | srseed | view | ifp
  | trapvec | trapbudget | trapcause | trappc | trapaddr | trapam (n : Fin 3) | trappend (n : Fin 3) | trapleft | state
  | trapscr (n : Fin 4)
  | elbase | elctl | elseq | spwin | farena | falen | ifsize | stageahead | watchpoll | stealxd | tbucket | diestat | lease
  | frbase | frctl | asid | ftcnt01 | ftcnt23 | defer | rbinterval | peertab
deriving DecidableEq, Repr

/-- The register at a selector, and whether the selector is its upper half. -/
def KReg.ofSel (n : Nat) : Option (KReg × Bool) :=
  match n with
  | 0x000 => some (.gid, false) | 0x001 => some (.gmode, false) | 0x002 => some (.demand, false)
  | 0x003 => some (.pathlo, false) | 0x004 => some (.pathhi, false)
  | 0x006 => some (.srseed, false) | 0x007 => some (.srseed, true)
  | 0x008 => some (.view, false) | 0x009 => some (.view, true)
  | 0x00A => some (.ifp, false) | 0x00B => some (.ifp, true)
  | 0x010 => some (.trapvec, false) | 0x011 => some (.trapvec, true) | 0x012 => some (.trapbudget, false)
  | 0x013 => some (.trapcause, false) | 0x014 => some (.trappc, false) | 0x015 => some (.trappc, true)
  | 0x016 => some (.trapaddr, false) | 0x017 => some (.trapaddr, true)
  | 0x018 => some (.trapam 0, false) | 0x019 => some (.trapam 1, false) | 0x01A => some (.trapam 2, false)
  | 0x01B => some (.trappend 0, false) | 0x01C => some (.trappend 1, false) | 0x01D => some (.trappend 2, false)
  | 0x01E => some (.trapleft, false) | 0x01F => some (.state, false)
  | 0x020 => some (.trapscr 0, false) | 0x021 => some (.trapscr 1, false) | 0x022 => some (.trapscr 2, false)
  | 0x023 => some (.trapscr 3, false)
  | 0x030 => some (.elbase, false) | 0x031 => some (.elbase, true) | 0x032 => some (.elctl, false)
  | 0x033 => some (.elseq, false) | 0x040 => some (.spwin, false)
  | 0x050 => some (.farena, false) | 0x051 => some (.farena, true) | 0x052 => some (.falen, false)
  | 0x053 => some (.ifsize, false) | 0x054 => some (.stageahead, false) | 0x060 => some (.watchpoll, false)
  | 0x070 => some (.stealxd, false) | 0x080 => some (.tbucket, false) | 0x081 => some (.diestat, false)
  | 0x090 => some (.lease, false) | 0x0A0 => some (.frbase, false) | 0x0A1 => some (.frbase, true)
  | 0x0A2 => some (.frctl, false) | 0x0A3 => some (.asid, false) | 0x0A4 => some (.ftcnt01, false)
  | 0x0A5 => some (.ftcnt23, false) | 0x0A6 => some (.defer, false) | 0x0B0 => some (.rbinterval, false)
  | 0x0C0 => some (.peertab, false) | 0x0C1 => some (.peertab, true)
  | _ => none

/-- The 64-bit registers. -/
def KReg.wide : KReg → Bool
  | .srseed | .view | .ifp | .trapvec | .trappc | .trapaddr | .elbase | .farena | .frbase | .peertab => true
  | _ => false

/-- The read-only registers. -/
def KReg.readOnly : KReg → Bool
  | .gid | .demand | .pathlo | .pathhi | .view | .trapcause | .trapaddr | .trapleft | .state | .spwin | .diestat | .asid
  | .ftcnt01 | .ftcnt23 | .defer => true
  | _ => false

/-- The registers that user mode may write. -/
def KReg.userWrite : KReg → Bool
  | .gmode | .srseed => true
  | _ => false

/-- The selector, W bit and rest of IMM of mfk and mtk (R234). -/
def kSel (w : W) : Option (KReg × Bool) := KReg.ofSel (w.imm.extractLsb' 0 12).toNat
def kWide (w : W) : Bool := w.imm.getLsbD 12
def kDetails (write : Bool) (w : W) : List Nat :=
  immBelow 0x2000 w ++
  match kSel w with
  | none => [4]
  | some (r, hi) => (if kWide w && (hi || !r.wide) then [4] else []) ++ (if write && r.readOnly then [4] else [])

/-! ### Fields of IMM in the task and matrix instructions (R188, R246, R252, R321) -/

def spawnNarg (w : W) : Nat := (w.imm.extractLsb' 0 5).toNat
def spawnDemand (w : W) : Nat := (w.imm.extractLsb' 5 6).toNat
def spawnScr (w : W) : Nat := (w.imm.extractLsb' 11 12).toNat
def spawnNst (w : W) : Nat := (w.imm.extractLsb' 23 2).toNat
def spawnDetails (scr staged : Bool) (w : W) : List Nat :=
  if w.imm.extractLsb' 25 7 = 0 ∧ spawnNarg w ≤ 18 ∧ 1 ≤ spawnDemand w ∧ spawnDemand w ≤ 32 ∧
    (if scr then spawnScr w ≤ 2016 else spawnScr w = 0) ∧
    (if staged then spawnNst w = 1 ∨ spawnNst w = 2 else spawnNst w = 0) then [] else [4]

/-- The block dimension of a two-bit selector: 1, 2 or 4; 3 is reserved (R246). -/
def blockDim (n : Nat) : Nat := if n = 0 then 1 else if n = 1 then 2 else if n = 2 then 4 else 0
def mloopK (w : W) : Nat := (w.imm.extractLsb' 0 12).toNat
def mloopAcc (w : W) : Nat := (w.imm.extractLsb' 12 4).toNat
def mloopM (w : W) : Nat := blockDim (w.imm.extractLsb' 16 2).toNat
def mloopN (w : W) : Nat := blockDim (w.imm.extractLsb' 18 2).toNat
def mloopFmt (w : W) : Nat := (w.imm.extractLsb' 20 3).toNat
def mloopSplit (w : W) : Nat := (w.imm.extractLsb' 23 2).toNat
def mloopDetails (w : W) : List Nat :=
  if w.imm.extractLsb' 27 5 = 0 ∧ mloopFmt w ≤ 5 ∧ mloopM w ≠ 0 ∧ mloopN w ≠ 0 ∧ mloopK w ≠ 0 ∧
    mloopAcc w + mloopM w * mloopN w ≤ 16 then [] else [4]

def epiAcc (w : W) : Nat := (w.imm.extractLsb' 0 4).toNat
def epiM (w : W) : Nat := blockDim (w.imm.extractLsb' 4 2).toNat
def epiN (w : W) : Nat := blockDim (w.imm.extractLsb' 6 2).toNat
def epiTy? (w : W) : Option Ty := Ty.ofCode (w.imm.extractLsb' 8 5).toNat
def epiAct (w : W) : Nat := (w.imm.extractLsb' 13 2).toNat
def epiSlope (w : W) : Nat := (w.imm.extractLsb' 15 4).toNat
def epiDetails (w : W) : List Nat :=
  match epiTy? w with
  | none => [4]
  | some t =>
    (if w.imm.extractLsb' 19 13 = 0 ∧ t.isBit = false ∧ epiM w ≠ 0 ∧ epiN w ≠ 0 ∧ epiAcc w + epiM w * epiN w ≤ 16 ∧
      (epiAct w = 3 ↔ epiSlope w ≠ 0) then [] else [4]) ++
    (if w.mod.extractLsb' 4 3 = 0 then [] else [4]) ++
    (if w.sat && !(t == .e4m3 || t == .e5m2) then [4] else []) ++
    (if w.rnd ≤ (if t.isFp then 5 else 4) then [] else [9])

def copySk (w : W) : Nat := (w.imm.extractLsb' 0 2).toNat
def copyDk (w : W) : Nat := (w.imm.extractLsb' 2 2).toNat
def copyBk (w : W) : Nat := (w.imm.extractLsb' 4 2).toNat
def copySplit (w : W) : Nat := (w.imm.extractLsb' 6 2).toNat
def copyDetails (w : W) : List Nat :=
  if w.imm.toNat < 256 ∧ copySk w ≠ 3 ∧ copyDk w ≠ 3 ∧ copyBk w ≠ 3 then [] else [4]

/-! ### The shape of every instruction -/

/-- The argument block of spawn and enq: `n` registers, or 321 and nothing else for none. -/
def argBlock (n : Nat) : Fld := if n = 0 then .onlyZero else .block n false false

/-- A computing instruction: destination and sources by width, form by D. -/
def alu (dw : Bool) (a b c : Fld) (own : List Nat) : Shape := ⟨.dst dw, a, b, c, .byD, false, own⟩

def Shape.none : Shape := ⟨.no, .no, .no, .no, .scalar, false, []⟩

/-- The shape of an instruction word; events have none. fltrd with a scalar pair in A takes its form from D, as a computing word does
(R212, R239: DESIGN CHOICE, assumption 17). -/
def shapeOf : Instr → Shape
  | .nop w => { Shape.none with own := modZero w }
  | .pairedWord .. => Shape.none
  | .bra w => { Shape.none with usesImm := true, own := modZero w ++ immTarget w }
  | .braNz w | .braZ w => { Shape.none with a := .scalarOr [321], usesImm := true, own := modZero w ++ immTarget w }
  | .braEmpty w | .braFull w => { Shape.none with a := .triple, usesImm := true, own := modZero w ++ immTarget w }
  | .brx w | .ret w => { Shape.none with a := .spairOr [], own := modZero w }
  | .call w => { Shape.none with d := .spairOr [321], usesImm := true, own := modZero w ++ immTarget w }
  | .loop w => { Shape.none with d := .scalarOr [], usesImm := true, own := modZero w ++ immTarget w }
  | .waitc w => { Shape.none with a := .scalarOr [321], usesImm := true, own := modZero w ++ immBelow 8 w }
  | .sleep w => { Shape.none with a := .scalarOr [320, 321, 327], own := modZero w }
  | .errst w => { Shape.none with d := .scalarOr [321], usesImm := true, own := modZero w ++ immBelow 64 w }
  | .add w | .sub w | .mul w => let x := w.t.isWide; alu x (.src x) (.src x) .no (modSat w)
  | .mad w => let x := w.t.isWide; alu x (.src x) (.src x) (.src x) (modSat w)
  | .abs w => let x := w.t.isWide; alu x (.src x) .no .no (modSat w)
  | .mulhi w | .min w | .max w | .and w | .or w | .xor w =>
    let x := w.t.isWide; alu x (.src x) (.src x) .no (modZero w)
  | .not w | .brev w | .mov w => let x := w.t.isWide; alu x (.src x) .no .no (modZero w)
  | .shl w | .shr w | .sar w | .rot w => let x := w.t.isWide; alu x (.src x) (.src false) .no (modZero w)
  | .clz w | .popc w | .ffs w => alu false (.src w.t.isWide) .no .no (modZero w)
  | .cmp w | .fcmp w => let x := w.t.isWide; ⟨.triple, .src x, .src x, .no, .vector, false, modZero w⟩
  | .sel w => let x := w.t.isWide; alu x (.src x) (.src x) (.src false) (modZero w)
  | .movi w => ⟨.dst w.t.isWide, .no, .no, .no, .byD, true, modZero w⟩
  | .moviHi w => ⟨.dst true, .no, .no, .no, .byD, true, modZero w⟩
  | .fadd w | .fsub w | .fmul w | .fdiv w => let x := w.t.isWide; alu x (.src x) (.src x) .no (modRnd w)
  | .ffma w => let x := w.t.isWide; alu x (.src x) (.src x) (.src x) (modRnd w)
  | .frnd w | .fsqrt w => let x := w.t.isWide; alu x (.src x) .no .no (modRnd w)
  | .fmin w | .fmax w => let x := w.t.isWide; alu x (.src x) (.src x) .no (modZero w)
  | .fclass w => alu false (.src w.t.isWide) .no .no (modZero w)
  | .cvt w => alu w.t.isWide (.src w.srcTy.isWide) .no .typeCode (modConv w.t w.srcTy w)
  | .pk w => ⟨.dst false, .src false, .src false, .typeCode, .byD, true, modConv w.t w.srcTy w ++ immPack w⟩
  | .upk w => ⟨.dst false, .src false, .no, .typeCode, .byD, true, modZero w ++ immBelow (packCount w.t) w⟩
  | .mxs w => ⟨.dst false, .src false, .src false, .no, .byD, true, modConv w.t .f32 w ++ immBelow (packCount w.t) w⟩
  | .bfx w | .fsh w => alu false (.src false) (.src false) (.src false) (modZero w)
  | .bfi w => ⟨.dstRead false, .src false, .src false, .src false, .byD, false, modZero w⟩
  | .rcp w | .rsq w | .exp2 w | .log2 w | .sinpi w | .cospi w | .tanh w => alu false (.src false) .no .no (modZero w)
  | .shfl w => let x := w.t.isWide; ⟨.dstVec x, .src x, .src false, .no, .vector, false, modX w⟩
  | .bcast w => let x := w.t.isWide; ⟨.dstVec x, .src x, .scalarOr [320, 321, 325, 327], .no, .vector, false, modX w⟩
  | .vote w => ⟨if w.v = 2 then .tripleOrZero else .dst false, .vecOrTriple, .no, .no, .group, false, modZero w⟩
  | .matchLanes w => ⟨.dstVec false, .src w.t.isWide, .no, .no, .vector, false, modZero w⟩
  | .redsum w => let x := w.t.isWide; ⟨.dst x, .src x, .no, .no, .group, false, modRed true false w⟩
  | .redmin w | .redmax w | .redand w | .redor w =>
    let x := w.t.isWide; ⟨.dst x, .src x, .no, .no, .group, false, modRed false false w⟩
  | .scan w => let x := w.t.isWide; ⟨.dstVec x, .src x, .no, .no, .vector, false, modRed (w.v == 0) true w⟩
  | .ld w => ⟨.dst w.t.isWide, .spairOr [], .srcNoImm false, .no, .byD, true, modMem [0, 1] w⟩
  | .ldx w => ⟨.dstVec w.t.isWide, .vpair, .srcNoImm false, .no, .vector, true, modMem [0, 1] w⟩
  | .st w => ⟨.no, .spairOr [], .srcNoImm false, .srcNoImm w.t.isWide, .byBC, true, modMem [0, 2] w⟩
  | .stx w => ⟨.no, .vpair, .srcNoImm false, .srcNoImm w.t.isWide, .vector, true, modMem [0, 2] w⟩
  | .ldS w => ⟨.dst w.t.isWide, .src false, .srcNoImm false, .no, .byD, true,
      if w.scope ≤ 1 ∧ w.ord = 0 then [] else [4]⟩
  | .stS w => ⟨.no, .src false, .srcNoImm false, .srcNoImm w.t.isWide, .byBC, true,
      if w.scope ≤ 1 ∧ w.ord = 0 then [] else [4]⟩
  | .ldd w => ⟨.no, .spairOr [], .srcNoImm false, .srcNoImm false, .byBC, true, modMem [0, 1, 2] w⟩
  | .atom w => ⟨if w.v = 7 then .dstRead w.t.isWide else .dst w.t.isWide, .anyPair, .srcNoImm false, .srcNoImm w.t.isWide,
      .byD, true, modMem [0, 1, 2] w ++ (if w.ord = 1 ∧ w.d = .zero then [4] else [])⟩
  | .atomFadd w => ⟨.dst w.t.isWide, .anyPair, .srcNoImm false, .srcNoImm w.t.isWide, .byD, true,
      modMem [0, 1, 2] w ++ (if w.ord = 1 ∧ w.d = .zero then [4] else [])⟩
  | .atomS w => ⟨if w.v = 7 then .dstRead w.t.isWide else .dst w.t.isWide, .src false, .srcNoImm false,
      .srcNoImm w.t.isWide, .byD, true, if w.scope ≤ 1 ∧ w.ord = 0 then [] else [4]⟩
  | .watch w => ⟨.spairOr [321], .spairOr [], .srcScalarNoImm, .spairOr [], .scalar, true, modMem [0] w⟩
  | .fence w => { Shape.none with usesImm := true, own := (if w.scope ≤ 5 ∧ w.mod.extractLsb' 3 4 = 0 then [] else [4]) ++ immBelow 3 w }
  | .mfk w => { Shape.none with d := (if kWide w then .spairOr [321] else .scalarOr [321]), usesImm := true, own := modZero w ++ kDetails false w }
  | .mtk w => { Shape.none with a := (if kWide w then .spairOr [321, 325] else .scalarOr [321, 325]), usesImm := true, own := modZero w ++ kDetails true w }
  | .sys w | .trap w => { Shape.none with usesImm := true, own := modZero w ++ immBelow 256 w }
  | .sysret w => { Shape.none with own := modZero w }
  | .mapft w => ⟨.dst false, .anyPair, .noOrZero, .no, .byA, false, modZero w⟩
  | .fltrd w => ⟨.dst false, .anyPair, .srcNoImm false, .no, .byD, true, if w.mod.extractLsb' 0 5 = 0 then [] else [4]⟩
  | .spawn w => ⟨.spairOr [321], .spairOr [], argBlock (spawnNarg w), .no, .scalar, true,
      modZero w ++ spawnDetails true false w⟩
  | .spawnS w => ⟨.spairOr [321], .spairOr [], argBlock (spawnNarg w), .block (4 * spawnNst w) false false, .scalar, true,
      modZero w ++ spawnDetails true true w⟩
  | .spawnL w => ⟨.spairOr [321], .spairOr [], argBlock (spawnNarg w), .no, .scalar, true,
      modZero w ++ spawnDetails false false w⟩
  | .spawnG w => ⟨.spairOr [321], .spairOr [], argBlock (spawnNarg w), .scalarOr [], .scalar, true,
      modZero w ++ spawnDetails false false w⟩
  | .join w => { Shape.none with d := .block 5 false true, a := .spairOr [], own := modZero w }
  | .fprobe w => { Shape.none with d := .scalarOr [321], a := .spairOr [], own := modZero w }
  | .joinall w | .yield w | .stage w | .mfence w => { Shape.none with d := .scalarOr [321], own := modZero w }
  | .fres w | .fresFail w => { Shape.none with a := .spairOr [], b := .block 4 false true, own := modZero w }
  | .tret w => { Shape.none with a := .block 4 false true, own := modZero w }
  | .tid w => { Shape.none with d := .scalarOr [321], usesImm := true, own := modZero w ++ immBelow 5 w }
  | .bufget w => { Shape.none with d := .scalarOr [321], a := .scalarOr [], b := .scalarOr [], own := modZero w }
  | .bufput w => { Shape.none with d := .scalarOr [321], a := .scalarOr [], usesImm := true, own := modZero w ++ immBelow 2 w }
  | .bufwaitFull w | .bufwaitFree w | .mwait w | .enqEos w =>
    { Shape.none with d := .scalarOr [321], a := .scalarOr [], own := modZero w }
  | .enq w => ⟨.scalarOr [321], .scalarOr [], argBlock w.imm.toNat, .spairOr [], .scalar, true, modZero w ++ immBelow 19 w⟩
  | .arcq w => { Shape.none with d := .scalarOr [321], a := .scalarOr [], usesImm := true, own := modZero w ++ immBelow 2 w }
  | .qput w => { Shape.none with d := .scalarOr [321], a := .scalarOr [], b := .block 16 false false, own := modZero w }
  | .mloop w => { Shape.none with a := .block 10 true false, usesImm := true, own := modZero w ++ mloopDetails w }
  | .mzero w => { Shape.none with usesImm := true, own := modZero w ++ immBelow 0x20000 w }
  | .epi w => { Shape.none with a := .block 7 true false, usesImm := true, own := epiDetails w }
  | .mstat w => { Shape.none with d := .scalarOr [321], usesImm := true, own := modZero w ++ (if w.imm.toNat < 4 ∨ w.imm.toNat = 0x101 ∨ w.imm.toNat = 0x102 then [] else [4]) }
  | .put w => { Shape.none with d := .scalarOr [321], a := .block 5 false false, own := modZero w }
  | .dsld w => ⟨.dst w.t.isWide, .src false, .srcNoImm false, .srcNoImm false, .byD, true,
      if w.mod.extractLsb' 0 5 = 0 then [] else [4]⟩
  | .mcast w => { Shape.none with d := .scalarOr [321], a := .block 6 true false, usesImm := true, own := modZero w ++ immBelow 4 w }
  | .phregSig w | .phregWait w | .phregSw w | .phdrop w | .phsig w | .phwait w | .phsw w =>
    { Shape.none with d := .scalarOr [321], a := .scalarOr [320], own := modZero w }
  | .copy w => { Shape.none with d := .scalarOr [321], a := .block 9 true false, usesImm := true, own := modZero w ++ copyDetails w }
  | .barInit w | .barExp w | .barArr w =>
    ⟨.no, if w.mod.getLsbD 0 then .spairOr [] else .scalarOr [], .srcScalar,
      if w.mod.getLsbD 0 then .no else .scalarOr [325], .scalar, false, if w.mod.extractLsb' 1 6 = 0 then [] else [4]⟩
  | .barWait w =>
    ⟨.scalarOr [321], if w.mod.getLsbD 0 then .spairOr [] else .scalarOr [], .srcScalar,
      if w.mod.getLsbD 0 then .no else .scalarOr [325], .scalar, false, if w.mod.extractLsb' 1 6 = 0 then [] else [4]⟩
  | .barTest w =>
    ⟨.spairOr [321], if w.mod.getLsbD 0 then .spairOr [] else .scalarOr [], .no,
      if w.mod.getLsbD 0 then .no else .scalarOr [325], .scalar, false, if w.mod.extractLsb' 1 6 = 0 then [] else [4]⟩
  | .migrate w => { Shape.none with d := .scalarOr [321], a := .spairOr [], own := modZero w }
  | _ => Shape.none

/-! ### Which V and T an instruction admits (R81) -/

/-- The fields of an instruction word; a paired word and the events have none. -/
def Instr.word : Instr → Option W
  | .nop w | .bra w | .braNz w | .braZ w | .braEmpty w | .braFull w | .brx w | .call w | .ret w | .loop w | .waitc w
  | .sleep w | .errst w | .add w | .sub w | .mul w | .mulhi w | .mad w | .abs w | .min w | .max w | .and w | .or w
  | .xor w | .not w | .shl w | .shr w | .sar w | .rot w | .clz w | .popc w | .brev w | .ffs w | .cmp w | .sel w
  | .mov w | .movi w | .moviHi w | .fadd w | .fsub w | .fmul w | .ffma w | .fmin w | .fmax w | .fcmp w | .fclass w
  | .frnd w | .fdiv w | .fsqrt w | .cvt w | .pk w | .upk w | .mxs w | .bfx w | .bfi w | .fsh w | .rcp w | .rsq w
  | .exp2 w | .log2 w | .sinpi w | .cospi w | .tanh w | .shfl w | .bcast w | .vote w | .matchLanes w | .redsum w
  | .redmin w | .redmax w | .redand w | .redor w | .scan w | .ld w | .ldx w | .st w | .stx w | .ldS w | .stS w
  | .ldd w | .atom w | .atomS w | .atomFadd w | .watch w | .fence w | .mfk w | .mtk w | .sys w | .trap w | .sysret w
  | .mapft w | .fltrd w | .spawn w | .spawnS w | .spawnL w | .spawnG w | .join w | .joinall w | .fprobe w | .fres w
  | .fresFail w | .yield w | .tret w | .tid w | .stage w | .bufget w | .bufput w | .bufwaitFull w | .bufwaitFree w
  | .enq w | .enqEos w | .arcq w | .qput w | .mloop w | .mfence w | .mwait w | .mzero w | .epi w | .mstat w | .put w
  | .dsld w | .mcast w | .phregSig w | .phregWait w | .phregSw w | .phdrop w | .phsig w | .phwait w | .phsw w
  | .copy w | .barInit w | .barExp w | .barArr w | .barWait w | .barTest w | .migrate w => some w
  | _ => none

/-- T restricted to a set, V below a bound. -/
def W.typed (w : W) (n : Nat) (ok : Bool) : Bool := w.v.val < n && ok
/-- No V and no T: MIN is the constructor's own value. -/
def W.plain (w : W) : Bool := w.v == 0 && w.t == .i8

def Ty.isAdd (t : Ty) : Bool := t == .i32 || t == .i64 || t == .z32 || t == .z64
def Ty.isLoad (t : Ty) : Bool := t == .i8 || t == .i16 || t == .z8 || t == .z16 || t.isBit
def Ty.isStore (t : Ty) : Bool := t == .z8 || t == .z16 || t.isBit
def Ty.isDiv (t : Ty) : Bool := t == .f64 || t == .f32 || t == .f16
def Ty.isSfu (t : Ty) : Bool := t == .f32 || t == .f16
def atomTyped (w : W) : Bool := if w.v.val ≤ 2 then w.t.isAdd else w.t.isBit

/-- The rows of R81: whether V, T and the source type that C holds are legal. The type code of pk and upk is C as a whole, so that bits 8:5
of their C that are not zero raise detail 3, as those of cvt do (DEDUCED, log entry 52: R81 names the bits for cvt alone, and R68 could
give detail 4). -/
def typesLegal (i : Instr) : Bool :=
  match i with
  | .add w | .sub w | .mul w | .mulhi w | .mad w | .min w | .max w => w.typed 1 w.t.isInt
  | .abs w => w.typed 1 w.t.isSgn
  | .and w | .or w | .xor w | .not w | .shl w | .shr w | .sar w | .rot w | .clz w | .popc w | .brev w | .ffs w
  | .sel w | .mov w | .movi w | .bcast w | .matchLanes w | .redand w | .redor w | .dsld w => w.typed 1 w.t.isBit
  | .moviHi w => w.v == 1 && w.t == .b64
  | .cmp w => w.typed 6 (w.t.isInt || (w.t.isBit && w.v.val < 2))
  | .fadd w | .fsub w | .fmul w | .ffma w | .fmin w | .fmax w | .fclass w | .frnd w => w.typed 1 w.t.isFlt
  | .fcmp w => w.typed 8 w.t.isFlt
  | .fdiv w | .fsqrt w => w.typed 1 w.t.isDiv
  | .cvt w => w.typed 1 (!w.t.isBit && match Ty.ofCode w.c.code with | some ts => !ts.isBit && ts != w.t | none => false)
  | .pk w | .upk w =>
    w.typed 1 (match packPartner w.t, Ty.ofCode w.c.code with | some p, some ts => p == ts | _, _ => false)
  | .mxs w => w.typed 1 w.t.isNar
  | .bfx w | .fsh w => w.typed 2 (w.t == .i8)
  | .rcp w | .rsq w | .exp2 w | .log2 w | .sinpi w | .cospi w | .tanh w => w.typed 1 w.t.isSfu
  | .shfl w => w.typed 5 w.t.isBit
  | .vote w => w.typed 4 (w.t == .i8)
  | .redsum w | .redmin w | .redmax w => w.typed 1 (w.t.isInt || w.t.isFlt)
  | .scan w => w.typed 5 (if w.v.val < 3 then w.t.isInt || w.t.isFlt else w.t.isBit)
  | .ld w | .ldx w | .ldS w => w.typed 1 w.t.isLoad
  | .st w | .stx w | .stS w => w.typed 1 w.t.isStore
  | .atom w | .atomS w => atomTyped w
  | .atomFadd w => w.typed 1 (w.t == .f64 || w.t == .f32)
  | i => match i.word with | some w => w.plain | none => true

/-! ### The raw fields of a word and their check -/

/-- The operand codes and mask fields of a word before they are known to be legal. -/
structure RawCodes where
  d : Nat
  a : Nat
  b : Nat
  c : Nat
deriving DecidableEq, Repr

/-- The vector form of R70, R101, R120, R217, R222 or R238, from the shape and the codes. -/
def Shape.isVector (sh : Shape) (r : RawCodes) : Bool :=
  let anyLane := sh.a.laneSource r.a || sh.b.laneSource r.b || sh.c.laneSource r.c
  match sh.form with
  | .byD => if r.d < 256 then true else if r.d < 320 then false else anyLane
  | .vector | .group => true
  | .scalar => false
  | .byBC => sh.b.laneSource r.b || sh.c.laneSource r.c
  | .byA => r.a < 256

/-- A per-lane source in a scalar form, or a destination of the other form (R70, R217, R238). -/
def Shape.formDetails (sh : Shape) (r : RawCodes) : List Nat :=
  let anyLane := sh.a.laneSource r.a || sh.b.laneSource r.b || sh.c.laneSource r.c
  if sh.form = .byA then
    (if r.a < 256 then (if isScalarCode r.d then [6] else []) else if r.d < 256 then [6] else [])
  else if !sh.isVector r && anyLane then [6] else []

/-- sel asks for a triple in C of its vector form (R102). -/
def selDetails (i : Instr) (r : RawCodes) : List Nat :=
  match i with
  | .sel _ => if (shapeOf i).isVector r && !isTripleCode r.c then [6] else []
  | _ => []

/-- Every detail code that a full word raises whatever the group's demand is, but those of its opcode. -/
def fieldDetails (i : Instr) (ms : Nat) (mn : Bool) (imm : Word) (r : RawCodes) : List Nat :=
  let sh := shapeOf i
  sh.own ++ sh.d.details r.d ++ sh.a.details r.a ++ sh.b.details r.b ++ sh.c.details r.c ++
  (if sh.usesImm || sh.a.readsImm r.a || sh.b.readsImm r.b || sh.c.readsImm r.c || imm == 0 then [] else [4]) ++
  (if ms = 0 ∧ mn then [6] else []) ++ sh.formDetails r ++ selDetails i r

/-- One more than the highest vector register that a full word names (R14). -/
def vecEnd (i : Instr) (r : RawCodes) : Nat :=
  let sh := shapeOf i
  max (max (sh.d.vecEnd r.d) (sh.a.vecEnd r.a)) (max (sh.b.vecEnd r.b) (sh.c.vecEnd r.c))

/-- The lowest of several detail codes (R83). -/
def lowest (ds : List Nat) : Option Nat := ds.foldl (fun m d => match m with | none => some d | some x => some (min x d)) none

/-! ### Paired words (R76 to R78) -/

/-- The code of a pipe A half-operation and its number of sources. -/
def HopA.code : HopA → Nat
  | .fadd32 => 0x01 | .fsub32 => 0x02 | .fmul32 => 0x03 | .ffma32 => 0x04 | .fmin32 => 0x05 | .fmax32 => 0x06
  | .fadd16 => 0x11 | .fsub16 => 0x12 | .fmul16 => 0x13 | .ffma16 => 0x14 | .fmin16 => 0x15 | .fmax16 => 0x16

def HopA.ofCode (n : Nat) : Option HopA :=
  match n with
  | 0x01 => some .fadd32 | 0x02 => some .fsub32 | 0x03 => some .fmul32 | 0x04 => some .ffma32 | 0x05 => some .fmin32
  | 0x06 => some .fmax32 | 0x11 => some .fadd16 | 0x12 => some .fsub16 | 0x13 => some .fmul16 | 0x14 => some .ffma16
  | 0x15 => some .fmin16 | 0x16 => some .fmax16 | _ => none

def HopA.sources : HopA → Nat
  | .ffma32 | .ffma16 => 3
  | _ => 2

/-- The highest RND that a pipe A half may carry (R76). -/
def HopA.maxRnd : HopA → Nat
  | .fmin32 | .fmax32 | .fmin16 | .fmax16 => 0
  | _ => 4

def HopB.code : HopB → Nat
  | .addI => 0x01 | .subI => 0x02 | .andB => 0x03 | .orB => 0x04 | .xorB => 0x05 | .shlB => 0x06 | .shrB => 0x07 | .sarB => 0x08
  | .minI => 0x09 | .maxI => 0x0A | .minZ => 0x0B | .maxZ => 0x0C | .movB => 0x0D | .bfxI => 0x0E | .bfxZ => 0x0F | .bfi => 0x10
  | .fshL => 0x11 | .fshR => 0x12 | .popcB => 0x13 | .clzB => 0x14 | .notB => 0x15 | .mulZ => 0x16

def HopB.ofCode (n : Nat) : Option HopB :=
  match n with
  | 0x01 => some .addI | 0x02 => some .subI | 0x03 => some .andB | 0x04 => some .orB | 0x05 => some .xorB | 0x06 => some .shlB
  | 0x07 => some .shrB | 0x08 => some .sarB | 0x09 => some .minI | 0x0A => some .maxI | 0x0B => some .minZ | 0x0C => some .maxZ
  | 0x0D => some .movB | 0x0E => some .bfxI | 0x0F => some .bfxZ | 0x10 => some .bfi | 0x11 => some .fshL | 0x12 => some .fshR
  | 0x13 => some .popcB | 0x14 => some .clzB | 0x15 => some .notB | 0x16 => some .mulZ | _ => none

def HopB.sources : HopB → Nat
  | .movB | .popcB | .clzB | .notB => 1
  | .bfxI | .bfxZ | .bfi | .fshL | .fshR => 3
  | _ => 2

/-- The registers a half reads; bfi reads its destination too (R115). -/
def Half.used (h : Half) (n : Nat) (dRead : Bool) : List Nat :=
  ([h.a.val, h.b.val, h.c.val].take n) ++ (if dRead then [h.d.val] else [])

/-- The rules of R76 and R78 for the two halves. -/
def pairLegal (oa : HopA) (ha : Half) (ob : HopB) (hb : Half) : Bool :=
  let ua := ha.used oa.sources false
  let ub := hb.used ob.sources (ob == .bfi)
  ha.rnd.val ≤ oa.maxRnd && hb.rnd.val == 0 &&
  (oa.sources == 3 || ha.c.val == 0) &&
  (ob.sources == 3 || hb.c.val == 0) && (ob.sources ≥ 2 || hb.b.val == 0) &&
  ha.d.val % 4 != hb.d.val % 4 &&
  (ua.filter (fun r => ub.contains r)).eraseDups.length ≤ 1

/-- One more than the highest vector register that a half names, its sources being `used` (R14). -/
def halfVecEnd (h : Half) (used : List Nat) : Nat := (h.d.val :: used).foldl (fun m r => max m (r + 1)) 0

/-- One more than the highest vector register that a paired word names. -/
def pairVecEnd (oa : HopA) (ha : Half) (ob : HopB) (hb : Half) : Nat :=
  max (halfVecEnd ha (ha.used oa.sources false)) (halfVecEnd hb (hb.used ob.sources false))

end Sys2Proof
end

