-- ==== Sys2Proof/WellFormed.lean ====
section
/-! DEFINITION. The instructions that a word can stand for: the encodings of R67 to R81 admit exactly
these, and the decoder refuses every other word with the detail code of R83. -/

namespace Sys2Proof

/-- The operand codes of a full word (R69). -/
def W.codes (w : W) : RawCodes := ⟨w.d.code, w.a.code, w.b.code, w.c.code⟩

/-- The detail codes that an instruction would raise whatever the demand of its group is. -/
def Instr.details (i : Instr) : List Nat :=
  match i with
  | .pairedWord oa ha ob hb => if pairLegal oa ha ob hb then [] else [10]
  | i =>
    match i.word with
    | some w => (if typesLegal i then [] else [3]) ++ fieldDetails i w.ms.val w.mn w.imm w.codes
    | none => []

/-- No detail code of R83 but 1 and 8, which depend on the line and on the group. The steps that are no
instruction word are well-formed. -/
def Instr.wf (i : Instr) : Bool := i.details.isEmpty

end Sys2Proof
end

