-- ==== Sys2Proof/Decode.lean ====
section
/-! DEFINITION. The decoder of instruction words (R60 to R83), total on any bits, and the encoder.
A word that stands for no instruction is refused with the detail code of R83. -/

namespace Sys2Proof

/-! ### The opcode map (R81, R82) -/

/-- MIN holds V and T (R74): a reserved type code raises detail 3. -/
def typedMin (mk : W → Instr) (min : Nat) (w : W) : Except Nat Instr :=
  match Ty.ofCode (min % 32) with
  | some t => .ok (mk { w with v := ⟨min / 32 % 8, Nat.mod_lt _ (by decide)⟩, t := t })
  | none => .error 3

/-- MIN equals the position of the constructor in the list (R81). -/
def exactMin (mks : List (W → Instr)) (min : Nat) (w : W) : Except Nat Instr :=
  match mks[min]? with
  | some mk => .ok (mk { w with v := 0, t := .i8 })
  | none => .error 3

/-- The instruction of a MAJ and a MIN, before V, T and the fields are checked. -/
def opcodeInstr (maj min : Nat) (w : W) : Except Nat Instr :=
  match maj with
  | 0x00 => exactMin [.nop] min w
  | 0x01 => exactMin [.bra, .braNz, .braZ, .braEmpty, .braFull] min w
  | 0x02 => exactMin [.brx] min w
  | 0x03 => exactMin [.call] min w
  | 0x04 => exactMin [.ret] min w
  | 0x05 => exactMin [.loop] min w
  | 0x06 => exactMin [.waitc] min w
  | 0x07 => exactMin [.sleep] min w
  | 0x08 => exactMin [.errst] min w
  | 0x10 => typedMin .add min w
  | 0x11 => typedMin .sub min w
  | 0x12 => typedMin .mul min w
  | 0x13 => typedMin .mulhi min w
  | 0x14 => typedMin .mad min w
  | 0x15 => typedMin .abs min w
  | 0x16 => typedMin .min min w
  | 0x17 => typedMin .max min w
  | 0x18 => typedMin .and min w
  | 0x19 => typedMin .or min w
  | 0x1A => typedMin .xor min w
  | 0x1B => typedMin .not min w
  | 0x1C => typedMin .shl min w
  | 0x1D => typedMin .shr min w
  | 0x1E => typedMin .sar min w
  | 0x1F => typedMin .rot min w
  | 0x20 => typedMin .clz min w
  | 0x21 => typedMin .popc min w
  | 0x22 => typedMin .brev min w
  | 0x23 => typedMin .ffs min w
  | 0x24 => typedMin .cmp min w
  | 0x25 => typedMin .sel min w
  | 0x26 => typedMin .mov min w
  | 0x27 => typedMin (if min / 32 = 1 then .moviHi else .movi) min w
  | 0x40 => typedMin .fadd min w
  | 0x41 => typedMin .fsub min w
  | 0x42 => typedMin .fmul min w
  | 0x43 => typedMin .ffma min w
  | 0x44 => typedMin .fmin min w
  | 0x45 => typedMin .fmax min w
  | 0x46 => typedMin .fcmp min w
  | 0x47 => typedMin .fclass min w
  | 0x48 => typedMin .frnd min w
  | 0x49 => typedMin .fdiv min w
  | 0x4A => typedMin .fsqrt min w
  | 0x70 => typedMin .cvt min w
  | 0x71 => typedMin .pk min w
  | 0x72 => typedMin .upk min w
  | 0x73 => typedMin .mxs min w
  | 0x80 => typedMin .shfl min w
  | 0x81 => typedMin .bcast min w
  | 0x82 => typedMin .vote min w
  | 0x83 => typedMin .matchLanes min w
  | 0x84 => typedMin .redsum min w
  | 0x85 => typedMin .redmin min w
  | 0x86 => typedMin .redmax min w
  | 0x87 => typedMin .redand min w
  | 0x88 => typedMin .redor min w
  | 0x89 => typedMin .scan min w
  | 0x90 => typedMin .bfx min w
  | 0x91 => exactMin [.bfi] min w
  | 0x92 => typedMin .fsh min w
  | 0x98 => typedMin .rcp min w
  | 0x99 => typedMin .rsq min w
  | 0x9A => typedMin .exp2 min w
  | 0x9B => typedMin .log2 min w
  | 0x9C => typedMin .sinpi min w
  | 0x9D => typedMin .cospi min w
  | 0x9E => typedMin .tanh min w
  | 0xA0 => typedMin .ld min w
  | 0xA1 => typedMin .st min w
  | 0xA2 => typedMin .ldx min w
  | 0xA3 => typedMin .stx min w
  | 0xA4 => typedMin .ldS min w
  | 0xA5 => typedMin .stS min w
  | 0xA6 => exactMin [.ldd] min w
  | 0xA7 => typedMin .atomS min w
  | 0xA8 => typedMin .atom min w
  | 0xA9 => typedMin .atomFadd min w
  | 0xAA => exactMin [.watch] min w
  | 0xAB => exactMin [.fence] min w
  | 0xC0 => exactMin [.spawn, .spawnS, .spawnL, .spawnG] min w
  | 0xC1 => exactMin [.join] min w
  | 0xC2 => exactMin [.joinall] min w
  | 0xC3 => exactMin [.fprobe] min w
  | 0xC4 => exactMin [.fres, .fresFail] min w
  | 0xC5 => exactMin [.yield] min w
  | 0xC6 => exactMin [.tret] min w
  | 0xC7 => exactMin [.tid] min w
  | 0xC8 => exactMin [.stage] min w
  | 0xC9 => exactMin [.bufget] min w
  | 0xCA => exactMin [.bufput] min w
  | 0xCB => exactMin [.bufwaitFull, .bufwaitFree] min w
  | 0xCC => exactMin [.enq, .enqEos] min w
  | 0xCD => exactMin [.arcq] min w
  | 0xCE => exactMin [.qput] min w
  | 0xD0 => exactMin [.mloop] min w
  | 0xD1 => exactMin [.mfence] min w
  | 0xD2 => exactMin [.mwait] min w
  | 0xD3 => exactMin [.mzero] min w
  | 0xD4 => exactMin [.epi] min w
  | 0xD5 => exactMin [.mstat] min w
  | 0xE0 => exactMin [.put] min w
  | 0xE1 => typedMin .dsld min w
  | 0xE2 => exactMin [.mcast] min w
  | 0xE3 => exactMin [.phregSig, .phregWait, .phregSw] min w
  | 0xE4 => exactMin [.phdrop] min w
  | 0xE5 => exactMin [.phsig] min w
  | 0xE6 => exactMin [.phwait] min w
  | 0xE7 => exactMin [.phsw] min w
  | 0xE8 => exactMin [.copy] min w
  | 0xE9 => exactMin [.barInit, .barExp, .barArr, .barWait, .barTest] min w
  | 0xEA => exactMin [.migrate] min w
  | 0xF0 => exactMin [.mfk] min w
  | 0xF1 => exactMin [.mtk] min w
  | 0xF2 => exactMin [.sys] min w
  | 0xF3 => exactMin [.sysret] min w
  | 0xF4 => exactMin [.trap] min w
  | 0xF5 => exactMin [.mapft] min w
  | 0xF6 => exactMin [.fltrd] min w
  | _ => .error 2

/-- MIN of an instruction whose MIN holds V and T. -/
def typedCode (w : W) : Nat := w.v.val * 32 + w.t.code

/-- MAJ and MIN of an instruction word. -/
def Instr.opcode (i : Instr) : Nat × Nat :=
  match i with
  | .nop _ => (0x00, 0)
  | .bra _ => (0x01, 0)
  | .braNz _ => (0x01, 1)
  | .braZ _ => (0x01, 2)
  | .braEmpty _ => (0x01, 3)
  | .braFull _ => (0x01, 4)
  | .brx _ => (0x02, 0)
  | .call _ => (0x03, 0)
  | .ret _ => (0x04, 0)
  | .loop _ => (0x05, 0)
  | .waitc _ => (0x06, 0)
  | .sleep _ => (0x07, 0)
  | .errst _ => (0x08, 0)
  | .bfi _ => (0x91, 0)
  | .ldd _ => (0xA6, 0)
  | .watch _ => (0xAA, 0)
  | .fence _ => (0xAB, 0)
  | .spawn _ => (0xC0, 0)
  | .spawnS _ => (0xC0, 1)
  | .spawnL _ => (0xC0, 2)
  | .spawnG _ => (0xC0, 3)
  | .join _ => (0xC1, 0)
  | .joinall _ => (0xC2, 0)
  | .fprobe _ => (0xC3, 0)
  | .fres _ => (0xC4, 0)
  | .fresFail _ => (0xC4, 1)
  | .yield _ => (0xC5, 0)
  | .tret _ => (0xC6, 0)
  | .tid _ => (0xC7, 0)
  | .stage _ => (0xC8, 0)
  | .bufget _ => (0xC9, 0)
  | .bufput _ => (0xCA, 0)
  | .bufwaitFull _ => (0xCB, 0)
  | .bufwaitFree _ => (0xCB, 1)
  | .enq _ => (0xCC, 0)
  | .enqEos _ => (0xCC, 1)
  | .arcq _ => (0xCD, 0)
  | .qput _ => (0xCE, 0)
  | .mloop _ => (0xD0, 0)
  | .mfence _ => (0xD1, 0)
  | .mwait _ => (0xD2, 0)
  | .mzero _ => (0xD3, 0)
  | .epi _ => (0xD4, 0)
  | .mstat _ => (0xD5, 0)
  | .put _ => (0xE0, 0)
  | .mcast _ => (0xE2, 0)
  | .phregSig _ => (0xE3, 0)
  | .phregWait _ => (0xE3, 1)
  | .phregSw _ => (0xE3, 2)
  | .phdrop _ => (0xE4, 0)
  | .phsig _ => (0xE5, 0)
  | .phwait _ => (0xE6, 0)
  | .phsw _ => (0xE7, 0)
  | .copy _ => (0xE8, 0)
  | .barInit _ => (0xE9, 0)
  | .barExp _ => (0xE9, 1)
  | .barArr _ => (0xE9, 2)
  | .barWait _ => (0xE9, 3)
  | .barTest _ => (0xE9, 4)
  | .migrate _ => (0xEA, 0)
  | .mfk _ => (0xF0, 0)
  | .mtk _ => (0xF1, 0)
  | .sys _ => (0xF2, 0)
  | .sysret _ => (0xF3, 0)
  | .trap _ => (0xF4, 0)
  | .mapft _ => (0xF5, 0)
  | .fltrd _ => (0xF6, 0)
  | .add w => (0x10, typedCode w)
  | .sub w => (0x11, typedCode w)
  | .mul w => (0x12, typedCode w)
  | .mulhi w => (0x13, typedCode w)
  | .mad w => (0x14, typedCode w)
  | .abs w => (0x15, typedCode w)
  | .min w => (0x16, typedCode w)
  | .max w => (0x17, typedCode w)
  | .and w => (0x18, typedCode w)
  | .or w => (0x19, typedCode w)
  | .xor w => (0x1A, typedCode w)
  | .not w => (0x1B, typedCode w)
  | .shl w => (0x1C, typedCode w)
  | .shr w => (0x1D, typedCode w)
  | .sar w => (0x1E, typedCode w)
  | .rot w => (0x1F, typedCode w)
  | .clz w => (0x20, typedCode w)
  | .popc w => (0x21, typedCode w)
  | .brev w => (0x22, typedCode w)
  | .ffs w => (0x23, typedCode w)
  | .cmp w => (0x24, typedCode w)
  | .sel w => (0x25, typedCode w)
  | .mov w => (0x26, typedCode w)
  | .fadd w => (0x40, typedCode w)
  | .fsub w => (0x41, typedCode w)
  | .fmul w => (0x42, typedCode w)
  | .ffma w => (0x43, typedCode w)
  | .fmin w => (0x44, typedCode w)
  | .fmax w => (0x45, typedCode w)
  | .fcmp w => (0x46, typedCode w)
  | .fclass w => (0x47, typedCode w)
  | .frnd w => (0x48, typedCode w)
  | .fdiv w => (0x49, typedCode w)
  | .fsqrt w => (0x4A, typedCode w)
  | .cvt w => (0x70, typedCode w)
  | .pk w => (0x71, typedCode w)
  | .upk w => (0x72, typedCode w)
  | .mxs w => (0x73, typedCode w)
  | .shfl w => (0x80, typedCode w)
  | .bcast w => (0x81, typedCode w)
  | .vote w => (0x82, typedCode w)
  | .matchLanes w => (0x83, typedCode w)
  | .redsum w => (0x84, typedCode w)
  | .redmin w => (0x85, typedCode w)
  | .redmax w => (0x86, typedCode w)
  | .redand w => (0x87, typedCode w)
  | .redor w => (0x88, typedCode w)
  | .scan w => (0x89, typedCode w)
  | .bfx w => (0x90, typedCode w)
  | .fsh w => (0x92, typedCode w)
  | .rcp w => (0x98, typedCode w)
  | .rsq w => (0x99, typedCode w)
  | .exp2 w => (0x9A, typedCode w)
  | .log2 w => (0x9B, typedCode w)
  | .sinpi w => (0x9C, typedCode w)
  | .cospi w => (0x9D, typedCode w)
  | .tanh w => (0x9E, typedCode w)
  | .ld w => (0xA0, typedCode w)
  | .st w => (0xA1, typedCode w)
  | .ldx w => (0xA2, typedCode w)
  | .stx w => (0xA3, typedCode w)
  | .ldS w => (0xA4, typedCode w)
  | .stS w => (0xA5, typedCode w)
  | .atomS w => (0xA7, typedCode w)
  | .atom w => (0xA8, typedCode w)
  | .atomFadd w => (0xA9, typedCode w)
  | .dsld w => (0xE1, typedCode w)
  | .movi w | .moviHi w => (0x27, typedCode w)
  | _ => (0, 0)

/-! ### Full words (R67) -/

/-- A field of a word as a number. -/
def wordField (x : InstrWord) (lo len : Nat) : Nat := (x.extractLsb' lo len).toNat

/-- The operand codes of a word. -/
def rawCodes (x : InstrWord) : RawCodes := ⟨wordField x 66 9, wordField x 57 9, wordField x 48 9, wordField x 39 9⟩

/-- The fields of a word; a reserved operand code is read as 321 here and refused by `fieldDetails`. -/
def rawFields (x : InstrWord) : W :=
  let r := rawCodes x
  { sw := x.getLsbD 79, ms := (x.extractLsb' 76 3).toFin, mn := x.getLsbD 75, v := 0, t := .i8
    d := (Opd.ofCode r.d).getD .zero, a := (Opd.ofCode r.a).getD .zero, b := (Opd.ofCode r.b).getD .zero
    c := (Opd.ofCode r.c).getD .zero, mod := x.extractLsb' 32 7, imm := x.extractLsb' 0 32 }

/-- What a word holds before its demand is checked: an instruction, the details that its fields raise and
one more than the highest vector register that it names. -/
structure Seen where
  instr   : Instr
  details : List Nat
  vecEnd  : Nat

/-- A full word. MAJ and MIN come first in R83, so their details are reported alone. -/
def seeFull (x : InstrWord) : Except Nat Seen :=
  let r := rawCodes x
  let w := rawFields x
  match opcodeInstr (wordField x 88 8) (wordField x 80 8) w with
  | .error d => .error d
  | .ok i =>
    if typesLegal i then .ok ⟨i, fieldDetails i w.ms.val w.mn w.imm r, vecEnd i r⟩ else .error 3

/-! ### Paired words (R76 to R78) -/

/-- The fields of a half. -/
def rawHalf (x : BitVec 48) : Half :=
  { ms := (x.extractLsb' 39 3).toFin, d := (x.extractLsb' 31 8).toFin, a := (x.extractLsb' 23 8).toFin
    b := (x.extractLsb' 15 8).toFin, c := (x.extractLsb' 7 8).toFin, rnd := (x.extractLsb' 0 3).toFin }

/-- A paired word. An unassigned HOP raises detail 10 and is read as fadd.f32 or add.i32; its half names no register, while the other
half is still held to the demand (R83: detail 8 is lower). -/
def seePaired (x : InstrWord) : Except Nat Seen :=
  let xa := x.extractLsb' 48 48
  let xb := x.extractLsb' 0 48
  let oa? := HopA.ofCode (xa.extractLsb' 42 6).toNat
  let ob? := HopB.ofCode (xb.extractLsb' 42 6).toNat
  let oa := oa?.getD .fadd32
  let ob := ob?.getD .addI
  let ha := rawHalf xa
  let hb := rawHalf xb
  .ok ⟨.pairedWord oa ha ob hb,
    if oa?.isSome && ob?.isSome && pairLegal oa ha ob hb && xa.extractLsb' 3 4 == 0 && xb.extractLsb' 3 4 == 0 then [] else [10],
    max (if oa?.isSome then halfVecEnd ha (ha.used oa.sources false) else 0)
      (if ob?.isSome then halfVecEnd hb (hb.used ob.sources false) else 0)⟩

def seeWord (pair : Bool) (x : InstrWord) : Except Nat Seen := if pair then seePaired x else seeFull x

/-- The instruction of a word in a group whose demand is `demand` blocks (R14), or the lowest detail
code that it raises (R83). -/
def decodeFor (demand : Nat) (pair : Bool) (x : InstrWord) : Except Nat Instr :=
  match seeWord pair x with
  | .error d => .error d
  | .ok s =>
    match lowest (s.details ++ if s.vecEnd ≤ 8 * demand then [] else [8]) with
    | some d => .error d
    | none => .ok s.instr

/-- The decoder, with a demand that admits every register. `pair` is the slot's bit of PAIR (R61). -/
def decodeWord (pair : Bool) (x : InstrWord) : Except Nat Instr := decodeFor 32 pair x

/-- A word of the opcode table, which numbers the bits of R67. The words of an instruction row that is
not a paired word stand in a slot whose PAIR bit is clear. -/
def decodeTableWord (nbits w : Nat) : Option Instr :=
  match decodeWord false (BitVec.ofNat 96 (w % 2 ^ nbits)) with
  | .ok i => some i
  | .error _ => none

/-! ### The encoder -/

/-- A full word from its fields (R67). -/
def encodeFull (maj min : Nat) (w : W) : InstrWord :=
  BitVec.ofNat 8 maj ++ BitVec.ofNat 8 min ++ BitVec.ofBool w.sw ++ BitVec.ofNat 3 w.ms.val ++ BitVec.ofBool w.mn ++
    BitVec.ofNat 9 w.d.code ++ BitVec.ofNat 9 w.a.code ++ BitVec.ofNat 9 w.b.code ++ BitVec.ofNat 9 w.c.code ++
    w.mod ++ w.imm

/-- A half from its fields (R76). -/
def encodeHalf (hop : Nat) (h : Half) : BitVec 48 :=
  BitVec.ofNat 6 hop ++ BitVec.ofNat 3 h.ms.val ++ BitVec.ofNat 8 h.d.val ++ BitVec.ofNat 8 h.a.val ++
    BitVec.ofNat 8 h.b.val ++ BitVec.ofNat 8 h.c.val ++ BitVec.ofNat 7 h.rnd.val

/-- Whether an instruction stands in a slot whose PAIR bit is set. -/
def Instr.isPaired : Instr → Bool
  | .pairedWord .. => true
  | _ => false

/-- Whether a step is an instruction word. -/
def Instr.isWord (i : Instr) : Bool := i.isPaired || i.word.isSome

/-- The word of an instruction; a step that is no instruction word has none and answers zeros. -/
def encode (i : Instr) : InstrWord :=
  match i with
  | .pairedWord oa ha ob hb => encodeHalf oa.code ha ++ encodeHalf ob.code hb
  | i =>
    match i.word with
    | some w => encodeFull i.opcode.1 i.opcode.2 w
    | none => 0

end Sys2Proof
end

