-- ==== Sys2Proof/Config.lean ====
section
/-! DEFINITION. What the spec leaves to an implementation, and the free values: constants without a
body, so that no proof can use a number the spec does not give. Each is named in a log entry. -/

namespace Sys2Proof

/-- The result of an SFU operation outside the exact cases of R118, from the operation's number
(0 rcp to 6 tanh), whether the type is .f16, and the input bits (R117: a fixed function). R119 bounds
it; `sfuClamp` applies the bounds that the model enforces (assumption 10). -/
opaque Config.sfuRaw : Nat → Bool → Word → Word

/-- The measurement of the boot ROM (R443). -/
opaque Config.romHash : BitVec 384

/-- The public identity key of a boot, derived from the SRAM of die 0 (R445). -/
opaque Config.idKey : Nat → BitVec 776

/-- The signature over bytes 0 to 191 of a record, r then s (R445). -/
opaque Config.sign : Nat → List Byte → BitVec 768

/-- What a peer module answers to an access (R440, R441), from a fresh number, the module, its ASID and the
address there: 0 served, 1 refused, other values not present at the peer. -/
opaque Config.peerAnswer : Nat → Nat → Nat → Nat → Nat

/-- A byte that a peer module answers with, from the same arguments. -/
opaque Config.peerByte : Nat → Nat → Nat → Nat → Byte

/-- The number of bytes of a save-area section whose layout the spec does not give (R419), by KIND. -/
opaque Config.sectionSize : Nat → Nat

/-- The level at which MAP writes a leaf whose address and frame fit several page sizes, from the ASID, the
address and the leaf (R360). -/
opaque Config.mapLevel : Nat → Nat → DWord → Nat

/-- The 16 bytes of a cold-queue entry, from the frame's PA, its ASID and its page's VA (R376). -/
opaque Config.coldEntry : Nat → Nat → Nat → BitVec 128

/-- Where the frame table and the cold queue of a controller stand among the controller's frames (R359, R376). -/
opaque Config.metaFrames : Nat → Nat

/-- Frames that the MTUs keep for page tables (R360). -/
opaque Config.tableFrames : List Nat

/-- The speculative reads to come, each with the lines it takes (R371): for the demand miss of a home the numbers of lines of
its page, for the line of an engine whether it was read ahead and, for the tile fetch unit, with a 1 among them, whether a replica
that may serve it does (R249). -/
opaque Config.ahead : List (List Nat)

end Sys2Proof
end

