-- ==== Sys2Proof/Machine/State.lean ====
section
/-! DEFINITION. The state of the machine as plain data, the state after reset, and the reasons to stop.
Tables are lists of (key, value) pairs; a key that is not listed has the default its field names. -/

namespace Sys2Proof.Machine

/-- A table by number: an unlisted key has the default that the table's user names. -/
abbrev Tab (α : Type) := List (Nat × α)

/-- One vector register: 96 lanes of 32 bits (R13). -/
abbrev VReg := Vector Word 96

/-- A logical stamp of R333: a 48-bit count. -/
abbrev Stamp := Nat

/-! ### Groups (01 R11 to R37, 07 R160 to R168, 08 R178 to R201) -/

/-- The trap-state registers of R160. -/
structure TrapRegs where
  vec : DWord
  budget : Word
  cause : Word
  pc : DWord
  addr : DWord
  am : LaneMask
  pend : LaneMask
  left : Word
  scr : Vector Word 4
deriving DecidableEq, Repr

/-- Why a group does not issue (R32, R147, R229). -/
inductive Park where
  /-- the line of the next word is not in the instruction cache (R135) -/
  | fetch
  /-- a PLB record is being fetched (R158) -/
  | plb
  /-- a switch marker (R22) -/
  | marker
  /-- a unit, a queue, request slots or a counter without room (R25, R146, R148, R247, R322) -/
  | room
  /-- an earlier access must be acknowledged or returned first (R228, R281, R319) -/
  | release
  /-- an acquire has not returned (R229) -/
  | acquire
  /-- waitc (R136) -/
  | counter
  /-- join, joinall or the joinall of tret on a pending future (R190, R191, R202) -/
  | join
  /-- path counters of tret or of an inline run, or an mfence (R194, R200, R256) -/
  | drain
  /-- sleep (R137) -/
  | sleep
  /-- a watch (R231) -/
  | watch
  /-- bar.wait or bar.test (R318) -/
  | bar
  /-- a phaser (R280) -/
  | phaser
  /-- enq into a full Arcade (R386) -/
  | arcade
  /-- a buffer handle (R206) -/
  | handle
  /-- mwait (R259) -/
  | batch
  /-- an empty token bucket (R331) -/
  | token
  /-- an escalated trap waits for firmware (R167) -/
  | escalated
  /-- the group travels to its landing slot (R330) -/
  | migrating
  /-- the group's halted context stays on its clusters (R417) -/
  | halted
deriving DecidableEq, Repr

/-- How far a group is inside a word that has issued and waits for an event (R166). -/
inductive InWord where
  /-- the word waits for its event and decides again when the group is given a turn -/
  | again
  /-- the word has made request `op` and waits for it -/
  | op (id : Nat)
  /-- a join, joinall or tret has parked on the pending record at an address, until its STATE is not 0 (R190 step 4) -/
  | parked (addr : Nat)
  /-- a signal has been given and the word waits for the phase (R280) -/
  | signalled
  /-- an inline run waits for counters and results before its pushes (R200 step 1) -/
  | inlineRun (serial : Nat)
  /-- tret has resolved its future and returns to its parent (R201) -/
  | resolved
  /-- mwait on a batch, and the batch has retired, failed or not (R259) -/
  | batch (num : Nat)
  | batchDone (failed : Bool)
  /-- bufwait has parked on a handle (R206) -/
  | handle (h : Nat)
  /-- a waiting enq or bufwait has its status (R206, R386, R387) -/
  | answered (status : Nat)
deriving DecidableEq, Repr

/-- One element that an outstanding operation will write: operand code, lane (or index of a scalar
destination) and value (R23). -/
structure WrCell where
  code : Nat
  lane : Nat
  val  : Word
deriving DecidableEq, Repr

/-- The unit an outstanding result comes from. -/
inductive ResUnit where
  | sfu | divide | cross | join
deriving DecidableEq, Repr

/-- An outstanding variable-latency result that uses no path counter (R94, R121, R198). -/
structure Pend where
  id    : Nat
  unit  : ResUnit
  cells : List WrCell
  /-- flags merged when the result returns (R95), and the lowest lane that raised NV, DZ or OF -/
  flags : Flags
  lane  : Nat
  pc    : DWord
  /-- bufget: the range to bind as the result returns (R205) -/
  bind  : Option (Nat × Nat)
deriving DecidableEq, Repr

/-- One lane of a memory instruction (R172). -/
structure LaneAcc where
  lane : Nat
  addr : DWord
  data : DWord
  cmp  : DWord
deriving DecidableEq, Repr

/-- What a request does at its home or target. -/
inductive ReqKind where
  | load | direct | store
  /-- an atomic of variant `v` and type `t`, with or without return (R224, R225) -/
  | atomic (v : Nat) (fadd : Bool) (t : Ty) (ret : Bool)
  | watch
  /-- the read of an fprobe that waits for writes of its core to the line (R192, R339) -/
  | probe
  /-- a barrier operation on a global word: 0 init, 1 exp, 2 arr (R317) -/
  | bar (op : Nat)
  /-- a scratch access whose value was read at issue (R221) -/
  | scratch
  /-- fres on a future record once the awaited operations are over (R193) -/
  | fres (fail : Bool) (value : BitVec 128) (waits : List Nat)
  | dsld
  | mapft | fltrd
  /-- a command of an engine that a path counts -/
  | engine
deriving DecidableEq, Repr

/-- An instruction whose operation is outstanding: counted on a path (R24, R25) or, with `path = none`,
a watch or an uncounted engine access. -/
structure Op where
  id    : Nat
  path  : Option Nat
  instr : Instr
  /-- scalar form: the destination is written once -/
  scalar : Bool
  kind  : ReqKind
  size  : Nat
  /-- the accesses of every lane that was performed -/
  lanes : List LaneAcc
  stamp : Stamp
  /-- issued in supervisor mode (R229) -/
  sup   : Bool
  /-- scope of an acquire whose return is awaited (R228) -/
  acq   : Option Nat
  acqStamp : Stamp
  /-- every lane has been served or handed to `held` -/
  done  : Bool
  /-- lanes that came back unserved or refused, with CAUSE and DETAIL (R218) -/
  held  : List LaneAcc
  heldCause : Nat × Nat
  /-- the held trap has been taken and its lanes await replay (R166) -/
  heldTaken : Bool
  /-- a restored operation whose lanes wait for request slots to be reissued (R148, R170) -/
  again : Bool
  /-- the stamps that the entries of its replay descriptor gave its lanes (R172); the others carry `stamp` -/
  stamps : Tab Stamp
  prov  : DWord
deriving DecidableEq, Repr

/-- A closure (R173). `stage` holds the eight words of the two staging names. -/
structure Closure where
  entry  : DWord
  future : DWord
  flags  : Word
  need   : Word
  stage  : List Word
  args   : List Word
deriving DecidableEq, Repr

/-- The staging of a deque entry (R207). -/
inductive Staging where
  | none | notBegun
  /-- the handles already filling or full -/
  | begun (filling full : List Nat)
  | complete
  /-- a fault at an address holds it (R207) -/
  | faulted (filling full : List Nat) (addr : Nat)
deriving DecidableEq, Repr

/-- A deque entry and its entry state (R182). -/
structure Entry where
  clo      : Closure
  serial   : Word
  stamp    : Stamp
  spawner  : Word
  spawnGrp : Nat
  team     : Nat
  takeable : Bool
  /-- operations of the spawner that must be acknowledged first (R189) -/
  waits    : List Nat
  staging  : Staging
  gateOpen : Bool
  origin   : Nat
  isRoot   : Bool
deriving DecidableEq, Repr

/-- A task that a group runs: the outermost first (R179, R194). -/
structure TaskInfo where
  header : DWord
  future : DWord
  serial : Word
  entry  : DWord
  /-- core whose deque held the closure, or 0x1FF (R196) -/
  origin : Nat
  /-- it is the root task of its context (R383, R413) -/
  root   : Bool
  /-- vector demand while it runs, and address of its header (R179) -/
  demand : Nat
  hdr    : Nat
  /-- firmware has failed it (R416 ACT 2): its next word is a tret that fails its future -/
  failing : Bool
  /-- address of the enclosing header, 0 for the outermost task (R179) -/
  link   : Nat
  /-- the D of the yield that runs it inline, which takes 1 at its return (R195) -/
  onReturn : Option Opd
deriving DecidableEq, Repr

/-- A negative answer to a PLB or instruction-cache fill (R158, R159): page, CAUSE, DETAIL. -/
structure Answer where
  page   : Nat
  cause  : Nat
  detail : Nat
deriving DecidableEq, Repr

/-- A group of 96 lanes (R13). -/
structure Group where
  asid   : Nat
  core   : Nat
  part   : Nat
  /-- 0 to 15, 16 the reserve (R150), 17 the landing slot (R330) -/
  slot   : Nat
  gid    : Word
  demand : Nat
  /-- blocks held in the register file (R149) -/
  blocks : Nat
  pc     : DWord
  sregs  : Vector Word 64
  /-- v0 to v255; an unlisted register is zero in every lane -/
  vregs  : Tab VReg
  flags  : Flags
  gmode  : Word
  srseed : DWord
  view   : Stamp
  observed : Stamp
  compl  : Stamp
  ifp    : DWord
  drift  : Nat
  /-- words left in the error-log window, and DROPPED (R142) -/
  window : Option Nat
  dropped : Nat
  sup    : Bool
  trap   : TrapRegs
  ops    : List Op
  pend   : List Pend
  /-- number of the stack region of the arena, and its end (R178) -/
  region : Nat
  stackEnd : Nat
  team   : Nat
  tasks  : List TaskInfo
  /-- the entry that an inline run holds until its pushes (R200) -/
  running : Option Entry
  park   : Option Park
  inWord : Option InWord
  /-- the word that a group inside a word is in -/
  current : Option Instr
  /-- so many of the group's tasks, from the outermost on, have a header that is to be found again by reading the stack down
  from K_IFP (R179) -/
  refind : Nat
  /-- the arrival of a group start or a trap entry is still to be checked (R65) -/
  arrival : Option Bool
  /-- em of a word replayed by sysret (R165) -/
  replay : Option LaneMask
  answers : List Answer
  /-- pages the PLB is asked for (R158) -/
  wanted : List Nat
  /-- words the group has issued, for the log's PC window and R33 -/
  issued : Nat
  lastIssue : Nat
  sleepLeft : Nat
  /-- the SEQ of the fault record of an escalation, and its REASON (R416) -/
  escal  : Option (Nat × Nat)
  /-- registers holding an uncorrectable error (R161 DETAIL 1), by operand code -/
  poisonRegs : List Nat
  /-- in the active set of its partition, otherwise in its pending set (R33) -/
  active : Bool
  /-- a ready group of the pending set: its place in the order in which groups became ready (R33) -/
  since : Option Nat
  /-- a parked group of the active set: how many words it had issued when the scheduler saw it park (R33) -/
  seen : Option Nat
  /-- core and partition of the landing slot that a migrating group travels to (R330) -/
  migTo : Option (Nat × Nat)
deriving DecidableEq, Repr

/-! ### Requests (R148, R215) -/

/-- Where a request stands. -/
inductive ReqPhase where
  | queued
  /-- a watch that holds a watcher slot, or polls without one (R231) -/
  | watching (slot : Bool)
  /-- found no line at its home -/
  | missing
  /-- a copy is on its way: sectors valid, data, poison, WS, LS -/
  | replied (valid : BitVec 4) (data : BitVec 1024) (poison : BitVec 128) (ws ls : Stamp)
  /-- values are known for these lanes; the others came back unserved -/
  | ready (served : List (Nat × DWord)) (unserved : List LaneAcc) (cause detail : Nat) (stamp : Stamp)
  /-- a write is performed and its acknowledgement under way -/
  | acked (stamp : Stamp) (valid : BitVec 4) (data : BitVec 1024) (refused : List LaneAcc) (cause detail : Nat)
deriving DecidableEq, Repr

/-- A request: the lanes of one beat in one 128-byte line (R148, R215). -/
structure Req where
  id    : Nat
  grp   : Nat
  op    : Nat
  core  : Nat
  asid  : Nat
  kind  : ReqKind
  beat  : Nat
  /-- line address divided by 128 -/
  line  : Nat
  size  : Nat
  lanes : List LaneAcc
  stamp : Stamp
  phase : ReqPhase
  /-- waits for a token of another die's bucket (R331) -/
  tokenDie : Option Nat
  /-- a watch whose line has been written completes with what it reads (R231) -/
  woken : Bool
  /-- placement and home of the page's record (R158, R307) -/
  slice : Nat
  /-- table entry of a peer access (R440, R441) -/
  peer  : Option (BitVec 128)
  /-- lease extension that a renewal took with it as it left (R334) -/
  lease : Nat
  /-- a write of the core has been performed since the copy was sent: no cache keeps the copy (R341) -/
  stale : Bool
  /-- a write of a core of its sector has been performed since the copy was sent: the replica slice does not keep it (R339, R344) -/
  passed : Bool
deriving DecidableEq, Repr

/-! ### Cores (07, 08, 09, 10) -/

inductive HandleSt where
  | free | filling | full | draining
deriving DecidableEq, Repr

/-- A bound buffer handle (R204). -/
structure Handle where
  off   : Nat
  size  : Nat
  st    : HandleSt
  reads : Nat
  unbind : Bool
  stamp : Stamp
  /-- the bytes and the uncorrectable words that the range held as it turned full: what engines read (R249) -/
  full  : List Byte
  bad   : List Nat
deriving DecidableEq, Repr

/-- A team and its scratch window in units of 256 bytes (R157, R210). -/
structure Team where
  base : Nat
  size : Nat
deriving DecidableEq, Repr

/-- A line of an L1 (R151). -/
structure L1Line where
  asid : Nat
  line : Nat
  valid : BitVec 4
  data : BitVec 1024
  ws : Stamp
  ls : Stamp
deriving DecidableEq, Repr

/-- A line of the instruction cache (R60, R62, R154); `line` is the address divided by 64. -/
structure ILine where
  asid : Nat
  line : Nat
  data : BitVec 512
  failed : Bool
deriving DecidableEq, Repr

/-- A permission record (R158). -/
structure PlbRec where
  asid : Nat
  vpn  : Nat
  size : Nat
  rights : BitVec 4
  b    : Bool
  place : Nat
  home : Nat
deriving DecidableEq, Repr

/-- A matrix or epilogue command (R245 to R262). -/
structure MCmd where
  id    : Nat
  grp   : Nat
  gid   : Word
  part  : Nat
  asid  : Nat
  instr : Instr
  op    : Nat
  /-- block registers as read at acceptance -/
  regs  : List Word
  batch : Nat
  stamp : Stamp
  /-- operations that must be acknowledged before acceptance -/
  waits : List Nat
  /-- epi: rounding mode, seed and scratch window as R252 and R254 fix them -/
  rnd   : Nat
  seed  : DWord
  win   : Nat × Nat
  /-- failure reason found at acceptance (R247, R253) -/
  fail  : Option Nat
  started : Bool
  step  : Nat
  /-- held for a residency miss, and its address (R250) -/
  held  : Bool
  addr  : Nat
  /-- the descriptor lines of A and B, as read at the start -/
  descs : List Byte
  prov  : DWord
  /-- epi: results to write at completion, with the flags they raise -/
  out   : List Byte
  outFlags : Flags
deriving DecidableEq, Repr

/-- An accumulator tile (R241): 1,024 elements by row-major index, unlisted zero. -/
structure Tile where
  isInt  : Bool
  poison : Bool
  elems  : Tab DWord
deriving DecidableEq, Repr

/-- A closed batch: number, commands unfinished, and the reason of its first failed command. -/
structure Batch where
  num : Nat
  left : Nat
  failed : Option Nat
deriving DecidableEq, Repr

/-- The batches of a group (R256, R260). -/
structure Batches where
  openNum : Nat
  openLeft : Nat
  openUsed : Bool
  openFailed : Option Nat
  closed : List Batch
  failWord : Word
  epiFlags : Flags
deriving DecidableEq, Repr

/-- The stealing state of a core (R263, R264). -/
structure StealSt where
  /-- next position in the order of R263 -/
  pos : Nat
  localFails : Nat
  backoff : Bool
  /-- the closure on its way, and the victim it left -/
  flight : Option (Entry × Nat)
deriving DecidableEq, Repr

/-- A core. The default core has none of it. -/
structure CoreS where
  /-- scratchpad bytes by offset, rising, unlisted zero (R155) -/
  scratch : List Host.Cell
  /-- uncorrectable words by offset / 4 -/
  scratchPoison : List Nat
  /-- arrival stamps of the barrier words (R314) -/
  arrStamp : Tab Stamp
  /-- hot end first (R182) -/
  deque  : List Entry
  handles : Tab Handle
  teams  : Tab Team
  l1     : List L1Line
  icache : List ILine
  plb    : List PlbRec
  /-- next serial and how many are left of the block (R180) -/
  serial : Nat × Nat
  /-- steal domain: pipeline slot and stage, or the launch (R185) -/
  domain : Option (Option (Nat × Nat))
  /-- the stage a draining core moves to (R397) -/
  drainTo : Option (Nat × Nat)
  steal  : StealSt
  /-- tokens for the four dies (R331) -/
  tokens : List Nat
  /-- matrix engine: commands awaiting acceptance, accepted, and epis completing -/
  waiting : List MCmd
  queue  : List MCmd
  epis   : List MCmd
  tiles  : Tab Tile
  batches : Tab Batches
  /-- groups started in each slot, by part × 32 + slot (R27 GEN) -/
  gens   : Tab Nat
  /-- corrected errors (R153) -/
  errors : Nat
deriving DecidableEq, Repr

/-! ### Clusters (11) -/

structure Phaser where
  phase : Nat
  nsig  : Nat
  arr   : Nat
  stamp : Stamp
  cstamp : Stamp
deriving DecidableEq, Repr

/-- A member record (R278): mode 0 sig, 1 wait, 2 sw. -/
structure Member where
  phaser : Nat
  grp    : Nat
  gid    : Word
  mode   : Nat
  sig    : Bool
  next   : Nat
deriving DecidableEq, Repr

/-- A put in progress (R268). -/
structure Put where
  id   : Nat
  grp  : Nat
  op   : Nat
  asid : Nat
  gid  : Word
  core : Nat
  block : List Word
  waits : List Nat
  stamp : Stamp
  started : Bool
  bytes : List Byte
  /-- source words that were uncorrectable, by their number within the transfer -/
  bad  : List Nat
  prov : DWord
deriving DecidableEq, Repr

/-- A multicast in progress (R274). -/
structure Mcast where
  id   : Nat
  grp  : Nat
  op   : Nat
  asid : Nat
  gid  : Word
  core : Nat
  instr : Instr
  block : List Word
  waits : List Nat
  stamp : Stamp
  /-- the tile once it is in the multicast buffer -/
  buf  : Option (List Byte)
  granted : Bool
  left : List Nat
  passed : Nat
  /-- held for a residency miss, and its address (R276) -/
  held  : Bool
  addr  : Nat
  /-- an arrival met an uncorrectable barrier word after the grant -/
  failed : Bool
  prov : DWord
deriving DecidableEq, Repr

structure ClusterS where
  phasers : Tab Phaser
  members : List Member
  puts    : List Put
  mcasts  : List Mcast
deriving DecidableEq, Repr

/-! ### Dies (15, 22) -/

/-- A copy (R321 to R328); `grp` is absent for a COPY packet, which `pkt` names. -/
structure Copy where
  id   : Nat
  grp  : Option Nat
  pkt  : Option Nat
  op   : Nat
  asid : Nat
  gid  : Word
  core : Nat
  imm  : Word
  block : List Word
  waits : List Nat
  stamp : Stamp
  /-- it has an engine, which it keeps to its end (R326) -/
  engine : Bool
  /-- it has begun there: the descriptors of source and destination as read, and the tile's size -/
  started : Bool
  descs : List Byte
  size : Nat
  /-- pieces that are done, by number -/
  done : List Nat
  /-- largest completion stamp, and bytes written -/
  arrStamp : Stamp
  bytes : Nat
  /-- a fault that waits for the pieces before it: reason (0 for a residency miss), resume offset and address -/
  fault : Option (Nat × Nat × Nat)
  held : Bool
  prov : DWord
deriving DecidableEq, Repr

structure DieS where
  copies : List Copy
  coreUp : Bool
  memUp  : Bool
  /-- clock in units of 25 MHz (R450) -/
  clock  : Nat
  hot    : Bool
  errors : Nat
  /-- its cores passed the self-test (R443) -/
  good   : Bool
  /-- the physical cores of logical cores 0 to 107, the spares, and the physical lanes that pipes do not use: physical
  core, pipe and lane (R4, R443) -/
  phys   : List Nat
  spares : List Nat
  badLanes : List (Nat × Nat × Nat)
  /-- its training has ended, and its HBM passed (R442, R444) -/
  trained : Bool
  memGood : Bool
deriving DecidableEq, Repr

/-! ### The L2, the MTUs and memory (15 R306 to R309, 17) -/

/-- A line of an L2 slice (R306). -/
structure L2Line where
  asid : Nat
  line : Nat
  home : Bool
  valid : BitVec 4
  dirty : BitVec 128
  data : BitVec 1024
  poison : BitVec 128
  ws : Stamp
  ls : Stamp
  /-- provenance of the four sectors (R366) -/
  prov : Vector DWord 4
deriving DecidableEq, Repr

/-- A watcher slot (R231). -/
structure Watcher where
  slice : Nat
  asid  : Nat
  line  : Nat
  req   : Nat
deriving DecidableEq, Repr

/-- A frame table entry (R359). -/
structure Frame where
  st   : Nat
  ac   : Bool
  q    : Bool
  rcount : Nat
  asid : Nat
  va   : Nat
deriving DecidableEq, Repr

/-- What a held entry does when it is replayed (R365). -/
inductive HeldKind where
  | data (bytes : BitVec 1024) (mask : BitVec 128) (poison : BitVec 128)
  | op (major : Nat) (kind : ReqKind) (t : Ty) (addr operand cmp : DWord)
deriving DecidableEq, Repr

/-- A held entry of the Cul-de-sacs (R365), in arrival order over the package. -/
structure Held where
  ctl   : Nat
  spill : Bool
  asid  : Nat
  line  : Nat
  kind  : HeldKind
  prov  : Vector DWord 4
deriving DecidableEq, Repr

/-- A controller's frame sweeper, cold queue and spill area (R369, R376). -/
structure Ctl where
  hand : Nat
  low  : Nat
  high : Nat
  running : Bool
  cold : List (Nat × Nat × Nat)
  spill : List (Nat × Nat)
deriving DecidableEq, Repr

/-! ### Contexts (19) -/

inductive CtxState where
  | running | saved | halted | ended | torn
deriving DecidableEq, Repr

/-- The context-scope registers (R140, R177, R232, R264, R331, R334, R372, R398, R440). -/
structure CtxRegs where
  elbase : DWord
  elctl  : Word
  elseq  : Word
  farena : DWord
  falen  : Word
  ifsize : Word
  stageahead : Word
  watchpoll : Word
  stealxd : Word
  tbucket : Word
  lease  : Word
  frbase : DWord
  frctl  : Word
  rbinterval : Word
  peertab : DWord
  /-- initial K_TRAPVEC, K_TRAPBUDGET and K_SRSEED of groups (R411) -/
  trapvec : DWord
  trapbudget : Word
  seed   : DWord
  /-- the core's copy of the peer table (R440) -/
  peers  : List (BitVec 128)
deriving DecidableEq, Repr

/-- A section of the save area: KIND, number and content (R419). -/
structure Section where
  kind : Nat
  unit : Nat
  body : List Byte
deriving DecidableEq, Repr

/-- A saved context (R418, R419). -/
structure SavedCtx where
  shape   : List (Nat × Nat)
  groups  : List (Nat × Group)
  cores   : List (Nat × CoreS)
  clusters : List (Nat × ClusterS)
  copies  : List (Nat × Copy)
  /-- the sections as they were written -/
  image   : List Section
  /-- a rebase has come since: the restore gives every stamp as zero (R349) -/
  rebased : Bool
deriving DecidableEq, Repr

structure Context where
  st   : CtxState
  haltReason : Nat
  /-- the Forum has dealt with the halt -/
  stopped  : Bool
  clusters : List Nat
  regs : CtxRegs
  desc : DWord
  descAsid : Nat
  saveAddr : DWord
  saveLen : Nat
  notify : DWord
  pkt  : Option Nat
  pipe : Option Nat
  root : DWord
  rootFuture : DWord
  discarded : Bool
  rootDone : Bool
  serialBlocks : Nat
  saved : Option SavedCtx
deriving DecidableEq, Repr

/-! ### Pipelines (18) -/

/-- A record slot of an Arcade (R382, R386). -/
structure Slot where
  /-- the group that issued the enq -/
  grp : Nat
  clo : Closure
  stamp : Stamp
  visible : Bool
  waits : List Nat
  poison : Bool
  num : Nat
deriving DecidableEq, Repr

structure Stage where
  entry : DWord
  need  : Word
  cap   : Nat
  from' : Nat
  weight : Nat
  min   : Nat
  max   : Nat
  slots : List Slot
  /-- waiting enqs in arrival order: the group and the record it will reserve a slot for (R386) -/
  waits : List (Nat × Slot)
  /-- streams closed: stage numbers, 16 for the root -/
  closed : List Nat
  retired : Bool
  nextSlot : Nat
deriving DecidableEq, Repr

structure Pipe where
  asid : Nat
  home : Nat
  hyst : Nat
  ways : Nat
  rootCore : Nat
  rootDone : Bool
  stages : List Stage
  /-- assignment of the cores of the allotment: core, stage (R394) -/
  assigned : Tab Nat
  unassigned : List Nat
deriving DecidableEq, Repr

/-! ### The Forum (19) -/

/-- A queue as the Forum holds it (R401, R403, R409). -/
structure Queue where
  mapped : Bool
  /-- order in which it was unmapped or registered -/
  since : Nat
  base : DWord
  log2n : Nat
  asid : Nat
  qp   : Bool
  priv : Bool
  quantum : Nat
  read : Nat
  write : Nat
  latch : Bool
  /-- a malformed or faulting descriptor was met (R401) -/
  bad  : Bool
  /-- its descriptor was registered when the Forum last looked (R401, R403) -/
  reg  : Bool
  /-- WRITE slots of a QP queue not yet takeable: slot and awaited operations (R410) -/
  puts : List (Nat × List Nat × Nat)
deriving DecidableEq, Repr

/-- A packet taken and not complete. -/
structure Packet where
  id    : Nat
  queue : Nat
  slot  : DWord
  asid  : Nat
  priv  : Bool
  /-- the 64 bytes as taken (R402) -/
  bytes : List Byte
  /-- BARRIER-AND: which of the six signals have settled, and whether one read negative (R408) -/
  settled : List Bool
  negative : Bool
  /-- LAUNCH or PIPELINE: checked and waiting for clusters; started once placed -/
  checked : Bool
  started : Bool
  /-- LAUNCH or PIPELINE once checked: the context that will be placed, the root closure's address, and the
  pipeline with its slot -/
  ctx  : Option Context
  root : Nat
  pipe : Option (Nat × Pipe)
  code  : Option (Nat × Nat)
deriving DecidableEq, Repr

/-- An item that a RESUME packet may answer (R416). -/
inductive WItem where
  | group (grp : Nat)
  | cmd (core id : Nat)
  | copy (die id : Nat)
  | mcast (cluster id : Nat)
  | staging (core serial : Nat)
deriving DecidableEq, Repr

/-- A fault record that waits for room in its ring (R373). -/
structure RingWait where
  id   : Nat
  asid : Nat
  /-- die of the unit that writes it -/
  die  : Nat
  /-- the claimed k, once claimed -/
  seq  : Option Nat
  /-- bytes 8 to 63 of the record -/
  bytes : List Byte
  item : Option WItem
deriving DecidableEq, Repr

/-! ### Boot, host, peers (22) -/

inductive BootSt where
  /-- without power (R447) -/
  | off
  | selftest | train0 | load | measure | early | run | failed
deriving DecidableEq, Repr

/-- An access of the host or of a peer module that has arrived: one through the aperture with the ASID and the address that K_APASID
and K_APBASE gave it, one of the firmware window with its offset there (no bytes: a read) (R437, R438, R440). -/
inductive HostAccess where
  | write (asid va : Nat) (bytes : List Byte)
  | read (asid va size : Nat)
  | firmware (offset : Nat) (bytes : Option (List Byte))
  | doorbell (queue : Nat)
  | peer (asid va : Nat) (op : PeerOp)
deriving DecidableEq, Repr

/-- The management registers of R452 and the records of R445. -/
structure HostS where
  boot   : BootSt
  err    : Bool
  drift  : Bool
  noman  : Bool
  hot    : Bool
  fwlen  : Word
  fw     : List Host.Cell
  qtable : DWord
  apbase : DWord
  apasid : Word
  hosterr : Word
  domctl : Word
  pcap   : DWord
  avstat : List (BitVec 16)
  nonce  : BitVec 256
  meas0  : BitVec 384
  meas1  : BitVec 384
  meas2  : BitVec 384
  idkey  : BitVec 776
  record : BitVec 2304
  /-- a scrub is under way (R446) -/
  scrubbing : Bool
  /-- MSI-X messages sent: vectors, oldest first -/
  msix   : List Nat
  /-- the last answer to the host or a peer: bytes, and 0 success, 1 abort or refusal, 2 poisoned, 3 not present -/
  answer : List Byte × Nat
  /-- what became of each lane of a peer's atomic, the last answer: 0 performed, 4 deferred by the home (R359), else the code of its failure (R226, R441) -/
  answerLanes : List Nat
  boots  : Nat
  /-- the port that a context's traffic to a peer module keeps, by ASID × 4,096 + module (R441) -/
  peerPorts : Tab Nat
  /-- accesses that wait behind one that met a set without room, oldest first (R369, R438) -/
  waits : List HostAccess
deriving DecidableEq, Repr

/-- A turn of the machine (assumption 1). -/
inductive Turn where
  | issue (grp : Nat)
  | event (i : Instr)
deriving DecidableEq, Repr

/-- The machine. -/
structure State where
  groups   : Tab Group
  requests : List Req
  cores    : Tab CoreS
  clusters : Tab ClusterS
  dies     : Vector DieS 4
  /-- the 192 slices (R306), most recently used line first -/
  slices   : Tab (List L2Line)
  /-- floor stamps by slice × 256 + ASID (R309) -/
  floors   : Tab Stamp
  watchers : List Watcher
  /-- HBM (R351): rising addresses, unlisted zero -/
  hbm      : List Host.Cell
  /-- uncorrectable 32-byte sectors by PA / 32, and those of them that carry a poison mark (R377) -/
  hbmPoison : List Nat
  hbmMarked : List Nat
  frames   : Tab Frame
  /-- frames that the MTUs own from power-on: ranges of the frame tables and cold queues, and those kept for page tables
  (R359, R360) -/
  metaFrames : List (Nat × Nat)
  tableFrames : List Nat
  /-- physical address of the level 0 table of each ASID (R353) -/
  roots    : Tab Nat
  /-- uncorrectable page table entries by PA -/
  badPtes  : List Nat
  pools    : Tab (List Nat)
  held     : List Held
  ctls     : Tab Ctl
  contexts : Tab Context
  pipes    : Tab Pipe
  queues   : Tab Queue
  packets  : Tab Packet
  waitItems : List (Nat × Nat × WItem)
  ringWaits : List RingWait
  rebases  : List Nat
  host     : HostS
  /-- the model's own: agenda, issuing group, next key, count of issues, place of the arbiter -/
  agenda   : List Turn
  cur      : Nat
  nextId   : Nat
  ticks    : Nat
  turns    : Nat
  /-- within a turn: an access met a set that cannot take its line, so the turn waits; and the contexts that the
  turn has found without room for their held bytes (R369) -/
  blocked  : Bool
  overflowed : List Nat
  /-- the choices of the speculative reads to come (R371); with none left nothing is read ahead -/
  ahead    : List (List Nat)
deriving DecidableEq, Repr

/-- Reasons to stop with a fault. The spec describes none: every failure it names leaves the machine in
a next state (a trap, a failed command, a boot state FAILED), so there is no constructor. Safe. -/
inductive Fault where
deriving DecidableEq, Repr

/-- Reasons to refuse. -/
inductive Refusal where
  /-- an instruction whose meaning is not written yet; raised by Dispatch alone. Safe. -/
  | notModelled (mnemonic : String)
deriving DecidableEq, Repr

/-! ### Reset -/

/-- A core that has done nothing. -/
def CoreS.empty : CoreS :=
  { scratch := [], scratchPoison := [], arrStamp := [], deque := [], handles := [], teams := [], l1 := [], icache := []
    plb := [], serial := (1, 0), domain := none, drainTo := none
    steal := { pos := 0, localFails := 0, backoff := false, flight := none }
    tokens := [64, 64, 64, 64], waiting := [], queue := [], epis := [], tiles := [], batches := [], gens := []
    errors := 0 }

def ClusterS.empty : ClusterS := { phasers := [], members := [], puts := [], mcasts := [] }

def DieS.reset : DieS :=
  { copies := [], coreUp := false, memUp := false, clock := 96, hot := false, errors := 0, good := false, phys := [], spares := []
    badLanes := [], trained := false, memGood := false }

def HostS.reset : HostS :=
  { boot := .selftest, err := false, drift := false, noman := false, hot := false, fwlen := 0, fw := [], qtable := 0
    apbase := 0, apasid := 0, hosterr := 0, domctl := 0xFF, pcap := 0x0258025802580258
    avstat := List.replicate 16 0, nonce := 0, meas0 := 0, meas1 := 0, meas2 := 0, idkey := 0, record := 0
    scrubbing := false, msix := [], answer := ([], 0), answerLanes := [], boots := 0, peerPorts := [], waits := [] }

/-- The frames of the frame table and the cold queue of every controller: 4,096 and 64 frames among its own 2^22 (R359, R376;
their place is free, assumption 14). -/
def metaRanges : List (Nat × Nat) :=
  (List.range 8).map (fun g => (g * 2 ^ 22 + Config.metaFrames g % (2 ^ 22 - 4159), 4160))

/-- The frames that the MTUs keep for page tables (R360): frames of the memory, each once, and none of the frame tables. -/
def keptFrames : List Nat :=
  ((Config.tableFrames.map (fun f => f % 2 ^ 25)).eraseDups).filter (fun f => !metaRanges.any (fun r => decide (r.1 ≤ f ∧ f < r.1 + r.2)))

/-- The machine right after power-on: the boot ROM in SELFTEST (R442), no context, no group. -/
def State.reset : State :=
  { groups := [], requests := [], cores := [], clusters := []
    dies := ⟨#[DieS.reset, DieS.reset, DieS.reset, DieS.reset], rfl⟩
    slices := [], floors := [], watchers := [], hbm := [], hbmPoison := [], hbmMarked := [], frames := []
    metaFrames := metaRanges, tableFrames := keptFrames, roots := [], badPtes := []
    pools := [], held := [], ctls := [], contexts := [], pipes := [], queues := [], packets := [], waitItems := []
    ringWaits := [], rebases := [], host := HostS.reset, agenda := [], cur := 0, nextId := 1, ticks := 0, turns := 0
    blocked := false, overflowed := [], ahead := Config.ahead }

end Sys2Proof.Machine
end

