-- ==== Sys2Proof/Machine/Base.lean ====
section
/-! DEFINITION. Tables, byte memories, lines and registers: the plain reads and writes that every other
operation is made of. -/

namespace Sys2Proof.Machine

/-! ### Tables -/

def tabGet? {α : Type} (t : Tab α) (k : Nat) : Option α :=
  match t with
  | [] => none
  | (i, a) :: r => if i = k then some a else tabGet? r k

def tabGet {α : Type} (t : Tab α) (k : Nat) (d : α) : α := (tabGet? t k).getD d

/-- Replaces the entry of a key, or adds one at the end. -/
def tabPut {α : Type} (t : Tab α) (k : Nat) (a : α) : Tab α :=
  match t with
  | [] => [(k, a)]
  | (i, b) :: r => if i = k then (k, a) :: r else (i, b) :: tabPut r k a

def tabDel {α : Type} (t : Tab α) (k : Nat) : Tab α := t.filter (fun p => p.1 != k)

/-- Changes every value of a table. -/
def tabMap {α : Type} (t : Tab α) (f : α → α) : Tab α := t.map (fun p => (p.1, f p.2))

/-- The least value of a list. -/
def listMin? (l : List Nat) : Option Nat :=
  l.foldl (fun m x => match m with | none => some x | some y => some (min x y)) none

/-- The least number from 0 below `n` that a list does not hold. -/
def firstFree (n : Nat) (used : List Nat) : Option Nat := (List.range n).find? (fun k => !used.contains k)

/-! ### Byte memories in canonical form: rising addresses, unlisted bytes zero -/

def cellRead (m : List Host.Cell) (a : Nat) : Byte :=
  match m with
  | [] => 0
  | (i, b) :: r => if i = a then b else if a < i then 0 else cellRead r a

def cellWrite (m : List Host.Cell) (a : Nat) (v : Byte) : List Host.Cell :=
  match m with
  | [] => if v = 0 then [] else [(a, v)]
  | (i, b) :: r =>
    if a < i then (if v = 0 then (i, b) :: r else (a, v) :: (i, b) :: r)
    else if i = a then (if v = 0 then r else (a, v) :: r)
    else (i, b) :: cellWrite r a v

/-- Bytes written at rising addresses. -/
def cellWrites (m : List Host.Cell) (a : Nat) (bs : List Byte) : List Host.Cell :=
  match bs with
  | [] => m
  | b :: r => cellWrites (cellWrite m a b) (a + 1) r

def cellReads (m : List Host.Cell) (a n : Nat) : List Byte := (List.range n).map (fun k => cellRead m (a + k))

/-- The canonical form: addresses strictly rising, no listed zero. -/
def cellsWf (m : List Host.Cell) : Bool :=
  match m with
  | [] => true
  | [(_, b)] => b != 0
  | (a, b) :: (a', b') :: r => b != 0 && a < a' && cellsWf ((a', b') :: r)

/-! ### Little-endian values (R7) -/

/-- The value of bytes, the first lowest. -/
def bytesVal (bs : List Byte) : Nat := bs.foldr (fun b acc => b.toNat + 256 * acc) 0

/-- The `n` low bytes of a value. -/
def valBytes (n v : Nat) : List Byte := (List.range n).map (fun k => BitVec.ofNat 8 (v / 256 ^ k))

/-- Part of a byte list as a value. -/
def bytesAt (bs : List Byte) (off n : Nat) : Nat := bytesVal ((bs.drop off).take n)

/-! ### Lines of 128 bytes: byte k is bits 8k+7 to 8k -/

def lineByte (d : BitVec 1024) (k : Nat) : Byte := d.extractLsb' (8 * k) 8
def lineBytes (d : BitVec 1024) (off n : Nat) : List Byte := (List.range n).map (fun k => lineByte d (off + k))
def lineVal (d : BitVec 1024) (off n : Nat) : Nat := (d.toNat / 2 ^ (8 * off)) % 2 ^ (8 * n)
def bytesLine (bs : List Byte) : BitVec 1024 := BitVec.ofNat 1024 (bytesVal bs)

/-- The mask of `n` bytes from `off`. -/
def byteMask (off n : Nat) : BitVec 128 := BitVec.ofNat 128 ((2 ^ n - 1) * 2 ^ off)

/-- A byte mask spread over bits. -/
def bitMask (m : BitVec 128) : BitVec 1024 :=
  BitVec.ofNat 1024 ((List.range 128).foldl (fun acc k => if m.getLsbD k then acc + 255 * 2 ^ (8 * k) else acc) 0)

/-- The bytes of `new` under the mask, those of `old` elsewhere. -/
def lineMerge (old new : BitVec 1024) (m : BitVec 128) : BitVec 1024 :=
  let b := bitMask m
  (old &&& ~~~ b) ||| (new &&& b)

/-- Bytes placed at an offset of a line of zeros. -/
def lineOf (off : Nat) (bs : List Byte) : BitVec 1024 := BitVec.ofNat 1024 (bytesVal bs * 2 ^ (8 * off))

/-- The byte mask of the sectors of a sector mask (R151, R306). -/
def sectorBytes (v : BitVec 4) : BitVec 128 :=
  (List.range 4).foldl (fun acc k => if v.getLsbD k then acc ||| byteMask (32 * k) 32 else acc) 0

/-- The sectors that hold a byte of a mask. -/
def bytesSectors (m : BitVec 128) : BitVec 4 :=
  BitVec.ofNat 4 ((List.range 4).foldl (fun acc k => if m &&& byteMask (32 * k) 32 = 0 then acc else acc + 2 ^ k) 0)

/-! ### Lanes -/

def maskLanes (m : LaneMask) : List Nat := (List.range 96).filter (fun i => m.getLsbD i)
def lanesMask (l : List Nat) : LaneMask := l.foldl (fun m i => m ||| BitVec.ofNat 96 (2 ^ i)) 0
def allLanes : LaneMask := BitVec.allOnes 96
def lowestLane (m : LaneMask) : Nat := ((List.range 96).find? (fun i => m.getLsbD i)).getD 0xFF

/-- A vector register from its lanes. -/
def vregOf (f : Nat → Word) : VReg := ⟨((List.range 96).map f).toArray, by simp⟩
def vregZero : VReg := vregOf (fun _ => 0)
def vregAt (v : VReg) (i : Nat) : Word := (v.toArray[i]?).getD 0

/-! ### Parts of the state -/

def State.group? (s : State) (g : Nat) : Option Group := tabGet? s.groups g
def State.setGroup (s : State) (g : Nat) (x : Group) : State := { s with groups := tabPut s.groups g x }
def State.modGroup (s : State) (g : Nat) (f : Group → Group) : State :=
  match s.group? g with
  | some x => s.setGroup g (f x)
  | none => s
def State.core (s : State) (c : Nat) : CoreS := tabGet s.cores c CoreS.empty
def State.setCore (s : State) (c : Nat) (x : CoreS) : State := { s with cores := tabPut s.cores c x }
def State.modCore (s : State) (c : Nat) (f : CoreS → CoreS) : State := s.setCore c (f (s.core c))
def State.cluster (s : State) (k : Nat) : ClusterS := tabGet s.clusters k ClusterS.empty
def State.modCluster (s : State) (k : Nat) (f : ClusterS → ClusterS) : State :=
  { s with clusters := tabPut s.clusters k (f (s.cluster k)) }
def State.die (s : State) (d : Nat) : DieS := (s.dies.toArray[d]?).getD DieS.reset
def State.modDie (s : State) (d : Nat) (f : DieS → DieS) : State :=
  if h : d < 4 then { s with dies := s.dies.set d (f (s.die d)) h } else s
def State.slice (s : State) (k : Nat) : List L2Line := tabGet s.slices k []
def State.setSlice (s : State) (k : Nat) (l : List L2Line) : State := { s with slices := tabPut s.slices k l }
def State.context? (s : State) (a : Nat) : Option Context := tabGet? s.contexts a
def State.modContext (s : State) (a : Nat) (f : Context → Context) : State :=
  match s.context? a with
  | some c => { s with contexts := tabPut s.contexts a (f c) }
  | none => s
/-- The MTUs own a frame from power-on. -/
def State.ownsFrame (s : State) (f : Nat) : Bool :=
  s.metaFrames.any (fun r => decide (r.1 ≤ f ∧ f < r.1 + r.2)) || s.tableFrames.contains f
/-- The frame table entry of a frame (R359). -/
def State.frame (s : State) (f : Nat) : Frame := tabGet s.frames f ⟨if s.ownsFrame f then 3 else 0, false, false, 0, 0, 0⟩
def State.modFrame (s : State) (f : Nat) (h : Frame → Frame) : State := { s with frames := tabPut s.frames f (h (s.frame f)) }
def State.ctl (s : State) (g : Nat) : Ctl := tabGet s.ctls g ⟨0, 0, 0, false, [], []⟩
def State.modCtl (s : State) (g : Nat) (f : Ctl → Ctl) : State := { s with ctls := tabPut s.ctls g (f (s.ctl g)) }
def State.modReq (s : State) (id : Nat) (f : Req → Req) : State :=
  { s with requests := s.requests.map (fun r => if r.id = id then f r else r) }
def State.req? (s : State) (id : Nat) : Option Req := s.requests.find? (fun r => r.id = id)
def State.dropReq (s : State) (id : Nat) : State := { s with requests := s.requests.filter (fun r => r.id != id) }
def State.modPacket (s : State) (id : Nat) (f : Packet → Packet) : State :=
  match tabGet? s.packets id with
  | some p => { s with packets := tabPut s.packets id (f p) }
  | none => s
def State.modQueue (s : State) (q : Nat) (f : Queue → Queue) : State :=
  match tabGet? s.queues q with
  | some x => { s with queues := tabPut s.queues q (f x) }
  | none => s
def State.modPipe (s : State) (p : Nat) (f : Pipe → Pipe) : State :=
  match tabGet? s.pipes p with
  | some x => { s with pipes := tabPut s.pipes p (f x) }
  | none => s

/-- A key that no group, request or command has had. -/
def State.fresh (s : State) : State × Nat := ({ s with nextId := s.nextId + 1 }, s.nextId)

/-- A message-signalled interrupt to the host (R436). -/
def State.msix (s : State) (v : Nat) : State := { s with host := { s.host with msix := s.host.msix ++ [v] } }

/-- Sets a bit of K_HOSTERR; a bit that rises sends MSI-X vector 0 (R452). -/
def State.hostErr (s : State) (bit : Nat) : State :=
  if s.host.hosterr.getLsbD bit then s
  else ({ s with host := { s.host with hosterr := s.host.hosterr ||| BitVec.ofNat 32 (2 ^ bit) } }).msix 0

/-! ### Numbering (R5, R6) -/

def coreDie (c : Nat) : Nat := c / 108
def coreCluster (c : Nat) : Nat := c / 12
def coreSector (c : Nat) : Nat := c / 36 % 3
def sliceDie (k : Nat) : Nat := k / 48
/-- The cores of the context that holds a cluster have package cluster number die × 9 + c. -/
def clusterDie (k : Nat) : Nat := k / 9

/-! ### Registers of a group -/

def Group.s (g : Group) (n : Nat) : Word := (g.sregs.toArray[n]?).getD 0
def Group.setS (g : Group) (n : Nat) (v : Word) : Group :=
  if h : n < 64 then { g with sregs := g.sregs.set n v h } else g
def Group.spair (g : Group) (n : Nat) : DWord := g.s (n + 1) ++ g.s n
def Group.vreg (g : Group) (n : Nat) : VReg := tabGet g.vregs n vregZero
def Group.v (g : Group) (n lane : Nat) : Word := vregAt (g.vreg n) lane

/-- Writes the lanes of a mask of a vector register; the others keep their values (R20). -/
def Group.setV (g : Group) (n : Nat) (m : LaneMask) (f : Nat → Word) : Group :=
  if m = 0 then g
  else { g with vregs := tabPut g.vregs n (vregOf (fun i => if m.getLsbD i then f i else g.v n i)) }

/-- The triple whose beat-0 register is s`n` (R17). -/
def Group.triple (g : Group) (n : Nat) : LaneMask := g.s (n + 2) ++ (g.s (n + 1) ++ g.s n)
def Group.setTriple (g : Group) (n : Nat) (m : LaneMask) : Group :=
  ((g.setS n (m.extractLsb' 0 32)).setS (n + 1) (m.extractLsb' 32 32)).setS (n + 2) (m.extractLsb' 64 32)

/-- The activity mask (R17). -/
def Group.am (g : Group) : LaneMask := g.triple 61
def Group.setAm (g : Group) (m : LaneMask) : Group := g.setTriple 61 m

/-- The effective mask of R19, or the lanes of a replay of sysret (R165), which belongs to user mode (R168). -/
def Group.em (g : Group) (ms : Nat) (mn : Bool) : LaneMask :=
  match (if g.sup then none else g.replay) with
  | some m => m
  | none => if ms = 0 then g.am else if mn then g.am &&& ~~~ g.triple (37 + 3 * ms) else g.am &&& g.triple (37 + 3 * ms)

/-- The registers of a group that starts (R30), with the closure's arguments in s0 to s17. -/
def startSregs (args : List Word) : Vector Word 64 :=
  ⟨((List.range 64).map (fun n => if n < 18 then args.getD n 0 else if n < 61 then 0 else 0xFFFFFFFF)).toArray, by simp⟩

/-- The word address rule of R64. -/
def wordAddress (pc : DWord) : Bool := (pc.toNat % 64) % 12 == 0 && pc.toNat % 64 ≤ 48
/-- Slot of a word address. A resume PC that software has made no word address, in an inline save area or a save record, is fetched
from the slot of the next lower word address of its line, without a trap (DESIGN CHOICE, assumption 52: R64 gives no outcome). -/
def pcSlot (pc : DWord) : Nat := min (pc.toNat % 64 / 12) 4
def pcLine (pc : DWord) : Nat := pc.toNat / 64
/-- The word that follows sequentially (R64). -/
def nextPc (pc : DWord) : DWord := if pcSlot pc < 4 then pc + 12 else pc + 16
/-- Any of bits 63:58 set (R350). -/
def highBits (a : DWord) : Bool := a.extractLsb' 58 6 != 0
/-- Peer space (R440). -/
def peerSpace (a : DWord) : Bool := a.extractLsb' 56 8 == 4
/-- The ASID that tags an address of a context (R352). -/
def tagAsid (asid : Nat) (va : Nat) : Nat := if va / 2 ^ 57 % 2 = 1 then 0 else asid

end Sys2Proof.Machine
end

