-- ==== Sys2Proof/Machine/Translate.lean ====
section
/-! DEFINITION. Page tables and the walk of the MTUs (R350 to R359), home slices (R307) and physical
memory (R351, R377). -/

namespace Sys2Proof.Machine

/-! ### Page table entries (R354) -/

def pteV (e : DWord) : Bool := e.getLsbD 0
def pteP (e : DWord) : Bool := e.getLsbD 1
def pteFT (e : DWord) : Bool := e.getLsbD 2
/-- R, W, X, A as bits 0 to 3. -/
def pteRights (e : DWord) : BitVec 4 := e.extractLsb' 5 4
def pteB (e : DWord) : Bool := e.getLsbD 9
def pteLeaf (e : DWord) : Bool := e.getLsbD 10
def ptePlace (e : DWord) : Nat := (e.extractLsb' 11 2).toNat
def pteHome (e : DWord) : Nat := (e.extractLsb' 13 8).toNat
def pteHset (e : DWord) : Bool := e.getLsbD 21
/-- FRAME: PA bits 51:14. -/
def pteFrame (e : DWord) : Nat := (e.extractLsb' 22 38).toNat

def setBit (e : DWord) (k : Nat) (b : Bool) : DWord :=
  let m : DWord := BitVec.ofNat 64 (2 ^ k)
  if b then e ||| m else e &&& ~~~ m
def setField (e : DWord) (lo len v : Nat) : DWord :=
  (e &&& ~~~ (BitVec.ofNat 64 ((2 ^ len - 1) * 2 ^ lo))) ||| BitVec.ofNat 64 (v % 2 ^ len * 2 ^ lo)

/-- log2 of the size of a page mapped at a level (R350). -/
def levelBits (level : Nat) : Nat := if level = 1 then 36 else if level = 2 then 25 else 14
/-- SIZE of the record and of fltrd: 0 16 KiB, 1 32 MiB, 2 64 GiB. -/
def levelSize (level : Nat) : Nat := 3 - level
/-- Frames of a page at a level. -/
def levelFrames (level : Nat) : Nat := 2 ^ (levelBits level - 14)

/-- The malformed entries of R353. -/
def pteMalformed (e : DWord) (level : Nat) : Bool :=
  e.extractLsb' 60 4 != 0 || e.extractLsb' 3 2 != 0 ||
  (if pteLeaf e then level == 0 || pteFrame e % levelFrames level != 0 || ptePlace e == 3
   else level == 3 || e &&& ~~~ (setField 0x401 22 38 (2 ^ 38 - 1)) != 0)

/-! ### Physical memory (R351) -/

def ctlOf (pa : Nat) : Nat := pa / 2 ^ 36 % 8
def paDie (pa : Nat) : Nat := ctlOf pa / 2
/-- Device memory ends at 512 GiB. -/
def inMemory (pa : Nat) : Bool := pa < 2 ^ 39
def memUp (s : State) (die : Nat) : Bool := (s.die die).memUp

def readPte (s : State) (pa : Nat) : DWord := BitVec.ofNat 64 (bytesVal (cellReads s.hbm pa 8))
def writePte (s : State) (pa : Nat) (e : DWord) : State :=
  { s with hbm := cellWrites s.hbm pa (valBytes 8 e.toNat), badPtes := s.badPtes.filter (· != pa) }
def badPte (s : State) (pa : Nat) : Bool := s.badPtes.contains pa || s.hbmPoison.contains (pa / 32)

/-- A line of HBM and its poisoned bytes. -/
def hbmLine (s : State) (pa : Nat) : BitVec 1024 × BitVec 128 :=
  (bytesLine (cellReads s.hbm pa 128),
   (List.range 4).foldl (fun m k => if s.hbmPoison.contains (pa / 32 + k) then m ||| byteMask (32 * k) 32 else m) 0)

/-- Writes the bytes of a mask into a line of HBM. A sector that takes poisoned bytes is marked, and a
write of all 32 bytes of a sector without poison clears its mark (R377). -/
def hbmWriteLine (s : State) (pa : Nat) (d : BitVec 1024) (m poison : BitVec 128) : State :=
  let hbm := (List.range 128).foldl (fun h k => if m.getLsbD k then cellWrite h (pa + k) (lineByte d k) else h) s.hbm
  let marks (l : List Nat) : List Nat := (List.range 4).foldl (fun l k =>
    let sec := byteMask (32 * k) 32
    if m &&& poison &&& sec != 0 then (if l.contains (pa / 32 + k) then l else (pa / 32 + k) :: l)
    else if m &&& sec = sec then l.filter (· != pa / 32 + k) else l) l
  { s with hbm := hbm, hbmPoison := marks s.hbmPoison, hbmMarked := marks s.hbmMarked }

/-- The accessed bit of a frame (R358). -/
def setAccessed (s : State) (pa : Nat) : State := s.modFrame (pa / 2 ^ 14) (fun f => { f with ac := true })

/-! ### The walk (R353) -/

inductive Walk where
  /-- a valid leaf, its level and the physical address of the entry -/
  | leaf (e : DWord) (level pte : Nat)
  | invalid
  | malformed
  | poison
deriving DecidableEq, Repr

def walkFrom (s : State) (va : Nat) (levels : List Nat) (t : Nat) : Walk :=
  match levels with
  | [] => .malformed
  | level :: rest =>
    let pte := t + 8 * (va / 2 ^ (47 - 11 * level) % 2 ^ 11)
    let e := readPte s pte
    if badPte s pte then .poison
    else if !pteV e then .invalid
    else if pteMalformed e level then .malformed
    else if pteLeaf e then .leaf e level pte
    else walkFrom s va rest (pteFrame e * 2 ^ 14)

/-- The tables of an ASID, or of ASID 0 for the shared window (R352). An ASID without a level 0 table
has no valid page. -/
def walk (s : State) (asid va : Nat) : Walk :=
  match tabGet? s.roots (tagAsid asid va) with
  | none => .invalid
  | some t => if va < 2 ^ 58 then walkFrom s va [0, 1, 2, 3] t else .invalid

/-- A walk by an MTU of a die: a malformed entry is counted and answers INVALID (R355), and the first
walk of a DIE page sets its home die (R357). -/
def mtuWalk (s : State) (die asid va : Nat) : State × Walk :=
  match walk s asid va with
  | .malformed => (s.modDie die (fun d => { d with errors := d.errors + 1 }), .invalid)
  | .leaf e level pte =>
    if ptePlace e = 1 ∧ pteHset e = false then
      let e' := setField (setBit e 21 true) 13 8 die
      (writePte s pte e', .leaf e' level pte)
    else (s, .leaf e level pte)
  | w => (s, w)

/-- The physical address of a virtual address under a leaf. -/
def leafPa (e : DWord) (level va : Nat) : Nat := pteFrame e * 2 ^ 14 + va % 2 ^ levelBits level

/-! ### Home slices (R307, R308) -/

def lineHash (va : Nat) : Nat :=
  let n := va / 128 % 2 ^ 51
  (n % 2 ^ 17) ^^^ (n / 2 ^ 17 % 2 ^ 17) ^^^ (n / 2 ^ 34 % 2 ^ 17)

def homeSlice (place home va : Nat) : Nat :=
  if place = 0 then lineHash va % 192 else if place = 1 then 48 * home + lineHash va % 48 else home

/-- The replica slice of a core (R308). -/
def replicaSlice (core va : Nat) : Nat := 48 * coreDie core + 16 * coreSector core + lineHash va % 16

/-- A home lies in the core's own sector. -/
def sameSector (core slice : Nat) : Bool := slice / 16 == coreDie core * 3 + coreSector core

/-! ### Permission records (R158, R159) -/

/-- The record of a leaf. -/
def leafRec (asid va : Nat) (e : DWord) (level : Nat) : PlbRec :=
  { asid := tagAsid asid va, vpn := va / 2 ^ levelBits level, size := levelSize level, rights := pteRights e, b := pteB e
    place := ptePlace e, home := pteHome e }

/-- log2 of the page size of a record. -/
def recBits (r : PlbRec) : Nat := if r.size = 0 then 14 else if r.size = 1 then 25 else 36
def recCovers (r : PlbRec) (asid va : Nat) : Bool := r.asid == tagAsid asid va && r.vpn == va / 2 ^ recBits r

/-- Rights as needs: R 1, W 2, X 4, A 8, and 16 for an access that a B page refuses, 32 for one that
needs a B page. The answer is DETAIL of a permission trap: zero when the access is allowed. -/
def missing (r : PlbRec) (need : Nat) : Nat :=
  let rights := (need % 16) &&& (15 - r.rights.toNat)
  rights + (if (need / 16 % 2 = 1 && r.b) || (need / 32 % 2 = 1 && !r.b) then 16 else 0)

/-- A check by the MTUs of a die, for accesses that no PLB checks (R323, R356): the record, or CAUSE and
DETAIL. -/
def mtuCheck (s : State) (die asid va need : Nat) : State × Except (Nat × Nat) PlbRec :=
  if va ≥ 2 ^ 58 then (s, .error (5, 0))
  else
    match mtuWalk s die asid va with
    | (s, .leaf e level _) =>
      let r := leafRec asid va e level
      let m := missing r need
      if m = 0 then (s, .ok r) else (s, .error (6, m))
    | (s, .poison) => (s, .error (11, 3))
    | (s, _) => (s, .error (5, 0))

end Sys2Proof.Machine
end

