-- ==== Sys2Proof/Machine/Home.lean ====
section
/-! DEFINITION. The L2 slices: lines, fills, evictions, the Cul-de-sac, renewals and write events at the
home (R306 to R309, R333 to R337, R361, R362, R365 to R370), and the accesses that the device makes by itself. -/

namespace Sys2Proof.Machine

/-! ### Fault records (R373 to R375) -/

/-- Bytes 8 to 63 of a record. -/
def recBody (type asid reason unit : Nat) (gid : Word) (addr w24 : Nat) (rest : List Byte) : List Byte :=
  valBytes 1 type ++ valBytes 1 asid ++ valBytes 1 reason ++ valBytes 1 unit ++ valBytes 4 gid.toNat ++ valBytes 8 addr ++
    valBytes 8 w24 ++ (rest ++ List.replicate 32 0).take 32

/-- Hands a record to the context's ring: FAULT_RING_POLL claims its place and writes it. -/
def queueRec (s : State) (asid : Nat) (body : List Byte) (item : Option WItem) (die : Nat) : State :=
  match s.context? asid with
  | none => s
  | some _ =>
    { s with ringWaits := s.ringWaits ++ [{ id := s.nextId, asid := asid, die := die, seq := none, bytes := body, item := item }]
             nextId := s.nextId + 1 }

/-- Halts a context (R369, R373, R417): its groups stop and the Forum will save it. -/
def haltContext (s : State) (asid reason : Nat) : State :=
  s.modContext asid (fun c => if c.st = .running then { c with st := .halted, haltReason := reason } else c)

/-- A fill or a write that must wait for room in its set (R369): the turn will not have happened. -/
def State.block (s : State) : State := { s with blocked := true }

def provAsid (p : DWord) : Nat := (p.extractLsb' 56 8).toNat

/-! ### Lines of a slice -/

def isLine (asid line : Nat) (home : Bool) (x : L2Line) : Bool := x.asid == asid && x.line == line && x.home == home
def findLine (l : List L2Line) (asid line : Nat) (home : Bool) : Option L2Line := l.find? (isLine asid line home)
/-- Puts a line at the most recently used place. -/
def touchLine (l : List L2Line) (x : L2Line) : List L2Line := x :: l.filter (fun y => !isLine x.asid x.line x.home y)

def floorStamp (s : State) (slice asid : Nat) : Stamp := tabGet s.floors (slice * 256 + asid) 0
def raiseFloor (s : State) (slice asid : Nat) (v : Stamp) : State :=
  { s with floors := tabPut s.floors (slice * 256 + asid) (max (floorStamp s slice asid) v) }

/-- Ways that Arcades of pipelines homed on a die withhold (R380). -/
def reservedWays (s : State) (die : Nat) : Nat :=
  s.pipes.foldl (fun n p => if p.2.home = die then n + p.2.ways else n) 0

/-! ### The Cul-de-sac (R365, R366, R369) -/

/-- The bytes that a spill area of a controller holds. -/
def spillRoom (s : State) (g : Nat) : Nat := ((s.ctl g).spill.map (fun r => r.2)).foldl (· + ·) 0 / 256

/-- Takes an entry, into the array or the spill area of the controller; without room the owners are to be halted and
the answer is false. -/
def takeHeld (s : State) (ctl asid line : Nat) (kind : HeldKind) (prov : Vector DWord 4) (owners : List Nat) : State × Bool :=
  let mine := s.held.filter (fun h => h.ctl == ctl)
  let inArray := (mine.filter (fun h => !h.spill)).length
  let spilled := (mine.filter (fun h => h.spill)).length
  if inArray < 16384 then
    ({ s with held := s.held ++ [⟨ctl, false, asid, line, kind, prov⟩] }, true)
  else if spilled < spillRoom s ctl then
    ({ s with held := s.held ++ [⟨ctl, true, asid, line, kind, prov⟩] }, true)
  else ({ s with overflowed := s.overflowed ++ owners }, false)

/-- The sectors of a line that hold dirty bytes. -/
def dirtySectors (x : L2Line) : List Nat := (List.range 4).filter (fun k => x.dirty &&& byteMask (32 * k) 32 != 0)
def provAt (p : Vector DWord 4) (k : Nat) : DWord := (p.toArray[k]?).getD 0

/-- A writeback that finds no usable frame becomes a held entry, with a STOREMISS record in the ring of
each context that owns a provenance in it. -/
def takeLine (s : State) (ctl reason : Nat) (x : L2Line) : State × Bool :=
  let secs := dirtySectors x
  let owners := (secs.map (fun k => provAsid (provAt x.prov k))).eraseDups
  match takeHeld s ctl x.asid x.line (.data x.data x.dirty x.poison) x.prov owners with
  | (s, false) => (s, false)
  | (s, true) =>
    let spill := (s.held.getLast?.map (fun h => h.spill)).getD false
    (owners.foldl (fun s a =>
      let mine := secs.filter (fun k => provAsid (provAt x.prov k) == a)
      queueRec s a (recBody 1 a reason 7 0xFFFFFFFF (x.line * 128)
        ((mine.map (fun k => 2 ^ k)).foldl (· + ·) 0 + 16 * ctl + (if spill then 128 else 0))
        ((List.range 4).flatMap (fun k => if mine.contains k then valBytes 8 (provAt x.prov k).toNat else valBytes 8 0))) none (ctl / 2))
      s, true)

/-- Entries of a line are held. -/
def lineHeld (s : State) (asid line : Nat) : Bool := s.held.any (fun h => h.asid == asid && h.line == line)

/-- Writes the dirty bytes of a home line back through the slice's MTU (R309, R365). While entries of the line are held, a
writeback adds one after them, on a present page too (R367; reason 1, assumption 62). False: the line must stay, because no place
takes its bytes or the walk met poison. -/
def writeback (s : State) (slice : Nat) (x : L2Line) : State × Bool :=
  if x.dirty = 0 then (s, true)
  else
    let va := x.line * 128
    let die := sliceDie slice
    let ctl := 2 * die + va / 2 ^ 14 % 2
    match mtuWalk s die x.asid va with
    | (s, .leaf e level _) =>
      let pa := leafPa e level va
      if pteP e then
        if memUp s (paDie pa) && !lineHeld s x.asid x.line then (setAccessed (hbmWriteLine s pa x.data x.dirty x.poison) pa, true)
        else takeLine s ctl 1 x
      else takeLine s ctl 0 x
    | (s, .poison) => (s, false)
    | (s, _) => (s, true)

/-- Evicts a line (R309): a home line raises its ASID's floor and is written back; a replica is dropped. -/
def evictLine (s : State) (slice : Nat) (x : L2Line) : State × Bool :=
  let drop (s : State) := s.setSlice slice ((s.slice slice).filter (fun y => !isLine x.asid x.line x.home y))
  if x.home then
    match writeback s slice x with
    | (s, true) => (drop (raiseFloor s slice x.asid (max x.ls x.ws)), true)
    | (s, false) => (s, false)
  else (drop s, true)

/-- Evicts the first `n` of a list of lines that can go; false when fewer can. -/
def evictSome (s : State) (slice : Nat) (l : List L2Line) (n : Nat) : State × Bool :=
  match n, l with
  | 0, _ => (s, true)
  | _ + 1, [] => (s, false)
  | n + 1, x :: r =>
    match evictLine s slice x with
    | (s, true) => evictSome s slice r n
    | (s, false) => evictSome s slice r (n + 1)

/-- The ways of a set that ordinary lines may take (R380). -/
def openWays (s : State) (slice : Nat) : Nat := 16 - reservedWays s (sliceDie slice)

/-- Installs or replaces a line; a full set first gives up its least recently used lines that can go
(R306, R369). False: the set is full of lines that must stay. -/
def installLine (s : State) (slice : Nat) (x : L2Line) : State × Bool :=
  let l := s.slice slice
  if (findLine l x.asid x.line x.home).isSome then (s.setSlice slice (touchLine l x), true)
  else
    let inSet := l.filter (fun y => y.line % 1024 == x.line % 1024)
    match evictSome s slice inSet.reverse (inSet.length + 1 - openWays s slice) with
    | (s, true) => (s.setSlice slice (x :: s.slice slice), true)
    | (s, false) => (s, false)

/-! ### Fills (R362, R367, R377) -/

/-- The bytes of a line that held entries serve, with their poison: no later operation entry covers
them. -/
def heldBytes (s : State) (asid line : Nat) : BitVec 1024 × BitVec 128 × BitVec 128 :=
  (s.held.filter (fun h => h.asid == asid && h.line == line)).foldl
    (fun (d, m, p) h =>
      match h.kind with
      | .data b bm bp => (lineMerge d b bm, m ||| bm, (p &&& ~~~ bm) ||| (bp &&& bm))
      | .op _ k t a _ _ =>
        (d, m &&& ~~~ byteMask (a.toNat % 128) (match k with | .fres .. => 32 | _ => t.bytes), p))
    (0, 0, 0)

inductive Fill where
  /-- the home holds all four sectors -/
  | full
  /-- these bytes can be served; the others come back unserved with CAUSE and DETAIL -/
  | part (data : BitVec 1024) (mask poison : BitVec 128) (cause detail : Nat)
  /-- no way of the set can be freed -/
  | blocked
deriving DecidableEq, Repr

def blankLine (s : State) (slice asid line : Nat) : L2Line :=
  let f := floorStamp s slice asid
  ⟨asid, line, true, 0, 0, 0, 0, f, f, ⟨#[0, 0, 0, 0], rfl⟩⟩

/-- The bytes of a home line that are known without a fill. -/
def knownBytes (x : L2Line) : BitVec 128 := x.dirty ||| sectorBytes x.valid

/-! ### Speculative reads (R371, R249) -/

/-- The choice of the next speculative read. -/
def takeAhead (s : State) : State × List Nat := ({ s with ahead := s.ahead.drop 1 }, s.ahead.headD [])

/-- Fills the home line of an address of a present page ahead of any demand: no accessed bit is set, and a read that meets a
frame that is down or poisoned, or a set without room, is dropped. -/
def fetchAhead (s : State) (slice asid : Nat) (e : DWord) (level va : Nat) : State :=
  let r := leafRec asid va e level
  let pa := leafPa e level va
  let (d, p) := hbmLine s pa
  if homeSlice r.place r.home va ≠ slice ∨ !memUp s (sliceDie slice) ∨ !memUp s (paDie pa) ∨ p ≠ 0 ∨ lineHeld s asid (va / 128) ∨
      (findLine (s.slice slice) asid (va / 128) true).isSome then s
  else
    match installLine s slice { blankLine s slice asid (va / 128) with valid := 0xF, data := d } with
    | (t, true) => t
    | (_, false) => s

/-- Hardware prefetch: a demand miss takes lines of other sets of its page along. -/
def prefetch (s : State) (slice asid : Nat) (e : DWord) (level line : Nat) : State :=
  let (s, l) := takeAhead s
  let n := 2 ^ (levelBits level - 7)
  l.foldl (fun s k =>
    let near := line / n * n + k % n
    if near % 1024 = line % 1024 then s else fetchAhead s slice asid e level (128 * near)) s

/-- A miss at a home (R336, R356, R362, R367): the walk, the frame or the held entries, and the line's own dirty bytes on top.
While entries of the line are held, only their bytes are served, on a present page too (assumption 62). -/
def homeMiss (s : State) (slice asid line : Nat) : State × Fill :=
  let die := sliceDie slice
  let old := (findLine (s.slice slice) asid line true).getD (blankLine s slice asid line)
  let va := line * 128
  let (hd, hm, hp) := heldBytes s asid line
  let known := knownBytes old
  let part (s : State) (cause detail : Nat) : State × Fill :=
    (s, .part (lineMerge hd old.data known) (hm ||| known) ((hp &&& ~~~ known) ||| (old.poison &&& known)) cause detail)
  match mtuWalk s die asid va with
  | (s, .leaf e level _) =>
    if !pteP e then part s 7 0
    else
      let pa := leafPa e level va
      if !memUp s (paDie pa) then part s 11 4
      else if lineHeld s asid line then part s 7 0
      else
        let t := prefetch s slice asid e level line
        let (fd, fp) := hbmLine t pa
        let x := { old with
          valid := 0xF, data := lineMerge fd old.data known, poison := (fp &&& ~~~ known) ||| (old.poison &&& known) }
        match installLine t slice x with
        | (t, true) => (setAccessed t pa, .full)
        | (t, false) => (t.block, .blocked)
  | (s, .poison) => part s 11 3
  | (s, _) => part s 5 0

/-! ### Renewals and write events (R336, R337) -/

/-- Lease extension of a context (R334). -/
def leaseOf (s : State) (asid : Nat) : Nat :=
  match s.context? asid with
  | some c => c.regs.lease.toNat
  | none => 32

def signalRebase (s : State) (asid : Nat) (w : Stamp) : State :=
  if w ≥ 2 ^ 47 ∧ !s.rebases.contains asid then { s with rebases := s.rebases ++ [asid] } else s

/-- The largest stamp (R349). -/
def maxStamp : Stamp := 2 ^ 48 - 1

/-- A renewal at the home: the lease is extended and the line answered. -/
def renewLine (s : State) (slice : Nat) (x : L2Line) (c e : Stamp) : State × L2Line :=
  let x := { x with ls := max x.ls (min maxStamp (c + e)) }
  (signalRebase (s.setSlice slice (touchLine (s.slice slice) x)) x.asid x.ls, x)

/-- Watches of a line are woken (R231): they read again and complete. A group that waits for a future record looks
at it again (R190 step 4). -/
def wakeWatches (s : State) (asid line : Nat) : State :=
  let ids := (s.watchers.filter (fun w => w.asid == asid && w.line == line)).map (fun w => w.req)
  { s with
    watchers := s.watchers.filter (fun w => !(w.asid == asid && w.line == line))
    groups := tabMap s.groups (fun g =>
      if g.park = some .join && (asid == 0 || g.asid == asid) then { g with park := none } else g)
    requests := s.requests.map (fun r => if ids.contains r.id then { r with phase := .queued, woken := true } else r) }

/-- The line after a write event with stamp `w`. -/
def writtenLine (x : L2Line) (w : Stamp) (data : BitVec 1024) (m poison : BitVec 128) (prov : DWord) : L2Line :=
  { x with
    data := lineMerge x.data data m, dirty := x.dirty ||| m, poison := (x.poison &&& ~~~ m) ||| (poison &&& m)
    ws := w, ls := w
    prov := ⟨((List.range 4).map (fun k =>
      if m &&& byteMask (32 * k) 32 = 0 then provAt x.prov k else prov)).toArray, by simp⟩ }

/-- A read that is served from the bytes at hand of a line that the home does not hold whole: it renews the line like
any other read, and a line with held bytes alone becomes a home line without bytes of its own (R336, R348, R367). With no
byte at hand nothing is read. Answers the write stamp. -/
def partRead (s : State) (slice asid line : Nat) (m : BitVec 128) (c : Option Stamp) (e : Nat) : State × Stamp :=
  let x := (findLine (s.slice slice) asid line true).getD (blankLine s slice asid line)
  match c with
  | none => (s, x.ws)
  | some c =>
    if m = 0 then (s, x.ws)
    else
      match installLine s slice x with
      | (s, true) => ((renewLine s slice x c e).1, x.ws)
      | (s, false) => (s.block, x.ws)

/-- A write event at the home (R337). It allocates the line if need be, without fetching it. `none`: no
way of the set can be freed, or the line's stamps have run out before the rebase, so the event waits. -/
def homeWrite (s : State) (slice asid line : Nat) (c : Stamp) (data : BitVec 1024) (m poison : BitVec 128)
    (prov : DWord) : State × Option Stamp :=
  let x := (findLine (s.slice slice) asid line true).getD (blankLine s slice asid line)
  let w := max c (x.ls + 1)
  if w > maxStamp then (s.block, none)
  else
    match installLine s slice (writtenLine x w data m poison prov) with
    | (s, true) => (signalRebase (wakeWatches s asid line) asid w, some w)
    | (s, false) => (s.block, none)

/-! ### Accesses of engines and of the device itself (R356) -/

/-- The pieces of a range that lie in one line each. -/
def linePieces (va n : Nat) : List (Nat × Nat) :=
  (List.range ((va % 128 + n + 127) / 128)).map (fun k =>
    let lo := max va ((va / 128 + k) * 128)
    let hi := min (va + n) ((va / 128 + k + 1) * 128)
    (lo, hi - lo))

/-- The whole home line of a checked page, filled if need be: data, available bytes, poison, WS, and the cause
for the bytes that are not at hand. A read renews the line with the stamp it carries; an atomic does not. -/
def sliceAccess (s : State) (slice asid va : Nat) (c : Option Stamp) :
    State × Except (Nat × Nat) (BitVec 1024 × BitVec 128 × BitVec 128 × Stamp × Nat × Nat) :=
  let tag := tagAsid asid va
  let line := va / 128
  if !memUp s (sliceDie slice) then (s, .error (11, 4))
  else
    let whole (s : State) :=
      match findLine (s.slice slice) tag line true with
      | some x => if x.valid = 0xF then some x else none
      | none => none
    let renew (s : State) (x : L2Line) :=
      let (s, y) := match c with | some c => renewLine s slice x c (leaseOf s asid) | none => (s, x)
      (s, Except.ok (y.data, BitVec.allOnes 128, y.poison, y.ws, 0, 0))
    match whole s with
    | some x => renew s x
    | none =>
      match homeMiss s slice tag line with
      | (s, .full) => match whole s with | some x => renew s x | none => (s, .error (7, 0))
      | (s, .part d m p cause detail) =>
        let (s, ws) := partRead s slice tag line m c (leaseOf s asid)
        (s, .ok (d, m, p, ws, cause, detail))
      | (s, .blocked) => (s, .error (7, 0))

def homeAccess (s : State) (r : PlbRec) (asid va : Nat) (c : Option Stamp) :
    State × Except (Nat × Nat) (BitVec 1024 × BitVec 128 × BitVec 128 × Stamp × Nat × Nat) :=
  sliceAccess s (homeSlice r.place r.home va) asid va c

def homeRead (s : State) (r : PlbRec) (asid va : Nat) (c : Stamp) :
    State × Except (Nat × Nat) (BitVec 1024 × BitVec 128 × BitVec 128 × Stamp × Nat × Nat) := homeAccess s r asid va (some c)

/-- Reads a checked piece at its home: its bytes and write stamp, or CAUSE and DETAIL. -/
def homePiece (s : State) (r : PlbRec) (asid va n : Nat) (c : Stamp) : State × Except (Nat × Nat) (List Byte × Stamp) :=
  match homeRead s r asid va c with
  | (s, .error e) => (s, .error e)
  | (s, .ok (d, m, p, ws, cause, detail)) =>
    let want := byteMask (va % 128) n
    if want &&& ~~~ m != 0 then (s, .error (cause, detail))
    else if want &&& p != 0 then (s, .error (11, 3))
    else (s, .ok (lineBytes d (va % 128) n, ws))

/-- Reads one piece that the MTUs of a die check. -/
def devReadPiece (s : State) (die asid va n : Nat) (c : Stamp) (need : Nat) : State × Except (Nat × Nat) (List Byte × Stamp) :=
  match mtuCheck s die asid va need with
  | (s, .error e) => (s, .error e)
  | (s, .ok r) => homePiece s r asid va n c

/-! ### Accesses that the PLB of a core checks (R158, R249) -/

def plbFind (s : State) (core asid va : Nat) : Option PlbRec := (s.core core).plb.find? (fun r => recCovers r asid va)

/-- Puts a record into the PLB; of 2,048 records the oldest goes. -/
def installPlb (s : State) (core : Nat) (r : PlbRec) : State :=
  s.modCore core (fun c => { c with plb := (r :: c.plb).take 2048 })

/-- The check of an engine of a core or of an instruction-cache fill: by the record of the PLB, or by the one that the MTU of the die
answers with, which the PLB keeps. -/
def plbCheck (s : State) (core asid va need : Nat) : State × Except (Nat × Nat) PlbRec :=
  let judge (s : State) (r : PlbRec) : State × Except (Nat × Nat) PlbRec :=
    let m := missing r need
    (s, if m = 0 then .ok r else .error (6, m))
  if va ≥ 2 ^ 58 then (s, .error (5, 0))
  else
    match plbFind s core asid va with
    | some r => judge s r
    | none =>
      match mtuWalk s (coreDie core) asid va with
      | (s, .leaf e level _) =>
        let r := leafRec asid va e level
        judge (installPlb s core r) r
      | (s, .poison) => (s, .error (11, 3))
      | (s, _) => (s, .error (5, 0))

/-- A replica of a core's sector that holds the sectors needed under a lease that reaches the stamp (R308, R338). -/
def replicaHolds (s : State) (core tag va : Nat) (need : BitVec 4) (c : Stamp) : Option L2Line :=
  match findLine (s.slice (replicaSlice core va)) tag (va / 128) false with
  | some x => if need &&& ~~~ x.valid == 0 && x.ls ≥ c then some x else none
  | none => none

def devReadPieces (s : State) (die asid : Nat) (ps : List (Nat × Nat)) (c : Stamp) (need : Nat) :
    State × Except (Nat × Nat) (List Byte × Stamp) :=
  match ps with
  | [] => (s, .ok ([], 0))
  | (va, n) :: r =>
    match devReadPiece s die asid va n c need with
    | (s, .error e) => (s, .error e)
    | (s, .ok (b, ws)) =>
      match devReadPieces s die asid r c need with
      | (s, .error e) => (s, .error e)
      | (s, .ok (bs, ws')) => (s, .ok (b ++ bs, max ws ws'))

/-- A read of `n` bytes by a unit of a die: the bytes and the largest write stamp met. -/
def devRead (s : State) (die asid va n : Nat) (c : Stamp) (need : Nat := 1) : State × Except (Nat × Nat) (List Byte × Stamp) :=
  devReadPieces s die asid (linePieces va n) c need

/-- Writes some bytes of the line of `va` as one write event; a page that is valid and not present takes it too (R345,
R348). -/
def devWriteLine (s : State) (die asid va : Nat) (data : BitVec 1024) (mask : BitVec 128) (c : Stamp) (prov : DWord)
    (need : Nat) : State × Except (Nat × Nat) Stamp :=
  match mtuCheck s die asid va need with
  | (s, .error e) => (s, .error e)
  | (s, .ok r) =>
    let slice := homeSlice r.place r.home va
    if !memUp s (sliceDie slice) then (s, .error (11, 4))
    else
      match homeWrite s slice (tagAsid asid va) (va / 128) c data mask 0 prov with
      | (s, some w) => (s, .ok w)
      | (s, none) => (s, .error (7, 0))

/-- Writes one piece. -/
def devWritePiece (s : State) (die asid va : Nat) (bs : List Byte) (c : Stamp) (prov : DWord) (need : Nat) :
    State × Except (Nat × Nat) Stamp :=
  devWriteLine s die asid va (lineOf (va % 128) bs) (byteMask (va % 128) bs.length) c prov need

def devWritePieces (s : State) (die asid : Nat) (ps : List (Nat × Nat)) (bs : List Byte) (c : Stamp) (prov : DWord)
    (need : Nat) : State × Except (Nat × Nat) Stamp :=
  match ps with
  | [] => (s, .ok 0)
  | (va, n) :: r =>
    match devWritePiece s die asid va (bs.take n) c prov need with
    | (s, .error e) => (s, .error e)
    | (s, .ok w) =>
      match devWritePieces s die asid r (bs.drop n) c prov need with
      | (s, .error e) => (s, .error e)
      | (s, .ok w') => (s, .ok (max w w'))

/-- A write of bytes by a unit of a die, one write event per line: the largest completion stamp. -/
def devWrite (s : State) (die asid va : Nat) (bs : List Byte) (c : Stamp) (prov : DWord) (need : Nat := 18) :
    State × Except (Nat × Nat) Stamp :=
  devWritePieces s die asid (linePieces va bs.length) bs c prov need

/-- Copies of the line on their way to the cores of a sector are older than the write of one of them: that core keeps them in no
cache, and the others in no replica (R339, R341, R344). -/
def markStale (s : State) (core tag line : Nat) : State :=
  { s with
    requests := s.requests.map (fun x =>
      if tagAsid x.asid (128 * x.line) == tag && x.line == line && (x.phase matches .replied ..) && replicaSlice x.core (128 * line) == replicaSlice core (128 * line) then
        { x with passed := true, stale := x.stale || x.core == core }
      else x) }

/-- Copies of a line that a core's own write makes old: its L1 copy and its sector's replica (R339). -/
def dropCopies (s : State) (core asid va : Nat) : State :=
  let tag := tagAsid asid va
  let line := va / 128
  let s := s.modCore core (fun c => { c with l1 := c.l1.filter (fun x => !(x.asid == tag && x.line == line)) })
  let k := replicaSlice core va
  markStale (s.setSlice k ((s.slice k).filter (fun x => !isLine tag line false x))) core tag line

/-- A write that the device makes on a group's behalf (R335, R356). -/
def groupWrite (s : State) (core asid va : Nat) (bs : List Byte) (c : Stamp) (prov : DWord) (need : Nat := 18) :
    State × Except (Nat × Nat) Stamp :=
  match devWrite s (coreDie core) asid va bs c prov need with
  | (s, .ok w) => ((linePieces va bs.length).foldl (fun s p => dropCopies s core asid p.1) s, .ok w)
  | r => r

/-! ### Changing a page (R361, R368) -/

/-- Evicts every home line, replica and L1 copy of a page. False: a dirty line could not be taken. -/
def flushPage (s : State) (asid vpage bits : Nat) : State × Bool :=
  let inPage (a l : Nat) : Bool := a == asid && l * 128 / 2 ^ bits == vpage
  let s := { s with cores := tabMap s.cores (fun c => { c with l1 := c.l1.filter (fun x => !inPage x.asid x.line) }) }
  s.slices.foldl (fun (acc : State × Bool) (p : Nat × List L2Line) =>
    (p.2.filter (fun x => inPage x.asid x.line)).foldl (fun (acc : State × Bool) x =>
      let r := evictLine acc.1 p.1 x
      (r.1, r.2 && acc.2)) acc) (s, true)

/-- Removes the records of a page from every PLB (R361 step 2). -/
def purgePlb (s : State) (asid vpage bits : Nat) : State :=
  { s with cores := tabMap s.cores (fun c => { c with plb := c.plb.filter (fun r =>
      !(r.asid == asid && (r.vpn * 2 ^ recBits r / 2 ^ bits == vpage || vpage * 2 ^ bits / 2 ^ recBits r == r.vpn))) }) }

/-- Held entries of a page. -/
def pageHeld (s : State) (asid vpage bits : Nat) : List Held :=
  s.held.filter (fun h => h.asid == asid && h.line * 128 / 2 ^ bits == vpage)

end Sys2Proof.Machine
end

