-- ==== Sys2Proof/Machine/Ops.lean ====
section
/-! DEFINITION. The operations of a group that the meanings share: issuing a word, outstanding operations
and path counters (R21 to R25), acquires and releases (R228, R229), flags and the error log (R45, R139 to R142),
taking a trap, escalating it and returning from it (R160 to R168). -/

namespace Sys2Proof.Machine

/-- What a step of the machine answers. -/
abbrev Out := Host.Outcome State Fault Refusal

/-! ### Tasks of a group -/

/-- The running task: the innermost. -/
def Group.task (g : Group) : TaskInfo :=
  g.tasks.getLast?.getD ⟨0, 0, 0, 0, 0x1FF, false, 0, 0, false, 0, none⟩

/-- Provenance of a write by the word at `pc` of the running task (R366). -/
def provOf (asid : Nat) (serial : Word) (entry pc : DWord) : DWord :=
  let d : Int := (Int.ofNat (pc.toNat / 64) - Int.ofNat (entry.toNat / 64)) * 5 + pcSlot pc
  let idx : Nat := if -8388608 ≤ d ∧ d < 8388608 then (d % 16777216).toNat else 0x800000
  BitVec.ofNat 64 (asid * 2 ^ 56 + serial.toNat * 2 ^ 24 + idx)

def Group.prov (g : Group) : DWord := provOf g.asid g.task.serial g.task.entry g.pc

/-- The header of the running task is to be found again (R179). -/
def Group.rewalk (g : Group) : Bool := g.refind != 0 && decide (g.tasks.length ≤ g.refind)

/-! ### Outstanding operations and path counters -/

/-- Not every lane is served: a request is under way or lanes are held (R218). -/
def Op.outstanding (o : Op) : Bool := !o.done || !o.held.isEmpty

/-- Drops returned operations from the front of each path (R25); uncounted ones go as soon as they have
returned. -/
def pruneOps (ops : List Op) (blocked : List Nat) : List Op :=
  match ops with
  | [] => []
  | o :: r =>
    match o.path with
    | none => if o.outstanding then o :: pruneOps r blocked else pruneOps r blocked
    | some p =>
      if o.outstanding then o :: pruneOps r (p :: blocked)
      else if blocked.contains p then o :: pruneOps r blocked
      else pruneOps r blocked

/-- The group without the operations that are held and have nothing on its way, so that their paths no longer count them. -/
def Group.dropHeld (g : Group) : Group := { g with ops := pruneOps (g.ops.filter (fun o => o.held.isEmpty || !o.done)) [] }

/-- The counter of a path (R24, R25). -/
def Group.count (g : Group) (p : Nat) : Nat := (g.ops.filter (fun o => o.path == some p)).length

/-- Changes an operation of a group, then lets counters fall. -/
def Group.modOp (g : Group) (id : Nat) (f : Op → Op) : Group :=
  { g with ops := pruneOps (g.ops.map (fun o => if o.id = id then f o else o)) [] }

def State.modOp (s : State) (grp id : Nat) (f : Op → Op) : State := s.modGroup grp (fun g => g.modOp id f)

/-- An operation has been acknowledged or has returned. -/
def opReturned (s : State) (grp id : Nat) : Bool :=
  match s.group? grp with
  | none => true
  | some g => !(g.ops.any (fun o => o.id == id && o.outstanding))

/-- The operations of a group that an acknowledgement is awaited of: stores and atomics, or every global
access. -/
def Group.unacked (g : Group) : List Nat :=
  (g.ops.filter (fun o => o.outstanding && (o.path == some 3 || o.path == some 4))).map (fun o => o.id)
def Group.unreturned (g : Group) : List Nat :=
  (g.ops.filter (fun o => o.outstanding && (o.path == some 0 || o.path == some 3 || o.path == some 4 || o.path == none))).map
    (fun o => o.id)

def allReturned (s : State) (grp : Nat) (ids : List Nat) : Bool := ids.all (fun i => opReturned s grp i)

/-- The view stamp that a fence.rel at .dev scope would produce (R228, R247). -/
def Group.commandStamp (g : Group) : Stamp := max g.view g.compl
/-- The stamp of a command of a group; a group that has retired keeps none. -/
def stampOf (s : State) (grp : Nat) (d : Stamp) : Stamp :=
  match s.group? grp with
  | some g => max d g.commandStamp
  | none => d

/-- A switch marker is held back (R22, R166): by every result that is still to come, the binding of a bufget among them (R22, R293).
Row 3 of R296's table allows an unbound handle without one of two markers, which this forbids (assumption 66). -/
def Group.markerHeld (g : Group) : Bool :=
  !g.pend.isEmpty ||
  g.ops.any (fun o => o.outstanding && (o.path == some 0 || o.path == some 1 || o.path == some 4 || o.path == none) &&
    !(g.sup && o.heldTaken))

/-- An acquire of the running mode has not returned (R229). -/
def Group.acquireHeld (g : Group) : Bool := g.ops.any (fun o => o.outstanding && o.acq.isSome && o.sup == g.sup)

/-! ### Acquire and release (R228) -/

/-- A release at a scope must wait. -/
def releaseWaits (s : State) (grp : Nat) (g : Group) (scope : Nat) : Bool :=
  if scope = 0 then false
  else if scope = 1 then
    s.requests.any (fun r => r.grp == grp && r.phase == .queued && !(r.kind matches .dsld | .direct))
  else !g.unreturned.isEmpty

/-- The view stamp after a release. -/
def Group.release (g : Group) (scope : Nat) : Group := if scope ≥ 2 then { g with view := max g.view g.compl } else g

/-- The view stamp after an acquire that met a write stamp. -/
def Group.acquire (g : Group) (scope : Nat) (w : Stamp) : Group := if scope ≥ 2 then { g with view := max g.view w } else g

/-! ### Flags and the error log (R45, R139 to R142) -/

def flagNV : Flags := 1
def flagDZ : Flags := 2
def flagOF : Flags := 4
def flagUF : Flags := 8
def flagNX : Flags := 16
def flagSAT : Flags := 32

/-- Writes a log record, which the group's next release makes visible; a write that fails loses it and reports LOGLOST (R141,
R142). -/
def writeLog (s : State) (grp : Nat) (g : Group) (c : Context) (fl : Flags) (lane : Nat) (pc : DWord) : State :=
  let seq := c.regs.elseq
  let n := (c.regs.elctl.extractLsb' 0 5).toNat
  let addr := c.regs.elbase.toNat / 32 * 32 + 32 * (seq.toNat % 2 ^ n)
  let body := valBytes 8 pc.toNat ++ valBytes 4 g.gid.toNat ++ valBytes 4 seq.toNat ++ valBytes 4 g.task.serial.toNat ++
    valBytes 1 (fl.toNat % 8) ++ valBytes 1 lane ++ valBytes 2 g.dropped ++ valBytes 1 g.asid ++ List.replicate 7 0
  let s := s.modContext g.asid (fun c => { c with regs := { c.regs with elseq := c.regs.elseq + 1 } })
  let s := s.modGroup grp (fun g => { g with dropped := 0 })
  let lost (s : State) (cause : Nat) :=
    queueRec s g.asid (recBody 7 g.asid cause 0 g.gid addr seq.toNat []) none (coreDie g.core)
  match mtuWalk s (coreDie g.core) g.asid addr with
  | (s, .leaf e _ _) =>
    if pteP e = false ∧ pteRights e &&& 2 ≠ 0 then lost s 7
    else
      match groupWrite s g.core g.asid addr body g.view (provOf g.asid g.task.serial g.task.entry pc) with
      | (s, .ok w) => s.modGroup grp (fun g => { g with compl := max g.compl w })
      | (s, .error (cause, _)) => lost s cause
  | (s, .poison) => lost s 11
  | (s, _) => lost s 5

/-- A window of the error log is open for flags that would open one of `left` words (R142). -/
def Group.windowOpen (g : Group) (left : Nat) : Bool :=
  match g.window with
  | some n => decide (n ≠ 0 ∨ left < 64)
  | none => false

/-- Merges the flags of an instruction into the sticky set and logs NV, DZ and OF (R45, R142). `left` is
how many words a window opened now still holds: 63 for a fixed-latency word, 64 at a return. A window without words left is over
for a return, and holds only the flags of its own last word. With EN = 0 no window opens, and
a record that is lost opens one and takes DROPPED with it (DESIGN CHOICE, assumption 19). -/
def raiseFlags (s : State) (grp : Nat) (fl : Flags) (lane left : Nat) (pc : DWord) : State :=
  match s.group? grp with
  | none => s
  | some g =>
    let s := s.setGroup grp { g with flags := g.flags ||| fl }
    if fl &&& 7 = 0 then s
    else
      match s.context? g.asid with
      | none => s
      | some c =>
        if g.windowOpen left then s.modGroup grp (fun g => { g with dropped := min (g.dropped + 1) 65535 })
        else if c.regs.elctl.getLsbD 31 = false then s
        else
          let s := writeLog s grp g c fl lane pc
          s.modGroup grp (fun g => { g with window := some left })

/-! ### Traps (R160 to R168) -/

/-- A trap as R161 and R164 describe it: CAUSE, DETAIL, the unfinished lanes, the fault address and the
word to resume. -/
structure TrapInfo where
  cause  : Nat
  detail : Nat
  /-- 0xFF when the cause is not a lane cause -/
  lane   : Nat
  addr   : DWord
  pend   : LaneMask
  resume : DWord
  rd     : Bool
deriving DecidableEq, Repr

/-- A cause of the whole word, at its own PC. -/
def wordTrap (g : Group) (cause detail : Nat) (addr : DWord) : TrapInfo := ⟨cause, detail, 0xFF, addr, 0, g.pc, false⟩

def trapCause (t : TrapInfo) : Word :=
  BitVec.ofNat 32 ((if t.rd then 2 ^ 31 else 0) + t.detail % 256 * 2 ^ 16 + t.lane % 256 * 2 ^ 8 + t.cause % 256)

/-- Escalation to firmware (R167): the group stops and an ESCALATE record is written. -/
def escalate (s : State) (grp reason : Nat) (addr w24 : DWord) : State :=
  match s.group? grp with
  | none => s
  | some g =>
    let s := s.setGroup grp { g with park := some .escalated, escal := some (0, reason), arrival := none }
    queueRec s g.asid
      (recBody 5 g.asid reason 0 g.gid addr.toNat w24.toNat (valBytes 4 g.trap.cause.toNat ++ valBytes 4 g.task.serial.toNat))
      (some (.group grp)) (coreDie g.core)

/-- Escalation of the trap whose registers the group holds. -/
def escalateTrap (s : State) (grp reason : Nat) : State :=
  match s.group? grp with
  | none => s
  | some g => escalate s grp reason g.trap.addr g.trap.pc

/-- Taking a trap (R164). A held trap taken before the word that sysret replays leaves that replay to be done after
its own return (R165, R166; assumption 56). One action in user mode, an escalation in supervisor mode (R167). The arrival
at K_TRAPVEC is checked when its line is fetched. -/
def takeTrap (s : State) (grp : Nat) (t : TrapInfo) : State :=
  match s.group? grp with
  | none => s
  | some g =>
    if g.sup then escalateTrap s grp 2
    else
      let tr := { g.trap with
        am := g.am, pend := t.pend, pc := t.resume, addr := t.addr, cause := trapCause t, left := g.trap.budget }
      let g := g.setAm (if t.pend = 0 then allLanes else t.pend)
      s.setGroup grp { g with
        trap := tr, sup := true, pc := g.trap.vec, arrival := some true, park := none, inWord := none
        replay := if t.rd then g.replay else none, answers := [], wanted := [], active := true }

/-- The group runs a trap handler; once its trap is escalated it waits as an ordinary group (R35, R167). -/
def Group.inTrap (g : Group) : Bool := g.sup && g.park != some .escalated

/-- The return of R165 once K_TRAPPC is known usable, without the replay of a held operation. A handler may have written
K_IFP or the stack, so the device finds the header of each of the group's tasks again when it needs it (R179). -/
def leaveTrap (g : Group) : Group :=
  let g := g.setAm g.trap.am
  let g := { g with
    sup := false, pc := g.trap.pc, park := none, inWord := none, arrival := none, answers := [], wanted := [], refind := g.tasks.length }
  if g.trap.cause.getLsbD 31 then g else { g with replay := if g.trap.pend = 0 then none else some g.trap.pend }

/-- K_TRAPPC is a word address without bits 63:58 (R165). -/
def trapPcUsable (g : Group) : Bool := wordAddress g.trap.pc && !highBits g.trap.pc

/-! ### Issuing a word -/

/-- What a word does. -/
inductive WOut where
  /-- it has executed; the next word follows sequentially -/
  | done (s : State)
  /-- it has executed and transferred control -/
  | jump (s : State) (pc : DWord)
  /-- it has not issued: the group parks on it (R147) -/
  | hold (s : State) (p : Park)
  /-- it has issued and waits inside (R166) -/
  | wait (s : State) (p : Park) (w : InWord)
  /-- it raises a trap -/
  | trap (s : State) (t : TrapInfo)
  /-- it does not issue: the running handler's trap is escalated with a REASON (R167) -/
  | escal (s : State) (reason : Nat)
  /-- it has executed and said itself what becomes of the group -/
  | over (s : State)

/-- The bookkeeping of one issued word: K_TRAPLEFT (R167), the error-log window (R142), issue order (R33). -/
def issueTick (s : State) (grp : Nat) : State :=
  let s := { s with ticks := s.ticks + 1 }
  s.modGroup grp (fun g =>
    { g with
      issued := g.issued + 1, lastIssue := s.ticks
      window := g.window.map (fun n => n - 1)
      trap := if g.sup then { g.trap with left := g.trap.left - 1 } else g.trap })

/-- A group that has completed its word and goes on at an address. A replay that waits for a handler to end stays. -/
def Group.goesOn (g : Group) (pc : DWord) : Group :=
  { g with
    pc := pc, park := none, inWord := none, replay := if g.sup then g.replay else none, answers := [], wanted := [] }

/-- The group goes on at a word. -/
def goOn (s : State) (grp : Nat) (pc : DWord) : State :=
  s.modGroup grp (fun g => g.goesOn pc)

/-- Turns what a word does into a step. The bookkeeping of the issue comes before the word's own effect,
so the word's body is given the state after it (`runBody`); a word that has not issued leaves none of it. -/
def finishWord (grp : Nat) (g : Group) (o : WOut) : Out :=
  match o with
  | .done s => .next (goOn s grp (nextPc g.pc))
  | .jump s pc => .next (goOn s grp pc)
  | .hold s p => .next (s.modGroup grp (fun g => { g with park := some p }))
  | .wait s p w => .next (s.modGroup grp (fun g => { g with park := some p, inWord := some w }))
  | .trap s t => .next (takeTrap s grp t)
  | .escal s reason => .next (escalateTrap s grp reason)
  | .over s => .next s

/-- The state a word that does not issue leaves: the state before, with what it asked the PLB for and
any request it made. -/
def unissued (s0 : State) (grp : Nat) (s : State) : State :=
  match s0.group? grp, s.group? grp with
  | some g0, some g => s.setGroup grp { g with issued := g0.issued, lastIssue := g0.lastIssue, window := g0.window, trap := g0.trap }
  | _, _ => s

/-- The registers that a field of a word reads. -/
def fldReads (f : Fld) (code : Nat) : List Nat :=
  match f with
  | .src w | .srcNoImm w | .dstRead w => if code < 320 then (if w then [code, code + 1] else [code]) else []
  | .srcScalar | .srcScalarNoImm | .scalarOr _ | .vecOrTriple => if code < 320 then [code] else []
  | .spairOr _ | .vpair | .anyPair => if code < 320 then [code, code + 1] else []
  | .block n _ _ => if code < 320 then (List.range n).map (fun k => code + k) else []
  | .triple => if code < 320 then [code, code + 1, code + 2] else []
  | _ => []

/-- The sources of a word, its destination apart, with the mask registers it selects. -/
def wordReads (i : Instr) (w : W) : List Nat :=
  let sh := shapeOf i
  (match sh.d with | .dstRead x => fldReads (.dstRead x) w.d.code | _ => if i matches .loop _ then [w.d.code] else []) ++ fldReads sh.a w.a.code ++
    fldReads sh.b w.b.code ++ fldReads sh.c w.c.code ++
    (if w.ms.val = 0 then [] else [294 + 3 * w.ms.val - 1, 294 + 3 * w.ms.val, 294 + 3 * w.ms.val + 1])

/-- em of a full word. -/
def emOf (g : Group) (w : W) : LaneMask := g.em w.ms.val w.mn

/-- A control instruction acts: with MS = 0 always, otherwise only when em has a bit set (R130). -/
def acts (g : Group) (w : W) : Bool := w.ms.val == 0 || emOf g w != 0

/-- The word reads its sources: the words that always execute do, the branches of R130 when they act, and any other word when em
has a lane (R16, R20). -/
def readsSources (i : Instr) (w : W) (g : Group) : Bool :=
  match i with
  | .braEmpty _ | .braFull _ | .waitc _ | .sleep _ | .tret _ | .tid _ | .stage _ | .fence _ | .sysret _ => true
  | .bra _ | .braNz _ | .braZ _ | .brx _ | .call _ | .ret _ | .loop _ => acts g w
  | _ => emOf g w != 0

/-- The words of the arithmetic chapter, which raise only the traps of fetching and the illegal-instruction trap (R80, R95). -/
def arithmetic (i : Instr) : Bool :=
  let m := i.opcode.1
  decide ((0x10 ≤ m ∧ m ≤ 0x7F) ∨ (0x90 ≤ m ∧ m ≤ 0x9F))

/-- The trap of R161 for an uncorrectable register. No rule says which words raise it: a word that reads a marked register as a
source does, but for the words that R79 and R95 exempt (DESIGN CHOICE, assumption 54). -/
def registerTrap (i : Instr) (w : W) (g : Group) : Bool :=
  !g.poisonRegs.isEmpty && !arithmetic i && readsSources i w g && (wordReads i w).any (fun c => g.poisonRegs.contains c)

/-- Runs a full word: switch marker (R22), acquire hold (R229) for the memory and async pipes, register
poison (R161), then the body, which sees the group after the bookkeeping of the issue. -/
def runWord (i : Instr) (w : W) (pipe : Bool) (s : State) (body : State → Nat → Group → WOut) : Out :=
  let grp := s.cur
  match s.group? grp with
  | none => .next s
  | some g =>
    let fresh := g.inWord.isNone
    if fresh && w.sw && g.markerHeld then finishWord grp g (.hold s .marker)
    else if fresh && pipe && g.acquireHeld then finishWord grp g (.hold s .acquire)
    else if fresh && registerTrap i w g then
      finishWord grp g (.trap s (wordTrap g 11 1 0))
    else
      let s1 := if fresh then issueTick s grp else s
      match s1.group? grp with
      | none => .next s
      | some g1 =>
        match body s1 grp g1 with
        | .hold s2 p => finishWord grp g (.hold (if fresh then unissued s grp s2 else s2) p)
        | .escal s2 reason => finishWord grp g (.escal (if fresh then unissued s grp s2 else s2) reason)
        | .trap s2 t => finishWord grp g (.trap (if fresh && t.resume == g.pc then unissued s grp s2 else s2) t)
        | .wait s2 p x => finishWord grp g (.wait (s2.modGroup grp (fun g => { g with current := some i })) p x)
        | o => finishWord grp g o

/-- A word that follows R16: nothing happens when em is empty. -/
def whenActive (g : Group) (w : W) (s : State) (f : Unit → WOut) : WOut := if emOf g w = 0 then .done s else f ()

/-- A privileged word in the wrong mode: the privilege trap (R161 CAUSE 4). -/
def privilege (s : State) (g : Group) : WOut := .trap s (wordTrap g 4 0 g.pc)

/-- Whether a step of an agent other than a group happens: an event that is not enabled is passed over. -/
def orSame (s : State) (o : Option State) : Out := .next (o.getD s)

end Sys2Proof.Machine
end

