-- ==== Sys2Proof/Machine/Float.lean ====
section
/-! DEFINITION. Number formats, rounding, conversions and special values (02 R38 to R54), as exact
arithmetic on dyadic numbers rounded once. -/

namespace Sys2Proof.Machine

/-! ### Formats (R38) -/

/-- Exponent bits, fraction bits, bias, and whether all-ones exponents are infinities and NaNs. -/
structure Fmt where
  eb   : Nat
  fb   : Nat
  bias : Nat
  ieee : Bool
  /-- largest finite magnitude code -/
  maxCode : Nat
deriving DecidableEq, Repr

def fmtOf (t : Ty) : Fmt :=
  match t with
  | .f64 => ⟨11, 52, 1023, true, 0x7FEFFFFFFFFFFFFF⟩
  | .f32 => ⟨8, 23, 127, true, 0x7F7FFFFF⟩
  | .f16 => ⟨5, 10, 15, true, 0x7BFF⟩
  | .bf16 => ⟨8, 7, 127, true, 0x7F7F⟩
  | .e5m2 => ⟨5, 2, 15, true, 0x7B⟩
  | .e4m3 => ⟨4, 3, 7, false, 0x7E⟩
  | _ => ⟨2, 1, 1, false, 0x7⟩

def Fmt.width (f : Fmt) : Nat := 1 + f.eb + f.fb
/-- The sign bit as a value. -/
def Fmt.signBit (f : Fmt) (s : Bool) : Nat := if s then 2 ^ (f.eb + f.fb) else 0
def Fmt.infCode (f : Fmt) : Nat := (2 ^ f.eb - 1) * 2 ^ f.fb
def Fmt.quietBit (f : Fmt) : Nat := 2 ^ (f.fb - 1)

/-- The canonical NaN of R42. -/
def canonNan (t : Ty) : Nat :=
  match t with
  | .f64 => 0x7FF8000000000000 | .f32 => 0x7FC00000 | .f16 => 0x7E00 | .bf16 => 0x7FC0 | .e5m2 => 0x7E | _ => 0x7F

/-- A decoded value: (-1)^sign × m × 2^e, an infinity or a NaN. -/
inductive FVal where
  | nan (sign quiet : Bool) (frac : Nat)
  | inf (sign : Bool)
  | num (sign : Bool) (m : Nat) (e : Int)
deriving DecidableEq, Repr

/-- Least exponent of the last place. -/
def Fmt.qmin (f : Fmt) : Int := 1 - Int.ofNat f.bias - Int.ofNat f.fb

def fdecode (t : Ty) (bits : Nat) : FVal :=
  let f := fmtOf t
  let sign := bits / 2 ^ (f.eb + f.fb) % 2 = 1
  let mag := bits % 2 ^ (f.eb + f.fb)
  let ex := mag / 2 ^ f.fb
  let fr := mag % 2 ^ f.fb
  if f.ieee ∧ ex = 2 ^ f.eb - 1 then
    if fr = 0 then .inf sign else .nan sign (decide (fr ≥ f.quietBit)) fr
  else if t = .e4m3 ∧ mag = 0x7F then .nan sign true fr
  else if ex = 0 then .num sign fr f.qmin
  else .num sign (2 ^ f.fb + fr) (Int.ofNat ex - 1 + f.qmin)

/-- A subnormal read as a zero of its sign (R50). -/
def flushIn (t : Ty) (v : FVal) : FVal :=
  match v with
  | .num s m e => if m < 2 ^ (fmtOf t).fb ∧ e = (fmtOf t).qmin then .num s 0 e else .num s m e
  | v => v

def isNan (v : FVal) : Bool := v matches .nan ..
def isSnan (v : FVal) : Bool := match v with | .nan _ q _ => !q | _ => false

/-! ### Rounding (R46 to R48) -/

/-- A magnitude code after rounding, whether it differs from the exact value, and whether the value
rounded with an unbounded exponent lies below the smallest normal (R45). -/
structure Rounded where
  code    : Nat
  inexact : Bool
  tiny    : Bool
deriving DecidableEq, Repr

/-- 2^n for a non-negative exponent, 1 otherwise. -/
def pow2 (n : Int) : Nat := 2 ^ n.toNat

/-- Modes: 0 nearest even, 1 zero, 2 up, 3 down, 5 stochastic with 32 random bits. `rem / 2^shift` is the
part below the last place, with a further `sticky` part. -/
def roundUp (mode r : Nat) (sign odd sticky : Bool) (rem shift : Nat) : Bool :=
  if mode = 0 then
    shift ≠ 0 ∧ (rem > 2 ^ (shift - 1) ∨ (rem = 2 ^ (shift - 1) ∧ (sticky ∨ odd)))
  else if mode = 2 then !sign && (rem ≠ 0 || sticky)
  else if mode = 3 then sign && (rem ≠ 0 || sticky)
  else if mode = 5 then rem * 2 ^ 32 / 2 ^ shift + r ≥ 2 ^ 32
  else false

/-- Rounds m × 2^e (m not zero, or sticky) to the places of 2^q. -/
def roundAt (mode r : Nat) (sign : Bool) (m : Nat) (e q : Int) (sticky : Bool) : Nat × Bool :=
  if q ≤ e then (m * pow2 (e - q), sticky)
  else
    let sh := (q - e).toNat
    let n := m / 2 ^ sh
    let rem := m % 2 ^ sh
    (if roundUp mode r sign (n % 2 = 1) sticky rem sh then n + 1 else n, decide (rem ≠ 0) || sticky)

def roundMag (f : Fmt) (mode r : Nat) (sign : Bool) (m : Nat) (e : Int) (sticky : Bool) : Rounded :=
  if m = 0 then ⟨0, sticky, sticky⟩
  else
    let top := e + Int.ofNat (Nat.log2 m)
    let q := max (top - Int.ofNat f.fb) f.qmin
    let (n, inexact) := roundAt mode r sign m e q sticky
    let emin := f.qmin + Int.ofNat f.fb
    let tiny :=
      if top ≥ emin then false
      else if top < emin - 1 then true
      else (roundAt mode r sign m e (top - Int.ofNat f.fb) sticky).1 < 2 ^ (f.fb + 1)
    ⟨(q - f.qmin).toNat * 2 ^ f.fb + n, inexact, tiny⟩

def flagsOf (b : Bool) (f : Flags) : Flags := if b then f else 0

/-- The result of an overflow into a format with infinities (R47). -/
def overflowCode (f : Fmt) (mode : Nat) (sign : Bool) : Nat :=
  if mode = 1 ∨ (mode = 2 ∧ sign) ∨ (mode = 3 ∧ !sign) then f.maxCode else f.infCode

/-- An exact result rounded once into an arithmetic format (R47, R50). -/
def roundResult (t : Ty) (mode : Nat) (ftz sign : Bool) (m : Nat) (e : Int) (sticky : Bool) : Nat × Flags :=
  let f := fmtOf t
  let x := roundMag f mode 0 sign m e sticky
  if x.code > f.maxCode then (f.signBit sign + overflowCode f mode sign, flagOF ||| flagNX)
  else if ftz ∧ x.code ≠ 0 ∧ x.code < 2 ^ f.fb then (f.signBit sign, flagUF ||| flagNX)
  else (f.signBit sign + x.code, flagsOf x.inexact flagNX ||| flagsOf (x.inexact && x.tiny) flagUF)

/-! ### NaN rules (R43, R52) -/

/-- The first NaN of the sources, quieted, in the format of the operation. -/
def firstNan (t : Ty) (vs : List FVal) : Option Nat :=
  match vs with
  | [] => none
  | .nan s _ fr :: _ =>
    let f := fmtOf t
    some (f.signBit s + f.infCode + (if fr ≥ f.quietBit then fr else fr + f.quietBit))
  | _ :: r => firstNan t r

def nanFlags (vs : List FVal) : Flags := flagsOf (vs.any isSnan) flagNV

/-- A NaN carried into another format with NaNs (R52). -/
def carryNan (td ts : Ty) (s : Bool) (fr : Nat) : Nat :=
  let d := fmtOf td
  let fs := (fmtOf ts).fb
  let p := if d.fb ≥ fs then fr * 2 ^ (d.fb - fs) else fr / 2 ^ (fs - d.fb)
  d.signBit s + d.infCode + (if p ≥ d.quietBit then p else p + d.quietBit)

/-! ### Exact sums and products -/

/-- An exact signed sum at the lower exponent. -/
def exactAdd (s1 : Bool) (m1 : Nat) (e1 : Int) (s2 : Bool) (m2 : Nat) (e2 : Int) : Int × Int :=
  let e := min e1 e2
  let a : Int := Int.ofNat (m1 * pow2 (e1 - e))
  let b : Int := Int.ofNat (m2 * pow2 (e2 - e))
  ((if s1 then -a else a) + (if s2 then -b else b), e)

/-- A sum of two numbers, rounded; the sign of an exact zero follows R44. -/
def addNum (t : Ty) (mode : Nat) (ftz : Bool) (s1 : Bool) (m1 : Nat) (e1 : Int) (s2 : Bool) (m2 : Nat) (e2 : Int) : Nat × Flags :=
  let (x, e) := exactAdd s1 m1 e1 s2 m2 e2
  if x = 0 then
    let sign := if m1 = 0 ∧ m2 = 0 ∧ s1 = s2 then s1 else mode == 3
    ((fmtOf t).signBit sign, 0)
  else roundResult t mode ftz (decide (x < 0)) x.natAbs e false

/-- A + B on decoded values (R104). -/
def faddV (t : Ty) (mode : Nat) (ftz : Bool) (a b : FVal) : Nat × Flags :=
  match firstNan t [a, b] with
  | some n => (n, nanFlags [a, b])
  | none =>
    match a, b with
    | .inf s1, .inf s2 => if s1 = s2 then ((fmtOf t).signBit s1 + (fmtOf t).infCode, 0) else (canonNan t, flagNV)
    | .inf s, _ | _, .inf s => ((fmtOf t).signBit s + (fmtOf t).infCode, 0)
    | .num s1 m1 e1, .num s2 m2 e2 => addNum t mode ftz s1 m1 e1 s2 m2 e2
    | _, _ => (canonNan t, 0)

def fneg (v : FVal) : FVal :=
  match v with
  | .nan s q f => .nan s q f
  | .inf s => .inf (!s)
  | .num s m e => .num (!s) m e

def vSign (v : FVal) : Bool := match v with | .nan s _ _ => s | .inf s => s | .num s _ _ => s
def vZero (v : FVal) : Bool := match v with | .num _ 0 _ => true | _ => false

/-- A × B (R104). -/
def fmulV (t : Ty) (mode : Nat) (ftz : Bool) (a b : FVal) : Nat × Flags :=
  match firstNan t [a, b] with
  | some n => (n, nanFlags [a, b])
  | none =>
    let sign := vSign a != vSign b
    match a, b with
    | .num _ m1 e1, .num _ m2 e2 =>
      if m1 * m2 = 0 then ((fmtOf t).signBit sign, 0) else roundResult t mode ftz sign (m1 * m2) (e1 + e2) false
    | a, b => if vZero a || vZero b then (canonNan t, flagNV) else ((fmtOf t).signBit sign + (fmtOf t).infCode, 0)

/-- A × B + C with one rounding (R104). -/
def ffmaV (t : Ty) (mode : Nat) (ftz : Bool) (a b c : FVal) : Nat × Flags :=
  let badProduct := match a, b with
    | .inf _, b => vZero b
    | a, .inf _ => vZero a
    | _, _ => false
  match firstNan t [a, b, c] with
  | some n => (n, nanFlags [a, b, c] ||| flagsOf badProduct flagNV)
  | none =>
    if badProduct then (canonNan t, flagNV)
    else
      let sign := vSign a != vSign b
      match a, b, c with
      | .num _ m1 e1, .num _ m2 e2, .num s3 m3 e3 => addNum t mode ftz sign (m1 * m2) (e1 + e2) s3 m3 e3
      | .num .., .num .., .inf s => ((fmtOf t).signBit s + (fmtOf t).infCode, 0)
      | _, _, .inf s =>
        if s = sign then ((fmtOf t).signBit s + (fmtOf t).infCode, 0) else (canonNan t, flagNV)
      | _, _, _ => ((fmtOf t).signBit sign + (fmtOf t).infCode, 0)

/-- A ÷ B (R109). -/
def fdivV (t : Ty) (mode : Nat) (ftz : Bool) (a b : FVal) : Nat × Flags :=
  match firstNan t [a, b] with
  | some n => (n, nanFlags [a, b])
  | none =>
    let f := fmtOf t
    let sign := vSign a != vSign b
    match a, b with
    | .inf _, .inf _ => (canonNan t, flagNV)
    | .inf _, _ => (f.signBit sign + f.infCode, 0)
    | _, .inf _ => (f.signBit sign, 0)
    | .num _ m1 e1, .num _ m2 e2 =>
      if m2 = 0 then (if m1 = 0 then (canonNan t, flagNV) else (f.signBit sign + f.infCode, flagDZ))
      else if m1 = 0 then (f.signBit sign, 0)
      else
        let k := f.fb + 5 + Nat.log2 m2
        let q := m1 * 2 ^ k / m2
        roundResult t mode ftz sign q (e1 - e2 - Int.ofNat k) (m1 * 2 ^ k % m2 != 0)
    | _, _ => (canonNan t, 0)

/-- The integer square root, bit by bit from bit `n`. -/
def isqrtFrom (x r n : Nat) : Nat :=
  match n with
  | 0 => if (r + 1) * (r + 1) ≤ x then r + 1 else r
  | k + 1 => let c := r + 2 ^ (k + 1); isqrtFrom x (if c * c ≤ x then c else r) k

def isqrt (x : Nat) : Nat := isqrtFrom x 0 (Nat.log2 x / 2 + 1)

/-- √A (R109). -/
def fsqrtV (t : Ty) (mode : Nat) (ftz : Bool) (a : FVal) : Nat × Flags :=
  match firstNan t [a] with
  | some n => (n, nanFlags [a])
  | none =>
    let f := fmtOf t
    match a with
    | .inf s => if s then (canonNan t, flagNV) else (f.infCode, 0)
    | .num s m e =>
      if m = 0 then (f.signBit s, 0)
      else if s then (canonNan t, flagNV)
      else
        let k := 2 * (f.fb + 4)
        let k := if (e - Int.ofNat k) % 2 = 0 then k else k + 1
        let x := m * 2 ^ k
        let r := isqrt x
        roundResult t mode ftz false r ((e - Int.ofNat k) / 2) (r * r != x)
    | _ => (canonNan t, 0)

/-- A rounded to an integral value of its format (R108). -/
def frndV (t : Ty) (mode : Nat) (a : FVal) : Nat × Flags :=
  match firstNan t [a] with
  | some n => (n, nanFlags [a])
  | none =>
    let f := fmtOf t
    match a with
    | .inf s => (f.signBit s + f.infCode, 0)
    | .num s m e =>
      let n := (roundAt mode 0 s m e 0 false).1
      (f.signBit s + (roundMag f 1 0 s n 0 false).code, 0)
    | _ => (canonNan t, 0)

/-! ### Comparisons (R105 to R107) -/

/-- An order of values with −0 below +0. -/
def orderKey (t : Ty) (bits : Nat) : Int :=
  let f := fmtOf t
  let mag := bits % 2 ^ (f.eb + f.fb)
  if bits / 2 ^ (f.eb + f.fb) % 2 = 1 then -Int.ofNat mag - 1 else Int.ofNat mag

/-- The order of values in which the zeros are equal. -/
def valueKey (t : Ty) (bits : Nat) : Int :=
  let f := fmtOf t
  let mag := bits % 2 ^ (f.eb + f.fb)
  if bits / 2 ^ (f.eb + f.fb) % 2 = 1 then -Int.ofNat mag else Int.ofNat mag

/-- A bit pattern with a subnormal flushed to a zero of its sign. -/
def flushBits (t : Ty) (ftz : Bool) (bits : Nat) : Nat :=
  let f := fmtOf t
  if ftz ∧ bits % 2 ^ (f.eb + f.fb) < 2 ^ f.fb then bits - bits % 2 ^ (f.eb + f.fb) else bits

/-- fmin and fmax (R105). -/
def fminmax (t : Ty) (ftz wantMax : Bool) (a b : Nat) : Nat × Flags :=
  let a := flushBits t ftz a
  let b := flushBits t ftz b
  let va := fdecode t a
  let vb := fdecode t b
  let fl := nanFlags [va, vb]
  if isNan va && isNan vb then (canonNan t, fl)
  else if isNan va then (b, fl)
  else if isNan vb then (a, fl)
  else
    let less := orderKey t a ≤ orderKey t b
    (if wantMax then (if less then b else a) else (if less then a else b), fl)

/-- fcmp by variant (R106). -/
def fcmpV (t : Ty) (ftz : Bool) (v : Nat) (a b : Nat) : Bool × Flags :=
  let a := flushBits t ftz a
  let b := flushBits t ftz b
  let va := fdecode t a
  let vb := fdecode t b
  let un := isNan va || isNan vb
  let fl := flagsOf (isSnan va || isSnan vb || (un && 2 ≤ v && v ≤ 5)) flagNV
  let x := valueKey t a
  let y := valueKey t b
  let rel : Bool :=
    if v = 0 then !un && x == y else if v = 1 then un || x != y else if v = 2 then !un && decide (x < y)
    else if v = 3 then !un && decide (x ≤ y) else if v = 4 then !un && decide (x > y)
    else if v = 5 then !un && decide (x ≥ y) else if v = 6 then un else !un
  (rel, fl)

/-- fclass (R107). -/
def fclassV (t : Ty) (bits : Nat) : Nat :=
  let f := fmtOf t
  match fdecode t bits with
  | .nan _ q _ => if q then 2 else 1
  | .inf s => if s then 4 else 2 ^ 9
  | .num s m e =>
    if m = 0 then (if s then 32 else 64)
    else if m < 2 ^ f.fb ∧ e = f.qmin then (if s then 16 else 128)
    else if s then 8 else 256

/-! ### Conversions (R51 to R54) -/

/-- The hash of R48. -/
def srRandom (seed : DWord) (lane elem : Nat) : Nat :=
  let key : DWord := seed + 0x9E3779B97F4A7C15 * BitVec.ofNat 64 (lane * 256 + elem + 1)
  let z := (key ^^^ (key >>> 30)) * 0xBF58476D1CE4E5B9
  let z := (z ^^^ (z >>> 27)) * 0x94D049BB133111EB
  let z := z ^^^ (z >>> 31)
  (z.extractLsb' 32 32).toNat

/-- An overflow or an infinity that a target without room receives (R51). -/
def convOverflow (td : Ty) (mode : Nat) (sat sign : Bool) : Nat × Flags :=
  let f := fmtOf td
  match td with
  | .e4m3 => if sat then (f.signBit sign + f.maxCode, flagSAT) else (0x7F, 0)
  | .e2m1 => (f.signBit sign + f.maxCode, flagSAT)
  | .e5m2 => if sat then (f.signBit sign + f.maxCode, flagSAT) else (f.signBit sign + overflowCode f mode sign, 0)
  | _ => (f.signBit sign + overflowCode f mode sign, 0)

/-- A number converted to a floating-point format: an exact value rounded once. `r` are the random bits of
stochastic rounding, whose overflows and exact values are those of .rn (R48). -/
def convNum (td : Ty) (mode r : Nat) (sat sign : Bool) (m : Nat) (e : Int) : Nat × Flags :=
  let f := fmtOf td
  if m = 0 then (f.signBit sign, 0)
  else
    let x := roundMag f mode r sign m e false
    if x.code > f.maxCode then
      let (b, fl) := convOverflow td (if mode = 5 then 0 else mode) sat sign
      (b, fl ||| flagOF ||| flagNX)
    else (f.signBit sign + x.code, flagsOf x.inexact flagNX ||| flagsOf (x.inexact && x.tiny) flagUF)

/-- A value converted to a floating-point format (R51, R52). -/
def convFloat (td ts : Ty) (mode r : Nat) (sat : Bool) (v : FVal) : Nat × Flags :=
  match v with
  | .nan s q fr =>
    let nv := flagsOf (!q) flagNV
    match td with
    | .e5m2 => (0x7E, nv)
    | .e4m3 => (0x7F, nv)
    | .e2m1 => (0, flagNV)
    | _ => (carryNan td ts s fr, nv)
  | .inf s =>
    match td with
    | .e4m3 => if sat then convOverflow td mode sat s else (0x7F, flagNV)
    | .e2m1 => convOverflow td mode sat s
    | .e5m2 => if sat then convOverflow td mode sat s else ((fmtOf td).signBit s + (fmtOf td).infCode, 0)
    | _ => ((fmtOf td).signBit s + (fmtOf td).infCode, 0)
  | .num s m e => convNum td mode r sat s m e

/-- Range of an integer type. -/
def intMin (t : Ty) : Int := if t.isSgn then -(2 ^ (t.bits - 1) : Nat) else 0
def intMax (t : Ty) : Int := if t.isSgn then (2 ^ (t.bits - 1) : Nat) - 1 else (2 ^ t.bits : Nat) - 1
/-- An integer value modulo the width of a type. -/
def intBits (t : Ty) (x : Int) : Nat := (x % (2 ^ t.bits : Nat)).toNat
/-- The value of the bits of a type. -/
def intVal (t : Ty) (bits : Nat) : Int :=
  let b := bits % 2 ^ t.bits
  if t.isSgn ∧ b ≥ 2 ^ (t.bits - 1) then Int.ofNat b - (2 ^ t.bits : Nat) else Int.ofNat b

/-- A value clamped to the range of a type, and whether it was clamped. -/
def clampInt (t : Ty) (x : Int) : Int × Bool :=
  if x < intMin t then (intMin t, true) else if x > intMax t then (intMax t, true) else (x, false)

/-- Floating point to integer (R53). -/
def convToInt (td : Ty) (mode : Nat) (v : FVal) : Nat × Flags :=
  match v with
  | .nan .. => (0, flagNV)
  | .inf s => (intBits td (if s then intMin td else intMax td), flagNV)
  | .num s m e =>
    let (n, inexact) := roundAt mode 0 s m e 0 false
    let x : Int := if s then -Int.ofNat n else Int.ofNat n
    let (y, out) := clampInt td x
    (intBits td y, if out then flagNV else flagsOf inexact flagNX)

/-- cvt.Td.Ts of one value (R51 to R54). -/
def convert (td ts : Ty) (mode r : Nat) (sat : Bool) (bits : Nat) : Nat × Flags :=
  if ts.isFp then
    if td.isFp then convFloat td ts mode r sat (fdecode ts bits) else convToInt td mode (fdecode ts bits)
  else
    let x := intVal ts bits
    if td.isFp then convNum td mode r sat (decide (x < 0)) x.natAbs 0
    else if sat then let (y, c) := clampInt td x; (intBits td y, flagsOf c flagSAT)
    else (intBits td x, 0)

end Sys2Proof.Machine
end

