-- ==== Sys2Proof/Machine/Flags.lean ====
section
/-! DEFINITION. How an instruction's flags come about: rounding mode and FTZ of a word (R46, R50), the OR over
lanes and the lane of the log record (R45, R141). -/

namespace Sys2Proof.Machine

/-- The rounding mode of a word: .dyn takes K_GMODE.DRM (R28, R46). -/
def rndMode (g : Group) (rnd : Nat) : Nat := if rnd = 4 then (g.gmode.extractLsb' 1 2).toNat else rnd

/-- FTZ acts on the vector .f32 and .f16 forms alone (R50). -/
def ftzOf (g : Group) (t : Ty) (vector : Bool) : Bool := vector && g.gmode.getLsbD 0 && (t == .f32 || t == .f16)

/-- The OR of the flags of lanes. -/
def orFlags (l : List Flags) : Flags := l.foldl (· ||| ·) 0

/-- The lowest lane that raised NV, DZ or OF. -/
def logLane (l : List (Nat × Flags)) : Nat :=
  match l.find? (fun p => p.2 &&& 7 != 0) with
  | some p => p.1
  | none => 0xFF

end Sys2Proof.Machine
end

