-- ==== Sys2Proof/Machine/Operands.lean ====
section
/-! DEFINITION. Operands of a word (R69 to R72) and the forms of a computing instruction (R70, R93, R120):
reading sources, writing destinations at once or when a unit returns. -/

namespace Sys2Proof.Machine

/-- The 32-bit value of a source in a lane (R69). -/
def opd32 (g : Group) (imm : Word) (o : Opd) (lane : Nat) : Word :=
  match o with
  | .v n => g.v n lane
  | .s n => g.s n
  | .imm | .immZ => imm
  | .zero => 0
  | .lane => BitVec.ofNat 32 lane
  | .beat => BitVec.ofNat 32 (lane / 32)
  | .blane => BitVec.ofNat 32 (lane % 32)
  | .ones => 0xFFFFFFFF
  | .immHi => 0

/-- The 64-bit value of a source in a lane (R69). -/
def opd64 (g : Group) (imm : Word) (o : Opd) (lane : Nat) : DWord :=
  match o with
  | .v n => g.v (n + 1) lane ++ g.v n lane
  | .s n => g.spair n
  | .imm => imm.signExtend 64
  | .immZ => imm.zeroExtend 64
  | .immHi => imm ++ (0 : Word)
  | .zero => 0
  | .ones => BitVec.allOnes 64
  | .lane => BitVec.ofNat 64 lane
  | .beat => BitVec.ofNat 64 (lane / 32)
  | .blane => BitVec.ofNat 64 (lane % 32)

/-- A source of either width, a 32-bit one zero-extended. -/
def opdVal (g : Group) (imm : Word) (wide : Bool) (o : Opd) (lane : Nat) : DWord :=
  if wide then opd64 g imm o lane else (opd32 g imm o lane).zeroExtend 64

def low32 (x : DWord) : Word := x.extractLsb' 0 32
def high32 (x : DWord) : Word := x.extractLsb' 32 32

/-- Clears the error of a register that is written whole. -/
def Group.unpoison (g : Group) (codes : List Nat) : Group :=
  if g.poisonRegs.isEmpty then g else { g with poisonRegs := g.poisonRegs.filter (fun c => !codes.contains c) }

/-- The odd register of the pair that an even register names. -/
def oddOf : Opd → Opd
  | .v n => .v (n + 1)
  | .s n => .s (n + 1)
  | o => o

/-- Writes a destination: the lanes of a mask of a vector register, a scalar register once, nothing for 321
(R20, R70, R72). -/
def writeDst (g : Group) (d : Opd) (wide : Bool) (m : LaneMask) (f : Nat → DWord) : Group :=
  match d with
  | .v n =>
    let g := (g.setV n m (fun i => low32 (f i))).unpoison [n.val]
    if wide then (g.setV (n + 1) m (fun i => high32 (f i))).unpoison [n.val + 1] else g
  | .s n =>
    let g := (g.setS n (low32 (f 0))).unpoison [256 + n.val]
    if wide then (g.setS (n + 1) (high32 (f 0))).unpoison [257 + n.val] else g
  | _ => g

/-- The elements that an outstanding operation will write (R23). -/
def dstCells (d : Opd) (wide : Bool) (lanes : List Nat) (f : Nat → DWord) : List WrCell :=
  match d with
  | .v n => lanes.flatMap (fun i => ⟨n, i, low32 (f i)⟩ :: (if wide then [⟨n + 1, i, high32 (f i)⟩] else []))
  | .s n => ⟨256 + n, 0, low32 (f 0)⟩ :: (if wide then [⟨256 + n + 1, 0, high32 (f 0)⟩] else [])
  | _ => []

/-- Writes one element. -/
def writeCell (g : Group) (c : WrCell) : Group :=
  (if c.code < 256 then g.setV c.code (BitVec.ofNat 96 (2 ^ c.lane)) (fun _ => c.val)
   else g.setS (c.code - 256) c.val).unpoison [c.code]

/-- A full word's operand field reads 64 bits. -/
def Fld.isWide : Fld → Bool
  | .src w | .srcNoImm w | .dst w | .dstVec w | .dstRead w => w
  | .vpair | .anyPair | .spairOr _ => true
  | _ => false

/-- The sources of a lane: A, B, C and the old D. -/
structure Srcs where
  a : DWord
  b : DWord
  c : DWord
  d : DWord

def srcsAt (g : Group) (i : Instr) (w : W) (lane : Nat) : Srcs :=
  let sh := shapeOf i
  let dOld := match w.d with | .v _ | .s _ => opdVal g w.imm (Fld.isWide sh.d) w.d lane | _ => 0
  ⟨opdVal g w.imm (Fld.isWide sh.a) w.a lane, opdVal g w.imm (Fld.isWide sh.b) w.b lane,
   opdVal g w.imm (Fld.isWide sh.c) w.c lane, dOld⟩

/-- The word is in its vector form (R70). -/
def isVector (i : Instr) (w : W) : Bool := (shapeOf i).isVector w.codes

/-- Instructions in the unit of a partition: at most four (R146). -/
def unitLoad (s : State) (g : Group) (u : ResUnit) : Nat :=
  (s.groups.map (fun p => if p.2.core = g.core ∧ p.2.part = g.part then (p.2.pend.filter (fun x => x.unit == u)).length else 0)).foldl
    (· + ·) 0

/-- A result that a unit returns later (R94, R121). -/
def startUnit (s : State) (grp : Nat) (g : Group) (u : ResUnit) (cells : List WrCell) (fl : Flags) (lane : Nat) : WOut :=
  if u != .cross ∧ u != .join ∧ unitLoad s g u ≥ 4 then .hold s .room
  else
    let (s, id) := s.fresh
    .done (s.modGroup grp (fun g =>
      { g with pend := g.pend ++ [⟨id, u, cells, fl, lane, g.pc, none⟩] }))

/-- A computing instruction in its vector or scalar form (R93): `f` gives the result of a lane and the flags
it raises. `wide` is the width of D; `u` is the unit of a variable-latency instruction. -/
def compute (i : Instr) (w : W) (wide : Bool) (u : Option ResUnit) (f : Group → Bool → Srcs → Nat → DWord × Flags)
    (s : State) (grp : Nat) (g : Group) : WOut :=
  let em := emOf g w
  let vec := isVector i w
  if em = 0 then .done s
  else
    let lanesL := if vec then maskLanes em else [0]
    let res := lanesL.map (fun l => (l, f g vec (srcsAt g i w l) l))
    let fl := orFlags (res.map (fun r => r.2.2))
    let lane := if vec then logLane (res.map (fun r => (r.1, r.2.2))) else 0xFF
    let val (l : Nat) : DWord := (tabGet res l (0, 0)).1
    match u with
    | none => .done (raiseFlags (s.setGroup grp (writeDst g w.d wide em val)) grp fl lane 63 g.pc)
    | some u => startUnit s grp g u (dstCells w.d wide lanesL val) fl lane

/-- A word of R93 with its result function. -/
def runCompute (i : Instr) (w : W) (wide : Bool) (u : Option ResUnit) (f : Group → Bool → Srcs → Nat → DWord × Flags)
    (s : State) : Out :=
  runWord i w false s (compute i w wide u f)

/-- Zero- or sign-extension of a result of a type to its destination (R41). -/
def extendTo (t : Ty) (bits : Nat) : DWord :=
  if t.isSgn ∧ t.bits < 32 then (BitVec.ofInt 32 (intVal t bits)).zeroExtend 64 else BitVec.ofNat 64 bits

/-- The low bits of a source that a type reads (R41). -/
def srcBits (t : Ty) (x : DWord) : Nat := x.toNat % 2 ^ t.bits

end Sys2Proof.Machine
end

