-- ==== Sys2Proof/Machine/Fetch.lean ====
section
/-! DEFINITION. Fetching and decoding the next word of a group (R60 to R66, R83, R135, R154, R159), the
checks that come before it issues, and a group as it starts (R26, R30). -/

namespace Sys2Proof.Machine

/-! ### Lines (R60, R61) -/

def lineSlot (d : BitVec 512) (slot : Nat) : InstrWord := d.extractLsb' (96 * slot) 96
def lineWord (d : BitVec 512) : Word := d.extractLsb' 480 32
def lineTgt (d : BitVec 512) (slot : Nat) : Bool := (lineWord d).getLsbD slot
def linePair (d : BitVec 512) (slot : Nat) : Bool := (lineWord d).getLsbD (5 + slot)
def lineReserved (d : BitVec 512) : Bool := (lineWord d).extractLsb' 10 6 != 0
/-- The XOR of the thirty halfwords (R61). -/
def lineCheck (d : BitVec 512) : BitVec 16 :=
  (List.range 30).foldl (fun x k => x ^^^ d.extractLsb' (16 * k) 16) 0
def lineGood (d : BitVec 512) : Bool := lineCheck d == (lineWord d).extractLsb' 16 16

/-- The cached line of an address (R154); an address with bit 57 set is tagged with ASID 0. -/
def findILine (s : State) (core asid : Nat) (pc : DWord) : Option ILine :=
  (s.core core).icache.find? (fun x => x.asid == tagAsid asid pc.toNat && x.line == pcLine pc)

/-- The key under which a group keeps the answer of a failed fill. -/
def fetchKey (pc : DWord) : Nat := 2 ^ 64 + pcLine pc

/-! ### Control transfers (R65, R75) -/

/-- What a transfer to an address meets. -/
inductive Arrive where
  | ok | badTarget | fetch
  | fault (cause detail : Nat)
deriving DecidableEq, Repr

/-- The arrival check of R65. It needs the target line; a fill that failed gives its own trap once the
transfer has completed, so the transfer then completes (R159). The TGT bit of a line that is held as failed or has reserved bits
set is tested before those traps, and bits 63:58 of an address before its being a word address (DESIGN CHOICE, assumption 52: R65,
R132 and R159 name no order). -/
def arrive (s : State) (g : Group) (pc : DWord) : Arrive :=
  if highBits pc then .fault 5 0
  else if !wordAddress pc then .badTarget
  else
    match findILine s g.core g.asid pc with
    | some l => if lineTgt l.data (pcSlot pc) then .ok else .badTarget
    | none => if g.answers.any (fun a => a.page == fetchKey pc) then .ok else .fetch

/-- A direct target (R75). -/
def directTarget (g : Group) (imm : Word) : DWord :=
  let l : Int := (imm.toInt) / 8
  BitVec.ofInt 64 (Int.ofNat (pcLine g.pc * 64) + 64 * l + 12 * Int.ofNat (imm.toNat % 8))

/-- A transfer of control by the word at PC; `upd` is applied only when it succeeds (R65, R133, R134). -/
def transfer (s : State) (grp : Nat) (g : Group) (pc : DWord) (upd : Group → Group) : WOut :=
  match arrive s g pc with
  | .ok =>
    .jump (s.modGroup grp upd) pc
  | .badTarget => .trap s (wordTrap g 2 0 pc)
  | .fault c d => .trap s (wordTrap g c d pc)
  | .fetch => .hold (s.modGroup grp (fun g => { g with wanted := [fetchKey pc] })) .fetch

/-! ### The next word -/

/-- What stands between a group and the instruction at its PC. -/
inductive Fetched where
  | wait
  | trap (cause detail : Nat)
  | illegal (detail : Nat)
  | badArrival
  | instr (i : Instr)
deriving DecidableEq, Repr

/-- The word at the group's PC. Of the checks of an arrival, bits 63:58 come before the word address, as in `arrive`
(DESIGN CHOICE, assumption 52). -/
def fetchNext (s : State) (g : Group) : Fetched :=
  if highBits g.pc then .trap 5 0
  else if g.arrival.isSome && !wordAddress g.pc then .badArrival
  else
    match findILine s g.core g.asid g.pc with
    | none =>
      match g.answers.find? (fun a => a.page == fetchKey g.pc) with
      | some a => .trap a.cause a.detail
      | none => .wait
    | some l =>
      if g.arrival.isSome && !lineTgt l.data (pcSlot g.pc) then .badArrival
      else if l.failed then .trap 3 0
      else if lineReserved l.data then .illegal 1
      else
        match decodeFor g.demand (linePair l.data (pcSlot g.pc)) (lineSlot l.data (pcSlot g.pc)) with
        | .error d => .illegal d
        | .ok i => .instr i

/-- A held operation whose trap the group takes at this boundary (R166): in supervisor mode only one that
the handler issued itself. -/
def dueHeld (g : Group) : Option Op :=
  if g.inWord.isSome || (g.task.failing && !g.sup) then none
  else g.ops.find? (fun o => !o.held.isEmpty && o.done && !o.heldTaken && !o.again && (!g.sup || o.sup))

/-! ### Active and pending sets (R33, R35) -/

/-- The active groups of a partition, by their key. -/
def activeGroups (s : State) (core part : Nat) : List (Nat × Group) :=
  s.groups.filter (fun p => p.2.core == core && p.2.part == part && p.2.active)

/-- Of some groups, the one that issued least recently; of several with an equal last issue the first in the group table (DESIGN CHOICE,
assumption 55: the tie of R33 is one of readiness). -/
def leastRecent (l : List (Nat × Group)) : Option Nat :=
  (l.foldl (fun (m : Option (Nat × Group)) p =>
    match m with
    | none => some p
    | some q => if p.2.lastIssue < q.2.lastIssue then some p else some q) none).map (fun p => p.1)

/-- The active group that gives up its place: the one that issued least recently and runs no handler (R33, R35). -/
def displaced (s : State) (core part : Nat) : Option Nat := leastRecent ((activeGroups s core part).filter (fun p => !p.2.inTrap))

/-- Of two marked pending groups, whether the first became ready earlier; a tie goes to the lower SLOT (R33). -/
def earlier (x y : Group) : Bool :=
  x.since.getD 0 < y.since.getD 0 || (x.since == y.since && decide (x.slot < y.slot))

/-- The ready pending group of a partition that became ready earliest (R33). -/
def earliestReady (s : State) (core part : Nat) : Option Nat :=
  ((s.groups.filter (fun p => p.2.core == core && p.2.part == part && !p.2.active && p.2.since.isSome)).foldl
    (fun (m : Option (Nat × Group)) p =>
      match m with
      | none => some p
      | some q => if earlier p.2 q.2 then some p else some q) none).map (fun p => p.1)

/-- A group enters the active set, or leaves it for the pending set. -/
def enterSet (s : State) (k : Nat) : State := s.modGroup k (fun g => { g with active := true, since := none, seen := none })
def leaveSet (s : State) (k : Nat) : State := s.modGroup k (fun g => { g with active := false, since := none, seen := none })

/-- The context of an ASID runs. -/
def ctxRuns (s : State) (asid : Nat) : Bool := match s.context? asid with | some c => c.st == .running | none => false

/-- A halted context that is not stopped yet (R417). -/
def ctxStops (s : State) (asid : Nat) : Bool := match s.context? asid with | some c => c.st == .halted && !c.stopped | none => false

/-- The context of an ASID runs, or its halt has not taken effect yet: its engines go on (R168). -/
def ctxGoes (s : State) (asid : Nat) : Bool := ctxRuns s asid || ctxStops s asid

/-- A phsw of the context has signalled and has not ended: its halt waits for it, and its groups go on until then (R282). -/
def phaseOpen (s : State) (asid : Nat) : Bool := s.groups.any (fun p => p.2.asid == asid && p.2.inWord == some .signalled)

/-- The group's context runs, or its halt waits for the group. -/
def groupGoes (s : State) (g : Group) : Bool :=
  ctxRuns s g.asid || (ctxStops s g.asid && (g.inTrap || phaseOpen s g.asid))

/-- A group that may issue at all. -/
def canRun (s : State) (g : Group) : Bool :=
  groupGoes s g &&
  !(g.park matches some .escalated | some .migrating | some .sleep) && (s.die (coreDie g.core)).coreUp

/-- A tret without a value, as a task that firmware has failed performs it (R416). -/
def tretWord : Instr := .tret ⟨false, 0, false, 0, .i8, .v 0, .zero, .v 0, .v 0, 0, 0⟩

/-- A reissued watch, or a request that waits for a token, holds the group's next word (R231, R331). -/
def waitsOutside (s : State) (grp : Nat) (g : Group) : Bool :=
  (g.inWord.isNone && g.ops.any (fun o => o.kind == .watch && !o.done)) ||
  s.requests.any (fun r => r.grp == grp && r.tokenDie.isSome)

/-- The word that the group is inside, which it goes on with (R166). -/
def insideWord (g : Group) : Option Instr := if g.inWord.isSome then g.current else none

/-- What the turn of a group performs. -/
def planActive (s : State) (grp : Nat) (g : Group) : State × Option Instr :=
  if (dueHeld g).isSome then (s, some (.heldTrap grp))
  else if waitsOutside s grp g then (s, none)
  else if g.task.failing && !g.sup then (s, some tretWord)
  else if g.inWord.isNone && g.window == some 0 then (s, some (.errorLogWindowClose grp))
  else if g.inWord.isNone && g.sup && g.trap.left == 0 then (s, some (.trapBudgetEscalate grp))
  else if (insideWord g).isSome then (s, insideWord g)
  else
    match fetchNext s g with
    | .wait => (s.setGroup grp { g with park := some .fetch, wanted := [fetchKey g.pc] }, none)
    | .trap c d => (takeTrap s grp (wordTrap g c d g.pc), none)
    | .badArrival =>
      (if g.arrival = some true then escalateTrap s grp 3 else takeTrap s grp (wordTrap g 2 0 g.pc), none)
    | .illegal d => (s, some (.illegalInstruction d))
    | .instr i => (s.setGroup grp { g with arrival := none }, some i)

/-! ### A group as it starts (R26, R30) -/

def TrapRegs.start (vec : DWord) (budget : Word) : TrapRegs :=
  { vec := vec, budget := budget, cause := 0, pc := 0, addr := 0, am := 0, pend := 0, left := 0, scr := ⟨#[0, 0, 0, 0], rfl⟩ }

/-- A group that starts on a core with a closure's entry and arguments. -/
def startGroup (r : CtxRegs) (asid core part slot : Nat) (gid : Word) (demand : Nat) (entry : DWord) (args : List Word) : Group :=
  { asid := asid, core := core, part := part, slot := slot, gid := gid, demand := demand, blocks := demand, pc := entry
    sregs := startSregs args, vregs := [], flags := 0, gmode := 0, srseed := r.seed, view := 0, observed := 0, compl := 0
    ifp := 0, drift := 0, window := none, dropped := 0, sup := false, trap := TrapRegs.start r.trapvec r.trapbudget
    ops := [], pend := [], region := 0, stackEnd := 0, team := 0, tasks := [], running := none, park := none, inWord := none, current := none, refind := 0, arrival := some false
    replay := none, answers := [], wanted := [], issued := 0, lastIssue := 0, sleepLeft := 0, escal := none
    poisonRegs := [], active := true, migTo := none, since := none, seen := none }

/-- The context-scope registers at context start, without what the launch gives (R140, R177, R232, R264,
R331, R334, R372, R398, R440). -/
def CtxRegs.start : CtxRegs :=
  { elbase := 0, elctl := 4, elseq := 0, farena := 0, falen := 0, ifsize := 1, stageahead := 4, watchpoll := 0x1000
    stealxd := 0x820, tbucket := 0x400000, lease := 0x20, frbase := 0, frctl := 8, rbinterval := 0x10000, peertab := 0
    trapvec := 0, trapbudget := 0, seed := 0, peers := List.replicate 16 0 }

def Context.start : Context :=
  { st := .running, haltReason := 0, stopped := false, clusters := [], regs := CtxRegs.start, desc := 0, descAsid := 0, saveAddr := 0
    saveLen := 0, notify := 0, pkt := none, pipe := none, root := 0, rootFuture := 0, discarded := false
    rootDone := false, serialBlocks := 0, saved := none }

/-! ### A word placed where a group fetches (withFetchWord) -/

/-- A line with one word in slot 0, entered there, the other slots nops. -/
def oneWordLine (w : InstrWord) : BitVec 512 :=
  let d : BitVec 512 := w.zeroExtend 512
  let lw : Word := (lineCheck d) ++ (0 : BitVec 11) ++ (1 : BitVec 5)
  d ||| (lw.zeroExtend 512 <<< 480)

/-- What a launch would have brought about for a word to be the next one issued: the module in RUN with
every domain up, a context with ASID 1 on cluster 0, one group on core 0 whose line is cached, and its
turn next. -/
def placeWord (s : State) (w : InstrWord) : State :=
  let ctx := { Context.start with clusters := [0] }
  let g := { startGroup ctx.regs 1 0 0 0 0 32 0x1000 [] with arrival := none, tasks := [⟨0, 0, 1, 0x1000, 0x1FF, false, 32, 0, false, 0, none⟩] }
  let up (d : DieS) : DieS := { d with coreUp := true, memUp := true, good := true, trained := true, memGood := true }
  let s := { s with
    groups := tabPut s.groups s.nextId g, contexts := tabPut s.contexts 1 ctx
    dies := ⟨#[up (s.die 0), up (s.die 1), up (s.die 2), up (s.die 3)], rfl⟩
    host := { s.host with boot := .run, scrubbing := false }, agenda := .issue s.nextId :: s.agenda, nextId := s.nextId + 1 }
  s.modCore 0 (fun c => { c with
    domain := some none, icache := [⟨1, 0x1000 / 64, oneWordLine w, false⟩], teams := [(0, ⟨32, 0⟩)] })

end Sys2Proof.Machine
end

