-- ==== Sys2Proof/Machine/Control.lean ====
section
/-! DEFINITION. Control flow and waiting (05 R130 to R139). -/

namespace Sys2Proof.Machine

/-- A 32-bit operand of a control instruction, read once. -/
def scalarVal (g : Group) (w : W) (o : Opd) : Word := opd32 g w.imm o 0

/-- A scalar destination, or 321. -/
def writeScalar (g : Group) (d : Opd) (v : Word) : Group := writeDst g d false allLanes (fun _ => v.zeroExtend 64)
def writePair (g : Group) (d : Opd) (v : DWord) : Group := writeDst g d true allLanes (fun _ => v)

/-- A scalar pair, or the value of a special code. -/
def pairVal (g : Group) (w : W) (o : Opd) : DWord := opd64 g w.imm o 0

/-- A branch to the direct target of IMM when its condition holds (R131). -/
def branchOp (i : Instr) (w : W) (cond : Group → Bool) (s : State) : Out :=
  runWord i w false s (fun s grp g =>
    if cond g then transfer s grp g (directTarget g w.imm) id else .done s)

def execNop (w : W) (s : State) : Out := runWord (.nop w) w false s (fun s _ _ => .done s)
def execBra (w : W) (s : State) : Out := branchOp (.bra w) w (fun g => acts g w) s
def execBraNz (w : W) (s : State) : Out := branchOp (.braNz w) w (fun g => acts g w && scalarVal g w w.a != 0) s
def execBraZ (w : W) (s : State) : Out := branchOp (.braZ w) w (fun g => acts g w && scalarVal g w w.a == 0) s

/-- The triple that bra.empty and bra.full test. -/
def braTriple (g : Group) (w : W) : LaneMask := match w.a with | .s n => g.triple n | _ => 0

def execBraEmpty (w : W) (s : State) : Out := branchOp (.braEmpty w) w (fun g => braTriple g w &&& emOf g w == 0) s
def execBraFull (w : W) (s : State) : Out := branchOp (.braFull w) w (fun g => braTriple g w &&& emOf g w == emOf g w) s

/-- A branch to the address in the scalar pair A (R132). -/
def indirectOp (i : Instr) (w : W) (s : State) : Out :=
  runWord i w false s (fun s grp g => if acts g w then transfer s grp g (pairVal g w w.a) id else .done s)

def execBrx (w : W) (s : State) : Out := indirectOp (.brx w) w s
def execRet (w : W) (s : State) : Out := indirectOp (.ret w) w s

/-- call writes the return address once the transfer succeeds (R133). -/
def execCall (w : W) (s : State) : Out :=
  runWord (.call w) w false s (fun s grp g =>
    if acts g w then transfer s grp g (directTarget g w.imm) (fun g' => writePair g' w.d (nextPc g.pc)) else .done s)

/-- loop (R134). -/
def execLoop (w : W) (s : State) : Out :=
  runWord (.loop w) w false s (fun s grp g =>
    if acts g w then
      let n := scalarVal g w w.d - 1
      if n = 0 then .done (s.setGroup grp (writeScalar g w.d n))
      else transfer s grp g (directTarget g w.imm) (fun g => writeScalar g w.d n)
    else .done s)

/-- The counter of a path once everything but held operations whose handler runs has returned (R166). -/
def countHeld (g : Group) (p : Nat) : Nat :=
  ((g.ops.filter (fun o => o.path == some p)).dropWhile (fun o => !o.heldTaken)).length

/-- waitc (R136). In a handler, one that only the held operation's return could satisfy escalates (R166). -/
def execWaitc (w : W) (s : State) : Out :=
  runWord (.waitc w) w false s (fun s _ g =>
    let p := w.imm.toNat
    let n := (scalarVal g w w.a).toNat
    if g.count p ≤ n then .done s
    else if g.sup && countHeld g p > n then .escal s 4
    else .hold s .counter)

/-- sleep (R137): a sleep of no cycles gives up the place in the active set to a ready pending group. -/
def execSleep (w : W) (s : State) : Out :=
  runWord (.sleep w) w false s (fun s grp g =>
    let n := (scalarVal g w w.a).toNat
    if n = 0 then
      match earliestReady s g.core g.part with
      | some k => if g.inTrap then .done s else .done (enterSet (leaveSet s grp) k)
      | none => .done s
    else
      .over ((goOn s grp (nextPc g.pc)).modGroup grp (fun g => { g with park := some .sleep, sleepLeft := n })))

/-- errst reads the sticky flags and clears those that IMM names (R139). -/
def execErrst (w : W) (s : State) : Out :=
  runWord (.errst w) w false s (fun s grp g =>
    let g' := writeScalar g w.d (g.flags.zeroExtend 32)
    .done (s.setGroup grp { g' with flags := g.flags &&& ~~~ (w.imm.extractLsb' 0 6) }))

end Sys2Proof.Machine
end

