-- ==== Sys2Proof/Machine/Requests.lean ====
section
/-! DEFINITION. Memory instructions as requests: the checks of a lane (R159, R214, R440), the requests that an
instruction makes (R148, R215), when they may leave the core (R216, R331, R339), what the home or the L1
answers, and how a group takes the answer (R218, R226, R228). -/

namespace Sys2Proof.Machine

/-! ### Checks of a lane (R214) -/

inductive Chk where
  /-- it passes, under a permission record or a peer table entry -/
  | ok (r : Option PlbRec) (peer : Option (BitVec 128))
  | bad (cause detail : Nat)
  /-- the PLB has no record of the page (R158) -/
  | wait (page : Nat)
deriving DecidableEq, Repr

def Chk.isOk (c : Chk) : Bool := c matches .ok ..

/-- The rights that a peer table entry lacks (R440). -/
def peerMissing (e : BitVec 128) (need : Nat) : Nat :=
  let has := (if e.getLsbD 28 then 1 else 0) + (if e.getLsbD 29 then 2 else 0) + (if e.getLsbD 30 then 8 else 0)
  need % 16 &&& (15 - has)

def checkPeer (s : State) (g : Group) (a : DWord) (need : Nat) : Chk :=
  let e := match s.context? g.asid with | some c => c.regs.peers.getD (a.extractLsb' 52 4).toNat 0 | none => 0
  if e.getLsbD 31 = false then .bad 5 0
  else
    let m := peerMissing e need
    if m = 0 then .ok none (some e) else .bad 6 m

/-- A global lane, in the order of R214. -/
def checkGlobal (s : State) (g : Group) (a : DWord) (size need : Nat) (peerOk : Bool) : Chk :=
  if a.toNat % size ≠ 0 then .bad 10 0
  else if highBits a then (if peerOk && peerSpace a then checkPeer s g a need else .bad 5 0)
  else
    match plbFind s g.core g.asid a.toNat with
    | some r =>
      let m := missing r need
      if m = 0 then .ok (some r) none else .bad 6 m
    | none =>
      match g.answers.find? (fun x => x.page == a.toNat / 2 ^ 14) with
      | some x => .bad x.cause x.detail
      | none => .wait (a.toNat / 2 ^ 14)

def teamOf (s : State) (core team : Nat) : Team := tabGet (s.core core).teams team ⟨32, 0⟩

/-- A scratch lane, in the order of R214: `load` for ld.s, which may read the barrier region. -/
def checkScratch (s : State) (g : Group) (off size : Nat) (load poison : Bool) : Chk :=
  let t := teamOf s g.core g.team
  if off % size ≠ 0 then .bad 10 0
  else if off < 0x2000 ∧ load = false then .bad 9 0
  else if off ≥ 0x2000 ∧ (off < 256 * t.base ∨ off + size > 256 * (t.base + t.size)) then .bad 8 0
  else if poison ∧ (s.core g.core).scratchPoison.any (fun k => off / 4 ≤ k ∧ 4 * k < off + size) then .bad 11 2
  else .ok none none

/-! ### The scratchpad (R155) -/

/-- Bytes written by any unit; a word that is written whole is no longer uncorrectable. -/
def scratchWrite (s : State) (core off : Nat) (bs : List Byte) : State :=
  s.modCore core (fun c => { c with
    scratch := cellWrites c.scratch off bs
    scratchPoison := c.scratchPoison.filter (fun k => !(off ≤ 4 * k && 4 * k + 4 ≤ off + bs.length)) })

def scratchRead (s : State) (core off n : Nat) : List Byte := cellReads (s.core core).scratch off n
def scratchBad (s : State) (core off n : Nat) : Bool :=
  (s.core core).scratchPoison.any (fun k => decide (off / 4 ≤ k ∧ 4 * k < off + n))

/-! ### Making requests (R148, R215) -/

def Req.va (r : Req) : Nat := r.line * 128
def Req.tag (r : Req) : Nat := tagAsid r.asid r.va
def Req.isWrite (r : Req) : Bool := r.kind matches .store | .atomic .. | .bar _ | .fres ..
/-- The reads that the L1 may serve. -/
def Req.isCopyRead (r : Req) : Bool := r.kind matches .load | .direct
/-- The reads that wait for the writes of their core to the line (R339): those, and the read of an fprobe. -/
def Req.readsLine (r : Req) : Bool := r.isCopyRead || r.kind matches .probe
def Req.isGlobal (r : Req) : Bool := r.isWrite || r.isCopyRead || r.kind matches .watch | .probe

/-- A request of a group that has not left its core, a watch included. -/
def Req.unsent (r : Req) : Bool := r.phase matches .queued | .watching _

/-- A request of nothing. -/
def Req.blank : Req :=
  { id := 0, grp := 0, op := 0, core := 0, asid := 0, kind := .load, beat := 0, line := 0, size := 8, lanes := [], stamp := 0
    phase := .queued, tokenDie := none, woken := false, slice := 0, peer := none, lease := 0, stale := false, passed := false }

/-- The beat and the line of a lane. -/
def reqKey (a : LaneAcc) : Nat × Nat := (a.lane / 32, a.addr.toNat / 128)

/-- The requests of the lanes of one instruction: one for each beat and line; mapft and fltrd ask the MTU
once for all lanes (R238). -/
def makeReqs (s : State) (proto : Req) (lanesL : List (LaneAcc × Chk)) : State :=
  let one := proto.kind matches .mapft | .fltrd
  let key (a : LaneAcc) : Nat × Nat := if one then (0, 0) else reqKey a
  let keys := (lanesL.map (fun p => key p.1)).eraseDups
  keys.foldl (fun (s : State) k =>
    let mine := lanesL.filter (fun p => key p.1 == k)
    let (slice, peer) : Nat × Option (BitVec 128) := match mine.head? with
      | some (a, .ok (some r) _) => (homeSlice r.place r.home a.addr.toNat, none)
      | some (_, .ok none p) => (0, p)
      | _ => (0, none)
    let (s, id) := s.fresh
    { s with requests := s.requests ++ [{ proto with
        id := id, beat := k.1, line := k.2, lanes := mine.map (fun p => p.1), slice := slice, peer := peer }] }) s

/-- How many request slots of a core are taken. A request is an access to a line: scratch accesses and questions to an
MTU take none (R148). -/
def slotsUsed (s : State) (core : Nat) : Nat := (s.requests.filter (fun r => r.core == core && r.isGlobal)).length

/-- The requests that some lanes will make do not fit in the free slots of the core (R148). The word, which has not issued
while it waits (R147), issues whole: its beats do not go separately (assumption 58). -/
def slotsLack (s : State) (core : Nat) (kind : ReqKind) (l : List LaneAcc) : Bool :=
  ({ Req.blank with kind := kind } : Req).isGlobal && decide (slotsUsed s core + ((l.map reqKey).eraseDups).length > 4096)

/-! ### Issuing a memory instruction (R163, R217, R224, R228) -/

/-- A memory instruction as it issues. -/
structure Access where
  instr  : Instr
  kind   : ReqKind
  path   : Option Nat
  size   : Nat
  vec    : Bool
  lanesL : List (LaneAcc × Chk)
  scope  : Nat
  rel    : Bool
  acq    : Bool
  drifts : Bool

/-- The trap of the lanes that failed (R163); a scalar form fails as a whole word. -/
def laneTrap (g : Group) (vec : Bool) (bad : List (LaneAcc × Chk)) : TrapInfo :=
  match bad with
  | (a, .bad c d) :: _ =>
    if vec then ⟨c, d, a.lane, a.addr, lanesMask (bad.map (fun p => p.1.lane)), g.pc, false⟩ else wordTrap g c d a.addr
  | _ => wordTrap g 5 0 0

/-- The drift count of R335 as a load issues: at 255 the view stamp must rise first (DRIFT_ROLLOVER). 256
says that the rise is due, 257 that it has been made. -/
def driftDue (g : Group) : Bool := g.drift == 255 || g.drift == 256

/-- The PLB pages that lanes wait for. -/
def waitPages (l : List (LaneAcc × Chk)) : List Nat :=
  (l.filterMap (fun p => match p.2 with | .wait k => some k | _ => none)).eraseDups

/-- The operation and requests of the lanes that passed. A fres carries the stamp of a release (R193), which noteStamp
raises. -/
def startOp (s : State) (grp : Nat) (a : Access) (ok : List (LaneAcc × Chk)) : State × Nat :=
  let s := s.modGroup grp (fun g =>
    let g := if a.rel then g.release a.scope else g
    if a.drifts then { g with drift := if g.drift = 257 then 0 else g.drift + 1 } else g)
  match s.group? grp with
  | none => (s, 0)
  | some g =>
    let (s, id) := s.fresh
    let stamp := if a.kind matches .fres .. then g.commandStamp else g.view
    let op : Op :=
      { id := id, path := a.path, instr := a.instr, scalar := !a.vec, kind := a.kind, size := a.size
        lanes := ok.map (fun p => p.1), stamp := stamp, sup := g.sup
        acq := if a.acq then some a.scope else none, acqStamp := 0, done := false, held := [], heldCause := (0, 0)
        heldTaken := false, again := false, stamps := [], prov := g.prov }
    let s := s.modGroup grp (fun g => { g with ops := g.ops ++ [op] })
    (makeReqs s
      { id := 0, grp := grp, op := id, core := g.core, asid := g.asid, kind := a.kind, beat := 0, line := 0, size := a.size
        lanes := [], stamp := stamp, phase := .queued, tokenDie := none, woken := false, slice := 0, peer := none
        lease := 0, stale := false, passed := false } ok, id)

/-- Issues a global memory instruction. In supervisor mode a lane that fails stops the whole word before it issues (R167). -/
def issueGlobal (s : State) (grp : Nat) (g : Group) (a : Access) : WOut :=
  let waits := waitPages a.lanesL
  let ok := a.lanesL.filter (fun p => p.2.isOk)
  let bad := a.lanesL.filter (fun p => !p.2.isOk)
  if !waits.isEmpty then .hold (s.modGroup grp (fun g => { g with wanted := waits })) .plb
  else if ok.isEmpty || ((!a.vec || g.sup) && !bad.isEmpty) then .trap s (laneTrap g a.vec bad)
  else if a.rel && releaseWaits s grp g a.scope then .hold s .release
  else if (match a.path with | some p => decide (g.count p ≥ 255) | none => false) = true then .hold s .room
  else if slotsLack s g.core a.kind (ok.map (fun p => p.1)) then .hold s .room
  else if a.drifts && driftDue g then .hold (s.modGroup grp (fun g => { g with drift := 256 })) .room
  else
    let s := (startOp s grp a ok).1
    if bad.isEmpty then .done s else .trap s (laneTrap g a.vec bad)

/-! ### When a request may leave (R216, R331, R339) -/

/-- Two requests of one core go to one line. -/
def sameLine (r x : Req) : Bool :=
  x.id != r.id && x.core == r.core && x.line == r.line && x.tag == r.tag && x.isGlobal && r.isGlobal && x.peer == r.peer

/-- A request that may not leave yet. A request of an instruction that issued earlier, as the numbers of operations tell, goes to the
line and has not left: one of the group, or a write of the core that a read waits for; the reissue of a held operation keeps its place
in this order. Or one of the core still waits at the home for the line, the other beats of its own instruction apart, which go in any
order (R215, R226). Or, for a read, a write of the core to the line is unacknowledged or a renewal of it is in flight (R216, R339). -/
def heldBack (s : State) (r : Req) : Bool :=
  s.requests.any (fun x => sameLine r x && decide (x.op < r.op) && x.phase == .queued && (x.grp == r.grp || (r.readsLine && x.isWrite))) ||
  s.requests.any (fun x => sameLine r x && x.op != r.op && x.phase == .missing) ||
  (r.readsLine && s.requests.any (fun x => sameLine r x && x.phase != .queued &&
    (x.isWrite || (x.isCopyRead && !(x.phase matches .ready ..)))))

/-- The operations that must be over before a write leaves. -/
def writeWaits (s : State) (r : Req) : Bool :=
  match r.kind with | .fres _ _ waits => !allReturned s r.grp waits | _ => false

/-- A request that has not left waits for operations of its group to be over, or for one to its line that does. -/
def waitsForOps (s : State) (r : Req) : Bool :=
  r.unsent && (writeWaits s r || s.requests.any (fun x => sameLine r x && decide (x.op < r.op) && x.unsent && writeWaits s x))

/-- An access that a removed record has allowed is on its way to a page; a watch that waits has none, nor has what a context that has
stopped has not sent, nor what waits for operations that may wait for the page (R361 step 3). -/
def pageBusy (s : State) (tag page bits : Nat) : Bool :=
  s.requests.any (fun r =>
    r.isGlobal && r.peer.isNone && r.tag == tag && r.va / 2 ^ bits == page && !(r.phase matches .watching _) && !waitsForOps s r &&
    !(r.unsent && (s.context? r.asid).any (fun c => c.stopped)))

/-- Takes a token of the bucket of the home's die; none when the bucket is empty (R331). -/
def takeToken (s : State) (r : Req) : Option State :=
  let d := sliceDie r.slice
  if d = coreDie r.core then some s
  else
    let rate := match s.context? r.asid with | some c => (c.regs.tbucket.extractLsb' 0 16).toNat | none => 0
    if rate = 0 then some s
    else
      let have' := (s.core r.core).tokens.getD d 0
      if have' = 0 then none
      else some (s.modCore r.core (fun c => { c with tokens := c.tokens.set d (have' - 1) }))

/-! ### The L1 and the replica slice (R151, R152, R308, R338) -/

/-- The bytes of the lanes of a request. -/
def lanesBytes (size : Nat) (l : List LaneAcc) : BitVec 128 :=
  l.foldl (fun m a => m ||| byteMask (a.addr.toNat % 128) size) 0

def needSectors (r : Req) : BitVec 4 := bytesSectors (lanesBytes r.size r.lanes)

/-- A line of the L1 that serves a read (R152). -/
def l1Serves (s : State) (r : Req) : Option L1Line :=
  (s.core r.core).l1.find? (fun x => x.asid == r.tag && x.line == r.line && needSectors r &&& ~~~ x.valid == 0 && x.ls ≥ r.stamp)

/-- Installs a returned copy in the L1 unless the copy held there has a later write stamp (R338); the least
recently used line of a full set goes. -/
def l1Install (s : State) (core : Nat) (x : L1Line) : State :=
  let same (y : L1Line) : Bool := y.asid == x.asid && y.line == x.line
  s.modCore core (fun c =>
    match c.l1.find? same with
    | some y => if x.ws ≥ y.ws then { c with l1 := x :: c.l1.filter (fun z => !same z) } else c
    | none =>
      let inSet := c.l1.filter (fun y => y.line % 128 == x.line % 128)
      let keep := if inSet.length < 12 then c.l1 else
        match inSet.getLast? with
        | some z => c.l1.filter (fun y => !(y.asid == z.asid && y.line == z.line))
        | none => c.l1
      { c with l1 := x :: keep })

def l1Drop (s : State) (core tag line : Nat) : State :=
  s.modCore core (fun c => { c with l1 := c.l1.filter (fun x => !(x.asid == tag && x.line == line)) })

/-- A returned line kept as a replica (R308, R338); lines of B pages are not. -/
def replicaInstall (s : State) (r : Req) (valid : BitVec 4) (d : BitVec 1024) (p : BitVec 128) (ws ls : Stamp) : State :=
  let k := replicaSlice r.core r.va
  let x : L2Line := ⟨r.tag, r.line, false, valid, 0, d, p, ws, ls, ⟨#[0, 0, 0, 0], rfl⟩⟩
  let bPage := match plbFind s r.core r.asid r.va with | some q => q.b | none => true
  if sameSector r.core r.slice || bPage then s
  else
    match findLine (s.slice k) r.tag r.line false with
    | some y => if ws ≥ y.ws then s.setSlice k (touchLine (s.slice k) x) else s
    | none => (installLine s k x).1

/-- A replica that serves a read: all needed sectors valid and a lease at least the carried stamp. -/
def replicaServes (s : State) (r : Req) : Option L2Line :=
  if sameSector r.core r.slice then none
  else
    replicaHolds s r.core r.tag r.va (needSectors r) r.stamp

/-! ### What lanes receive (R218) -/

/-- The answer to some lanes: values, lanes not served, and the cause of the lowest of these. -/
structure Served where
  vals  : List (Nat × DWord)
  un    : List LaneAcc
  cause : Nat × Nat

/-- Serves lanes from a line of which some bytes are available. A 16-byte lane has its upper half under
lane + 96. -/
def serveLanes (size : Nat) (l : List LaneAcc) (d : BitVec 1024) (avail poison : BitVec 128) (cause : Nat × Nat) : Served :=
  l.foldl (fun (r : Served) a =>
    let off := a.addr.toNat % 128
    let m := byteMask off size
    let fail (c : Nat × Nat) : Served := ⟨r.vals, r.un ++ [a], if r.un.isEmpty then c else r.cause⟩
    if m &&& ~~~ avail != 0 then fail cause
    else if m &&& poison != 0 then fail (11, 3)
    else
      ⟨r.vals ++ (a.lane, BitVec.ofNat 64 (lineVal d off (min size 8))) ::
        (if size = 16 then [(a.lane + 96, BitVec.ofNat 64 (lineVal d (off + 8) 8))] else []), r.un, r.cause⟩)
    ⟨[], [], (0, 0)⟩

def Served.phase (x : Served) (stamp : Stamp) : ReqPhase := .ready x.vals x.un x.cause.1 x.cause.2 stamp

/-- No lane is served. -/
def refuseAll (l : List LaneAcc) (cause : Nat × Nat) : ReqPhase := .ready [] l cause.1 cause.2 0

def State.setPhase (s : State) (id : Nat) (p : ReqPhase) : State :=
  s.modReq id (fun r => { r with phase := p, tokenDie := none })

/-! ### Watches (R231) -/

/-- A watch that has read its doubleword: it completes, or takes a watcher slot or polls. -/
def watchRead (s : State) (r : Req) (x : Served) (stamp : Stamp) : State :=
  match x.vals, r.lanes with
  | [(_, v)], [a] =>
    if v != a.cmp || r.woken then s.setPhase r.id (x.phase stamp)
    else if (s.watchers.filter (fun w => w.slice == r.slice)).length < 64 then
      let s := s.setPhase r.id (.watching true)
      { s with watchers := s.watchers ++ [⟨r.slice, r.tag, r.line, r.id⟩] }
    else s.setPhase r.id (.watching false)
  | _, _ => s.setPhase r.id (x.phase stamp)

/-- An fprobe that reads STATE 0 is no acquire (R192). -/
def probeSeen (s : State) (r : Req) (x : Served) : State :=
  if x.vals.any (fun v => v.2 != 0) then s else s.modOp r.grp r.op (fun o => { o with acq := none })

/-- The answer of a home, with its bytes, to a read that brings no copy along. -/
def readAnswer (s : State) (r : Req) (x : Served) (stamp : Stamp) : State :=
  match r.kind with
  | .watch => watchRead s r x stamp
  | .probe => (probeSeen s r x).setPhase r.id (x.phase stamp)
  | _ => s.setPhase r.id (x.phase stamp)

/-! ### Atomics (R225, R226, R317) -/

/-- The new value of an atomic. -/
def atomNew (v : Nat) (fadd : Bool) (t : Ty) (old c cmp : Nat) : Nat :=
  if fadd then (faddV t 0 false (fdecode t old) (fdecode t c)).1
  else
    match v with
    | 0 => (old + c) % 2 ^ t.bits
    | 1 => if intVal t c < intVal t old then c else old
    | 2 => if intVal t c > intVal t old then c else old
    | 3 => old &&& c
    | 4 => old ||| c
    | 5 => old ^^^ c
    | 6 => c
    | _ => if old = cmp then c else old

/-- The fields of a barrier word (R314). -/
def barStatus (w : DWord) : Nat := (w.extractLsb' 62 2).toNat
def barArmed (w : DWord) : Bool := w.getLsbD 61
def barPhase (w : DWord) : Nat := (w.extractLsb' 45 16).toNat
def barCount (w : DWord) : Int := (w.extractLsb' 0 45).toInt
def barWord (status : Nat) (armed : Bool) (phase : Nat) (count : Int) : DWord :=
  BitVec.ofNat 2 status ++ BitVec.ofBool armed ++ BitVec.ofNat 16 phase ++ BitVec.ofInt 45 count

/-- The check of R317 on a live word. -/
def barCheck (armed : Bool) (phase : Nat) (count : Int) : DWord :=
  if count ≥ 2 ^ 44 ∨ count < -(2 ^ 44) ∨ (armed ∧ count < 0) then barWord 1 armed phase count
  else if armed ∧ count = 0 then barWord 0 false (phase + 1) 0
  else barWord 0 armed phase count

/-- bar.init, bar.exp, an arrival (R317), and 3 the poisoning by a failed command (R320), on a barrier word. -/
def barApply (op : Nat) (w : DWord) (n : Nat) : DWord :=
  if op = 0 then barWord 0 false n 0
  else if op = 3 then barWord 2 false (barPhase w) (Int.ofNat n)
  else if barStatus w ≠ 0 then w
  else if op = 1 then barCheck true (barPhase w) (barCount w + Int.ofNat n)
  else barCheck (barArmed w) (barPhase w) (barCount w - Int.ofNat n)

/-- A future record as a number of 32 bytes: its STATE, and the record once a pending one is resolved or
failed (R176). -/
def recordState (old : Nat) : Nat := old / 2 ^ 128 % 2 ^ 32
def recordNew (fail : Bool) (value : BitVec 128) (old : Nat) : Nat :=
  if recordState old = 0 then value.toNat + (if fail then 2 else 1) * 2 ^ 128 + old / 2 ^ 160 * 2 ^ 160 else old

/-- The new value of the bytes of a lane of an atomic or a barrier operation. -/
def lanePerform (k : ReqKind) (old : Nat) (a : LaneAcc) : Nat :=
  match k with
  | .atomic v fadd t _ => atomNew v fadd t old (a.data.toNat % 2 ^ t.bits) (a.cmp.toNat % 2 ^ t.bits)
  | .bar op => (barApply op (BitVec.ofNat 64 old) a.data.toNat).toNat
  | .fres fail value _ => recordNew fail value old
  | _ => old

/-- The lanes of one event performed in ascending order on the bytes of a line: the line, the bytes written, the
old values, and the lanes whose bytes are not at hand. bar.init reads nothing, so poison does not stop it. -/
structure Performed where
  data : BitVec 1024
  mask : BitVec 128
  olds : List (Nat × DWord)
  un   : List LaneAcc
  cause : Nat × Nat

def performLanes (k : ReqKind) (size : Nat) (l : List LaneAcc) (d : BitVec 1024) (avail poison : BitVec 128)
    (cause : Nat × Nat) : Performed :=
  l.foldl (fun (r : Performed) a =>
    let off := a.addr.toNat % 128
    let m := byteMask off size
    let fail (c : Nat × Nat) : Performed := { r with un := r.un ++ [a], cause := if r.un.isEmpty then c else r.cause }
    if m &&& ~~~ (avail ||| r.mask) != 0 then fail cause
    else if k != .bar 0 && m &&& poison &&& ~~~ r.mask != 0 then fail (11, 3)
    else
      let old := lineVal r.data off size
      { r with
        data := lineMerge r.data (lineOf off (valBytes size (lanePerform k old a))) m
        mask := r.mask ||| m, olds := r.olds ++ [(a.lane, BitVec.ofNat 64 old)] })
    ⟨d, 0, [], [], (0, 0)⟩

/-- The bytes that a store writes: of two lanes the higher one remains (R215). -/
def storeLanes (size : Nat) (l : List LaneAcc) : BitVec 1024 × BitVec 128 :=
  l.foldl (fun (r : BitVec 1024 × BitVec 128) a =>
    let off := a.addr.toNat % 128
    let m := byteMask off size
    (lineMerge r.1 (lineOf off (valBytes size a.data.toNat)) m, r.2 ||| m)) (0, 0)

/-- The sectors of a home line whose contents are known whole, with the line. -/
def homeContents (s : State) (slice tag line : Nat) : BitVec 4 × BitVec 1024 :=
  match findLine (s.slice slice) tag line true with
  | some x =>
    let k := knownBytes x &&& ~~~ x.poison
    (BitVec.ofNat 4 ((List.range 4).foldl (fun acc j => if byteMask (32 * j) 32 &&& ~~~ k = 0 then acc + 2 ^ j else acc) 0),
     x.data)
  | none => (0, 0)

/-- The answer of a performed write event: an acknowledgement, or old values. -/
def writeAnswer (s : State) (r : Req) (w : Stamp) (olds : List (Nat × DWord)) (un : List LaneAcc) (cause : Nat × Nat) : ReqPhase :=
  match r.kind with
  | .atomic _ _ _ true => .ready olds un cause.1 cause.2 w
  | _ =>
    let (v, d) := homeContents s r.slice r.tag r.line
    .acked w v d un cause.1 cause.2

/-- Refuses every lane of a write. -/
def refuseWrite (r : Req) (cause : Nat × Nat) : ReqPhase :=
  match r.kind with
  | .atomic _ _ _ true => refuseAll r.lanes cause
  | _ => .acked 0 0 0 r.lanes cause.1 cause.2

def opProv (s : State) (r : Req) : DWord :=
  match s.group? r.grp with
  | some g => match g.ops.find? (fun o => o.id == r.op) with | some o => o.prov | none => 0
  | none => 0

/-- MAJ of the instruction of an operation (R375 OPMISS). -/
def kindMajor (k : ReqKind) : Nat := match k with | .atomic _ true _ _ => 0xA9 | .atomic .. => 0xA8 | .fres .. => 0xC4 | _ => 0xE9
def kindType (k : ReqKind) : Ty := match k with | .atomic _ _ t _ => t | _ => .b64
/-- The number of bytes that an operation entry covers. -/
def opBytes (k : ReqKind) (t : Ty) : Nat := match k with | .fres .. => 32 | _ => t.bytes

/-- A home line whose bytes have been given up: its stamps remain. -/
def clearLine (s : State) (slice tag line : Nat) : State :=
  match findLine (s.slice slice) tag line true with
  | some x => s.setSlice slice (touchLine (s.slice slice) { x with valid := 0, dirty := 0, poison := 0 })
  | none => s

/-- An operation without return on a page that is not present becomes an operation entry after the line's
dirty bytes (R226, R365); false when no place takes it. -/
def deferOpAs (s : State) (r : Req) (a : LaneAcc) (prov : DWord) (gid : Word) : State × Bool :=
  let ctl := 2 * sliceDie r.slice + r.va / 2 ^ 14 % 2
  let (s, ok) := match findLine (s.slice r.slice) r.tag r.line true with
    | some x => if x.dirty = 0 then (s, true) else takeLine s ctl 0 x
    | none => (s, true)
  if !ok then (s, false)
  else
    let s := clearLine s r.slice r.tag r.line
    match takeHeld s ctl r.tag r.line (.op (kindMajor r.kind) r.kind (kindType r.kind) a.addr a.data a.cmp)
        ⟨#[prov, prov, prov, prov], rfl⟩ [r.asid] with
    | (s, false) => (s, false)
    | (s, true) =>
      (queueRec s r.asid (recBody 2 r.asid (kindMajor r.kind) 7 gid a.addr.toNat a.data.toNat (valBytes 8 prov.toNat)) none (ctl / 2), true)

/-- An operation without return that the device or a peer makes on a page that is not present: a write event at the home,
with its stamp, whose effect is deferred (R337, R348, R365). None when it must wait for room. -/
def deferEvent (s : State) (slice asid : Nat) (k : ReqKind) (va size : Nat) (operand cmp : DWord) (c : Stamp) (prov : DWord)
    (gid : Word) : State × Option Stamp :=
  match homeWrite s slice (tagAsid asid va) (va / 128) c 0 0 0 prov with
  | (s, none) => (s, none)
  | (s, some w) =>
    match deferOpAs s { Req.blank with asid := asid, kind := k, line := va / 128, size := size, slice := slice }
        ⟨0, BitVec.ofNat 64 va, operand, cmp⟩ prov gid with
    | (s, true) => (s, some w)
    | (s, false) => (s.block, none)

/-- The same for an operation of a group. -/
def deferOp (s : State) (r : Req) (a : LaneAcc) : State × Bool :=
  deferOpAs s r a (opProv s r) (match s.group? r.grp with | some g => g.gid | none => 0xFFFFFFFF)

def deferOps (s : State) (r : Req) (l : List LaneAcc) : State × Bool :=
  match l with
  | [] => (s, true)
  | a :: rest =>
    match deferOp s r a with
    | (s, true) => deferOps s r rest
    | (s, false) => (s, false)

/-- Performs an atomic or a barrier operation on the bytes at hand (R226, R317, R337, R348). -/
def performAtomic (s0 : State) (r : Req) (d : BitVec 1024) (avail poison : BitVec 128) (cause : Nat × Nat) : State :=
  let ret := r.kind matches .atomic _ _ _ true
  let x := performLanes r.kind r.size r.lanes d avail poison cause
  if x.mask = 0 && (ret || cause != (7, 0)) then s0.setPhase r.id (writeAnswer s0 r 0 [] x.un x.cause)
  else match homeWrite s0 r.slice r.tag r.line r.stamp x.data x.mask 0 (opProv s0 r) with
  | (s, none) => s
  | (s, some w) =>
    if !ret && cause = (7, 0) then
      -- lanes that meet poison are refused; the others are deferred
      let missed := x.un.filter (fun a => byteMask (a.addr.toNat % 128) r.size &&& ~~~ avail != 0)
      let bad := x.un.filter (fun a => byteMask (a.addr.toNat % 128) r.size &&& ~~~ avail == 0)
      match deferOps s r missed with
      | (s, true) => s.setPhase r.id (writeAnswer s r w x.olds bad (11, 3))
      | (s, false) => s.block
    else s.setPhase r.id (writeAnswer s r w x.olds x.un x.cause)

def performStore (s : State) (r : Req) : State :=
  let (d, m) := storeLanes r.size r.lanes
  match homeWrite s r.slice r.tag r.line r.stamp d m 0 (opProv s r) with
  | (s, some w) => s.setPhase r.id (writeAnswer s r w [] [] (0, 0))
  | (s, none) => s

/-! ### Peer windows (R440, R441, R347) -/

def portUp (s : State) (k : Nat) : Bool := (s.host.avstat.getD k 0).getLsbD 15
def peerModule (e : BitVec 128) : Nat := (e.extractLsb' 8 12).toNat
def portKey (asid module : Nat) : Nat := asid * 4096 + module

/-- The port that a context's traffic to a module keeps, or else the lowest port of the mask that is up. -/
def peerPort (s : State) (asid : Nat) (e : BitVec 128) : Option Nat :=
  match tabGet? s.host.peerPorts (portKey asid (peerModule e)) with
  | some k => some k
  | none => (List.range 16).find? (fun k => e.getLsbD (32 + k) && portUp s k)

/-- A request that no port takes, or that its link or the peer refuses. -/
def refusePeer (s : State) (r : Req) : State :=
  s.setPhase r.id (if r.isWrite then refuseWrite r (11, 4) else refuseAll r.lanes (11, 4))

/-- What the peer module answers to a request, lane by lane; its memory is outside this machine. An atomic on a page that
is not present there is deferred and acknowledged, with return or without (R441); the value it returns is free
(assumption 57). -/
def peerReply (s : State) (r : Req) (e : BitVec 128) : State :=
  let (s, n) := s.fresh
  let asid := (e.extractLsb' 0 8).toNat
  let base := (e.extractLsb' 64 58).toNat
  let va (a : LaneAcc) : Nat := base + a.addr.toNat % 2 ^ 52
  let out (a : LaneAcc) : Nat := Config.peerAnswer n (peerModule e) asid (va a)
  let half (a : LaneAcc) (off len : Nat) : DWord :=
    BitVec.ofNat 64 (bytesVal ((List.range len).map (fun k => Config.peerByte n (peerModule e) asid (va a + off + k))))
  let good := r.lanes.filter (fun a => if r.isCopyRead then out a == 0 else out a != 1)
  let bad := r.lanes.filter (fun a => if r.isCopyRead then out a != 0 else out a == 1)
  let cause : Nat × Nat := match bad with | a :: _ => (if out a = 1 then (11, 4) else (7, 0)) | [] => (0, 0)
  let vals := good.flatMap (fun a =>
    (a.lane, half a 0 (min r.size 8)) :: (if r.size = 16 then [(a.lane + 96, half a 8 8)] else []))
  if r.isCopyRead || r.kind matches .atomic _ _ _ true then s.setPhase r.id (.ready vals bad cause.1 cause.2 0)
  else s.setPhase r.id (.acked 0 0 0 bad cause.1 cause.2)

/-- A request to a peer leaves through its port. -/
def performPeer (s : State) (r : Req) (e : BitVec 128) : State :=
  match peerPort s r.asid e with
  | none => refusePeer s r
  | some k =>
    peerReply { s with host := { s.host with
      peerPorts := tabPut s.host.peerPorts (portKey r.asid (peerModule e)) k } } r e

/-! ### The answer reaches the group (R218, R227, R228) -/

/-- Inserts lanes in ascending order. -/
def insertLanes (l add : List LaneAcc) : List LaneAcc :=
  add.foldl (fun l a => l.takeWhile (fun x => x.lane < a.lane) ++ a :: l.dropWhile (fun x => x.lane < a.lane)) l

/-- The group's record of an operation after one of its requests is over. -/
def Op.take (o : Op) (un : List LaneAcc) (cause : Nat × Nat) (stamp : Stamp) (last : Bool) : Op :=
  let lower := match un, o.held with | a :: _, b :: _ => decide (a.lane < b.lane) | _ :: _, [] => true | _, _ => false
  { o with
    held := insertLanes o.held un, heldCause := if lower then cause else o.heldCause
    acqStamp := max o.acqStamp stamp, done := last, heldTaken := if un.isEmpty then o.heldTaken else false }

/-- An acquire that has returned whole raises the view stamp. -/
def Group.acquired (g : Group) (o : Op) : Group :=
  match o.acq with
  | some scope => if o.done && o.held.isEmpty then g.acquire scope o.acqStamp else g
  | none => g

/-- A group that waits inside a word for an operation goes on once it is over. -/
def resumeOp (s : State) (grp id : Nat) : State :=
  match s.group? grp with
  | none => s
  | some g => if g.inWord = some (.op id) then goOn s grp (nextPc g.pc) else s

/-! ### Stamps of commands and records that wait for accesses (R189, R193, R247, R323, R386) -/

/-- A stamp that waits for operations rises as one of them completes: it becomes the stamp of a fence.rel issued where the
waiting began. -/
def raised (waits : List Nat) (op : Nat) (w c : Stamp) : Stamp := if waits.contains op then max c w else c

def Entry.noted (e : Entry) (op : Nat) (w : Stamp) : Entry := { e with stamp := raised e.waits op w e.stamp }
def CoreS.noted (c : CoreS) (op : Nat) (w : Stamp) : CoreS :=
  { c with
    deque := c.deque.map (fun e => e.noted op w)
    waiting := c.waiting.map (fun x => { x with stamp := raised x.waits op w x.stamp })
    steal := { c.steal with flight := c.steal.flight.map (fun f => (f.1.noted op w, f.2)) } }
def ClusterS.noted (c : ClusterS) (op : Nat) (w : Stamp) : ClusterS :=
  { c with
    puts := c.puts.map (fun x => { x with stamp := raised x.waits op w x.stamp })
    mcasts := c.mcasts.map (fun x => { x with stamp := raised x.waits op w x.stamp }) }
def Stage.noted (x : Stage) (op : Nat) (w : Stamp) : Stage :=
  { x with
    slots := x.slots.map (fun y => { y with stamp := raised y.waits op w y.stamp })
    waits := x.waits.map (fun p => (p.1, { p.2 with stamp := raised p.2.waits op w p.2.stamp })) }

def Req.noted (r : Req) (op : Nat) (w : Stamp) : Req :=
  match r.kind with | .fres _ _ waits => { r with stamp := raised waits op w r.stamp } | _ => r

/-- An operation has completed with a stamp. -/
def noteStamp (s : State) (op : Nat) (w : Stamp) : State :=
  { s with
    requests := s.requests.map (fun r => r.noted op w)
    cores := tabMap s.cores (fun c => c.noted op w), clusters := tabMap s.clusters (fun c => c.noted op w)
    groups := tabMap s.groups (fun g => { g with running := g.running.map (fun e => e.noted op w) })
    dies := s.dies.map (fun d => { d with copies := d.copies.map (fun x => { x with stamp := raised x.waits op w x.stamp }) })
    pipes := tabMap s.pipes (fun p => { p with stages := p.stages.map (fun x => x.noted op w) }) }

/-- A request is over: lanes left unserved are held, stamps are taken and counters fall. -/
def finishReq (s : State) (r : Req) (un : List LaneAcc) (cause : Nat × Nat) (stamp : Stamp) (write : Bool) : State :=
  let s := s.dropReq r.id
  let last := !(s.requests.any (fun x => x.op == r.op))
  let stamp := if r.peer.isSome then 0 else stamp
  let s := s.modGroup r.grp (fun g =>
    match g.ops.find? (fun o => o.id == r.op) with
    | none => g
    | some o =>
      let o := o.take un cause stamp last
      let g := { g with
        observed := if write && !(r.kind matches .atomic _ _ _ true) then g.observed else max g.observed stamp
        compl := if write then max g.compl stamp else g.compl }
      (g.acquired o).modOp r.op (fun _ => o))
  let s := if write then noteStamp s r.op stamp else s
  if last then resumeOp s r.grp r.op else s

/-- A value as its destination takes it (R41). -/
def loadValue (t : Ty) (x : DWord) : DWord := extendTo t (x.toNat % 2 ^ t.bits)

/-- Writes served lanes into their destination: registers, or scratch for ldd (R24, R222). -/
def deliverLanes (s : State) (r : Req) (vals : List (Nat × DWord)) : State :=
  match s.group? r.grp with
  | none => s
  | some g =>
    match g.ops.find? (fun o => o.id == r.op) with
    | none => s
    | some o =>
      match r.kind with
      | .direct =>
        vals.foldl (fun (s : State) (v : Nat × DWord) =>
          match r.lanes.find? (fun a => a.lane == v.1 % 96) with
          | some a => scratchWrite s g.core (a.data.toNat + (if v.1 ≥ 96 then 8 else 0)) (valBytes (min r.size 8) v.2.toNat)
          | none => s) s
      | _ =>
        match o.instr.word with
        | none => s
        | some w =>
          let wide := Fld.isWide (shapeOf o.instr).d
          let t := match r.kind with | .atomic _ _ t _ => t | .load | .dsld | .scratch => w.t | .watch => .b64 | _ => .b32
          let cells := vals.flatMap (fun v => dstCells w.d wide [v.1] (fun _ => loadValue t v.2))
          s.setGroup r.grp (cells.foldl writeCell g)

/-! ### dsld (R271, R272) -/

/-- A lane's address within the cluster: target core and offset. -/
def dsldKey (core off : Nat) : DWord := BitVec.ofNat 64 (core * 2 ^ 19 + off)
def dsldCore (grpCore : Nat) (a : DWord) : Nat := coreCluster grpCore * 12 + a.toNat / 2 ^ 19
def dsldOff (a : DWord) : Nat := a.toNat % 2 ^ 19

/-- The target reads the lanes of a request: an uncorrectable word leaves its lane unserved. -/
def dsldRead (s : State) (r : Req) : State :=
  let x := r.lanes.foldl (fun (x : Served) a =>
    let core := dsldCore r.core a.addr
    let off := dsldOff a.addr
    if scratchBad s core off r.size then ⟨x.vals, x.un ++ [a], (11, 2)⟩
    else ⟨x.vals ++ [(a.lane, BitVec.ofNat 64 (bytesVal (scratchRead s core off r.size)))], x.un, x.cause⟩) ⟨[], [], (0, 0)⟩
  s.setPhase r.id (x.phase 0)

/-- The core that a request of dsld reads. -/
def dsldTarget (r : Req) : Nat := match r.lanes with | a :: _ => dsldCore r.core a.addr | [] => r.core

/-- Requests to the group's own core are there at once. -/
def dsldLocal (s : State) (grp : Nat) : State :=
  (s.requests.filter (fun r => r.grp == grp && r.kind == .dsld && r.phase == .queued && dsldTarget r == r.core)).foldl dsldRead s

/-- Hands over the lanes of a mask of a request that is ready. -/
def takeReady (s : State) (r : Req) (mask : LaneMask) : Option State :=
  match r.phase with
  | .ready vals un cause detail stamp =>
    let now := vals.filter (fun v => mask.getLsbD (v.1 % 96))
    let later := vals.filter (fun v => !mask.getLsbD (v.1 % 96))
    if now.isEmpty && !vals.isEmpty then none
    else
      let s := deliverLanes s r now
      if later.isEmpty then some (finishReq s r un (cause, detail) stamp r.isWrite)
      else some (s.modReq r.id (fun r => { r with phase := .ready later un cause detail stamp }))
  | _ => none

end Sys2Proof.Machine
end

