-- ==== Sys2Proof/Machine/Futures.lean ====
section
/-! DEFINITION. Future records, the inline-frame stack, task serials and deque entries (08 R173 to R185,
R199, R204 to R210). -/

namespace Sys2Proof.Machine

/-- The context whose allotment holds a core, by ASID; 0 when none does. -/
def coreAsid (s : State) (core : Nat) : Nat :=
  match s.contexts.find? (fun p => p.2.clusters.contains (coreCluster core)) with
  | some p => p.1
  | none => 0

/-! ### Words as bytes -/

def wordsBytes (l : List Word) : List Byte := l.flatMap (fun w => valBytes 4 w.toNat)
def wordsOf (bs : List Byte) (off n : Nat) : List Word := (List.range n).map (fun k => BitVec.ofNat 32 (bytesAt bs (off + 4 * k) 4))
def quad (a b c d : Word) : BitVec 128 := d ++ (c ++ (b ++ a))

/-- A block of scalar registers; none for 321. -/
def blockRegs (g : Group) (o : Opd) (n : Nat) : List Word :=
  match o with
  | .s k => (List.range n).map (fun j => g.s (k.val + j))
  | _ => List.replicate n 0

/-! ### Accesses of a scalar word to a record (R189, R190) -/

/-- A write of the core to the line has not been acknowledged (R339). -/
def lineBusy (s : State) (core asid va : Nat) : Bool :=
  s.requests.any (fun x => x.core == core && x.line == va / 128 && x.tag == tagAsid asid va && x.isWrite)

/-- A read on a group's behalf, with the stamp it carries. -/
def groupRead (s : State) (g : Group) (a n : Nat) : State × Except (Nat × Nat) (List Byte × Stamp) :=
  devRead s (coreDie g.core) g.asid a n g.view 1

/-! ### Resolving and failing records (R176, R181) -/

/-- What became of the write of a record. -/
inductive RecWrite where
  | done (w : Stamp)
  /-- the record was no longer pending -/
  | late
  | fault (cause detail : Nat)
deriving DecidableEq, Repr

/-- Writes VALUE and STATE of a pending record as one event at its home; a record whose frame is not present
takes the write as an operation entry (R193, R226). -/
def recordWrite (s : State) (core asid va : Nat) (fail : Bool) (value : BitVec 128) (c : Stamp) (prov : DWord)
    (gid : Word := 0xFFFFFFFF) : State × RecWrite :=
  match mtuCheck s (coreDie core) asid va 18 with
  | (s, .error (a, b)) => (s, .fault a b)
  | (s, .ok r) =>
    let tag := tagAsid asid va
    match homeAccess s r asid va none with
    | (s, .error (a, b)) => (s, .fault a b)
    | (s, .ok (d, m, p, _, cause, detail)) =>
      let want := byteMask (va % 128) 32
      let slice := homeSlice r.place r.home va
      if want &&& ~~~ m != 0 then
        if cause = 7 then
          match deferEvent s slice asid (.fres fail value []) va 32 (value.extractLsb' 0 64) 0 c prov gid with
          | (s, some w) => (dropCopies s core asid va, .done w)
          | (s, none) => (s, .fault 7 0)
        else (s, .fault cause detail)
      else if want &&& p != 0 then (s, .fault 11 3)
      else
        let old := lineVal d (va % 128) 32
        if recordState old ≠ 0 then (s, .late)
        else
          match homeWrite s slice tag (va / 128) c (lineOf (va % 128) (valBytes 20 (recordNew fail value old)))
              (byteMask (va % 128) 20) 0 prov with
          | (s, some w) => (dropCopies s core asid va, .done w)
          | (s, none) => (s, .fault 7 0)

/-- Fails a future (R181). A fault of the write leaves the record as it is. -/
def failFuture (s : State) (core asid : Nat) (fut : DWord) (code : Nat) (serial w2 w3 : Word) (c : Stamp) (prov : DWord)
    (gid : Word := 0xFFFFFFFF) : State :=
  (recordWrite s core asid fut.toNat true (quad (BitVec.ofNat 32 code) serial w2 w3) c prov gid).1

/-! ### Serials (R180) -/

/-- The serial of the n-th task of a context: never 0. -/
def serialOf (n : Nat) : Word := BitVec.ofNat 32 (n % (2 ^ 32 - 1) + 1)

/-- The next serial of a core; a used-up block is replaced by the context's next one. -/
def takeSerial (s : State) (asid core : Nat) : State × Word :=
  let (n, left) := (s.core core).serial
  if left ≠ 0 then (s.modCore core (fun c => { c with serial := (n + 1, left - 1) }), serialOf n)
  else
    let b := match s.context? asid with | some c => c.serialBlocks | none => 0
    let s := s.modContext asid (fun c => { c with serialBlocks := b + 1 })
    (s.modCore core (fun c => { c with serial := (1024 * b + 1, 1023) }), serialOf (1024 * b))

/-! ### Closures (R173, R174) -/

def closureBytes (c : Closure) : List Byte :=
  valBytes 8 c.entry.toNat ++ valBytes 8 c.future.toNat ++ valBytes 4 c.flags.toNat ++ valBytes 4 c.need.toNat ++
    wordsBytes ((c.stage ++ List.replicate 8 0).take 8) ++ wordsBytes ((c.args ++ List.replicate 18 0).take 18)

def closureOf (bs : List Byte) : Closure :=
  { entry := BitVec.ofNat 64 (bytesAt bs 0 8), future := BitVec.ofNat 64 (bytesAt bs 8 8)
    flags := BitVec.ofNat 32 (bytesAt bs 16 4), need := BitVec.ofNat 32 (bytesAt bs 20 4)
    stage := wordsOf bs 24 8, args := wordsOf bs 56 18 }

def Closure.nstage (c : Closure) : Nat := (c.flags.extractLsb' 0 2).toNat
def Closure.pin (c : Closure) : Bool := c.flags.getLsbD 2
def Closure.gate (c : Closure) : Bool := c.flags.getLsbD 3
def Closure.batch (c : Closure) : Nat := (c.flags.extractLsb' 16 16).toNat
def Closure.demand (c : Closure) : Nat := (c.need.extractLsb' 0 6).toNat
def Closure.scr (c : Closure) : Nat := (c.need.extractLsb' 16 12).toNat

/-- The future arena of a context (R177). -/
def arenaBase (r : CtxRegs) : Nat := r.farena.toNat / 4096 * 4096
def arenaEnd (r : CtxRegs) : Nat := arenaBase r + 4096 * r.falen.toNat
/-- FUTURE is 32-byte aligned and lies within the arena (R175). -/
def futureOk (r : CtxRegs) (f : DWord) : Bool := f.toNat % 32 == 0 && arenaBase r ≤ f.toNat && f.toNat + 32 ≤ arenaEnd r
/-- The other checks of R175. -/
def closureOk (c : Closure) : Bool := 1 ≤ c.demand && c.demand ≤ 32 && c.scr ≤ 2016 && c.nstage != 3 && !c.pin && !c.gate

/-! ### Deque entries (R182 to R184) -/

/-- The entry with a serial in a core's deque or in an inline run that has not started. -/
def findEntry (s : State) (core : Nat) (serial : Word) : Option Entry :=
  match (s.core core).deque.find? (fun e => e.serial == serial) with
  | some e => some e
  | none =>
    (s.groups.filterMap (fun p => if p.2.core = core then p.2.running else none)).find? (fun e => e.serial == serial)

def modEntry (s : State) (core : Nat) (serial : Word) (f : Entry → Entry) : State :=
  let h (e : Entry) : Entry := if e.serial = serial then f e else e
  let s := s.modCore core (fun c => { c with deque := c.deque.map h })
  { s with groups := tabMap s.groups (fun g => if g.core = core then { g with running := g.running.map h } else g) }

def dropEntry (s : State) (core : Nat) (serial : Word) : State :=
  s.modCore core (fun c => { c with deque := c.deque.filter (fun e => e.serial != serial) })

/-- Pushes at the hot end (R183); a push into the deque ends a run of failed steals (R264). -/
def pushEntry (s : State) (core : Nat) (e : Entry) : State :=
  s.modCore core (fun c => { c with
    deque := e :: c.deque
    steal := { c.steal with localFails := 0, backoff := false, pos := if c.steal.backoff then 0 else c.steal.pos } })

/-- Closures that thieves have taken from a core and not received: the victim holds a copy of each (R265). -/
def copiesHeld (s : State) (core : Nat) : Nat :=
  (s.cores.filter (fun c => match c.2.steal.flight with | some f => f.2 == core | none => false)).length

/-- A deque has no slot left of its 512 (R2, R182, R189). The copy of a stolen closure keeps its slot, into which it may be pushed
back (R265; DESIGN CHOICE, assumption 59). -/
def dequeFull (s : State) (core : Nat) : Bool := decide ((s.core core).deque.length + copiesHeld s core ≥ 512)

def Entry.staged (e : Entry) : Bool := e.staging matches .none | .complete
def Entry.fresh (e : Entry) : Bool := e.staging matches .none | .notBegun

/-- The team still has a group on the core. -/
def teamAlive (s : State) (core team : Nat) : Bool := s.groups.any (fun p => p.2.core == core && p.2.team == team)

def runnable (s : State) (core : Nat) (e : Entry) : Bool :=
  e.takeable && e.staged && e.gateOpen && (!e.clo.pin || teamAlive s core e.team)

/-- The save area of an inline task of `d` blocks (R179). -/
def saveBytes (d : Nat) : Nat := 288 + 3072 * d

/-- A handle that a staging name may fill at once. -/
def handleFree (s : State) (core h : Nat) : Bool :=
  match tabGet? (s.core core).handles h with | some x => x.st == .free | none => false

/-- The handle numbers of the staging names in use. -/
def stageHandles (c : Closure) : List Nat := (List.range c.nstage).map (fun k => (c.stage.getD (4 * k + 3) 0).toNat % 64)

/-- The inline conditions of R199; `full` for a spawn on a full deque, whose staging may still begin and whose
gate is awaited in R200 step 1. -/
def inlineOk (s : State) (g : Group) (e : Entry) (full : Bool) : Bool :=
  e.clo.demand ≤ g.demand && (!e.clo.pin || g.team == e.team) &&
  g.ifp.toNat + saveBytes e.clo.demand + 32 ≤ g.stackEnd && (full || e.gateOpen) &&
  (e.staged || (full && (stageHandles e.clo).all (fun h => handleFree s g.core h)))

/-! ### Handles (R204) -/

/-- The state that a bufwait waits for. -/
def bufwaitWant (i : Instr) : Option HandleSt := match i with | .bufwaitFull _ => some .full | .bufwaitFree _ => some .free | _ => none

/-- A bufwait that is parked on a handle ends with 0 once the handle is in its state, with the acquire of one that turns full; what
becomes of the handle before the group's next turn changes nothing (R204, R206). -/
def Group.handleTurns (g : Group) (core h : Nat) (x : Handle) : Group :=
  if g.core = core ∧ g.inWord = some (.handle h) ∧ g.current.bind bufwaitWant = some x.st then
    { (if x.st = .full then g.acquire 4 x.stamp else g) with inWord := some (.answered 0) }
  else g

def handle? (s : State) (core h : Nat) : Option Handle := tabGet? (s.core core).handles h
def setHandle (s : State) (core h : Nat) (x : Handle) : State :=
  { s.modCore core (fun c => { c with handles := tabPut c.handles h x }) with groups := tabMap s.groups (fun g => g.handleTurns core h x) }
/-- Unbinds a handle: a group that waits for it resumes with status 2 (R206). -/
def unbind (s : State) (core h : Nat) : State :=
  { s.modCore core (fun c => { c with handles := tabDel c.handles h }) with
    groups := tabMap s.groups (fun g =>
      if g.core = core ∧ g.inWord = some (.handle h) then { g with inWord := some (.answered 2) } else g) }

def handleTo (s : State) (core h : Nat) (st : HandleSt) : State :=
  match handle? s core h with
  | some x => setHandle s core h { x with st := st, full := [], bad := [] }
  | none => s

/-- Every tile of an entry has arrived, and every handle that it names is full (R207). -/
def stagedNow (s : State) (core : Nat) (e : Entry) : Bool :=
  (match e.staging with | .begun [] b => b.length == e.clo.nstage | _ => false) &&
  (stageHandles e.clo).all (fun h => match handle? s core h with | some x => x.st == .full | none => false)

/-- The entries of a core that are now staged. -/
def settleStaging (s : State) (core : Nat) : State :=
  let f (e : Entry) : Entry := if stagedNow s core e then { e with staging := .complete } else e
  { s.modCore core (fun c => { c with deque := c.deque.map f }) with
    groups := tabMap s.groups (fun g => if g.core = core then { g with running := g.running.map f } else g) }

/-- A handle turns full: a release by the filling agent, with the stamp it leaves (R204). What the range holds now is
what a matrix command reads (R249). -/
def handleFull (s : State) (core h : Nat) (stamp : Stamp) : State :=
  match handle? s core h with
  | some x =>
    settleStaging (setHandle s core h { x with
      st := .full, stamp := stamp, full := scratchRead s core x.off x.size
      bad := (s.core core).scratchPoison.filter (fun k => x.off / 4 ≤ k && 4 * k < x.off + x.size) }) core
  | none => s

/-- Some bytes of a full handle are uncorrectable. -/
def handleBad (s : State) (core : Nat) (x : Handle) (off n : Nat) : Bool :=
  scratchBad s core off n || x.bad.any (fun k => decide (off / 4 ≤ k ∧ 4 * k < off + n))

/-- One engine read more. -/
def beginRead (s : State) (core h : Nat) : State :=
  match handle? s core h with
  | some x => setHandle s core h { x with reads := x.reads + 1 }
  | none => s

/-- One engine read ends; the last one of a draining handle frees or unbinds it. -/
def endRead (s : State) (core h : Nat) : State :=
  match handle? s core h with
  | some x =>
    if x.reads ≤ 1 ∧ x.st = .draining then
      (if x.unbind then unbind s core h else setHandle s core h { x with reads := 0, st := .free, full := [], bad := [] })
    else setHandle s core h { x with reads := x.reads - 1 }
  | none => s

end Sys2Proof.Machine
end

