-- ==== Sys2Proof/Machine/Batch.lean ====
section
/-! DEFINITION. Batches of matrix commands and the gates they open (10 R256 to R258, 08 R209). -/

namespace Sys2Proof.Machine

def Batches.start : Batches :=
  { openNum := 0, openLeft := 0, openUsed := false, openFailed := none, closed := [], failWord := 0, epiFlags := 0 }

def batchesOf (s : State) (core grp : Nat) : Batches := tabGet (s.core core).batches grp Batches.start
def setBatches (s : State) (core grp : Nat) (b : Batches) : State :=
  s.modCore core (fun c => { c with batches := tabPut c.batches grp b })

/-- Closing the open batch leaves at most 255 closed ones (R256). -/
def canClose (b : Batches) : Bool := b.closed.length < 255

/-- The oldest unretired batch O (R258). -/
def oldestBatch (b : Batches) : Nat := match b.closed with | x :: _ => x.num | [] => b.openNum

/-- R258: whether a batch number names a batch that has not retired. -/
def batchPending (b : Batches) (n : Nat) : Bool :=
  let diff (x y : Nat) : Nat := (x + 65536 - y) % 65536
  n == b.openNum || diff b.openNum n ≤ diff b.openNum (oldestBatch b)

/-- The gates of a retired batch (R209): its entries go on, or their futures fail with BATCH. -/
def openGates (s : State) (core grp num : Nat) (failed : Bool) : State :=
  let hit (e : Entry) : Bool := e.clo.gate && e.spawnGrp == grp && e.clo.batch == num && !e.gateOpen
  let asid := coreAsid s core
  if failed then
    let gone := (s.core core).deque.filter hit
    let s := s.modCore core (fun c => { c with deque := c.deque.filter (fun e => !hit e) })
    let s := gone.foldl (fun (s : State) e =>
      failFuture s core asid e.clo.future 5 e.serial (BitVec.ofNat 32 num) 0 e.stamp (provOf asid e.serial 0 0)) s
    s.groups.foldl (fun (s : State) (p : Nat × Group) =>
      match p.2.running with
      | some e =>
        if p.2.core = core ∧ hit e then
          (failFuture s core asid e.clo.future 5 e.serial (BitVec.ofNat 32 num) 0 e.stamp (provOf asid e.serial 0 0)).modGroup p.1
            (fun g => { g with running := none })
        else s
      | none => s) s
  else
    let f (e : Entry) : Entry := if hit e then { e with gateOpen := true } else e
    let s := s.modCore core (fun c => { c with deque := c.deque.map f })
    { s with groups := tabMap s.groups (fun g => if g.core = core then { g with running := g.running.map f } else g) }

/-- The failure word of mstat (R260): the first batch that has failed since the last clear. -/
def noteFailure (b : Batches) (x : Batch) : Batches :=
  match x.failed with
  | some r =>
    if b.failWord.getLsbD 31 then b else { b with failWord := BitVec.ofNat 32 (2 ^ 31 + r * 65536 + x.num) }
  | none => b

/-- One batch of a group retires: gates open and a waiting mwait is answered (R257). -/
def retireOne (s : State) (core grp : Nat) (x : Batch) : State :=
  let s := setBatches s core grp (noteFailure (batchesOf s core grp) x)
  let s := openGates s core grp x.num x.failed.isSome
  s.modGroup grp (fun g => if g.inWord = some (.batch x.num) then { g with inWord := some (.batchDone x.failed.isSome) } else g)

/-- The closed batches at the head of a list that have no command left. -/
def retireHead (l : List Batch) : List Batch × List Batch := (l.takeWhile (fun x => x.left == 0), l.dropWhile (fun x => x.left == 0))

/-- Retires the batches of a group that can retire, in order. -/
def retireBatches (s : State) (core grp : Nat) : State :=
  let b := batchesOf s core grp
  let (gone, rest) := retireHead b.closed
  gone.foldl (fun s x => retireOne s core grp x) (setBatches s core grp { b with closed := rest })

/-- Closes the open batch; batch b + 1 opens. -/
def closeBatch (s : State) (core grp : Nat) : State :=
  let b := batchesOf s core grp
  retireBatches (setBatches s core grp { b with
    closed := b.closed ++ [⟨b.openNum, b.openLeft, b.openFailed⟩]
    openNum := (b.openNum + 1) % 65536, openLeft := 0, openUsed := false, openFailed := none }) core grp

/-- A command joins the open batch. -/
def joinBatch (s : State) (core grp : Nat) : State × Nat :=
  let b := batchesOf s core grp
  (setBatches s core grp { b with openLeft := b.openLeft + 1, openUsed := true }, b.openNum)

/-- A command of a batch has completed or failed. -/
def finishCommand (s : State) (core grp num : Nat) (fail : Option Nat) : State :=
  let b := batchesOf s core grp
  let b :=
    if num = b.openNum then { b with openLeft := b.openLeft - 1, openFailed := b.openFailed.or fail }
    else { b with closed := b.closed.map (fun x => if x.num = num then { x with left := x.left - 1, failed := x.failed.or fail } else x) }
  retireBatches (setBatches s core grp b) core grp

/-- R256: a group about to park in a join, or to retire, whose open batch holds a command closes it first.
None: it must wait for the oldest closed batch. -/
def closeForWait (s : State) (core grp : Nat) : Option State :=
  let b := batchesOf s core grp
  if !b.openUsed then some s else if canClose b then some (closeBatch s core grp) else none

end Sys2Proof.Machine
end

