-- ==== Sys2Proof/Machine/Piazza.lean ====
section
/-! DEFINITION. Phasers (11 R278 to R282) and barrier words in scratch (15 R314 to R320). -/

namespace Sys2Proof.Machine

/-! ### Phasers -/

def phaserOf (s : State) (cl p : Nat) : Phaser := tabGet (s.cluster cl).phasers p ⟨0, 0, 0, 0, 0⟩
def setPhaser (s : State) (cl p : Nat) (x : Phaser) : State :=
  s.modCluster cl (fun c => { c with phasers := tabPut c.phasers p x })
def memberOf (s : State) (cl p grp : Nat) : Option Member :=
  (s.cluster cl).members.find? (fun m => m.phaser == p && m.grp == grp)
def setMember (s : State) (cl : Nat) (x : Member) : State :=
  s.modCluster cl (fun c => { c with members := c.members.map (fun m => if m.phaser = x.phaser ∧ m.grp = x.grp then x else m) })

/-- A phase count has been reached (R278). -/
def reached (phase c : Nat) : Bool := (phase + 2 ^ 28 - c % 2 ^ 28) % 2 ^ 28 < 2 ^ 27

/-- The check and the advance of R280. -/
def phaserCheck (s : State) (cl p : Nat) : State :=
  let x := phaserOf s cl p
  if x.arr = x.nsig then
    let s := setPhaser s cl p { x with phase := (x.phase + 1) % 2 ^ 28, arr := 0, cstamp := max x.cstamp x.stamp, stamp := 0 }
    s.modCluster cl (fun c => { c with members := c.members.map (fun m => if m.phaser = p then { m with sig := false } else m) })
  else s

/-- A signal with the stamp it carries. -/
def phaserSignal (s : State) (cl p grp : Nat) (stamp : Stamp) : State :=
  match memberOf s cl p grp with
  | none => s
  | some m =>
    let x := phaserOf s cl p
    let s := setMember s cl { m with sig := true }
    phaserCheck (setPhaser s cl p { x with arr := x.arr + 1, stamp := max x.stamp stamp }) cl p

/-- phdrop of a member (R280: the phase of a phaser without signallers ends with the last one's drop, whatever the table of R302
shows; DEDUCED, assumption 32). -/
def phaserDrop (s : State) (cl p grp : Nat) : State :=
  match memberOf s cl p grp with
  | none => s
  | some m =>
    let x := phaserOf s cl p
    let s := s.modCluster cl (fun c => { c with members := c.members.filter (fun y => !(y.phaser == p && y.grp == grp)) })
    if m.mode = 1 then s
    else phaserCheck (setPhaser s cl p { x with nsig := x.nsig - 1, arr := if m.sig then x.arr - 1 else x.arr }) cl p

/-- A group that retires drops every record it holds, in rising phaser number (R282). -/
def dropPhasers (s : State) (cl grp : Nat) : State :=
  let mine := (s.cluster cl).members.filter (fun m => m.grp == grp)
  (List.range 64).foldl (fun s p => if mine.any (fun m => m.phaser == p) then phaserDrop s cl p grp else s) s

/-- Whether a group holds a phaser record (R329). -/
def holdsPhaser (s : State) (cl grp : Nat) : Bool := (s.cluster cl).members.any (fun m => m.grp == grp)

/-! ### Barrier words in scratch (R314, R317) -/

def barRead (s : State) (core off : Nat) : DWord := BitVec.ofNat 64 (bytesVal (scratchRead s core off 8))
def barWrite (s : State) (core off : Nat) (w : DWord) : State := scratchWrite s core off (valBytes 8 w.toNat)
def arrStampOf (s : State) (core off : Nat) : Stamp := tabGet (s.core core).arrStamp (off / 8) 0
def setArrStamp (s : State) (core off : Nat) (v : Stamp) : State :=
  s.modCore core (fun c => { c with arrStamp := tabPut c.arrStamp (off / 8) v })

/-- An operation on a scratch barrier word: 0 init, 1 exp, 2 an arrival that carries a stamp. -/
def barScratch (s : State) (core off op n : Nat) (stamp : Stamp) : State :=
  let w := barRead s core off
  let s := if op = 0 then setArrStamp s core off 0
    else if op = 2 ∧ barStatus w = 0 then setArrStamp s core off (max (arrStampOf s core off) stamp) else s
  barWrite s core off (barApply op w n)

/-- Poisoning of a scratch barrier word by an engine (R320). -/
def barPoison (s : State) (core off count : Nat) : State :=
  barWrite s core off (barWord 2 false (barPhase (barRead s core off)) (Int.ofNat count))

/-- bar.wait has an answer (R318). -/
def barAnswer (w : DWord) (p : Nat) : Option Nat :=
  let d := (barPhase w + 65536 - p) % 65536
  if 1 ≤ d ∧ d ≤ 2 ^ 15 then some 0
  else if barStatus w = 1 then some 1
  else if barStatus w ≠ 0 then some 2
  else none

end Sys2Proof.Machine
end

