-- ==== Sys2Proof/Machine/Arcade.lean ====
section
/-! DEFINITION. Arcades, streams and the retirement of stages (18 R382 to R392). -/

namespace Sys2Proof.Machine

def stageAt (p : Pipe) (j : Nat) : Option Stage := p.stages[j]?
def setStage (p : Pipe) (j : Nat) (x : Stage) : Pipe := { p with stages := p.stages.set j x }
def State.modStage (s : State) (pipe j : Nat) (f : Stage → Stage) : State :=
  s.modPipe pipe (fun p => match stageAt p j with | some x => setStage p j (f x) | none => p)
def stage? (s : State) (pipe j : Nat) : Option Stage := match tabGet? s.pipes pipe with | some p => stageAt p j | none => none

/-- The producer identity of a core (R383): 16 for the root, a stage number otherwise. -/
def producerOf (s : State) (core : Nat) : Option (Nat × Nat) :=
  match (s.core core).domain with
  | some (some (p, j)) => some (p, j)
  | some none =>
    match (s.pipes.find? (fun p => p.2.rootCore == core && p.2.asid == coreAsid s core)) with
    | some p => some (p.1, 16)
    | none => none
  | none => none

/-- Producers of a stage: FROM bits 0 to 15 and 16 for the root. -/
def isProducer (x : Stage) (k : Nat) : Bool := x.from'.testBit k
def streamClosed (x : Stage) (k : Nat) : Bool := x.closed.contains k
def ended (x : Stage) : Bool := (List.range 17).all (fun k => !isProducer x k || streamClosed x k)
def arcadeFull (x : Stage) : Bool := x.slots.length ≥ x.cap

/-- The producer identity of a group within a pipeline. -/
def groupProducer (s : State) (pipe grp : Nat) : Option Nat :=
  match s.group? grp with
  | some g => match producerOf s g.core with | some (p, k) => if p = pipe then some k else none | none => none
  | none => none

/-- Gives a waiting enq its status. -/
def answerEnq (s : State) (grp status : Nat) : State :=
  s.modGroup grp (fun g => if g.inWord = some .again then { g with inWord := some (.answered status) } else g)

/-- Closes producer k's stream into stage j; waiting enqs of the producer complete with status 4 (R386, R387). -/
def closeStream (s : State) (pipe j k : Nat) : State :=
  match stage? s pipe j with
  | none => s
  | some x =>
    if streamClosed x k then s
    else
      let gone := (x.waits.filter (fun w => groupProducer s pipe w.1 == some k)).map (fun w => w.1)
      let s := s.modStage pipe j (fun x => { x with
        closed := x.closed ++ [k], waits := x.waits.filter (fun w => !gone.contains w.1) })
      gone.foldl (fun s w => answerEnq s w 4) s

/-- Cores whose domain is a stage, draining cores included. -/
def domainCores (s : State) (pipe j : Nat) : List Nat :=
  (s.cores.filter (fun c => c.2.domain == some (some (pipe, j)))).map (fun c => c.1)

/-- No deque entry, travelling closure or group of a steal domain exists on a core: none is on its way there either, a
closure that a thief may yet push back included. -/
def coreIdle (s : State) (core : Nat) : Bool :=
  (s.core core).deque.isEmpty && (s.core core).steal.flight.isNone &&
  !(s.cores.any (fun c => match c.2.steal.flight with | some f => f.2 == core | none => false)) &&
  !(s.groups.any (fun p => p.2.core == core || (match p.2.migTo with | some x => x.1 == core | none => false)))

def stageIdle (s : State) (pipe j : Nat) : Bool := (domainCores s pipe j).all (fun c => coreIdle s c)

/-- Core c leaves its stage or its launch and becomes unassigned (R391, R394). With work of the old domain left it keeps
that domain (R185). -/
def unassign (s : State) (pipe c : Nat) : State :=
  let idle := coreIdle s c
  let s := s.modCore c (fun x => { x with domain := if idle then none else x.domain, drainTo := none })
  s.modPipe pipe (fun p => { p with assigned := tabDel p.assigned c, unassigned := c :: p.unassigned })

/-- Stage j retires (R391): its streams into the stages that it feeds close and its cores are unassigned. A core
that drains toward another stage switches to it (R397). -/
def retireStage (s : State) (pipe j : Nat) : State :=
  let cores := domainCores s pipe j
  let s := s.modStage pipe j (fun x => { x with retired := true })
  let s := cores.foldl (fun (s : State) c =>
    match (s.core c).drainTo with
    | some d =>
      if (match stage? s d.1 d.2 with | some x => x.retired | none => true) = true then unassign s pipe c
      else s.modCore c (fun x => { x with domain := some (some d), drainTo := none })
    | none => unassign s pipe c) s
  (List.range 16).foldl (fun s k =>
    match stage? s pipe k with
    | some x => if isProducer x j then closeStream s pipe k j else s
    | none => s) s

def canRetire (s : State) (pipe j : Nat) : Bool :=
  match stage? s pipe j with
  | some x => !x.retired && ended x && x.slots.isEmpty && stageIdle s pipe j
  | none => false

/-- Retires every stage of a pipeline that can retire; one retirement may allow another. -/
def retireStages (s : State) (pipe fuel : Nat) : State :=
  match fuel with
  | 0 => s
  | fuel + 1 =>
    match (List.range 16).find? (fun j => canRetire s pipe j) with
    | some j => retireStages (retireStage s pipe j) pipe fuel
    | none => s

/-- Every stage has retired and the root has finished or never ran (R392). -/
def pipeDone (p : Pipe) : Bool := p.rootDone && p.stages.all (fun x => x.retired)

/-- The retirements that a change on a core allows; a pipeline that has completed gives up its slot and its ways. -/
def settleStages (s : State) (asid : Nat) : State :=
  match s.pipes.find? (fun p => p.2.asid == asid) with
  | some p =>
    let s := retireStages s p.1 16
    match tabGet? s.pipes p.1 with
    | some q => if pipeDone q then { s with pipes := tabDel s.pipes p.1 } else s
    | none => s
  | none => s

/-- The root task's tret has completed (R383, R384): the root's streams close, and the root core joins the pool. -/
def rootDone (s : State) (asid : Nat) : State :=
  let s := s.modContext asid (fun c => { c with rootDone := true })
  match s.pipes.find? (fun p => p.2.asid == asid) with
  | none => s
  | some (pipe, p) =>
    let s := (List.range 16).foldl (fun s k => closeStream s pipe k 16) s
    let s := s.modPipe pipe (fun x => { x with rootDone := true })
    unassign s pipe p.rootCore

end Sys2Proof.Machine
end

