-- ==== Sys2Proof/Machine/Queues.lean ====
section
/-! DEFINITION. The Forum's memory: queue descriptors, rings, signals and STATUS words (19 R401, R404 to R407),
and the device's additions of one (R373, R406). -/

namespace Sys2Proof.Machine

/-! ### Accesses (R356, R366, R437) -/

/-- Provenance without a task. -/
def devProv (asid index : Nat) : DWord := BitVec.ofNat 64 (asid % 256 * 2 ^ 56 + index)

def hostAsid (s : State) : Nat := s.host.apasid.toNat % 256
def forumRead (s : State) (asid va n : Nat) : State × Except (Nat × Nat) (List Byte × Stamp) := devRead s 0 asid va n 0 1
def forumWrite (s : State) (asid va : Nat) (bs : List Byte) : State × Except (Nat × Nat) Stamp :=
  devWrite s 0 asid va bs 0 (devProv asid 0xFFFFFD)

/-- An atomic add of a doubleword that the device makes, as one event at the home (R337). With return it needs the
old value; without, a page that is not present takes it as an operation entry (R226, R348). -/
def devAdd (s : State) (die asid va v : Nat) (ret : Bool) (c : Stamp := 0) : State × Except (Nat × Nat) Nat :=
  let prov := devProv asid 0xFFFFFD
  match mtuCheck s die asid va 27 with
  | (s, .error e) => (s, .error e)
  | (s, .ok r) =>
    match homeAccess s r asid va none with
    | (s, .error e) => (s, .error e)
    | (s, .ok (d, m, p, _, cause, detail)) =>
      let want := byteMask (va % 128) 8
      let slice := homeSlice r.place r.home va
      if want &&& ~~~ m != 0 then
        if cause = 7 && !ret then
          match deferEvent s slice asid (.atomic 0 false .z64 false) va 8 (BitVec.ofNat 64 v) 0 c prov 0xFFFFFFFF with
          | (s, some _) => (s, .ok 0)
          | (s, none) => (s, .error (7, 0))
        else (s, .error (cause, detail))
      else if want &&& p != 0 then (s, .error (11, 3))
      else
        let old := lineVal d (va % 128) 8
        match homeWrite s slice (tagAsid asid va) (va / 128) c (lineOf (va % 128) (valBytes 8 ((old + v) % 2 ^ 64))) want 0 prov with
        | (s, some _) => (s, .ok old)
        | (s, none) => (s, .error (7, 0))

/-! ### The queue table (R401) -/

def qtAddr (s : State) (q : Nat) : Nat := s.host.qtable.toNat / 2 ^ 18 * 2 ^ 18 + 64 * q

/-- A queue is not mapped, or not registered, from now (R403). -/
def unmapQueue (s : State) (q : Nat) : State :=
  { s.modQueue q (fun y => { y with mapped := false, since := s.nextId }) with nextId := s.nextId + 1 }

/-- A queue-table access has faulted, or a descriptor is malformed: the queue is left unmapped and QT is set. -/
def queueBad (s : State) (q : Nat) : State := ((unmapQueue s q).modQueue q (fun x => { x with bad := true })).hostErr 2

/-- A blank queue, first looked at now. -/
def Queue.blank (since : Nat) : Queue :=
  { mapped := false, since := since, base := 0, log2n := 0, asid := 0, qp := false, priv := false, quantum := 0, read := 0, write := 0
    latch := false, bad := false, reg := false, puts := [] }

/-- The queue of a registered descriptor; the Forum keeps WRITE of a QP queue itself. A queue that was not registered when the Forum
last looked is registered from now (R403; DESIGN CHOICE, assumption 67). -/
def queueOf (old : Queue) (now : Nat) (b : List Byte) : Queue :=
  let ctl := bytesAt b 8 4
  let qp := ctl.testBit 17
  { old with
    since := if old.reg then old.since else now, reg := true
    base := BitVec.ofNat 64 (bytesAt b 0 8), log2n := ctl % 32, asid := ctl / 256 % 256, qp := qp, priv := ctl.testBit 18
    quantum := max 1024 (bytesAt b 12 4), read := bytesAt b 24 8
    write := if qp then (if old.qp then old.write else bytesAt b 24 8) else bytesAt b 16 8, bad := false }

/-- Reads the descriptor of a queue that is not mapped; none when it is not registered. -/
def loadQueue (s : State) (q : Nat) : State × Option Queue :=
  let s := match tabGet? s.queues q with
    | some _ => s
    | none => { s with queues := tabPut s.queues q (Queue.blank s.nextId), nextId := s.nextId + 1 }
  match forumRead s (hostAsid s) (qtAddr s q) 32 with
  | (s, .error _) => (queueBad s q, none)
  | (s, .ok (b, _)) =>
    let ctl := bytesAt b 8 4
    if ctl.testBit 16 = false then ((unmapQueue s q).modQueue q (fun x => { x with bad := false, reg := false }), none)
    else if ctl % 32 < 4 ∨ ctl % 32 > 16 ∨ ctl / 256 % 256 = 0 then ((queueBad s q).modQueue q (fun x => { x with reg := false }), none)
    else
      let x := queueOf (tabGet s.queues q (Queue.blank 0)) s.nextId b
      ({ s with queues := tabPut s.queues q x, nextId := s.nextId + 1 }, some x)

/-- EN is cleared in the descriptor: the queue is no longer registered. Reserved bits are written zero (R9). -/
def clearEn (s : State) (q : Nat) : State :=
  let a := qtAddr s q + 10
  let s := (unmapQueue s q).modQueue q (fun x => { x with reg := false })
  match forumRead s (hostAsid s) a 1 with
  | (s, .error _) => queueBad s q
  | (s, .ok (b, _)) =>
    match forumWrite s (hostAsid s) a [(b.getD 0 0) &&& 0x06, 0] with
    | (s, .ok _) => s
    | (s, .error _) => queueBad s q

/-- The Forum writes READ, or the WRITE of a QP queue, into the descriptor. -/
def writeBack (s : State) (q off v : Nat) : State × Bool :=
  match forumWrite s (hostAsid s) (qtAddr s q + off) (valBytes 8 v) with
  | (s, .ok _) => (s, true)
  | (s, .error _) => (queueBad s q, false)

def slotAddr (x : Queue) (k : Nat) : Nat := x.base.toNat / 4096 * 4096 + 64 * (k % 2 ^ x.log2n)
def Queue.hasWork (x : Queue) : Bool := x.read != x.write

end Sys2Proof.Machine
end

