-- ==== Sys2Proof/Machine/Tasks.lean ====
section
/-! DEFINITION. Task instructions: spawn, join, yield, tret and their kin, buffer handles (08 R187 to R201,
R205, R206). -/

namespace Sys2Proof.Machine

/-! ### Reading records (R190) -/

/-- What a read of a record at issue gives. -/
inductive RecSee where
  | seen (s : State) (bytes : List Byte) (ws : Stamp)
  | stop (o : WOut)

/-- Checks and reads a 32-byte record, as a scalar load that is not held (R190 step 1). -/
def readRecord (s : State) (grp : Nat) (g : Group) (a : DWord) : RecSee :=
  match checkGlobal s g a 32 1 false with
  | .wait k => .stop (.hold (s.modGroup grp (fun g => { g with wanted := [k] })) .plb)
  | .bad c d => .stop (.trap s (wordTrap g c d a))
  | .ok _ _ =>
    if lineBusy s g.core g.asid a.toNat then .stop (.hold s .release)
    else
      match groupRead s g a.toNat 32 with
      | (s, .error (c, d)) => .stop (.trap s (wordTrap g c d a))
      | (s, .ok (b, ws)) => .seen s b ws

/-- The view and observed stamps after a read that is an acquire at .dev scope. -/
def acquireRead (g : Group) (ws : Stamp) : Group := { g.acquire 4 ws with observed := max g.observed ws }

/-- A result of variable latency that no unit of R146 delivers (R198). -/
def laterScalars (s : State) (grp : Nat) (g : Group) (o : Opd) (vals : List Word) : State :=
  match o with
  | .s n =>
    let (s, id) := s.fresh
    let cells := (List.range vals.length).map (fun k => (⟨256 + n.val + k, 0, vals.getD k 0⟩ : WrCell))
    s.modGroup grp (fun x => { x with pend := x.pend ++ [⟨id, .join, cells, 0, 0xFF, g.pc, none⟩] })
  | _ => s

/-! ### The frame of the running task (R179) -/

/-- What a walk down the stack finds: the header, with its FUTURE, its link and the task's serial; nothing down to the base
of the region; or a stop of the word. -/
inductive FrameSee where
  | header (s : State) (hdr : Nat) (future : DWord) (link : Nat) (serial : Word)
  | nothing (s : State)
  | stop (o : WOut)

/-- Reads items downward from an address until one holds 3 at bytes 16 to 19, under the right R (DESIGN CHOICE, assumption 60: R179 names
W for reads and writes alike, and R190 and R201 read such items under R). -/
def walkDown (s : State) (grp : Nat) (g : Group) (a fuel : Nat) : FrameSee :=
  match fuel with
  | 0 => .nothing s
  | fuel + 1 =>
    if a < 32 then .nothing s
    else
      match readRecord s grp g (BitVec.ofNat 64 (a - 32)) with
      | .stop o => .stop o
      | .seen s b _ =>
        let kind := bytesAt b 16 4
        if kind = 3 then .header s (a - 32) (BitVec.ofNat 64 (bytesAt b 0 8)) (bytesAt b 8 8) (BitVec.ofNat 32 (bytesAt b 20 4))
        else if kind = 4 then walkDown s grp g (a - saveBytes (bytesAt b 20 4)) fuel
        else walkDown s grp g (a - 32) fuel

/-- Bytes of the stack region above the outermost header. -/
def Group.stackSize (g : Group) : Nat := g.stackEnd - (match g.tasks with | t :: _ => t.hdr | [] => 0)

/-- The group with the header that the device has found. -/
def Group.found (g : Group) (hdr : Nat) (future : DWord) (link : Nat) (serial : Word) : Group :=
  { g with
    refind := g.tasks.length - 1
    tasks := g.tasks.dropLast ++ [{ g.task with hdr := hdr, future := future, link := link, serial := serial }] }

/-- Goes on with the frame of the running task: after a restore, and once a handler may have written K_IFP or the stack, the
header is found again (R179). Where no header stands the device keeps what it knows (assumption 60). -/
def withFrame (s : State) (grp : Nat) (g : Group) (f : State → Group → WOut) : WOut :=
  if !g.rewalk then f s g
  else
    match walkDown s grp g g.ifp.toNat (g.stackSize / 32) with
    | .stop o => o
    | .nothing s => let g := { g with refind := g.tasks.length - 1 }; f (s.setGroup grp g) g
    | .header s hdr future link serial => let g := g.found hdr future link serial; f (s.setGroup grp g) g

/-! ### Inline runs (R199, R200) -/

/-- The bytes of a save area (R179). -/
def saveArea (g : Group) (d : Nat) (resume : DWord) : List Byte :=
  wordsBytes g.sregs.toList ++ (List.range (8 * d)).flatMap (fun k => wordsBytes (g.vreg k).toList) ++
    valBytes 8 resume.toNat ++ valBytes 4 g.flags.toNat ++ valBytes 4 g.gmode.toNat ++ valBytes 4 4 ++ valBytes 4 d ++
    valBytes 8 g.srseed.toNat

/-- The bytes of a task header (R179). -/
def headerBytes (future : DWord) (link : Nat) (serial : Word) : List Byte :=
  valBytes 8 future.toNat ++ valBytes 8 link ++ valBytes 4 3 ++ valBytes 4 serial.toNat ++ valBytes 8 0

/-- The marks of registers with an uncorrectable error once s0 to s63 and the vector registers below 8d are written. -/
def freshMarks (g : Group) (d : Nat) : List Nat := g.poisonRegs.filter (fun c => decide (8 * d ≤ c ∧ c < 256))

/-- The group inside an inline task (R200 steps 3 and 4). -/
def enterInline (g : Group) (e : Entry) (seed : DWord) (onReturn : Option Opd) : Group :=
  let d := e.clo.demand
  let hdr := g.ifp.toNat + saveBytes d
  { g with
    sregs := startSregs e.clo.args, vregs := g.vregs.filter (fun p => p.1 ≥ 8 * d), flags := 0, demand := d, gmode := 0
    srseed := seed, ifp := BitVec.ofNat 64 (hdr + 32), view := max g.view e.stamp, pc := e.clo.entry, arrival := some false
    tasks := g.tasks ++ [⟨e.clo.entry, e.clo.future, e.serial, e.clo.entry, e.origin, false, d, hdr, false, g.task.hdr, onReturn⟩]
    poisonRegs := freshMarks g d, running := none, park := none, inWord := none, replay := none, answers := [], wanted := [] }

/-- The task of an inline run cannot be entered: it fails with TASKFAIL, and the word completes (R200). -/
def inlineFail (s : State) (grp : Nat) (g : Group) (e : Entry) (cause : Nat) (fin : State → WOut) : WOut :=
  fin ((failFuture s g.core g.asid e.clo.future 6 e.serial (BitVec.ofNat 32 cause) 0 g.commandStamp g.prov).modGroup grp
    (fun g => { g with running := none }))

/-- The pushes of an inline run, whose header links to that of the running task, and its start (R200 steps 2 to 4). -/
def inlinePush (s : State) (grp : Nat) (g : Group) (e : Entry) (resume : DWord) (fin : State → WOut) (onReturn : Option Opd) : WOut :=
  let d := e.clo.demand
  match groupWrite s g.core g.asid g.ifp.toNat (saveArea g d resume) g.view g.prov with
  | (s, .error (c, _)) => inlineFail s grp g e c fin
  | (s, .ok _) =>
    match groupWrite s g.core g.asid (g.ifp.toNat + saveBytes d) (headerBytes e.clo.future g.task.hdr e.serial) g.view g.prov with
    | (s, .error (c, _)) => inlineFail s grp g e c fin
    | (s, .ok _) =>
      let seed := match s.context? g.asid with | some c => c.regs.seed | none => 0
      .over (s.modGroup grp (fun g => enterInline g e seed onReturn))

/-- One try to go on with an inline run: it waits for counters, results, handles and gate, then finds the header that it links to
and pushes. `fin` is how the word completes when the task is not run after all (R200, R209), and `onReturn` the D that a yield
writes when it has run. All of this is inside the word, so that a held trap waits for the word's end (DESIGN CHOICE for spawn and yield,
assumption 56: R166 names neither). A fault on the way to the header fails the task with TASKFAIL, as one of a push does (DEDUCED,
assumption 48). -/
def inlineStep (s : State) (grp : Nat) (g : Group) (resume : DWord) (fin : State → WOut) (onReturn : Option Opd := none) : WOut :=
  match g.running with
  | none => fin s
  | some e =>
    let stay (s : State) (p : Park) : WOut := .wait s p (.inlineRun e.serial.toNat)
    if g.ops.any (fun o => o.path.isSome) || !g.pend.isEmpty || !e.gateOpen || !e.staged then stay s .drain
    else
      match withFrame s grp g (fun s g => inlinePush s grp g e resume fin onReturn) with
      | .hold s p => stay s p
      | .trap s t => inlineFail s grp g e t.cause fin
      | o => o

/-- Begins an inline run of an entry. -/
def inlineBegin (s : State) (grp : Nat) (g : Group) (e : Entry) (resume : DWord) (fin : State → WOut)
    (onReturn : Option Opd := none) : WOut :=
  let g := { g with running := some e }
  inlineStep (s.setGroup grp g) grp g resume fin onReturn

/-- The word issues again from the start, as after an inline run (R190). -/
def issueAgain (grp : Nat) (s : State) : WOut := .over (s.modGroup grp (fun g => { g with park := none, inWord := some .again }))

/-- A group inside an inline run that has not entered yet. -/
def inRun (g : Group) : Bool := g.inWord matches some (.inlineRun _)

/-! ### spawn (R189) -/

/-- A task word in supervisor mode raises the privilege trap (R188). -/
def userWord (g : Group) (s : State) (f : Unit → WOut) : WOut := if g.sup then privilege s g else f ()

/-- The entry that a spawn makes. -/
def spawnEntry (s : State) (grp : Nat) (g : Group) (w : W) (form : Nat) (f : DWord) (serial : Word) : Entry :=
  let nst := if form = 1 then spawnNst w else 0
  let pin := form ≥ 2
  let batch := (scalarVal g w w.c).toNat % 65536
  let stage := if form = 1 then (blockRegs g w.c (4 * nst) ++ List.replicate 8 0).take 8 else List.replicate 8 0
  let clo : Closure :=
    { entry := pairVal g w w.a, future := f
      flags := BitVec.ofNat 32 (nst + (if pin then 4 else 0) + (if form = 3 then 8 + 65536 * batch else 0))
      need := BitVec.ofNat 32 (spawnDemand w + 65536 * spawnScr w), stage := stage
      args := (blockRegs g w.b (spawnNarg w) ++ List.replicate 18 0).take 18 }
  let waits := g.unreturned
  { clo := clo, serial := serial, stamp := g.commandStamp, spawner := g.gid, spawnGrp := grp, team := g.team
    takeable := waits.isEmpty, waits := waits, staging := if nst = 0 then .none else .notBegun
    gateOpen := form ≠ 3 || !batchPending (batchesOf s g.core grp) batch, origin := g.core, isRoot := false }

/-- The word after a spawn: how it completes when the task did not run. -/
def spawnDone (s : State) : WOut := .done s

/-- spawn (R189). While a write of its core to the record's line is unacknowledged it waits, as a read of the line does (DEDUCED,
assumption 25: the rule names no such wait, and R216 orders the two). -/
def spawnOp (i : Instr) (w : W) (form : Nat) (s : State) : Out :=
  runWord i w true s (fun s grp g =>
    if inRun g then inlineStep s grp g (nextPc g.pc) spawnDone
    else whenActive g w s (fun _ => userWord g s (fun _ =>
      if g.ifp.toNat + 32 > g.stackEnd then .done (s.setGroup grp (writePair g w.d 0))
      else
        match checkGlobal s g g.ifp 32 18 false with
        | .wait k => .hold (s.modGroup grp (fun g => { g with wanted := [k] })) .plb
        | .bad c d => .trap s (wordTrap g c d g.ifp)
        | .ok _ _ =>
          if lineBusy s g.core g.asid g.ifp.toNat then .hold s .release
          else
            let f := g.ifp
            let (s1, serial) := takeSerial s g.asid g.core
            match groupWrite s1 g.core g.asid f.toNat (valBytes 16 0 ++ valBytes 4 0 ++ valBytes 4 serial.toNat ++ valBytes 8 0)
                g.view g.prov with
            | (_, .error (c, d)) => if c = 7 then .hold s .room else .trap s (wordTrap g c d f)
            | (s, .ok wst) =>
              let e := spawnEntry s grp g w form f serial
              let g := { writePair g w.d f with ifp := g.ifp + 32, compl := max g.compl wst }
              let s := s.setGroup grp g
              if !dequeFull s g.core then .done (pushEntry s g.core e)
              else if inlineOk s g e true then inlineBegin s grp g e (nextPc g.pc) spawnDone
              else .done (failFuture s g.core g.asid f 2 serial 0 0 g.commandStamp g.prov))))

def execSpawn (w : W) (s : State) : Out := spawnOp (.spawn w) w 0 s
def execSpawnS (w : W) (s : State) : Out := spawnOp (.spawnS w) w 1 s
def execSpawnL (w : W) (s : State) : Out := spawnOp (.spawnL w) w 2 s
def execSpawnG (w : W) (s : State) : Out := spawnOp (.spawnG w) w 3 s

/-! ### join, joinall, fprobe (R190 to R192) -/

/-- Parks on the pending record at an address until its STATE is not 0, once the group's open batch is closed (R190 step 4,
R256). -/
def parkOn (s : State) (grp : Nat) (g : Group) (a : Nat) : WOut :=
  match closeForWait s g.core grp with
  | some s => .wait s .join (.parked a)
  | none => .wait s .batch .again

/-- Waits on the pending record at an address: its local entry runs inline, or the group parks. A group that has parked on
the record searches no more (R190). -/
def waitRecord (s : State) (grp : Nat) (g : Group) (a : Nat) (serial : Word) : WOut :=
  if g.inWord = some (.parked a) then .wait s .join (.parked a)
  else
    match (s.core g.core).deque.find? (fun e => e.serial == serial) with
    | some e =>
      if runnable s g.core e && inlineOk s g e false then
        inlineBegin (dropEntry s g.core serial) grp g e g.pc (issueAgain grp)
      else parkOn s grp g a
    | none => parkOn s grp g a

def execJoin (w : W) (s : State) : Out :=
  runWord (.join w) w true s (fun s grp g =>
    if inRun g then inlineStep s grp g g.pc (issueAgain grp)
    else whenActive g w s (fun _ => userWord g s (fun _ =>
      match readRecord s grp g (pairVal g w w.a) with
      | .stop o => o
      | .seen s b ws =>
        let st := BitVec.ofNat 32 (bytesAt b 16 4)
        if st ≠ 0 then
          let s := s.modGroup grp (fun g => acquireRead g ws)
          .done (laterScalars s grp g w.d (wordsOf b 0 4 ++ [st]))
        else waitRecord s grp g (pairVal g w w.a).toNat (BitVec.ofNat 32 (bytesAt b 20 4)))))

/-- The addresses of the child futures of the running task's frame (R179). -/
def childAddrs (g : Group) : List Nat :=
  let lo := g.task.hdr + 32
  (List.range ((g.ifp.toNat - lo) / 32)).map (fun k => lo + 32 * k)

/-- What the walk over the children gives: all over, or the point where the word stops. -/
inductive Children where
  | all (s : State) (bad : Nat)
  | stop (o : WOut)

/-- Waits for every child in ascending order; `bad` counts those whose STATE is not 1 (R191). -/
def joinChildren (s : State) (grp : Nat) (l : List Nat) (bad : Nat) : Children :=
  match l with
  | [] => .all s bad
  | a :: rest =>
    match s.group? grp with
    | none => .all s bad
    | some g =>
      match readRecord s grp g (BitVec.ofNat 64 a) with
      | .stop o => .stop o
      | .seen s b ws =>
        let st := bytesAt b 16 4
        if st = 0 then .stop (waitRecord s grp g a (BitVec.ofNat 32 (bytesAt b 20 4)))
        else joinChildren (s.modGroup grp (fun g => acquireRead g ws)) grp rest (if st = 1 then bad else bad + 1)

def execJoinall (w : W) (s : State) : Out :=
  runWord (.joinall w) w true s (fun s grp g =>
    if inRun g then inlineStep s grp g g.pc (issueAgain grp)
    else whenActive g w s (fun _ => userWord g s (fun _ => withFrame s grp g (fun s g =>
      match joinChildren s grp (childAddrs g) 0 with
      | .stop o => o
      | .all s bad => .done (laterScalars s grp g w.d [BitVec.ofNat 32 bad])))))

/-- fprobe never parks: while a write of the core to the line is unacknowledged, its read alone waits for it as a request of the group
(R192, R339). Such a read that comes back unserved is held, as that of a load is: the word is over by then (DESIGN CHOICE,
assumption 69: R190 has it trap at the word). -/
def execFprobe (w : W) (s : State) : Out :=
  runWord (.fprobe w) w true s (fun s grp g => whenActive g w s (fun _ =>
    let a := pairVal g w w.a
    let c := checkGlobal s g a 32 1 false
    if c.isOk && lineBusy s g.core g.asid a.toNat then
      issueGlobal s grp g
        { instr := .fprobe w, kind := .probe, path := none, size := 4, vec := false, scope := 4, rel := false, acq := true, drifts := false
          lanesL := [(⟨0, a + 16, 0, 0⟩, c)] }
    else
      match readRecord s grp g a with
      | .stop o => o
      | .seen s b ws =>
        let st := BitVec.ofNat 32 (bytesAt b 16 4)
        let s := if st = 0 then s else s.modGroup grp (fun g => acquireRead g ws)
        .done (laterScalars s grp g w.d [st])))

/-! ### fres (R193) -/

def fresOp (i : Instr) (w : W) (fail : Bool) (s : State) : Out :=
  runWord i w true s (fun s grp g => whenActive g w s (fun _ =>
    let a := pairVal g w w.a
    let v := blockRegs g w.b 4
    let value := quad (v.getD 0 0) (v.getD 1 0) (v.getD 2 0) (v.getD 3 0)
    issueGlobal s grp g
      { instr := i, kind := .fres fail value g.unreturned, path := some 3, size := 32, vec := false, scope := 4, rel := false
        acq := false, drifts := false, lanesL := [(⟨0, a, value.extractLsb' 0 64, 0⟩, checkGlobal s g a 32 27 false)] }))

def execFres (w : W) (s : State) : Out := fresOp (.fres w) w false s
def execFresFail (w : W) (s : State) : Out := fresOp (.fresFail w) w true s

/-! ### yield (R195) -/

def yieldDone (w : W) (grp : Nat) (s : State) : WOut := .done (s.modGroup grp (fun g => writeScalar g w.d 1))

def execYield (w : W) (s : State) : Out :=
  runWord (.yield w) w true s (fun s grp g =>
    if inRun g then inlineStep s grp g (nextPc g.pc) (yieldDone w grp) (some w.d)
    else whenActive g w s (fun _ => userWord g s (fun _ =>
      match (s.core g.core).deque.find? (fun e => runnable s g.core e && inlineOk s g e false) with
      | none => .done (s.setGroup grp (writeScalar g w.d 0))
      | some e =>
        inlineBegin (dropEntry s g.core e.serial) grp g e (nextPc g.pc) (yieldDone w grp) (some w.d))))

/-! ### tret (R194, R201, R31) -/

/-- The registers of a save area (R201); the yield that ran the task now writes 1 (R195). -/
def restoreGroup (g : Group) (b : List Byte) (d base : Nat) : Group :=
  let t := 256 + 3072 * d
  let tasks := g.tasks.dropLast
  let back (x : Group) : Group := match g.task.onReturn with | some o => writeScalar x o 1 | none => x
  back { g with
    poisonRegs := freshMarks g d
    sregs := ⟨((List.range 64).map (fun k => BitVec.ofNat 32 (bytesAt b (4 * k) 4))).toArray, by simp⟩
    vregs := ((List.range (8 * d)).map (fun k =>
      (k, vregOf (fun i => BitVec.ofNat 32 (bytesAt b (256 + 384 * k + 4 * i) 4))))) ++ g.vregs.filter (fun p => p.1 ≥ 8 * d)
    flags := g.flags ||| BitVec.ofNat 6 (bytesAt b (t + 8) 4), gmode := BitVec.ofNat 32 (bytesAt b (t + 12) 4 % 8)
    srseed := BitVec.ofNat 64 (bytesAt b (t + 24) 8), demand := (tasks.getLast?.map (fun x => x.demand)).getD g.demand
    ifp := BitVec.ofNat 64 base, tasks := tasks, pc := BitVec.ofNat 64 (bytesAt b t 8), park := none, inWord := none
    replay := none, answers := [], wanted := [], arrival := none }

/-- The return of an inline task to its parent: a fault of the read escalates (R201). -/
def inlineReturn (s : State) (grp : Nat) : State :=
  match s.group? grp with
  | none => s
  | some g =>
    let d := g.task.demand
    let base := g.task.hdr - saveBytes d
    match groupRead s g base (saveBytes d) with
    | (s, .ok (b, _)) => s.setGroup grp (restoreGroup g b d base)
    | (s, .error _) =>
      let bad := ((linePieces base (saveBytes d)).find? (fun p =>
        match (groupRead s g p.1 p.2).2 with | .error _ => true | .ok _ => false)).map (fun p => p.1)
      escalate (s.modGroup grp (fun g => { g with inWord := some .resolved })) grp 6 (BitVec.ofNat 64 (bad.getD base)) g.pc

/-- A producer that retires leaves its release stamp on the records that still wait for it. -/
def settleSlots (s : State) (grp : Nat) (g : Group) : State :=
  { s with pipes := tabMap s.pipes (fun p => { p with stages := p.stages.map (fun x =>
      { x with slots := x.slots.map (fun y =>
          if y.visible = false ∧ y.grp = grp then { y with stamp := max y.stamp g.commandStamp } else y) }) }) }

/-- bufget: the range is checked before a handle is sought (R205). -/
def bufgetTry (s : State) (g : Group) (a b : Nat) : State × Word :=
  let t := teamOf s g.core g.team
  if a % 256 ≠ 0 ∨ b % 256 ≠ 0 ∨ b = 0 ∨ a < 256 * t.base ∨ a + b > 256 * (t.base + t.size) then (s, 0xFFFFFFFE)
  else
    match firstFree 64 ((s.core g.core).handles.map (fun p => p.1)) with
    | none => (s, 0xFFFFFFFF)
    | some h => (setHandle s g.core h ⟨a, b, .free, 0, false, 0, [], []⟩, BitVec.ofNat 32 h)

/-- A bufget binds its handle as it returns, and its D takes the number (R205). -/
def bindNow (s : State) (grp : Nat) (x : Pend) (now : List WrCell) : State × List WrCell :=
  match x.bind, s.group? grp with
  | some (a, b), some g => let (s, v) := bufgetTry s g a b; (s, now.map (fun c => { c with val := v }))
  | _, _ => (s, now)

/-- What results that have not returned leave of a group that retires: a bufget binds (R205), and flags reach the error log
(R95, R142). -/
def settleResults (s : State) (grp : Nat) (g : Group) : State :=
  g.pend.foldl (fun s x => raiseFlags (bindNow s grp x []).1 grp x.flags x.lane 64 x.pc) s

/-- Frees the slot and blocks of a group (R31): its phaser records drop, and an empty team ends (R210). -/
def retireGroup (s : State) (grp : Nat) : State :=
  match s.group? grp with
  | none => s
  | some g =>
    let s := settleResults s grp g
    let s := dropPhasers s (coreCluster g.core) grp
    let s := settleSlots s grp g
    let s := { s with groups := tabDel s.groups grp, watchers := s.watchers.filter (fun w =>
      match s.req? w.req with | some r => r.grp != grp | none => true) }
    let s := if teamAlive s g.core g.team then s else s.modCore g.core (fun c => { c with teams := tabDel c.teams g.team })
    let s := if g.task.root then rootDone s g.asid else s
    settleStages s g.asid

/-- The end of a task whose children are joined: its future, then the parent or retirement. -/
def endTask (s : State) (grp : Nat) (g : Group) (value : BitVec 128) : WOut :=
  let f := g.task.future
  let outer := g.task.link = 0
  match (if outer then closeForWait s g.core grp else some s) with
  | none => .wait s .batch .again
  | some s =>
    let go (s : State) : WOut :=
      let s := s.modGroup grp (fun x => { x with ifp := BitVec.ofNat 64 g.task.hdr })
      if outer then .over (retireGroup s grp) else .over (inlineReturn s grp)
    let stamp := max g.view g.compl
    let s := s.modGroup grp (fun g => g.release 4)
    if g.task.failing then
      let cause := g.trap.cause
      go (failFuture s g.core g.asid f 6 g.task.serial cause 0 stamp g.prov g.gid)
    else
      match checkGlobal s g f 32 18 false with
      | .wait k => .hold (s.modGroup grp (fun g => { g with wanted := [k] })) .plb
      | .bad c d => .trap s (wordTrap g c d f)
      | .ok _ _ =>
        match recordWrite s g.core g.asid f.toNat false value stamp g.prov g.gid with
        | (s, .fault c d) => if c = 7 then .hold s .room else .trap s (wordTrap g c d f)
        | (s, _) => go s

/-- tret (R194). It waits for the path counters of its step 1 and for the joinall of its step 2 inside the word, so that a held trap
is not taken there (R166). A task that fails waits for nothing that is held (assumption 56). -/
def execTret (w : W) (s : State) : Out :=
  runWord (.tret w) w true s (fun s grp g =>
    if inRun g then inlineStep s grp g g.pc (issueAgain grp)
    else if g.inWord = some .resolved then .over (inlineReturn s grp)
    else userWord g s (fun _ =>
      let g := if g.task.failing then g.dropHeld else g
      let s := if g.task.failing then s.setGroup grp g else s
      if g.ops.any (fun o => o.path.isSome) then .wait s .drain .again
      else withFrame s grp g (fun s g =>
        match joinChildren s grp (childAddrs g) 0 with
        | .stop o => o
        | .all s _ =>
          match s.group? grp with
          | none => .done s
          | some g =>
            let v := blockRegs g w.a 4
            endTask s grp g (quad (v.getD 0 0) (v.getD 1 0) (v.getD 2 0) (v.getD 3 0)))))

/-! ### tid and stage (R196, R197) -/

def tidValue (s : State) (g : Group) (sel : Nat) : Word :=
  if sel = 0 then g.task.serial
  else if sel = 1 then low32 g.task.future
  else if sel = 2 then high32 g.task.future
  else if sel = 3 then BitVec.ofNat 32 (s.core g.core).deque.length
  else BitVec.ofNat 32 (g.task.origin + (if g.task.origin ≠ 0x1FF ∧ g.task.origin ≠ g.core then 2 ^ 31 else 0))

def execTid (w : W) (s : State) : Out :=
  runWord (.tid w) w true s (fun s grp g => .done (s.setGroup grp (writeScalar g w.d (tidValue s g w.imm.toNat))))

def execStage (w : W) (s : State) : Out :=
  runWord (.stage w) w true s (fun s grp g =>
    let v := match (s.core g.core).domain with | some (some (p, j)) => j + 16 * p | _ => 0x80000000
    .done (s.setGroup grp (writeScalar g w.d (BitVec.ofNat 32 v))))

/-! ### Buffer handles (R204 to R206) -/

/-- bufget has variable latency: the handle is bound as the result returns, and a later word that does not wait for the
result may find it unbound (R205, R296). -/
def execBufget (w : W) (s : State) : Out :=
  runWord (.bufget w) w true s (fun s grp g => whenActive g w s (fun _ =>
    let (s, id) := s.fresh
    let cells : List WrCell := match w.d with | .s n => [⟨256 + n.val, 0, 0⟩] | _ => []
    .done (s.modGroup grp (fun x => { x with
      pend := x.pend ++ [⟨id, .join, cells, 0, 0xFF, g.pc, some ((scalarVal g w w.a).toNat, (scalarVal g w w.b).toNat)⟩] }))))

/-- bufput (R204, R206). -/
def bufputTry (s : State) (core a u : Nat) : State × Nat :=
  if a ≥ 64 then (s, 1)
  else
    match handle? s core a with
    | none => (s, 2)
    | some x =>
      if x.st = .full then
        if x.reads > 0 then (setHandle s core a { x with st := .draining, unbind := decide (u = 1) }, 0)
        else if u = 1 then (unbind s core a, 0)
        else (setHandle s core a { x with st := .free, full := [], bad := [] }, 0)
      else if x.st = .free ∧ u = 1 then (unbind s core a, 0)
      else (s, 3)

def execBufput (w : W) (s : State) : Out :=
  runWord (.bufput w) w true s (fun s grp g => whenActive g w s (fun _ =>
    let (s, v) := bufputTry s g.core (scalarVal g w w.a).toNat w.imm.toNat
    .done (s.modGroup grp (fun g => writeScalar g w.d (BitVec.ofNat 32 v)))))

/-- What a bufwait finds in its handle: 0 in the state, with the acquire of one that turns full; 2 unbound; otherwise it parks
(R204, R206). -/
def bufwaitLook (s : State) (grp : Nat) (g : Group) (w : W) (want : HandleSt) (h : Nat) : WOut :=
  match handle? s g.core h with
  | none => .done (s.setGroup grp (writeScalar g w.d 2))
  | some x =>
    if x.st = want then .done (s.setGroup grp (writeScalar (if want = .full then g.acquire 4 x.stamp else g) w.d 0))
    else .wait s .handle (.handle h)

/-- bufwait parks until the handle is in a state, or unbound meanwhile (R206). -/
def bufwaitOp (i : Instr) (w : W) (want : HandleSt) (s : State) : Out :=
  runWord i w true s (fun s grp g =>
    match g.inWord with
    | some (.answered st) => .done (s.setGroup grp (writeScalar g w.d (BitVec.ofNat 32 st)))
    | some (.handle h) => bufwaitLook s grp g w want h
    | _ =>
      whenActive g w s (fun _ =>
        let a := (scalarVal g w w.a).toNat
        if a ≥ 64 then .done (s.setGroup grp (writeScalar g w.d 1)) else bufwaitLook s grp g w want a))

def execBufwaitFull (w : W) (s : State) : Out := bufwaitOp (.bufwaitFull w) w .full s
def execBufwaitFree (w : W) (s : State) : Out := bufwaitOp (.bufwaitFree w) w .free s

end Sys2Proof.Machine
end

