-- ==== Sys2Proof/Machine/Pipes.lean ====
section
/-! DEFINITION. Pipeline instructions and qput (18 R385 to R388, 19 R410). -/

namespace Sys2Proof.Machine

/-! ### enq (R386) -/

/-- The stage that a group's word names in its own pipeline. -/
def targetStage (s : State) (g : Group) (a : Nat) : Option (Nat × Nat × Stage) :=
  match producerOf s g.core with
  | some (p, k) => match stage? s p a with | some x => if a < 16 then some (p, k, x) else none | none => none
  | none => none

/-- The statuses that do not wait: 0 when the word goes on to its slot. -/
def enqStatus (s : State) (g : Group) (a : Nat) (fut : Option DWord) : Nat :=
  match targetStage s g a with
  | none => 1
  | some (_, k, x) =>
    if !isProducer x k then 2
    else
      let bad := match fut, s.context? g.asid with | some f, some c => !futureOk c.regs f | _, _ => false
      if bad then 3 else if streamClosed x k then 4 else 0

/-- The record that an enq adds (R382). -/
def enqSlot (grp : Nat) (g : Group) (x : Stage) (fut : DWord) (args : List Word) : Slot :=
  { grp := grp
    clo := { entry := x.entry, future := fut, flags := 0, need := x.need, stage := List.replicate 8 0
             args := (args ++ List.replicate 18 0).take 18 }
    stamp := g.commandStamp, visible := g.unreturned.isEmpty, waits := g.unreturned, poison := false, num := 0 }

/-- Reserves the next slot of an Arcade. -/
def reserveSlot (s : State) (pipe j : Nat) (y : Slot) : State :=
  s.modStage pipe j (fun x => { x with slots := x.slots ++ [{ y with num := x.nextSlot }], nextSlot := x.nextSlot + 1 })

/-- The memory domain of a pipeline's home die is up (R390). -/
def arcadeUp (s : State) (pipe : Nat) : Bool := match tabGet? s.pipes pipe with | some p => memUp s p.home | none => false

/-- The memory of a slot's producer: the accesses to be acknowledged first. -/
def enqGo (s : State) (grp : Nat) (g : Group) (w : W) : WOut :=
  let a := (scalarVal g w w.a).toNat
  let fut := pairVal g w w.c
  let st := enqStatus s g a (some fut)
  if st ≠ 0 then .done (s.setGroup grp (writeScalar g w.d (BitVec.ofNat 32 st)))
  else
    match targetStage s g a with
    | none => .done s
    | some (p, _, x) =>
      let y := enqSlot grp g x fut (blockRegs g w.b w.imm.toNat)
      if arcadeFull x || !x.waits.isEmpty || !arcadeUp s p then
        .wait (s.modStage p a (fun x => { x with waits := x.waits ++ [(grp, y)] })) .arcade .again
      else .done (reserveSlot (s.setGroup grp (writeScalar g w.d 0)) p a y)

def execEnq (w : W) (s : State) : Out :=
  runWord (.enq w) w true s (fun s grp g =>
    match g.inWord with
    | some (.answered st) => .done (s.setGroup grp (writeScalar g w.d (BitVec.ofNat 32 st)))
    | some _ => .hold s .arcade
    | none => whenActive g w s (fun _ => userWord g s (fun _ => enqGo s grp g w)))

/-- enq.eos (R387). -/
def execEnqEos (w : W) (s : State) : Out :=
  runWord (.enqEos w) w true s (fun s grp g => whenActive g w s (fun _ => userWord g s (fun _ =>
    let a := (scalarVal g w w.a).toNat
    let st := enqStatus s g a none
    let s' := s.setGroup grp (writeScalar g w.d (BitVec.ofNat 32 st))
    if st ≠ 0 then .done s'
    else
      match targetStage s g a with
      | some (p, k, _) => .done (settleStages (closeStream s' p a k) g.asid)
      | none => .done s')))

/-- The word that arcq reads (R388). -/
def arcqValue (s : State) (g : Group) (a sel : Nat) : Word :=
  match targetStage s g a with
  | none => 0xFFFFFFFF
  | some (p, _, x) =>
    if sel = 1 then BitVec.ofNat 32 x.cap
    else
      let cores := match tabGet? s.pipes p with | some q => (q.assigned.filter (fun c => c.2 == a)).length | none => 0
      BitVec.ofNat 32 (x.slots.length + 2 ^ 17 * cores + (if arcadeFull x then 2 ^ 29 else 0) + (if ended x then 2 ^ 30 else 0) +
        (if x.retired then 2 ^ 31 else 0))

def execArcq (w : W) (s : State) : Out :=
  runWord (.arcq w) w true s (fun s grp g => whenActive g w s (fun _ =>
    .done (s.setGroup grp (writeScalar g w.d (arcqValue s g (scalarVal g w w.a).toNat w.imm.toNat)))))

/-! ### qput (R410) -/

/-- The queue that qput names, if it is registered, QP and of the context. -/
def qputQueue (s : State) (asid q : Nat) : State × Option Queue :=
  let (s, x) := match tabGet? s.queues q with
    | some x => if x.mapped then (s, some x) else if x.bad then (s, none) else loadQueue s q
    | none => loadQueue s q
  (s, match x with | some x => if x.qp && x.asid == asid then some x else none | none => none)

/-- Writes the slot, then WRITE; `waits` are the group's accesses that must be acknowledged before the packet is taken. -/
def qputAppend (s : State) (q : Nat) (x : Queue) (bs : List Byte) (waits : List Nat) (grp : Nat) : State × Nat :=
  let a := slotAddr x x.write
  match forumWrite s x.asid (a + 4) (bs.drop 4) with
  | (s, .error _) => ((clearEn s q).hostErr 2, 4)
  | (s, .ok _) =>
    let n := (x.write + 1) % 2 ^ 64
    let s := s.modQueue q (fun y => { y with write := n, puts := y.puts ++ [(x.write, waits, grp)] })
    let (s, ok1) := match forumWrite s x.asid a (bs.take 4) with | (s, .ok _) => (s, true) | (s, .error _) => (s, false)
    let (s, ok2) := writeBack s q 16 n
    (if ok1 && ok2 then s else (clearEn s q).hostErr 2, 0)

def qputTry (s : State) (grp : Nat) (g : Group) (a : Nat) (bs : List Byte) : State × Nat :=
  if a ≥ 4096 then (s, 2)
  else
    match qputQueue s g.asid a with
    | (s, none) => (s, 2)
    | (s, some x) =>
      if bs.getD 0 0 = 0 then (s, 3)
      else if (x.write + 2 ^ 64 - x.read) % 2 ^ 64 ≥ 2 ^ x.log2n then (s, 1)
      else qputAppend s a x bs g.unreturned grp

def execQput (w : W) (s : State) : Out :=
  runWord (.qput w) w true s (fun s grp g => whenActive g w s (fun _ =>
    let (s, st) := qputTry s grp g (scalarVal g w w.a).toNat (wordsBytes (blockRegs g w.b 16))
    .done (s.modGroup grp (fun g => writeScalar g w.d (BitVec.ofNat 32 st)))))

end Sys2Proof.Machine
end

