-- ==== Sys2Proof/Machine/Matrix.lean ====
section
/-! DEFINITION. Matrix instructions (10 R245 to R260): commands as they issue, batches, mwait and mstat. -/

namespace Sys2Proof.Machine

/-- Matrix and epilogue commands of a partition that await acceptance (R247). -/
def awaiting (s : State) (core part : Nat) : Nat := ((s.core core).waiting.filter (fun c => c.part == part)).length

/-- A command's own operation on path M (6) or E (7). -/
def engineOp (id path : Nat) (i : Instr) (g : Group) : Op :=
  { id := id, path := some path, instr := i, scalar := true, kind := .engine, size := 0, lanes := [], stamp := 0, sup := g.sup
    acq := none, acqStamp := 0, done := false, held := [], heldCause := (0, 0), heldTaken := false, again := false, stamps := [], prov := g.prov }

/-- Issues a command: it joins the open batch and is counted (R247, R253, R256). -/
def commandOp (i : Instr) (w : W) (path : Nat) (s : State) : Out :=
  runWord i w true s (fun s grp g => whenActive g w s (fun _ =>
    if awaiting s g.core g.part ≥ 4 || g.count path ≥ 255 then .hold s .room
    else
      let sr := path = 7 ∧ w.rnd = 5
      let (s, batch) := joinBatch s g.core grp
      let (s, op) := s.fresh
      let (s, id) := s.fresh
      let c : MCmd :=
        { id := id, grp := grp, gid := g.gid, part := g.part, asid := g.asid, instr := i, op := op, regs := [], batch := batch, stamp := g.commandStamp
          waits := g.unacked, rnd := rndMode g w.rnd, seed := g.srseed, win := (0, 0), fail := none, started := false, step := 0
          held := false, addr := 0, descs := [], prov := g.prov, out := [], outFlags := 0 }
      let s := s.modGroup grp (fun g => { g with
        ops := g.ops ++ [engineOp op path i g], srseed := if sr then g.srseed + 1 else g.srseed })
      .done (s.modCore g.core (fun k => { k with waiting := k.waiting ++ [c] }))))

def execMloop (w : W) (s : State) : Out := commandOp (.mloop w) w 6 s
def execMzero (w : W) (s : State) : Out := commandOp (.mzero w) w 6 s
def execEpi (w : W) (s : State) : Out := commandOp (.epi w) w 7 s

/-- mfence (R256). -/
def execMfence (w : W) (s : State) : Out :=
  runWord (.mfence w) w true s (fun s grp g => whenActive g w s (fun _ =>
    let b := batchesOf s g.core grp
    if canClose b then
      .done ((closeBatch s g.core grp).modGroup grp (fun g => writeScalar g w.d (BitVec.ofNat 32 b.openNum)))
    else .hold s .batch))

/-- mwait (R259). -/
def execMwait (w : W) (s : State) : Out :=
  runWord (.mwait w) w true s (fun s grp g =>
    let answer (v : Word) : WOut := .done (s.setGroup grp (writeScalar g w.d v))
    match g.inWord with
    | some (.batchDone failed) => answer (if failed then 1 else 0)
    | some _ => .hold s .batch
    | none => whenActive g w s (fun _ =>
      let a := (scalarVal g w w.a).toNat
      let b := batchesOf s g.core grp
      if a ≥ 65536 then answer 3
      else if a = b.openNum then answer 2
      else if batchPending b a then .wait s .batch (.batch a)
      else answer 0))

/-- The item that mstat reads (R260). The command that is being performed holds its place in the queue until it ends, and an epi that
only completes holds none (DESIGN CHOICE, assumption 31). -/
def mstatValue (s : State) (core grp sel : Nat) : Word :=
  let b := batchesOf s core grp
  let k := s.core core
  BitVec.ofNat 32
    (if sel = 0 then b.openNum + 65536 * oldestBatch b
     else if sel = 1 then b.failWord.toNat
     else if sel = 2 then b.epiFlags.toNat
     else
      (List.range 16).foldl (fun n t => if (tabGet k.tiles t ⟨false, false, []⟩).poison then n + 2 ^ t else n) 0 +
        65536 * k.queue.length)

def execMstat (w : W) (s : State) : Out :=
  runWord (.mstat w) w true s (fun s grp g => whenActive g w s (fun _ =>
    let sel := (w.imm.extractLsb' 0 2).toNat
    let b := batchesOf s g.core grp
    let v := mstatValue s g.core grp sel
    let s := if w.imm.getLsbD 8 then
        setBatches s g.core grp (if sel = 1 then { b with failWord := 0 } else { b with epiFlags := 0 })
      else s
    .done (s.modGroup grp (fun g => writeScalar g w.d v))))

end Sys2Proof.Machine
end

