-- ==== Sys2Proof/Machine/Tensor.lean ====
section
/-! DEFINITION. Tensor descriptors, tiles and the packed layout (15 R310 to R312). -/

namespace Sys2Proof.Machine

/-- A well-formed descriptor; dimensions at or above RANK act as EXT = TILE = 1 with STRIDE 0. -/
structure Tensor where
  base   : Nat
  ty     : Ty
  rank   : Nat
  ext    : List Nat
  tile   : List Nat
  stride : List Int
  scale  : Nat
deriving DecidableEq, Repr

/-- Byte offset of DIMk. -/
def dimOff (k : Nat) : Nat := if k < 7 then 32 + 16 * (k - 1) else 128 + 16 * (k - 7)

/-- A signed doubleword of a descriptor. -/
def int64At (bs : List Byte) (off : Nat) : Int := (BitVec.ofNat 64 (bytesAt bs off 8)).toInt

/-- A descriptor from its lines; none when it is malformed (R311). -/
def tensorOf (bs : List Byte) : Option Tensor :=
  let form := bytesAt bs 8 4
  let rank := form / 256 % 16
  match Ty.ofCode (form % 32) with
  | none => none
  | some ty =>
    if rank = 0 ∨ rank > 14 then none
    else
      let dim (k : Nat) (off dflt : Nat) : Nat :=
        if k = 0 then bytesAt bs (12 + off) 4 else if k < rank then bytesAt bs (dimOff k + off) 4 else dflt
      let ext := (List.range 14).map (fun k => dim k 0 1)
      let tile := (List.range 14).map (fun k => dim k 4 1)
      let stride := (List.range 14).map (fun k => if k = 0 ∨ k ≥ rank then 0 else int64At bs (dimOff k + 8))
      if ext.contains 0 ∨ tile.contains 0 then none
      else if ty = .e2m1 ∧ (rank ≠ 2 ∨ tile.getD 0 1 % 32 ≠ 0 ∨ tile.getD 0 1 > 1024 ∨ ext.getD 0 1 % 2 = 1) then none
      else some ⟨bytesAt bs 0 8, ty, rank, ext, tile, stride, bytesAt bs 24 8⟩

/-- What reading a descriptor gives. -/
inductive TensorRead where
  | ok (t : Tensor)
  | malformed
  | fault (addr cause detail : Nat)
deriving DecidableEq, Repr

/-- The first line of a descriptor names a rank of 8 to 14: it has a second one (R310). -/
def twoLines (x : List Byte) : Bool := let rank := bytesAt x 8 4 / 256 % 16; decide (8 ≤ rank ∧ rank ≤ 14)

/-- How an engine reads a piece that lies in one line, by its address and length. -/
abbrev LineReader := State → Nat → Nat → State × Except (Nat × Nat) (List Byte × Stamp)

/-- Reads a descriptor: one line, or two for a rank of 8 to 14. -/
def readTensorBy (read : LineReader) (s : State) (va : Nat) : State × TensorRead :=
  if va % 128 ≠ 0 then (s, .malformed)
  else
    match read s va 128 with
    | (s, .error (a, b)) => (s, .fault va a b)
    | (s, .ok (x, _)) =>
      if !twoLines x then (s, match tensorOf x with | some t => .ok t | none => .malformed)
      else
        match read s (va + 128) 128 with
        | (s, .error (a, b)) => (s, .fault (va + 128) a b)
        | (s, .ok (y, _)) => (s, match tensorOf (x ++ y) with | some t => .ok t | none => .malformed)

/-- A descriptor that an engine of a die reads. -/
def readTensor (s : State) (die asid va : Nat) (c : Stamp) : State × TensorRead :=
  readTensorBy (fun s va n => devReadPiece s die asid va n c 1) s va

/-- A line that the sequencer of a core reads at its home under the core's PLB (R249). -/
def plbReader (core asid : Nat) (c : Stamp) : LineReader := fun s va n =>
  match plbCheck s core asid va 1 with
  | (s, .error e) => (s, .error e)
  | (s, .ok r) => homePiece s r asid va n c

/-- Bytes of `n` elements of dimension 0. -/
def Tensor.span (t : Tensor) (n : Nat) : Nat := if t.ty = .e2m1 then n / 2 else n * t.ty.bytes

/-- Number of tiles of a dimension. -/
def Tensor.tilesIn (t : Tensor) (k : Nat) : Nat := (t.ext.getD k 1 + t.tile.getD k 1 - 1) / t.tile.getD k 1

def listProd (l : List Nat) : Nat := l.foldl (· * ·) 1

/-- A tile index is in range (R312). -/
def Tensor.inRange (t : Tensor) (idx : Nat) : Bool := idx < listProd ((List.range 14).map t.tilesIn)

/-- Position of a tile in every dimension. -/
def Tensor.tilePos (t : Tensor) (idx : Nat) : List Nat :=
  (List.range 14).map (fun k => idx / listProd ((List.range k).map t.tilesIn) % t.tilesIn k)

/-- Rows of a tile: runs of TILE0 elements along dimension 0. -/
def Tensor.rows (t : Tensor) : Nat := listProd (t.tile.drop 1)

/-- Data bytes of a tile in packed layout, and all its bytes with the scale slots. -/
def Tensor.dataBytes (t : Tensor) : Nat := t.span (listProd t.tile)
def Tensor.tileBytes (t : Tensor) : Nat := t.dataBytes + (if t.ty = .e2m1 then 32 * t.tile.getD 1 1 else 0)

/-- Coordinates of row `r` of a tile: dimensions 1 to 13. -/
def Tensor.rowCoords (t : Tensor) (idx r : Nat) : List Nat :=
  (List.range 14).map (fun k =>
    if k = 0 then (t.tilePos idx).getD 0 0 * t.tile.getD 0 1
    else (t.tilePos idx).getD k 0 * t.tile.getD k 1 + r / listProd ((t.tile.drop 1).take (k - 1)) % t.tile.getD k 1)

/-- Elements of dimension 0 of a row that are in range: none when another coordinate is not. -/
def Tensor.rowCount (t : Tensor) (idx r : Nat) : Nat :=
  let c := t.rowCoords idx r
  if (List.range 13).all (fun k => c.getD (k + 1) 0 < t.ext.getD (k + 1) 1) then
    min (t.tile.getD 0 1) (t.ext.getD 0 1 - c.getD 0 0)
  else 0

/-- Address of the first element of a row, modulo 2^64. -/
def Tensor.rowAddr (t : Tensor) (idx r : Nat) : Nat :=
  let c := t.rowCoords idx r
  let off := (List.range 13).foldl (fun (x : Int) k => x + Int.ofNat (c.getD (k + 1) 0) * t.stride.getD (k + 1) 0) 0
  ((Int.ofNat (t.base + t.span (c.getD 0 0)) + off) % (2 ^ 64 : Nat)).toNat

/-- Address of the first scale byte of a row, and how many of its blocks are in range. -/
def Tensor.scaleAddr (t : Tensor) (idx r : Nat) : Nat :=
  let c := t.rowCoords idx r
  (t.scale + c.getD 1 0 * ((t.ext.getD 0 1 + 31) / 32) + c.getD 0 0 / 32) % 2 ^ 64
def Tensor.scaleCount (t : Tensor) (idx r : Nat) : Nat := (t.rowCount idx r + 31) / 32

/-- Pieces of a tile: packed offset, address and length of every run that is in range, in packed order, the
scale slots last. -/
def Tensor.pieces (t : Tensor) (idx : Nat) : List (Nat × Nat × Nat) :=
  (List.range t.rows).filterMap (fun r =>
    let n := t.span (t.rowCount idx r)
    if n = 0 then none else some (r * t.span (t.tile.getD 0 1), t.rowAddr idx r, n)) ++
  (if t.ty = .e2m1 then
    (List.range t.rows).filterMap (fun r =>
      let n := t.scaleCount idx r
      if n = 0 then none else some (t.dataBytes + 32 * r, t.scaleAddr idx r, n))
   else [])

/-- Bytes placed at an offset of a byte list. -/
def putBytes (l : List Byte) (off : Nat) (bs : List Byte) : List Byte := l.take off ++ bs ++ l.drop (off + bs.length)

/-- A run-ahead read of a line by an engine (R249): with the page present and readable its home may have filled it before the
read is due. -/
def runAhead (s : State) (asid va : Nat) : State :=
  match takeAhead s with
  | (t, _ :: _) =>
    match walk t asid va with
    | .leaf e level _ =>
      let r := leafRec asid va e level
      if pteP e && r.rights.getLsbD 0 && (ptePlace e != 1 || pteHset e) then fetchAhead t (homeSlice r.place r.home va) (tagAsid asid va) e level va else t
    | _ => t
  | (t, []) => t

/-- An engine that the MTUs of a die check reads every line at its home, though R324 allows a replica too (DESIGN CHOICE,
assumption 65). -/
def homeReader (die asid : Nat) (c : Stamp) : LineReader := fun s va n => devReadPiece (runAhead s asid va) die asid va n c 1

/-- The replica that the tile fetch unit takes for a line in a step that begins in a state: a whole one whose lease reaches the command
stamp, when the free choice for the step says so (R249; DESIGN CHOICE, assumption 65). -/
def tileReplica (s : State) (core asid va : Nat) (c : Stamp) : Option L2Line :=
  let pick := s.ahead.headD []
  if pick.contains 1 || pick.contains (2 + va / 128) then replicaHolds s core (tagAsid asid va) va 0xF c else none

/-- The tile fetch unit of a core, under the core's PLB, reads a line at its home or at a replica. For every read of a line in the step
that begins in state `s0` it is the same of the two (R249). -/
def tileReader (s0 : State) (core asid : Nat) (c : Stamp) : LineReader := fun s va n =>
  match plbCheck (runAhead s asid va) core asid va 1 with
  | (s, .error e) => (s, .error e)
  | (s, .ok r) =>
    match (if sameSector core (homeSlice r.place r.home va) then none else tileReplica s0 core asid va c) with
    | some x =>
      (match replicaHolds s core x.asid va 0xF c with
        | some y => let k := replicaSlice core va; s.setSlice k (touchLine (s.slice k) y)
        | none => s,
        if x.poison &&& byteMask (va % 128) n != 0 then .error (11, 3) else .ok (lineBytes x.data (va % 128) n, x.ws))
    | none => homePiece s r asid va n c

/-- Reads the pieces of a run, or answers with the address and cause of the first fault. -/
def readRun (read : LineReader) (s : State) (l : List (Nat × Nat)) (got : List Byte) : State × Except (Nat × Nat × Nat) (List Byte) :=
  match l with
  | [] => (s, .ok got)
  | (va, n) :: r =>
    match read s va n with
    | (s, .error (a, b)) => (s, .error (va, a, b))
    | (s, .ok (bs, _)) => readRun read s r (got ++ bs)

/-- Reads the runs of a tile into a packed buffer. -/
def readPieces (read : LineReader) (s : State) (l : List (Nat × Nat × Nat)) (buf : List Byte) : State × Except (Nat × Nat × Nat) (List Byte) :=
  match l with
  | [] => (s, .ok buf)
  | (off, va, n) :: r =>
    match readRun read s (linePieces va n) [] with
    | (s, .error e) => (s, .error e)
    | (s, .ok bs) => readPieces read s r (putBytes buf off bs)

/-- A tile in packed layout. -/
def readTile (s : State) (die asid : Nat) (t : Tensor) (idx : Nat) (c : Stamp) : State × Except (Nat × Nat × Nat) (List Byte) :=
  readPieces (homeReader die asid c) s (t.pieces idx) (List.replicate t.tileBytes 0)

end Sys2Proof.Machine
end

