-- ==== Sys2Proof/Machine/Engine.lean ====
section
/-! DEFINITION. The matrix engine and the epilogue: acceptance, steps, epilogues and failures (10 R241 to R255,
02 R58, R59). -/

namespace Sys2Proof.Machine

/-! ### Commands (R247, R250, R257, R261) -/

def MCmd.word (c : MCmd) : W := (c.instr.word).getD ⟨false, 0, false, 0, .i8, .v 0, .v 0, .v 0, .v 0, 0, 0⟩
def MCmd.isEpi (c : MCmd) : Bool := c.instr matches .epi _
def MCmd.isMloop (c : MCmd) : Bool := c.instr matches .mloop _
def MCmd.unit (c : MCmd) : Nat := if c.isEpi then 2 else 1
def MCmd.reg (c : MCmd) (k : Nat) : Nat := (c.regs.getD k 0).toNat
def MCmd.pair (c : MCmd) (k : Nat) : Nat := c.reg k + 2 ^ 32 * c.reg (k + 1)

/-- The core's context runs and its die's core domain is up. -/
def coreRuns (s : State) (core : Nat) : Bool :=
  ctxRuns s (coreAsid s core) && (s.die (coreDie core)).coreUp

/-- The engines of a core go on, in a halted context until its halt takes effect (R168). -/
def coreGoes (s : State) (core : Nat) : Bool := ctxGoes s (coreAsid s core) && (s.die (coreDie core)).coreUp

/-- Operand sources of an mloop that name a handle (R246). -/
def MCmd.handles (c : MCmd) : List Nat :=
  if c.isMloop then
    (if c.word.imm.getLsbD 25 then [c.reg 0 % 64] else []) ++ (if c.word.imm.getLsbD 26 then [c.reg 2 % 64] else [])
  else []

def opReturn (s : State) (grp op : Nat) : State := s.modOp grp op (fun o => { o with done := true })

/-- A record of a command, of type HOLD (3) or FAIL (4). -/
def cmdRecord (s : State) (core : Nat) (c : MCmd) (type reason addr : Nat) : State :=
  queueRec s c.asid (recBody type c.asid reason c.unit c.gid addr (c.batch + 65536 * c.step) (valBytes 8 c.prov.toNat))
    (if type = 3 then some (.cmd core c.id) else none) (coreDie core)

/-- A command leaves the engine, completed or failed; `read` says that its handle sources were counted. A failed batch takes its gated
entries with it, which may have been the last tasks of a stage (R391). -/
def endCommand (s : State) (core : Nat) (c : MCmd) (fail : Option Nat) (read : Bool) : State :=
  let s := s.modCore core (fun k => { k with
    waiting := k.waiting.filter (fun x => x.id != c.id), queue := k.queue.filter (fun x => x.id != c.id)
    epis := k.epis.filter (fun x => x.id != c.id) })
  let s := if read then c.handles.foldl (fun s h => endRead s core h) s else s
  settleStages (finishCommand (opReturn s c.grp c.op) core c.grp c.batch fail) c.asid

/-- A command fails with a reason of R261. -/
def failCommand (s : State) (core : Nat) (c : MCmd) (reason addr : Nat) (read : Bool) : State :=
  let s := if c.isEpi && read then handleTo s core (c.reg 6 % 64) .free else s
  cmdRecord (endCommand s core c (some reason) read) core c 4 reason addr

/-- Changes a command in the core's queue. -/
def modCmd (s : State) (core id : Nat) (f : MCmd → MCmd) : State :=
  s.modCore core (fun k => { k with queue := k.queue.map (fun c => if c.id = id then f c else c) })

/-- A fault on a demand read (R250). -/
def cmdFault (s : State) (core : Nat) (c : MCmd) (addr cause : Nat) : State :=
  if cause = 7 then cmdRecord (modCmd s core c.id (fun c => { c with held := true, addr := addr })) core c 3 0 addr
  else failCommand s core c (if cause = 11 then 6 else 5) addr true

/-! ### Acceptance (R247, R251, R253) -/

/-- Bytes of one row of a step in a handle. -/
def rowSlot (fmt : Nat) : Nat := if fmt = 4 then 416 else 384

/-- The check of one handle source: 2 HANDLE or 1 SHAPE. -/
def checkSource (s : State) (core h rows fmt ksteps : Nat) : Option Nat :=
  match handle? s core h with
  | some x => if x.st ≠ .full then some 2 else if x.size < rows * rowSlot fmt * ksteps then some 1 else none
  | none => some 2

def checkSources (s : State) (core : Nat) (c : MCmd) : Option Nat :=
  let w := c.word
  let a := if w.imm.getLsbD 25 then checkSource s core (c.reg 0 % 64) (32 * mloopM w) (mloopFmt w) (mloopK w) else none
  match a with
  | some r => some r
  | none => if w.imm.getLsbD 26 then checkSource s core (c.reg 2 % 64) (32 * mloopN w) (mloopFmt w) (mloopK w) else none

def epiTy (w : W) : Ty := (epiTy? w).getD .f64
/-- Bytes that an epi writes. -/
def epiBytes (w : W) : Nat :=
  let n := 1024 * epiM w * epiN w
  if epiTy w = .e2m1 then n / 2 else n * (epiTy w).bytes

/-- The check of an epi's handle: HANDLE leaves it, SHAPE frees it. -/
def checkEpi (s : State) (core : Nat) (c : MCmd) : Option Nat :=
  match handle? s core (c.reg 6 % 64) with
  | some x => if x.st ≠ .free then some 2 else if x.size < epiBytes c.word then some 1 else none
  | none => some 2

/-- A command with what acceptance reads; it acquires its handle sources (R346). -/
def accepted (s : State) (c : MCmd) : MCmd :=
  match s.group? c.grp with
  | none => c
  | some g =>
    let t := teamOf s g.core g.team
    match c.instr with
    | .mloop w =>
      let c := { c with regs := blockRegs g w.a 10 }
      { c with stamp := c.handles.foldl (fun m h => max m (((handle? s g.core h).map Handle.stamp).getD 0)) c.stamp }
    | .epi w => { c with regs := blockRegs g w.a 7, win := (256 * t.base, 256 * (t.base + t.size)) }
    | _ => c

/-- Accepts a command whose turn it is. -/
def acceptGo (s : State) (core : Nat) (c : MCmd) : State :=
  let c := accepted s c
  let s := if c.isEpi then s else opReturn s c.grp c.op
  let fail := if c.isMloop then checkSources s core c else if c.isEpi then checkEpi s core c else none
  match fail with
  | some r => failCommand s core c r 0 false
  | none =>
    let s := if c.isEpi then handleTo s core (c.reg 6 % 64) .filling else c.handles.foldl (fun s h => beginRead s core h) s
    s.modCore core (fun k => { k with waiting := k.waiting.filter (fun x => x.id != c.id), queue := k.queue ++ [c] })

/-- The core whose waiting commands hold one. -/
def findWaiting (s : State) (id : Nat) : Option (Nat × MCmd) :=
  (s.cores.filterMap (fun k => (k.2.waiting.find? (fun c => c.id == id)).map (fun c => (k.1, c)))).head?

def acceptTry (id : Nat) (s : State) : Option State :=
  match findWaiting s id with
  | none => none
  | some (core, c) =>
    let before := (s.core core).waiting.takeWhile (fun x => x.id != id)
    if coreGoes s core && (s.core core).queue.length < 32 && !before.any (fun x => x.grp == c.grp) && allReturned s c.grp c.waits then
      some (acceptGo s core c)
    else none

def execCommandAccept (id : Nat) (s : State) : Out := orSame s (acceptTry id s)

/-! ### Operands of an mloop (R40, R243, R244) -/

/-- An element with a mark for one outside its tensor, which contributes a product of +0. -/
abbrev Elem := FVal × Bool

def fmtTy (fmt : Nat) : Ty :=
  if fmt = 0 then .e4m3 else if fmt = 1 then .e5m2 else if fmt = 2 then .bf16 else if fmt = 3 then .f16
  else if fmt = 4 then .e2m1 else .i8

/-- Elements per step and in one byte position. -/
def stepElems (fmt : Nat) : Nat := if fmt = 4 then 768 else if fmt = 2 ∨ fmt = 3 then 192 else 384

/-- A number scaled by a block scale; NaN for the code 0xFF. -/
def scaled (v : FVal) (code : Nat) : FVal :=
  if code = 255 then .nan false true 0
  else match v with | .num s m e => .num s m (e + Int.ofNat code - 127) | v => v

/-- Element `k` of the 384 bytes of a row. -/
def rawElem (fmt : Nat) (bs : Vector Byte 384) (k : Nat) : FVal :=
  let at' (j : Nat) : Nat := ((bs.toArray[j]?).getD 0).toNat
  if fmt = 5 then
    let x := intVal .i8 (at' k)
    .num (decide (x < 0)) x.natAbs 0
  else if fmt = 4 then fdecode .e2m1 (at' (k / 2) / (if k % 2 = 0 then 1 else 16) % 16)
  else if fmt = 2 ∨ fmt = 3 then fdecode (fmtTy fmt) (at' (2 * k) + 256 * at' (2 * k + 1))
  else fdecode (fmtTy fmt) (at' k)

/-- Bytes of a row with a mask of those that the tensor holds, and its 24 block scales. -/
structure RowData where
  bytes  : Vector Byte 384
  inside : Nat → Bool
  scales : List Byte

def byte384 (l : List Byte) : Vector Byte 384 := ⟨((List.range 384).map (fun k => l.getD k 0)).toArray, by simp⟩

/-- The elements of a row. -/
def rowElems (fmt : Nat) (r : RowData) : List Elem :=
  (List.range (stepElems fmt)).map (fun k =>
    let byte := if fmt = 4 then k / 2 else if fmt = 2 ∨ fmt = 3 then 2 * k else k
    if r.inside byte then
      (if fmt = 4 then scaled (rawElem fmt r.bytes k) (r.scales.getD (k / 32) 0).toNat else rawElem fmt r.bytes k, false)
    else (.num false 0 0, true))

/-- What a global operand of a command needs: its descriptor, ROW, OFF and INC. -/
structure GlobalSrc where
  t   : Tensor
  row : Nat
  off : Nat
  inc : Int

/-- A line-wise read of the bytes of a row of a step that lie in the tensor. -/
def readRow (read : LineReader) (s : State) (x : GlobalSrc) (fmt step r : Nat) :
    State × Except (Nat × Nat × Nat) RowData :=
  let e0 := Int.ofNat (x.t.span (x.t.ext.getD 0 1))
  let p0 := Int.ofNat x.off + Int.ofNat step * x.inc
  let rowIn := x.row + r < x.t.ext.getD 1 1
  let inside (j : Nat) : Bool := rowIn && decide (0 ≤ p0 + Int.ofNat j ∧ p0 + Int.ofNat j < e0)
  let addr (j : Nat) : Nat :=
    ((Int.ofNat x.t.base + Int.ofNat (x.row + r) * x.t.stride.getD 1 0 + p0 + Int.ofNat j) % (2 ^ 64 : Nat)).toNat
  let parts := (List.range 3).filterMap (fun k =>
    let js := (List.range 128).filter (fun j => inside (128 * k + j))
    match js.head? with
    | some lo => some (128 * k + lo, addr (128 * k + lo), js.length)
    | none => none)
  match readPieces read s parts (List.replicate 384 0) with
  | (s, .error e) => (s, .error e)
  | (s, .ok bs) =>
    if fmt ≠ 4 then (s, .ok ⟨byte384 bs, inside, []⟩)
    else
      let blocks := (List.range 24).filter (fun b => (List.range 16).any (fun j => inside (16 * b + j)))
      let row0 := Int.ofNat (x.t.scale + (x.row + r) * ((x.t.ext.getD 0 1 + 31) / 32)) + p0 / 16
      let ps := blocks.map (fun b => (b, ((row0 + Int.ofNat b) % (2 ^ 64 : Nat)).toNat, 1))
      match readPieces read s ps (List.replicate 24 0) with
      | (s, .error e) => (s, .error e)
      | (s, .ok sc) => (s, .ok ⟨byte384 bs, inside, sc⟩)

/-- A row of a step in a handle, as its bytes were when it turned full (R249); the offset of uncorrectable data, which the FAIL record
gives as its ADDR (DESIGN CHOICE, assumption 31: R374 speaks of a virtual address alone). -/
def handleRow (s : State) (core : Nat) (h : Handle) (fmt rows step r : Nat) : Except Nat RowData :=
  let data := rowSlot fmt * rows * step + 384 * r
  let scale := rowSlot fmt * rows * step + 384 * rows + 32 * r
  if handleBad s core h (h.off + data) 384 then .error (h.off + data)
  else if fmt = 4 && handleBad s core h (h.off + scale) 24 then .error (h.off + scale)
  else .ok ⟨byte384 ((h.full.drop data).take 384), fun _ => true, if fmt = 4 then (h.full.drop scale).take 24 else []⟩

/-- Rows `r` and later of an operand. -/
def readRows (read : LineReader) (s : State) (core : Nat) (src : GlobalSrc ⊕ Handle) (fmt rows step : Nat) (l : List Nat) :
    State × Except (Nat × Nat × Nat) (List (List Elem)) :=
  match l with
  | [] => (s, .ok [])
  | r :: rest =>
    match src with
    | .inr h =>
      match handleRow s core h fmt rows step r with
      | .error off => (s, .error (off, 11, 2))
      | .ok d =>
        match readRows read s core src fmt rows step rest with
        | (s, .ok x) => (s, .ok (rowElems fmt d :: x))
        | e => e
    | .inl x =>
      match readRow read s x fmt step r with
      | (s, .error e) => (s, .error e)
      | (s, .ok d) =>
        match readRows read s core src fmt rows step rest with
        | (s, .ok y) => (s, .ok (rowElems fmt d :: y))
        | e => e

/-! ### Chunks (R58, R59) -/

/-- An exact product of two elements; +0 when one of them lies outside its tensor (R244). -/
def elemMul (a b : Elem) : FVal :=
  if a.2 || b.2 then .num false 0 0
  else match a.1, b.1 with
  | .nan .., _ | _, .nan .. => .nan false true 0
  | .num s1 m1 e1, .num s2 m2 e2 => .num (s1 != s2) (m1 * m2) (e1 + e2)
  | x, y => if vZero x || vZero y then .nan false true 0 else .inf (vSign x != vSign y)

/-- The exact sum of products. -/
def exactSum (ps : List FVal) : FVal :=
  let pos := ps.any (fun p => p matches .inf false)
  let neg := ps.any (fun p => p matches .inf true)
  if ps.any isNan || (pos && neg) then .nan false true 0
  else if pos then .inf false
  else if neg then .inf true
  else
    let (x, e) := ps.foldl (fun (acc : Int × Int) p =>
      match p with
      | .num s m e' =>
        let lo := min acc.2 e'
        let v : Int := Int.ofNat (m * pow2 (e' - lo))
        (acc.1 * Int.ofNat (pow2 (acc.2 - lo)) + (if s then -v else v), lo)
      | _ => acc) (0, 0)
    if x = 0 then .num (ps.all vSign) 0 0 else .num (decide (x < 0)) x.natAbs e

/-- A chunk rounded once to binary64 under nearest-even. -/
def roundChunk (v : FVal) : Nat :=
  match v with
  | .nan .. => canonNan .f64
  | .inf s => (fmtOf .f64).signBit s + (fmtOf .f64).infCode
  | .num s m e => if m = 0 then (fmtOf .f64).signBit s else (roundResult .f64 0 false s m e false).1

/-- An accumulator plus a chunk. -/
def addChunk (isInt : Bool) (a : DWord) (v : FVal) : DWord :=
  if isInt then
    match v with
    | .num s m e => a + BitVec.ofInt 64 ((if s then -1 else 1) * Int.ofNat (m * pow2 e))
    | _ => a
  else
    let x := roundChunk v
    let y := (faddV .f64 0 false (fdecode .f64 a.toNat) (fdecode .f64 x)).1
    BitVec.ofNat 64 (if isNan (fdecode .f64 y) then canonNan .f64 else y)

/-- Chunk `h` of two rows. -/
def chunkSum (a b : List Elem) (h : Nat) : FVal :=
  exactSum (List.zipWith elemMul ((a.drop (32 * h)).take 32) ((b.drop (32 * h)).take 32))

def stepElement (isInt : Bool) (a b : List Elem) (v : DWord) : DWord :=
  (List.range (a.length / 32)).foldl (fun v h => addChunk isInt v (chunkSum a b h)) v

def tileOf (s : State) (core t : Nat) : Tile := tabGet (s.core core).tiles t ⟨false, false, []⟩
def setTile (s : State) (core t : Nat) (x : Tile) : State := s.modCore core (fun k => { k with tiles := tabPut k.tiles t x })

/-- The elements of a tile after a step; zero elements stay unlisted. -/
def stepTile (x : Tile) (as bs : List (List Elem)) : Tile :=
  let cells := (List.range 1024).map (fun k =>
    (k, stepElement x.isInt (as.getD (k / 32) []) (bs.getD (k % 32) []) (tabGet x.elems k 0)))
  { x with elems := cells.filter (fun c => c.2 != 0) }

/-! ### mloop (R248 to R250) -/

/-- The head of a core's queue. -/
def headCmd (s : State) (core : Nat) : Option MCmd := if coreGoes s core then (s.core core).queue.head? else none

/-- A descriptor of a global source; none for a handle. -/
def srcTensor (s : State) (core : Nat) (c : MCmd) (isHandle : Bool) (va : Nat) : State × Option TensorRead :=
  if isHandle then (s, none)
  else
    let (s, t) := readTensorBy (plbReader core c.asid c.stamp) s va
    (s, some t)

/-- SHAPE of one global source. -/
def shapeBad (t : Tensor) (off inc : Nat) : Bool :=
  t.base % 128 != 0 || t.stride.getD 1 0 % 128 != 0 || off % 128 != 0 || inc % 128 != 0

def formatBad (fmt : Nat) (t : Option TensorRead) : Bool :=
  match t with
  | some .malformed => true
  | some (.ok t) => t.ty != fmtTy fmt
  | _ => false

/-- Steps 2 to 5 of R248. -/
def startFail (s : State) (core : Nat) (c : MCmd) (ta tb : Option TensorRead) : Option Nat :=
  let w := c.word
  let tiles := (List.range (mloopM w * mloopN w)).map (fun k => tileOf s core (mloopAcc w + k))
  let shape (t : Option TensorRead) (off inc : Nat) : Bool := match t with | some (.ok t) => shapeBad t off inc | _ => false
  if formatBad (mloopFmt w) ta || formatBad (mloopFmt w) tb then some 4
  else if shape ta (c.reg 5) (c.reg 6) || shape tb (c.reg 8) (c.reg 9) then some 1
  else if tiles.any (fun t => t.isInt != (mloopFmt w == 5)) then some 3
  else if tiles.any (fun t => t.poison) then some 6
  else none

def tensorFault (t : Option TensorRead) : Option (Nat × Nat) :=
  match t with | some (.fault a c _) => some (a, c) | _ => none

/-- The lines of a descriptor kept for the steps. -/
def descLine (s : State) (core : Nat) (c : MCmd) (isHandle : Bool) (va : Nat) : List Byte :=
  if isHandle then List.replicate 256 0
  else
    let read := plbReader core c.asid c.stamp
    match read s va 128 with
    | (s, .ok (x, _)) =>
      if !twoLines x then x ++ List.replicate 128 0
      else match read s (va + 128) 128 with | (_, .ok (y, _)) => x ++ y | _ => x ++ List.replicate 128 0
    | _ => List.replicate 256 0

/-- The sequencer starts an mloop. -/
def mloopBegin (s : State) (core : Nat) (c : MCmd) : State :=
  let ha := c.word.imm.getLsbD 25
  let hb := c.word.imm.getLsbD 26
  let (s, ta) := srcTensor s core c ha (c.pair 0)
  match tensorFault ta with
  | some (a, k) => cmdFault s core c a k
  | none =>
    let (s, tb) := srcTensor s core c hb (c.pair 2)
    match tensorFault tb with
    | some (a, k) => cmdFault s core c a k
    | none =>
      match startFail s core c ta tb with
      | some r => failCommand s core c r 0 true
      | none =>
        modCmd s core c.id (fun x => { x with
          started := true, descs := descLine s core c ha (c.pair 0) ++ descLine s core c hb (c.pair 2) })

def startTry (core : Nat) (s : State) : Option State :=
  match headCmd s core with
  | some c => if c.isMloop && !c.started && !c.held then some (mloopBegin s core c) else none
  | none => none

def execMloopStart (core : Nat) (s : State) : Out := orSame s (startTry core s)

/-- An operand source of a started mloop. -/
def operandSrc (s : State) (core : Nat) (c : MCmd) (isB : Bool) : Option (GlobalSrc ⊕ Handle) :=
  if c.word.imm.getLsbD (if isB then 26 else 25) then
    (handle? s core (c.reg (if isB then 2 else 0) % 64)).map .inr
  else
    match tensorOf (if isB then c.descs.drop 256 else c.descs.take 256) with
    | some t =>
      let k := if isB then 7 else 4
      some (.inl ⟨t, c.reg k, c.reg (k + 1), (c.regs.getD (k + 2) 0).toInt⟩)
    | none => none

/-- One step: every operand is read, then every chunk is added. Of several faults of a start or of a step the first one met decides:
those of A before those of B, each in rising address (DESIGN CHOICE, assumption 31: R250 gives no order). -/
def mloopGo (s : State) (core : Nat) (c : MCmd) : State :=
  let w := c.word
  let m := mloopM w
  let n := mloopN w
  if (List.range (m * n)).any (fun k => (tileOf s core (mloopAcc w + k)).poison) then failCommand s core c 6 0 true
  else
  match operandSrc s core c false, operandSrc s core c true with
  | some a, some b =>
    let read := tileReader s core c.asid c.stamp
    match readRows read s core a (mloopFmt w) (32 * m) c.step (List.range (32 * m)) with
    | (s, .error (addr, cause, _)) => cmdFault s core c addr cause
    | (s, .ok as) =>
      match readRows read s core b (mloopFmt w) (32 * n) c.step (List.range (32 * n)) with
      | (s, .error (addr, cause, _)) => cmdFault s core c addr cause
      | (s, .ok bs) =>
        let s := (List.range (m * n)).foldl (fun (s : State) k =>
          let t := mloopAcc w + k
          setTile s core t (stepTile (tileOf s core t) ((as.drop (32 * (k / n))).take 32) ((bs.drop (32 * (k % n))).take 32))) s
        if c.step + 1 = mloopK w then endCommand s core c none true
        else modCmd s core c.id (fun c => { c with step := c.step + 1 })
  | _, _ => s

def stepTry (core : Nat) (s : State) : Option State :=
  match headCmd s core with
  | some c => if c.isMloop && c.started && !c.held then some (mloopGo s core c) else none
  | none => none

def execMloopStep (core : Nat) (s : State) : Out := orSame s (stepTry core s)

/-- A held command makes its faulting access again (R416 ACT 3). -/
def cmdReissue (s : State) (core : Nat) (c : MCmd) : State :=
  let c := { c with held := false, addr := 0 }
  let s := modCmd s core c.id (fun _ => c)
  if c.started then mloopGo s core c else mloopBegin s core c

/-! ### mzero (R251) -/

def mzeroGo (s : State) (core : Nat) (c : MCmd) : State :=
  let w := c.word
  let s := (List.range 16).foldl (fun (s : State) t =>
    if w.imm.getLsbD t then setTile s core t ⟨w.imm.getLsbD 16, false, []⟩ else s) s
  endCommand s core c none false

def mzeroTry (core : Nat) (s : State) : Option State :=
  match headCmd s core with
  | some c => if c.instr matches .mzero _ then some (mzeroGo s core c) else none
  | none => none

def execMzeroPerform (core : Nat) (s : State) : Out := orSame s (mzeroTry core s)

/-! ### epi (R252 to R255) -/

/-- A scratch vector of an epi is usable. -/
def vectorOk (c : MCmd) (off n : Nat) : Bool :=
  off == 0xFFFFFFFF || (off % 8 == 0 && 0x2000 ≤ off && c.win.1 ≤ off && off + 256 * n ≤ c.win.2)

/-- A scratch vector of an epi meets an uncorrectable word (R261). -/
def vectorBad (s : State) (core off n : Nat) : Bool := off != 0xFFFFFFFF && scratchBad s core off (256 * n)

/-- Element `k` of a scratch vector of binary64 values, or a constant. -/
def vectorAt (s : State) (core off k dflt : Nat) : FVal :=
  fdecode .f64 (if off = 0xFFFFFFFF then dflt else bytesVal (scratchRead s core (off + 8 * k) 8))

/-- The order of two numbers or infinities, exactly. -/
def fvalLess (a b : FVal) : Bool :=
  match a, b with
  | .inf s, .inf t => s && !t
  | .inf s, _ => s
  | _, .inf t => !t
  | .num s1 m1 e1, .num s2 m2 e2 => decide ((exactAdd s1 m1 e1 (!s2) m2 e2).1 < 0)
  | _, _ => false

/-- y = x × sc + bi, exact, with the flags of its special cases. -/
def epiExact (mode : Nat) (x sc bi : FVal) : FVal × Flags :=
  let bad := (vZero x && sc matches .inf _) || ((x matches .inf _) && vZero sc)
  let quiet (v : FVal) : FVal := match v with | .nan s q fr => .nan s true (if q then fr else fr + 2 ^ 51) | v => v
  match [x, sc, bi].find? isNan with
  | some v => (quiet v, nanFlags [x, sc, bi] ||| flagsOf bad flagNV)
  | none =>
    if bad then (.nan false true (2 ^ 51), flagNV)
    else
      let sign := vSign x != vSign sc
      match x, sc, bi with
      | .num _ m1 e1, .num _ m2 e2, .num s3 m3 e3 =>
        let (v, e) := exactAdd sign (m1 * m2) (e1 + e2) s3 m3 e3
        if v = 0 then (.num (if m1 * m2 = 0 ∧ m3 = 0 ∧ sign = s3 then sign else mode == 3) 0 0, 0)
        else (.num (decide (v < 0)) v.natAbs e, 0)
      | .num .., .num .., b => (b, 0)
      | _, _, .inf s => if s = sign then (.inf s, 0) else (.nan false true (2 ^ 51), flagNV)
      | _, _, _ => (.inf sign, 0)

/-- The activation. -/
def activate (act slope : Nat) (lo hi y : FVal) : FVal :=
  let zero : FVal := .num false 0 0
  if isNan y then y
  else if act = 1 then (if fvalLess zero y then y else zero)
  else if act = 2 then
    (if !isNan lo && fvalLess y lo then lo else if !isNan hi && fvalLess hi y then hi else y)
  else if act = 3 then
    (if fvalLess y zero then (match y with | .num s m e => .num s m (e - Int.ofNat slope) | y => y) else y)
  else y

/-- The result of element `e` from the value of its accumulator, scale and bias. -/
def epiElement (c : MCmd) (e : Nat) (x sc bi : FVal) : Nat × Flags :=
  let w := c.word
  let t := epiTy w
  let (y, f) := epiExact c.rnd x sc bi
  let z := activate (epiAct w) (epiSlope w) (fdecode .f64 (c.pair 2)) (fdecode .f64 (c.pair 4)) y
  let (b, f') := if t.isFp then convFloat t .f64 c.rnd (srRandom c.seed (e % 96) (e / 96 % 256)) w.sat z else convToInt t c.rnd z
  (b, f ||| f')

/-- The value of an accumulator. -/
def tileVal (x : Tile) (k : Nat) : FVal :=
  let v := tabGet x.elems k 0
  if x.isInt then .num (decide (v.toInt < 0)) v.toInt.natAbs 0 else fdecode .f64 v.toNat

/-- All results of an epi in element order. -/
def epiResults (s : State) (core : Nat) (c : MCmd) : List (Nat × Flags) :=
  let w := c.word
  let n := epiN w
  (List.range (1024 * epiM w * n)).map (fun e =>
    let r := e / (32 * n)
    let k := e % (32 * n)
    let t := tileOf s core (epiAcc w + r / 32 * n + k / 32)
    epiElement c e (tileVal t (r % 32 * 32 + k % 32)) (vectorAt s core (c.reg 0) k 0x3FF0000000000000) (vectorAt s core (c.reg 1) k 0))

/-- Results as bytes; two E2M1 elements share one (R41). -/
def packResults (t : Ty) (l : List (Nat × Flags)) : List Byte :=
  if t = .e2m1 then
    (List.range (l.length / 2)).map (fun j =>
      BitVec.ofNat 8 ((l.getD (2 * j) (0, 0)).1 % 16 + 16 * ((l.getD (2 * j + 1) (0, 0)).1 % 16)))
  else l.flatMap (fun r => valBytes t.bytes r.1)

/-- The sequencer reaches an epi: it reads the tiles and goes on. An uncorrectable vector gives its scratch offset as ADDR
(DESIGN CHOICE, assumption 31). -/
def epiBegin (s : State) (core : Nat) (c : MCmd) : State :=
  let w := c.word
  let n := epiN w
  if !(vectorOk c (c.reg 0) n && vectorOk c (c.reg 1) n) then failCommand s core c 7 0 true
  else if (List.range (epiM w * n)).any (fun k => (tileOf s core (epiAcc w + k)).poison) then failCommand s core c 6 0 true
  else if vectorBad s core (c.reg 0) n then failCommand s core c 6 (c.reg 0) true
  else if vectorBad s core (c.reg 1) n then failCommand s core c 6 (c.reg 1) true
  else
    let res := epiResults s core c
    let c := { c with started := true, out := packResults (epiTy w) res, outFlags := orFlags (res.map (fun r => r.2)) }
    s.modCore core (fun k => { k with queue := k.queue.filter (fun x => x.id != c.id), epis := k.epis ++ [c] })

def epiTry (core : Nat) (s : State) : Option State :=
  match headCmd s core with
  | some c => if c.isEpi then some (epiBegin s core c) else none
  | none => none

def execEpiStart (core : Nat) (s : State) : Out := orSame s (epiTry core s)

/-- Every element is written and the handle turns full. -/
def epiFinish (s : State) (core : Nat) (c : MCmd) : State :=
  let h := c.reg 6 % 64
  match handle? s core h with
  | none => s
  | some x =>
    let s := handleFull (scratchWrite s core x.off c.out) core h 0
    let b := batchesOf s core c.grp
    endCommand (setBatches s core c.grp { b with epiFlags := b.epiFlags ||| c.outFlags }) core c none false

def findEpi (s : State) (id : Nat) : Option (Nat × MCmd) :=
  (s.cores.filterMap (fun k => (k.2.epis.find? (fun c => c.id == id)).map (fun c => (k.1, c)))).head?

def epiDone (id : Nat) (s : State) : Option State :=
  match findEpi s id with
  | some (core, c) => if coreGoes s core then some (epiFinish s core c) else none
  | none => none

def execEpiComplete (id : Nat) (s : State) : Out := orSame s (epiDone id s)

end Sys2Proof.Machine
end

