-- ==== Sys2Proof/Machine/Memory.lean ====
section
/-! DEFINITION. Memory instructions (09 R212 to R231): global, scratch and direct loads and stores, atomics,
fence and watch. -/

namespace Sys2Proof.Machine

/-! ### Addresses (R212) -/

/-- A + B × 2^SCL + IMM, modulo 2^64. -/
def memAddr (g : Group) (w : W) (l : Nat) : DWord :=
  opd64 g w.imm w.a l + ((opd32 g w.imm w.b l).signExtend 64 <<< w.scl) + w.imm.signExtend 64

/-- The scratch offset, modulo 2^32. -/
def scratchAddr (g : Group) (w : W) (l : Nat) : Nat :=
  (opd32 g w.imm w.a l + (opd32 g w.imm w.b l <<< w.scl) + w.imm).toNat

/-- The lanes that a memory instruction performs: those of em, or one for the scalar form. -/
def memLanes (g : Group) (w : W) (vec : Bool) : List Nat := if vec then maskLanes (emOf g w) else [0]

/-! ### Global accesses (R217, R224) -/

/-- Lanes of a global access with their checks. -/
def globalLanes (s : State) (g : Group) (w : W) (vec : Bool) (size need : Nat) (peerOk : Bool) (data cmp : Nat → DWord) :
    List (LaneAcc × Chk) :=
  (memLanes g w vec).map (fun l =>
    let a := memAddr g w l
    (⟨l, a, data l, cmp l⟩, checkGlobal s g a size need peerOk))

def loadOp (i : Instr) (w : W) (s : State) : Out :=
  runWord i w true s (fun s grp g => whenActive g w s (fun _ =>
    let vec := isVector i w
    issueGlobal s grp g
      { instr := i, kind := .load, path := some 0, size := w.t.bytes, vec := vec, scope := w.scope, rel := false
        acq := w.ord == 1, drifts := true, lanesL := globalLanes s g w vec w.t.bytes 1 true (fun _ => 0) (fun _ => 0) }))

def storeOp (i : Instr) (w : W) (s : State) : Out :=
  runWord i w true s (fun s grp g => whenActive g w s (fun _ =>
    let vec := isVector i w
    issueGlobal s grp g
      { instr := i, kind := .store, path := some 3, size := w.t.bytes, vec := vec, scope := w.scope, rel := w.ord == 2
        acq := false, drifts := false
        lanesL := globalLanes s g w vec w.t.bytes 18 true (fun l => opdVal g w.imm w.t.isWide w.c l) (fun _ => 0) }))

/-- A global atomic, with return unless D is 321. -/
def atomOp (i : Instr) (w : W) (fadd : Bool) (s : State) : Out :=
  runWord i w true s (fun s grp g => whenActive g w s (fun _ =>
    let vec := isVector i w
    let ret := w.d != .zero
    issueGlobal s grp g
      { instr := i, kind := .atomic w.v.val fadd w.t ret, path := some (if ret then 4 else 3), size := w.t.bytes, vec := vec
        scope := w.scope, rel := w.ord == 2, acq := w.ord == 1, drifts := false
        lanesL := globalLanes s g w vec w.t.bytes 27 true (fun l => opdVal g w.imm w.t.isWide w.c l)
          (fun l => opdVal g w.imm w.t.isWide w.d l) }))

def execLd (w : W) (s : State) : Out := loadOp (.ld w) w s
def execLdx (w : W) (s : State) : Out := loadOp (.ldx w) w s
def execSt (w : W) (s : State) : Out := storeOp (.st w) w s
def execStx (w : W) (s : State) : Out := storeOp (.stx w) w s
def execAtom (w : W) (s : State) : Out := atomOp (.atom w) w false s
def execAtomFadd (w : W) (s : State) : Out := atomOp (.atomFadd w) w true s

/-! ### Scratch accesses (R220, R221) -/

/-- Lanes of a scratch access with their checks. -/
def scratchLanes (s : State) (g : Group) (w : W) (vec load : Bool) (data cmp : Nat → DWord) : List (LaneAcc × Chk) :=
  (memLanes g w vec).map (fun l =>
    let off := scratchAddr g w l
    (⟨l, BitVec.ofNat 64 off, data l, cmp l⟩, checkScratch s g off w.t.bytes load true))

/-- An operation on path W that has returned as it issues: it is counted while earlier ones of the path are outstanding
(R24, R25). -/
def countReturned (s : State) (grp : Nat) (i : Instr) (lanes : List LaneAcc) : State :=
  match s.group? grp with
  | none => s
  | some g =>
    let (s, id) := s.fresh
    let op : Op :=
      { id := id, path := some 3, instr := i, scalar := true, kind := .scratch, size := 0, lanes := lanes, stamp := g.view
        sup := g.sup, acq := none, acqStamp := 0, done := true, held := [], heldCause := (0, 0), heldTaken := false, again := false, stamps := [], prov := g.prov }
    s.modGroup grp (fun g => { g with ops := pruneOps (g.ops ++ [op]) [] })

/-- A scratch instruction: `perform` acts on the lanes that passed, in lane order, and answers the values
that come back later. In supervisor mode a lane that fails stops the whole word (R167). -/
def scratchOp (i : Instr) (w : W) (path : Option Nat) (ret load : Bool) (data cmp : Group → Nat → DWord)
    (perform : State → Nat → List LaneAcc → State × List (Nat × DWord)) (s : State) : Out :=
  runWord i w true s (fun s grp g => whenActive g w s (fun _ =>
    let vec := isVector i w
    let lanesL := scratchLanes s g w vec load (data g) (cmp g)
    let ok := lanesL.filter (fun p => p.2.isOk)
    let bad := lanesL.filter (fun p => !p.2.isOk)
    if ok.isEmpty || ((!vec || g.sup) && !bad.isEmpty) then .trap s (laneTrap g vec bad)
    else if (match path with | some p => decide (g.count p ≥ 255) | none => false) = true then .hold s .room
    else
      let (s, vals) := perform s g.core (ok.map (fun p => p.1))
      let s :=
        if ret then
          let (s, id) := startOp s grp
            { instr := i, kind := .scratch, path := path, size := w.t.bytes, vec := vec, scope := 0, rel := false, acq := false
              drifts := false, lanesL := ok } ok
          { s with requests := s.requests.map (fun r =>
              if r.op = id then
                { r with phase := .ready (vals.filter (fun v => r.lanes.any (fun a => a.lane == v.1))) [] 0 0 0 }
              else r) }
        else if path.isSome then countReturned s grp i (ok.map (fun p => p.1))
        else s
      if bad.isEmpty then .done s else .trap s (laneTrap g vec bad)))

def scratchVal (s : State) (core : Nat) (a : LaneAcc) (n : Nat) : DWord :=
  BitVec.ofNat 64 (bytesVal (scratchRead s core a.addr.toNat n))

def execLdS (w : W) (s : State) : Out :=
  scratchOp (.ldS w) w (some 1) true true (fun _ _ => 0) (fun _ _ => 0)
    (fun s core l => (s, l.map (fun a => (a.lane, scratchVal s core a w.t.bytes)))) s

def execStS (w : W) (s : State) : Out :=
  scratchOp (.stS w) w none false false (fun g l => opdVal g w.imm w.t.isWide w.c l) (fun _ _ => 0)
    (fun s core l =>
      (l.foldl (fun (s : State) (a : LaneAcc) => scratchWrite s core a.addr.toNat (valBytes w.t.bytes a.data.toNat)) s, [])) s

/-- Each lane of atom.s reads and writes its word in one step (R221). -/
def atomLanes (w : W) (s : State) (core : Nat) (l : List LaneAcc) : State × List (Nat × DWord) :=
  l.foldl (fun (r : State × List (Nat × DWord)) a =>
    let old := scratchVal r.1 core a w.t.bytes
    let new := atomNew w.v.val false w.t old.toNat (a.data.toNat % 2 ^ w.t.bits) (a.cmp.toNat % 2 ^ w.t.bits)
    (scratchWrite r.1 core a.addr.toNat (valBytes w.t.bytes new), r.2 ++ [(a.lane, old)])) (s, [])

def execAtomS (w : W) (s : State) : Out :=
  let ret := w.d != .zero
  scratchOp (.atomS w) w (some (if ret then 4 else 3)) ret false (fun g l => opdVal g w.imm w.t.isWide w.c l)
    (fun g l => opdVal g w.imm w.t.isWide w.d l) (atomLanes w) s

/-! ### Direct loads (R222) -/

def execLdd (w : W) (s : State) : Out :=
  runWord (.ldd w) w true s (fun s grp g => whenActive g w s (fun _ =>
    let vec := isVector (.ldd w) w
    let size := 4 * 2 ^ w.ord
    let lanesL := (memLanes g w vec).map (fun l =>
      let a := memAddr g w l
      let off := (opd32 g w.imm w.c l).zeroExtend 64
      match checkScratch s g off.toNat size false true with
      | .ok _ _ => ((⟨l, a, off, 0⟩ : LaneAcc), checkGlobal s g a size 1 false)
      | c => (⟨l, off, 0, 0⟩, c))
    issueGlobal s grp g
      { instr := .ldd w, kind := .direct, path := some 2, size := size, vec := vec, scope := w.scope, rel := false, acq := false
        drifts := false, lanesL := lanesL }))

/-! ### fence and watch (R230, R231) -/

/-- A fence releases first and acquires then, up to the observed stamp. It acts whatever em holds. -/
def execFence (w : W) (s : State) : Out :=
  runWord (.fence w) w true s (fun s grp g =>
    let k := w.imm.toNat
    if k ≠ 1 && releaseWaits s grp g w.scope then .hold s .release
    else
      .done (s.modGroup grp (fun g =>
        let g := if k = 1 then g else g.release w.scope
        if k = 2 then g else g.acquire w.scope g.observed)))

/-- A watch waits inside the word until its read completes. -/
def execWatch (w : W) (s : State) : Out :=
  runWord (.watch w) w true s (fun s grp g =>
    if g.inWord.isSome then .hold s .watch
    else whenActive g w s (fun _ =>
      match issueGlobal s grp g
        { instr := .watch w, kind := .watch, path := none, size := 8, vec := false, scope := w.scope, rel := false, acq := true
          drifts := false, lanesL := globalLanes s g w false 8 1 false (fun _ => 0) (fun _ => opd64 g w.imm w.c 0) } with
      | .done s =>
        let id := match s.group? grp with | some g => (g.ops.getLast?.map (fun o => o.id)).getD 0 | none => 0
        .wait s .watch (.op id)
      | o => o))

end Sys2Proof.Machine
end

