-- ==== Sys2Proof/Machine/Cluster.lean ====
section
/-! DEFINITION. Cluster instructions (11 R267 to R282): put, dsld, mcast and phasers. -/

namespace Sys2Proof.Machine

/-- A word that is counted on path C and answers with a status: the first nonzero status of a list. -/
def firstStatus (l : List (Bool × Nat)) : Nat := ((l.find? (fun p => p.1)).map (fun p => p.2)).getD 0

/-! ### put (R268, R269) -/

/-- Value of a block register. -/
def blk (l : List Word) (k : Nat) : Nat := (l.getD k 0).toNat

def noWord : Nat := 0xFFFFFFFF

def putStatus (s : State) (g : Group) (b : List Word) : Nat :=
  let t := teamOf s g.core g.team
  let n := blk b 3
  firstStatus [
    (decide (blk b 0 > 11), 1),
    (decide (n < 16 ∨ n > 65536 ∨ n % 16 ≠ 0 ∨ blk b 1 % 16 ≠ 0 ∨ blk b 2 % 16 ≠ 0), 2),
    (decide (blk b 2 < 256 * t.base ∨ blk b 2 + n > 256 * (t.base + t.size)), 3),
    (decide (blk b 1 < 0x2000 ∨ blk b 1 + n > 0x80000), 4),
    (decide (blk b 4 ≠ noWord ∧ (blk b 4 % 8 ≠ 0 ∨ blk b 4 ≥ 0x2000)), 5)]

def execPut (w : W) (s : State) : Out :=
  runWord (.put w) w true s (fun s grp g => whenActive g w s (fun _ =>
    if g.count 5 ≥ 255 then .hold s .room
    else
      let b := blockRegs g w.a 5
      let st := putStatus s g b
      let s := s.modGroup grp (fun g => writeScalar g w.d (BitVec.ofNat 32 st))
      if st ≠ 0 then .done s
      else
        let (s, op) := s.fresh
        let (s, id) := s.fresh
        let p : Put := ⟨id, grp, op, g.asid, g.gid, g.core, b, g.unacked, g.commandStamp, false, [], [], g.prov⟩
        let s := s.modGroup grp (fun x => { x with ops := x.ops ++ [engineOp op 5 (.put w) g] })
        .done (s.modCluster (coreCluster g.core) (fun c => { c with puts := c.puts ++ [p] }))))

/-! ### dsld (R271, R272) -/

def dsldLane (g : Group) (w : W) (l : Nat) : LaneAcc × Chk :=
  let off := scratchAddr g w l
  let core := (opd32 g w.imm w.c l).toNat
  let c : Chk :=
    if off % w.t.bytes ≠ 0 then .bad 10 0 else if core > 11 then .bad 8 0 else if off ≥ 0x80000 then .bad 8 0 else .ok none none
  (⟨l, if c.isOk then dsldKey core off else BitVec.ofNat 64 off, 0, 0⟩, c)

def execDsld (w : W) (s : State) : Out :=
  runWord (.dsld w) w true s (fun s grp g => whenActive g w s (fun _ =>
    let vec := isVector (.dsld w) w
    match issueGlobal s grp g
      { instr := .dsld w, kind := .dsld, path := some 1, size := w.t.bytes, vec := vec, scope := 0, rel := false, acq := false
        drifts := false, lanesL := (memLanes g w vec).map (dsldLane g w) } with
    | .done s => .done (dsldLocal s grp)
    | .trap s t => .trap (dsldLocal s grp) t
    | o => o))

/-! ### mcast (R273, R274) -/

def mcastStatus (s : State) (g : Group) (src dst : Bool) (b : List Word) : Nat :=
  let badSource := blk b 0 ≥ 64 || (match handle? s g.core (blk b 0) with | some x => x.st != .full | none => true)
  firstStatus [
    (decide (blk b 3 = 0 ∨ blk b 3 ≥ 4096), 1),
    (!dst && blk b 4 % 16 != 0, 2),
    (src && badSource, 3),
    (if dst then decide (blk b 4 ≥ 64) else decide (blk b 4 < 0x2000 ∨ blk b 4 ≥ 0x80000), 4),
    (decide (blk b 5 ≠ noWord ∧ (dst = true ∨ blk b 5 % 8 ≠ 0 ∨ blk b 5 ≥ 0x2000)), 5)]

def execMcast (w : W) (s : State) : Out :=
  runWord (.mcast w) w true s (fun s grp g => whenActive g w s (fun _ =>
    if g.count 5 ≥ 255 then .hold s .room
    else
      let b := blockRegs g w.a 6
      let src := w.imm.getLsbD 0
      let st := mcastStatus s g src (w.imm.getLsbD 1) b
      let s := s.modGroup grp (fun g => writeScalar g w.d (BitVec.ofNat 32 st))
      if st ≠ 0 then .done s
      else
        let (s, op) := s.fresh
        let (s, id) := s.fresh
        let cl := coreCluster g.core
        let left := ((List.range 12).filter (fun k => (b.getD 3 0).getLsbD k)).map (fun k => 12 * cl + k)
        let m : Mcast := ⟨id, grp, op, g.asid, g.gid, g.core, .mcast w, b, g.unacked, g.commandStamp, none, false, left, 0, false, 0, false, g.prov⟩
        let s := s.modGroup grp (fun x => { x with ops := x.ops ++ [engineOp op 5 (.mcast w) g] })
        let s := if src then beginRead s g.core (blk b 0) else s
        .done (s.modCluster cl (fun c => { c with mcasts := c.mcasts ++ [m] }))))

/-! ### Phasers (R279 to R281) -/

/-- The answer of a phaser operation, for phaser number `a` (R279). -/
def phaserAnswer (s : State) (grp : Nat) (g : Group) (w : W) (a status : Nat) : WOut :=
  .done (s.modGroup grp (fun x =>
    writeScalar x w.d (BitVec.ofNat 32 (status * 2 ^ 28 + (phaserOf s (coreCluster g.core) (a % 64)).phase))))

/-- The phaser number of a word: a register or IMM. -/
def phaserNum (g : Group) (w : W) : Nat := (scalarVal g w w.a).toNat

/-- phreg with a mode. -/
def phregOp (i : Instr) (w : W) (mode : Nat) (s : State) : Out :=
  runWord i w true s (fun s grp g => whenActive g w s (fun _ =>
    let a := phaserNum g w
    let cl := coreCluster g.core
    let ms := (s.cluster cl).members
    if a ≥ 64 then phaserAnswer s grp g w a 6
    else if (memberOf s cl a grp).isSome then phaserAnswer s grp g w a 4
    else if ms.length ≥ 1024 || (ms.filter (fun m => m.grp == grp)).length ≥ 16 then phaserAnswer s grp g w a 5
    else
      let x := phaserOf s cl a
      let s := if mode = 1 then s else setPhaser s cl a { x with nsig := x.nsig + 1 }
      let s := s.modCluster cl (fun c => { c with members := c.members ++ [⟨a, grp, g.gid, mode, false, (x.phase + 1) % 2 ^ 28⟩] })
      phaserAnswer s grp g w a 0))

def execPhregSig (w : W) (s : State) : Out := phregOp (.phregSig w) w 0 s
def execPhregWait (w : W) (s : State) : Out := phregOp (.phregWait w) w 1 s
def execPhregSw (w : W) (s : State) : Out := phregOp (.phregSw w) w 2 s

def execPhdrop (w : W) (s : State) : Out :=
  runWord (.phdrop w) w true s (fun s grp g => whenActive g w s (fun _ =>
    let a := phaserNum g w
    let cl := coreCluster g.core
    if a ≥ 64 then phaserAnswer s grp g w a 6
    else if (memberOf s cl a grp).isNone then phaserAnswer s grp g w a 2
    else phaserAnswer (phaserDrop s cl a grp) grp g w a 0))

/-- The wait of phwait and of the second half of phsw: an acquire of CSTAMP. -/
def phaserWait (s : State) (grp : Nat) (g : Group) (w : W) (a : Nat) (inw : InWord) : WOut :=
  let cl := coreCluster g.core
  match memberOf s cl a grp with
  | none => phaserAnswer s grp g w a 2
  | some m =>
    let x := phaserOf s cl a
    if reached x.phase m.next then
      let s := setMember s cl { m with next := (m.next + 1) % 2 ^ 28 }
      phaserAnswer (s.modGroup grp (fun g => g.acquire 2 x.cstamp)) grp g w a 0
    else if x.nsig = 0 then phaserAnswer s grp g w a 1
    else .wait s .phaser inw

/-- The mode check of phsig (0), phwait (1) and phsw (2). -/
def modeOk (op mode : Nat) : Bool := if op = 0 then mode != 1 else if op = 1 then mode != 0 else mode == 2

/-- phsig, phwait and phsw. A signal waits for the phase that the group has already signalled. -/
def phaserOp (i : Instr) (w : W) (op : Nat) (s : State) : Out :=
  runWord i w true s (fun s grp g =>
    let a := phaserNum g w
    let cl := coreCluster g.core
    if g.inWord = some .signalled then phaserWait s grp g w a .signalled
    else whenActive g w s (fun _ =>
      if op ≠ 1 && !g.unreturned.isEmpty && g.inWord.isNone then .hold s .release
      else if a ≥ 64 then phaserAnswer s grp g w a 6
      else
        match memberOf s cl a grp with
        | none => phaserAnswer s grp g w a 2
        | some m =>
          if !modeOk op m.mode then phaserAnswer s grp g w a 3
          else if op = 1 then phaserWait s grp g w a .again
          else if m.sig then .wait s .phaser .again
          else
            let s := s.modGroup grp (fun g => g.release 2)
            let s := phaserSignal s cl a grp g.commandStamp
            if op = 0 then phaserAnswer s grp g w a 0 else phaserWait s grp g w a .signalled))

def execPhsig (w : W) (s : State) : Out := phaserOp (.phsig w) w 0 s
def execPhwait (w : W) (s : State) : Out := phaserOp (.phwait w) w 1 s
def execPhsw (w : W) (s : State) : Out := phaserOp (.phsw w) w 2 s

end Sys2Proof.Machine
end

