-- ==== Sys2Proof/Machine/Slots.lean ====
section
/-! DEFINITION. Group slots, register blocks, stack regions and team windows (07 R149, R150, R157, 08 R178, R210,
15 R330). -/

namespace Sys2Proof.Machine

/-- Groups resident in a partition, those in the reserve and in the landing slot included. -/
def residents (s : State) (core part : Nat) : List (Nat × Group) :=
  s.groups.filter (fun p => p.2.core == core && p.2.part == part)

/-- Groups on their way to the landing slot of a partition. -/
def arrivals (s : State) (core part : Nat) : List (Nat × Group) := s.groups.filter (fun p => p.2.migTo == some (core, part))

/-- Free blocks of a partition's ordinary pool. -/
def blocksFree (s : State) (core part : Nat) : Nat :=
  let used := ((residents s core part).filter (fun p => p.2.slot != 16) ++ arrivals s core part).map (fun p => p.2.blocks)
  (if part = 0 then 48 else 64) - used.foldl (· + ·) 0

/-- The lowest free ordinary slot of a partition (DESIGN CHOICE, assumption 55: R149 does not say which free slot). -/
def freeSlot (s : State) (core part : Nat) : Option Nat := firstFree 16 ((residents s core part).map (fun p => p.2.slot))

/-- The landing slot of a partition is free. -/
def landingFree (s : State) (core part : Nat) : Bool :=
  (arrivals s core part).isEmpty && !(residents s core part).any (fun p => p.2.slot == 17)

/-- The partition that takes a task: the one with the fewest groups, the lowest on a tie. -/
def choosePart (s : State) (core demand : Nat) : Option Nat :=
  let ok := (List.range 8).filter (fun p => (freeSlot s core p).isSome && decide (demand ≤ blocksFree s core p))
  ok.foldl (fun best p =>
    match best with
    | none => some p
    | some b => if (residents s core p).length < (residents s core b).length then some p else some b) none

/-- The lowest stack region that no group of the context holds. -/
def freeRegion (s : State) (asid : Nat) : Nat :=
  let used := (s.groups.filter (fun p => p.2.asid == asid)).map (fun p => p.2.region)
  (firstFree (used.length + 1) used).getD 0

/-- Base and end of a stack region. -/
def regionBase (r : CtxRegs) (k : Nat) : Nat := arenaBase r + 4096 * r.ifsize.toNat * k
def regionEnd (r : CtxRegs) (k : Nat) : Nat := regionBase r (k + 1)

/-- The lowest free range of `n` units of 256 bytes from offset 0x2000 up; a team without a window has BASE 32. -/
def freeWindow (s : State) (core n : Nat) : Option Nat :=
  if n = 0 then some 32
  else
    let used := ((s.core core).teams.map (fun p => p.2)).filter (fun t => t.size != 0)
    let clash (b : Nat) : Bool := used.any (fun t => decide (b < t.base + t.size ∧ t.base < b + n))
    (32 :: used.map (fun t => t.base + t.size)).foldl (fun best b =>
      if b + n > 2048 || clash b then best
      else match best with | none => some b | some x => some (min x b)) none

/-- A team's number that no team of the core has. -/
def newTeam (s : State) (core base size : Nat) : State × Nat :=
  let (s, t) := s.fresh
  (s.modCore core (fun c => { c with teams := tabPut c.teams t ⟨base, size⟩ }), t)

end Sys2Proof.Machine
end

