-- ==== Sys2Proof/Machine/DieOps.lean ====
section
/-! DEFINITION. Die instructions (15 R315 to R330): barrier words, copy and migrate. -/

namespace Sys2Proof.Machine

/-! ### Barrier words (R315 to R319) -/

/-- The barrier that a word names. -/
inductive BarRef where
  | global (a : DWord)
  | scratch (core : Nat) (off : Nat)
  | bad (t : Chk) (a : DWord)
  | wait (page : Nat)

/-- A core named within the issuing cluster, or the issuing core. -/
def clusterCore (own n : Nat) : Option Nat :=
  if n = noWord then some own else if n < 12 then some (12 * coreCluster own + n) else none

/-- Resolves and checks the barrier of a word (R315); `init` may name an uncorrectable scratch word. -/
def barRef (s : State) (g : Group) (w : W) (init : Bool) : BarRef :=
  if w.mod.getLsbD 0 then
    let a := pairVal g w w.a
    match checkGlobal s g a 8 35 false with
    | .ok _ _ => .global a
    | .wait k => .wait k
    | c => .bad c a
  else
    let off := (scalarVal g w w.a).toNat
    let a : DWord := BitVec.ofNat 64 off
    if off % 8 ≠ 0 then .bad (.bad 10 0) a
    else
      match clusterCore g.core (scalarVal g w w.c).toNat with
      | none => .bad (.bad 8 0) a
      | some core =>
        if off ≥ 0x2000 then .bad (.bad 8 0) a
        else if !init && scratchBad s core off 8 then .bad (.bad 11 2) a
        else .scratch core off

def refStop (s : State) (grp : Nat) (g : Group) (r : BarRef) : WOut :=
  match r with
  | .bad (.bad c d) a => .trap s (wordTrap g c d a)
  | .wait k => .hold (s.modGroup grp (fun g => { g with wanted := [k] })) .plb
  | _ => .done s

/-- bar.init, bar.exp and bar.arr: operation 0, 1 or 2. bar.arr waits as a release. -/
def barOp (i : Instr) (w : W) (op : Nat) (s : State) : Out :=
  runWord i w true s (fun s grp g => whenActive g w s (fun _ =>
    let n := (scalarVal g w w.b).toNat
    let n := if op = 0 then n % 65536 else n
    match barRef s g w (op == 0) with
    | .global a =>
      issueGlobal s grp g
        { instr := i, kind := .bar op, path := some 3, size := 8, vec := false, scope := 4, rel := op == 2, acq := false, drifts := false
          lanesL := [(⟨0, a, BitVec.ofNat 64 n, 0⟩, checkGlobal s g a 8 35 false)] }
    | .scratch core off =>
      if g.count 3 ≥ 255 then .hold s .room
      else if op = 2 && !g.unreturned.isEmpty then .hold s .release
      else
        let s := if op = 2 then s.modGroup grp (fun g => g.release 4) else s
        .done (countReturned (barScratch s core off op n g.commandStamp) grp i [])
    | r => refStop s grp g r))

def execBarInit (w : W) (s : State) : Out := barOp (.barInit w) w 0 s
def execBarExp (w : W) (s : State) : Out := barOp (.barExp w) w 1 s
def execBarArr (w : W) (s : State) : Out := barOp (.barArr w) w 2 s

/-- The barrier word as bar.wait and bar.test read it, with the stamp that an acquire of it takes. -/
inductive BarSeen where
  | value (s : State) (w : DWord) (stamp : Stamp)
  | stop (o : WOut)

/-- An earlier request of the group to a line has not left the core, or one of the core has left and waits at the home for the line
(R216). -/
def ownQueued (s : State) (grp : Nat) (g : Group) (a : DWord) : Bool :=
  s.requests.any (fun r => r.core == g.core && r.isGlobal && r.line == a.toNat / 128 && r.tag == tagAsid g.asid a.toNat &&
    ((r.grp == grp && r.phase == .queued) || r.phase == .missing))

/-- The token that a read of a home on another die takes (R331); none when there is none. -/
def barToken (s : State) (g : Group) (a : DWord) : Option State :=
  match plbFind s g.core g.asid a.toNat with
  | some r =>
    takeToken s { Req.blank with core := g.core, asid := g.asid, slice := homeSlice r.place r.home a.toNat }
  | none => some s

def barSee (s : State) (grp : Nat) (g : Group) (w : W) : BarSeen :=
  match barRef s g w false with
  | .scratch core off => .value s (barRead s core off) (arrStampOf s core off)
  | .global a =>
    if ownQueued s grp g a then .stop (.hold s .release)
    else
      match (if g.inWord.isNone then barToken s g a else some s) with
      | none => .stop (.hold s .token)
      | some s =>
        match devRead s (coreDie g.core) g.asid a.toNat 8 g.view 35 with
        | (s, .ok (b, ws)) => .value s (BitVec.ofNat 64 (bytesVal b)) ws
        | (s, .error (c, d)) => .stop (.trap s (wordTrap g c d a))
  | r => .stop (refStop s grp g r)

/-- bar.wait (R318); a bad phase returns at once, before anything of the barrier is looked at. -/
def execBarWait (w : W) (s : State) : Out :=
  runWord (.barWait w) w true s (fun s grp g => whenActive g w s (fun _ =>
    let p := (scalarVal g w w.b).toNat
    if p ≥ 65536 then .done (s.modGroup grp (fun g => writeScalar g w.d 3))
    else
      match barSee s grp g w with
      | .stop o => o
      | .value s v stamp =>
        match barAnswer v p with
        | some d => .done (s.modGroup grp (fun g => writeScalar (g.acquire 4 stamp) w.d (BitVec.ofNat 32 d)))
        | none => .wait s .bar .again))

/-- bar.test writes the whole word. -/
def execBarTest (w : W) (s : State) : Out :=
  runWord (.barTest w) w true s (fun s grp g => whenActive g w s (fun _ =>
    match barSee s grp g w with
    | .stop o => o
    | .value s v stamp => .done (s.modGroup grp (fun g => writePair (g.acquire 4 stamp) w.d v))))

/-! ### copy (R321 to R323) -/

/-- An H endpoint is not usable: `want` is the state it must have. -/
def badHandle (s : State) (core n : Nat) (want : HandleSt) : Bool :=
  decide (n ≥ 64) || (match handle? s core n with | some x => x.st != want | none => true)

/-- The statuses of R322 for a copy whose cores `coreOf` resolves. -/
def copyStatus (s : State) (core : Nat) (coreOf : Nat → Option Nat) (sk dk bk : Nat) (b : List Word) : Nat :=
  let badS (k : Nat) : Bool := (coreOf (blk b (k + 1))).isNone || blk b k % 16 != 0 || decide (blk b k < 0x2000 ∨ blk b k ≥ 0x80000)
  firstStatus [
    (sk != 0 && dk != 0, 1),
    ((sk == 1 && badHandle s core (blk b 0) .full) || (dk == 1 && badHandle s core (blk b 2) .free), 2),
    ((sk == 2 && badS 0) || (dk == 2 && badS 2), 3),
    ((bk == 1 && (blk b 6 % 8 != 0 || decide (blk b 6 ≥ 0x2000) || (coreOf (blk b 7)).isNone)) || (bk == 2 && blk b 6 % 8 != 0) ||
      (bk != 0 && dk == 1), 4),
    (blk b 8 % 128 != 0, 5)]

/-- Copies that wait in the queue of a die; one that is held or resumed has its engine. -/
def copiesWaiting (s : State) (die : Nat) : Nat := ((s.die die).copies.filter (fun c => !c.engine)).length

/-- A copy enters the queue of a die: its handles change in the same step. -/
def acceptCopy (s : State) (die : Nat) (c : Copy) (sk dk : Nat) : State :=
  let s := if sk = 1 then beginRead s c.core (blk c.block 0) else s
  let s := if dk = 1 then handleTo s c.core (blk c.block 2) .filling else s
  s.modDie die (fun d => { d with copies := d.copies ++ [c] })

def execCopy (w : W) (s : State) : Out :=
  runWord (.copy w) w true s (fun s grp g => whenActive g w s (fun _ =>
    let die := coreDie g.core
    let b := blockRegs g w.a 9
    let st := copyStatus s g.core (clusterCore g.core) (copySk w) (copyDk w) (copyBk w) b
    if st = 0 && (g.count 5 ≥ 255 || copiesWaiting s die ≥ 1024) then .hold s .room
    else
      let s := s.modGroup grp (fun g => writeScalar g w.d (BitVec.ofNat 32 st))
      if st ≠ 0 then .done s
      else
        let (s, op) := s.fresh
        let (s, id) := s.fresh
        let c : Copy := ⟨id, some grp, none, op, g.asid, g.gid, g.core, w.imm, b, g.unacked, g.commandStamp, false, false, [], 0, [], 0, 0, none, false, g.prov⟩
        let s := s.modGroup grp (fun x => { x with ops := x.ops ++ [engineOp op 5 (.copy w) g] })
        .done (acceptCopy s die c (copySk w) (copyDk w))))

/-! ### migrate (R329, R330) -/

/-- The group holds commands, batches, phaser records, or pinned or gated entries. -/
def migrateBusy (s : State) (grp : Nat) (g : Group) : Bool :=
  let k := s.core g.core
  let b := batchesOf s g.core grp
  (k.waiting ++ k.queue ++ k.epis).any (fun c => c.grp == grp) || !b.closed.isEmpty || b.openLeft != 0 ||
  holdsPhaser s (coreCluster g.core) grp ||
  s.cores.any (fun c => c.2.deque.any (fun e => e.spawnGrp == grp && (e.clo.pin || e.clo.gate)))

/-- The cores of a die that serve a steal domain of a context (R185), the sector of a slice first. -/
def landingCores (s : State) (die slice asid : Nat) (dom : Option (Option (Nat × Nat))) : List Nat :=
  let all := (List.range 108).map (fun k => 108 * die + k)
  let mine := all.filter (fun c => (s.core c).domain == dom && coreAsid s c == asid)
  mine.filter (fun c => sameSector c slice) ++ mine.filter (fun c => !sameSector c slice)

/-- The landing slot that a migration claims. -/
def landingPlace (s : State) (cores : List Nat) (blocks : Nat) : Option (Nat × Nat) :=
  (cores.flatMap (fun c => (List.range 8).map (fun p => (c, p)))).find? (fun x =>
    landingFree s x.1 x.2 && decide (blocks ≤ blocksFree s x.1 x.2))

/-- The group leaves for a landing slot; MIGRATE_LAND writes D and resumes it. -/
def migrateGo (s : State) (grp : Nat) (g : Group) (w : W) (slice : Nat) : WOut :=
  let answer (v : Word) : WOut := .done (s.setGroup grp (writeScalar g w.d v))
  let die := sliceDie slice
  let dom := (s.core g.core).domain
  let cores := landingCores s die slice g.asid dom
  if die = coreDie g.core then answer 1
  else if g.blocks > 8 then answer 3
  else if migrateBusy s grp g then answer 4
  else if cores.isEmpty then answer 5
  else
    match landingPlace s cores g.blocks with
    | none => answer 2
    | some x =>
      .over (s.setGroup grp { writeScalar g w.d 0 with
        pc := nextPc g.pc, park := some .migrating, migTo := some x, inWord := none, replay := none, answers := [], wanted := [] })

def execMigrate (w : W) (s : State) : Out :=
  runWord (.migrate w) w true s (fun s grp g => whenActive g w s (fun _ => userWord g s (fun _ =>
    let a := pairVal g w w.a
    match checkGlobal s g a 1 0 false with
    | .ok (some r) _ => migrateGo s grp g w (homeSlice r.place r.home a.toNat)
    | .bad c d => .trap s (wordTrap g c d a)
    | .wait k => .hold (s.modGroup grp (fun g => { g with wanted := [k] })) .plb
    | .ok none _ => .done s)))

end Sys2Proof.Machine
end

