-- ==== Sys2Proof/Machine/CoreEvents.lean ====
section
/-! DEFINITION. Steps of a core that are no instruction word: task starts, the scheduler, traps that are due, fills
(01 R29 to R35, 03 R62, 05 R137, R142, 07 R149 to R168, 08 R184 to R202, 16 R335). -/

namespace Sys2Proof.Machine

/-! ### Starting a task (R29, R30, R149, R150, R178, R186, R210) -/

/-- Where a task starts: partition, slot and team window; a pinned task joins its spawner's team. -/
structure Place where
  part : Nat
  slot : Nat
  /-- an existing team, or the base and size of a new one -/
  team : Nat ⊕ (Nat × Nat)

/-- The count of groups started in a slot (R27). -/
def genKey (part slot : Nat) : Nat := part * 32 + slot

def gidOf (gen slot part core : Nat) : Word := BitVec.ofNat 32 (gen % 32768 * 2 ^ 17 + slot * 2 ^ 12 + part * 2 ^ 9 + core)

/-- Which set a group that starts joins. R150 says it for the reserve slot alone, which always enters the active set;
an ordinary group enters the active set while it has room (DESIGN CHOICE, assumption 55). -/
def joinSets (s : State) (core part slot : Nat) : State × Bool :=
  let act := activeGroups s core part
  if act.length < 8 then (s, true)
  else if slot = 16 then
    match displaced s core part with
    | some k => (leaveSet s k, true)
    | none => (s, true)
  else (s, false)

/-- Starts a task. The header is written first: a fault of that write fails the future, and the task is not started.
`none`: nothing happens now. `outside` marks a closure of a LAUNCH or an Arcade, whose record takes the serial (R180). -/
def startTask (s : State) (core : Nat) (c : Closure) (serial : Word) (stamp : Stamp) (origin : Nat) (root outside : Bool) (p : Place) :
    Option State :=
  let asid := coreAsid s core
  match s.context? asid with
  | none => none
  | some ctx =>
    let region := freeRegion s asid
    let base := regionBase ctx.regs region
    let prov := provOf asid serial c.entry c.entry
    match groupWrite s core asid base (headerBytes c.future 0 serial) stamp prov with
    | (s, .error (cause, _)) =>
      if cause = 7 then none
      else
        let s := failFuture s core asid c.future 6 serial (BitVec.ofNat 32 cause) 0 stamp prov
        some (settleStages (if root then rootDone s asid else s) asid)
    | (s, .ok _) =>
      let s := if outside then (groupWrite s core asid (c.future.toNat + 20) (valBytes 4 serial.toNat) stamp prov).1 else s
      let gen := tabGet (s.core core).gens (genKey p.part p.slot) 0
      let s := s.modCore core (fun k => { k with gens := tabPut k.gens (genKey p.part p.slot) (gen + 1) })
      let (s, team) := match p.team with | .inl t => (s, t) | .inr (b, n) => newTeam s core b n
      let (s, active) := joinSets s core p.part p.slot
      let (s, key) := s.fresh
      let g := startGroup ctx.regs asid core p.part p.slot (gidOf gen p.slot p.part core) c.demand c.entry c.args
      let g := { g with
        view := stamp, ifp := BitVec.ofNat 64 (base + 32), region := region, stackEnd := regionEnd ctx.regs region, team := team
        tasks := [⟨c.entry, c.future, serial, c.entry, origin, root, c.demand, base, false, 0, none⟩], active := active }
      some (s.setGroup key g)

/-- The place of a task in an ordinary slot, if it can start at once. -/
def ordinaryPlace (s : State) (core demand : Nat) (team : Option Nat) (scr : Nat) : Option Place :=
  match choosePart s core demand with
  | none => none
  | some part =>
    match freeSlot s core part, team with
    | some slot, some t => some ⟨part, slot, .inl t⟩
    | some slot, none => (freeWindow s core scr).map (fun b => ⟨part, slot, .inr (b, scr)⟩)
    | none, _ => none

def entryTeam (e : Entry) : Option Nat := if e.clo.pin then some e.team else none

/-- The hottest runnable entry that can start at once, and its place. -/
def nextStart (s : State) (core : Nat) : Option (Entry × Place) :=
  ((s.core core).deque.filterMap (fun e =>
    if runnable s core e then (ordinaryPlace s core e.clo.demand (entryTeam e) e.clo.scr).map (fun p => (e, p)) else none)).head?

def startEntry (s : State) (core : Nat) (e : Entry) (p : Place) : Option State :=
  startTask (dropEntry s core e.serial) core e.clo e.serial e.stamp e.origin e.isRoot false p

def groupStartTry (core : Nat) (s : State) : Option State :=
  if coreRuns s core then
    match nextStart s core with
    | some (e, p) => startEntry s core e p
    | none => none
  else none

def execGroupStart (core : Nat) (s : State) : Out := orSame s (groupStartTry core s)

/-- Every resident group of the core is parked in a join on a pending future (R202). -/
def allJoining (s : State) (core : Nat) : Bool :=
  let gs := s.groups.filter (fun p => p.2.core == core)
  !gs.isEmpty && gs.all (fun p => p.2.park == some .join)

/-- The hottest entry for the reserve slot. -/
def reserveEntry (s : State) (core : Nat) : Option Entry :=
  (s.core core).deque.find? (fun e => runnable s core e && decide (e.clo.demand ≤ 16) && (e.clo.pin || e.clo.scr == 0))

def reserveTry (core : Nat) (s : State) : Option State :=
  if coreRuns s core && allJoining s core && !(residents s core 0).any (fun p => p.2.slot == 16) then
    match reserveEntry s core with
    | some e => startEntry s core e ⟨0, 16, match entryTeam e with | some t => .inl t | none => .inr (32, 0)⟩
    | none => none
  else none

def execReserveStart (core : Nat) (s : State) : Out := orSame s (reserveTry core s)

/-! ### The scheduler (R33, R137) -/

/-- A ready pending group that no parking has moved in takes the place of the active group that issued least recently
and runs no handler (R33). Its 64 clocks are no part of the model (assumption 49). -/
def displaceTry (grp : Nat) (s : State) : Option State :=
  match s.group? grp with
  | none => none
  | some g =>
    let act := activeGroups s g.core g.part
    if g.active || g.since.isNone || !canRun s g || act.length < 8 then none
    else
      match displaced s g.core g.part with
      | some k => some (enterSet (leaveSet s k) grp)
      | none => none

def execSchedulerDisplace (grp : Nat) (s : State) : Out := orSame s (displaceTry grp s)

def sleepTry (grp : Nat) (s : State) : Option State :=
  match s.group? grp with
  | some g => if g.park = some .sleep then some (s.setGroup grp { g with park := none, sleepLeft := 0 }) else none
  | none => none

def execSleepExpiry (grp : Nat) (s : State) : Out := orSame s (sleepTry grp s)

/-! ### Traps that are due (R166, R167, R83) -/

/-- The address that a lane reports: an offset for a scratch access of the cluster, the record of an fprobe. -/
def laneAddr (o : Op) (a : LaneAcc) : DWord :=
  match o.kind with | .dsld => BitVec.ofNat 64 (dsldOff a.addr) | .probe => a.addr - 16 | _ => a.addr

/-- The trap of a held operation. -/
def heldInfo (g : Group) (o : Op) : TrapInfo :=
  match o.held with
  | a :: _ =>
    if o.scalar then ⟨o.heldCause.1, o.heldCause.2, 0xFF, laneAddr o a, 0, g.pc, true⟩
    else ⟨o.heldCause.1, o.heldCause.2, a.lane, laneAddr o a, lanesMask (o.held.map (fun x => x.lane)), g.pc, true⟩
  | [] => ⟨o.heldCause.1, o.heldCause.2, 0xFF, 0, 0, g.pc, true⟩

def heldTrapTry (grp : Nat) (s : State) : Option State :=
  match s.group? grp with
  | none => none
  | some g =>
    if !canRun s g then none
    else
      match dueHeld g with
      | none => none
      | some o =>
        let s := if g.sup then s else s.modOp grp o.id (fun o => { o with heldTaken := true })
        some (takeTrap s grp (heldInfo g o))

def execHeldTrap (grp : Nat) (s : State) : Out := orSame s (heldTrapTry grp s)

def budgetTry (grp : Nat) (s : State) : Option State :=
  match s.group? grp with
  | some g => if g.sup && g.trap.left == 0 && g.inWord.isNone && canRun s g then some (escalateTrap s grp 1) else none
  | none => none

def execTrapBudgetEscalate (grp : Nat) (s : State) : Out := orSame s (budgetTry grp s)

/-- The group that has the turn meets a word that stands for no instruction. -/
def illegalTry (detail : Nat) (s : State) : Option State :=
  match s.group? s.cur with
  | some g =>
    if canRun s g && g.inWord.isNone && fetchNext s g == .illegal detail then some (takeTrap s s.cur (wordTrap g 1 detail g.pc))
    else none
  | none => none

def execIllegalInstruction (detail : Nat) (s : State) : Out := orSame s (illegalTry detail s)

/-! ### The error log and the drift count (R142, R335) -/

def windowTry (grp : Nat) (s : State) : Option State :=
  match s.group? grp with
  | some g => if g.window = some 0 then some (s.setGroup grp { g with window := none }) else none
  | none => none

def execErrorLogWindowClose (grp : Nat) (s : State) : Out := orSame s (windowTry grp s)

/-- The load that is about to issue makes the drift count 256: the view stamp rises before its requests. -/
def driftTry (grp : Nat) (s : State) : Option State :=
  match s.group? grp with
  | some g => if g.drift = 256 then some (s.setGroup grp { g with drift := 257, view := g.view + 1 }) else none
  | none => none

def execDriftRollover (grp : Nat) (s : State) : Out := orSame s (driftTry grp s)

/-! ### Fills (R62, R154, R158, R159) -/

/-- The line of memory that a fill reads, or CAUSE and DETAIL. Of the old and the new contents that R66 lets each sector hold, the fill
takes those that the home has at this moment (DESIGN CHOICE, assumption 52). -/
def fetchLine (s : State) (core asid va : Nat) : State × Except (Nat × Nat) (BitVec 512) :=
  match plbCheck s core asid va 4 with
  | (s, .error e) => (s, .error e)
  | (s, .ok r) =>
    match homeAccess s r asid va none with
    | (s, .error e) => (s, .error e)
    | (s, .ok (d, m, p, _, cause, detail)) =>
      let want := byteMask (va % 128) 64
      if want &&& ~~~ m != 0 then (s, .error (cause, detail))
      else if want &&& p != 0 then (s, .error (11, 3))
      else (s, .ok (d.extractLsb' (8 * (va % 128)) 512))

/-- Puts a line into the instruction cache; of 1,024 lines the oldest goes (DESIGN CHOICE, assumption 52: R154 gives the
capacity alone). -/
def installILine (s : State) (core : Nat) (x : ILine) : State :=
  s.modCore core (fun c => { c with
    icache := (x :: c.icache.filter (fun y => !(y.asid == x.asid && y.line == x.line))).take 1024 })

/-- Fills a line that the group waits for; a copy that fails its check twice is held as failed. A line that another group has
brought meanwhile stays as it is. -/
def fillLine (s : State) (grp : Nat) (g : Group) (line : Nat) : State :=
  if (findILine s g.core g.asid (BitVec.ofNat 64 (64 * line))).isSome then
    s.modGroup grp (fun g => { g with wanted := g.wanted.erase (2 ^ 64 + line) })
  else
  match fetchLine s g.core g.asid (64 * line) with
  | (s, .error (c, d)) =>
    s.modGroup grp (fun g => { g with answers := g.answers ++ [⟨2 ^ 64 + line, c, d⟩], wanted := g.wanted.erase (2 ^ 64 + line) })
  | (s, .ok d) =>
    let again := if lineGood d then (s, Except.ok d) else fetchLine s g.core g.asid (64 * line)
    match again with
    | (s, .ok d) =>
      (installILine s g.core ⟨tagAsid g.asid (64 * line), line, d, !lineGood d⟩).modGroup grp (fun g =>
        { g with wanted := g.wanted.erase (2 ^ 64 + line) })
    | (s, .error (c, e)) =>
      s.modGroup grp (fun g => { g with answers := g.answers ++ [⟨2 ^ 64 + line, c, e⟩], wanted := g.wanted.erase (2 ^ 64 + line) })

/-- The fills of a group are served while it may go on (R168). -/
def mayFill (s : State) (g : Group) : Bool := groupGoes s g && (s.die (coreDie g.core)).coreUp

def icacheTry (grp : Nat) (s : State) : Option State :=
  match s.group? grp with
  | none => none
  | some g =>
    match g.wanted.find? (fun k => decide (k ≥ 2 ^ 64)) with
    | some k => if mayFill s g then some (fillLine s grp g (k - 2 ^ 64)) else none
    | none => none

def execIcacheFill (grp : Nat) (s : State) : Out := orSame s (icacheTry grp s)

/-- The MTU's answer for a page that the group waits for. -/
def fillPage (s : State) (grp : Nat) (g : Group) (page : Nat) : State :=
  let va := page * 2 ^ 14
  let answer (s : State) (c d : Nat) : State :=
    s.modGroup grp (fun g => { g with answers := g.answers ++ [⟨page, c, d⟩], wanted := g.wanted.erase page })
  match mtuWalk s (coreDie g.core) g.asid va with
  | (s, .leaf e level _) =>
    (installPlb s g.core (leafRec g.asid va e level)).modGroup grp (fun g => { g with wanted := g.wanted.erase page })
  | (s, .poison) => answer s 11 3
  | (s, _) => answer s 5 0

def plbTry (grp : Nat) (s : State) : Option State :=
  match s.group? grp with
  | none => none
  | some g =>
    match g.wanted.find? (fun k => decide (k < 2 ^ 64)) with
    | some k => if mayFill s g then some (fillPage s grp g k) else none
    | none => none

def execPlbFill (grp : Nat) (s : State) : Out := orSame s (plbTry grp s)

end Sys2Proof.Machine
end

