-- ==== Sys2Proof/Machine/Mtu.lean ====
section
/-! DEFINITION. What the MTUs do to a page for groups: replaying held entries (R368), mapping first-touch
pages (R238, R363) and reporting entries (R239). -/

namespace Sys2Proof.Machine

/-- Zeros in a range of physical memory, which also clears its poison. -/
def zeroRange (s : State) (pa n : Nat) : State :=
  { s with hbm := s.hbm.filter (fun c => c.1 < pa || pa + n ≤ c.1)
           hbmPoison := s.hbmPoison.filter (fun k => 32 * k < pa || pa + n ≤ 32 * k)
           hbmMarked := s.hbmMarked.filter (fun k => 32 * k < pa || pa + n ≤ 32 * k) }

/-- One held entry written into the frame under its page (R368). -/
def replayOne (s : State) (h : Held) (pa : Nat) : State :=
  match h.kind with
  | .data d m p => setAccessed (hbmWriteLine s pa d m p) pa
  | .op _ k t a v c =>
    let size := opBytes k t
    let off := a.toNat % 128
    let old := bytesVal (cellReads s.hbm (pa + off) size)
    let new := lanePerform k old ⟨0, a, v, c⟩
    let m := byteMask off size
    let bad := (hbmLine s pa).2 &&& m
    setAccessed (hbmWriteLine s pa (lineOf off (valBytes size new)) m bad) pa

/-- Replays the held entries of a page whose physical address is `pa`, in arrival order, and frees them. -/
def replayPage (s : State) (asid vpage bits pa : Nat) : State :=
  let mine := pageHeld s asid vpage bits
  let s := { s with held := s.held.filter (fun h => !(h.asid == asid && h.line * 128 / 2 ^ bits == vpage)) }
  mine.foldl (fun s h => replayOne s h (pa + h.line * 128 % 2 ^ bits)) s

def poolKey (asid die : Nat) : Nat := asid * 4 + die
def poolOf (s : State) (asid die : Nat) : List Nat := tabGet s.pools (poolKey asid die) []

/-- The status of mapft for an address, on a core of a die (R238, R363); none when the walk meets poison. -/
def mapftPage (s : State) (asid die : Nat) (a : DWord) : State × Option Nat :=
  let va := a.toNat
  if highBits a then (s, some 4)
  else
    match mtuWalk s die asid va with
    | (s, .leaf e level pte) =>
      if pteP e then (s, some 1)
      else if pteFT e = false ∨ level ≠ 3 then (s, some 2)
      else
        match poolOf s asid die with
        | [] => (s, some 3)
        | f :: rest =>
          let tag := tagAsid asid va
          let s := { s with pools := tabPut s.pools (poolKey asid die) rest }
          let s := zeroRange s (f * 2 ^ 14) (2 ^ 14)
          let s := replayPage s tag (va / 2 ^ 14) 14 (f * 2 ^ 14)
          let s := writePte s pte (setField (setBit (setBit e 1 true) 2 false) 22 38 f)
          let w := pteRights e &&& 2 != 0
          let s := s.modFrame f (fun x =>
            { x with st := if w then 2 else 1, rcount := if w then 0 else 1, asid := tag, va := va / 2 ^ 14 * 2 ^ 14 })
          (purgePlb s tag (va / 2 ^ 14) 14, some 0)
    | (s, .poison) => (s, none)
    | (s, _) => (s, some 4)

/-- The word that fltrd returns (R239); FT on a larger page is reported as 0 (R363). -/
def fltrdWord (e : DWord) (level : Nat) : Nat :=
  1 + (if pteP e then 2 else 0) + (if pteFT e && level == 3 then 4 else 0) + 32 * (pteRights e).toNat +
    (if pteB e then 512 else 0) + 1024 * levelSize level + 4096 * ptePlace e

def fltrdPage (s : State) (asid die : Nat) (a : DWord) : State × Option Nat :=
  if highBits a then (s, some 0)
  else
    match mtuWalk s die asid a.toNat with
    | (s, .leaf e level _) => (s, some (fltrdWord e level))
    | (s, .poison) => (s, none)
    | (s, _) => (s, some 0)

/-- A page that a mapft would map has accesses under way: the MTU waits for them (R361 step 3, R363). -/
def mapftWaits (s : State) (r : Req) : Bool :=
  r.kind == .mapft && r.lanes.any (fun a =>
    let va := a.addr.toNat
    !highBits a.addr && !(poolOf s r.asid (coreDie r.core)).isEmpty && pageBusy s (tagAsid r.asid va) (va / 2 ^ 14) 14 &&
    (match walk s r.asid va with | .leaf e level _ => !pteP e && pteFT e && level == 3 | _ => false))

/-- The MTU serves the lanes of mapft or fltrd in ascending order. -/
def serveMtu (s : State) (r : Req) : State :=
  let die := coreDie r.core
  let (s, x) := r.lanes.foldl (fun (acc : State × Served) a =>
    let (s, v) := if r.kind = .mapft then mapftPage acc.1 r.asid die a.addr else fltrdPage acc.1 r.asid die a.addr
    match v with
    | some v => (s, { acc.2 with vals := acc.2.vals ++ [(a.lane, BitVec.ofNat 64 v)] })
    | none => (s, { acc.2 with un := acc.2.un ++ [a], cause := (11, 3) })) (s, ⟨[], [], (0, 0)⟩)
  s.setPhase r.id (x.phase 0)

end Sys2Proof.Machine
end

