-- ==== Sys2Proof/Machine/MemEvents.lean ====
section
/-! DEFINITION. Steps of the memory system: requests that leave, are performed and come back (09 R215 to R231,
16 R333 to R339), fills at a home (17 R362, R367), results of variable latency (R94, R121), token buckets (R331), the
fault ring (R373), the patrol (R377) and the frame sweepers (R376). -/

namespace Sys2Proof.Machine

/-! ### Common parts -/

/-- A request may leave its core: its context is not stopped, and its die's core domain is up. -/
def mayLeave (s : State) (r : Req) : Bool := ctxGoes s r.asid && (s.die (coreDie r.core)).coreUp

/-- An access that has left is completed while the context is on its clusters (R420). -/
def inFlight (s : State) (r : Req) : Bool :=
  match s.context? r.asid with | some c => (c.st == .running || c.st == .halted) | none => false

/-- The path of a request's operation. -/
def reqPath (s : State) (r : Req) : Option Nat :=
  match s.group? r.grp with
  | some g => match g.ops.find? (fun o => o.id == r.op) with | some o => o.path | none => none
  | none => none

/-- A queued request whose turn to leave has come. -/
def leaving (s : State) (r : Req) : Bool := r.phase == .queued && mayLeave s r && !heldBack s r

/-- A line of the L1 becomes the most recently used. -/
def l1Touch (s : State) (core : Nat) (x : L1Line) : State :=
  s.modCore core (fun c => { c with l1 := x :: c.l1.filter (fun y => !(y.asid == x.asid && y.line == x.line)) })

/-- A token is wanted and missing: the request waits for one, and its group is parked (R331). -/
def waitToken (s : State) (r : Req) : State :=
  (s.modReq r.id (fun r => { r with tokenDie := some (sliceDie r.slice) })).modGroup r.grp (fun g =>
    if g.park.isNone then { g with park := some .token } else g)

/-! ### Reads (R336, R338, R152, R308) -/

/-- A read that the L1 serves. -/
def serveL1 (s : State) (r : Req) (x : L1Line) : State :=
  (l1Touch s r.core x).setPhase r.id ((serveLanes r.size r.lanes x.data (sectorBytes x.valid) 0 (7, 0)).phase x.ws)

/-- The answer of a home to a read: a copy for a load, the bytes for a watch or an fprobe. -/
def answerRead (s : State) (r : Req) (x : L2Line) : State :=
  if r.isCopyRead then s.setPhase r.id (.replied x.valid x.data x.poison x.ws x.ls)
  else readAnswer s r (serveLanes r.size r.lanes x.data (sectorBytes x.valid) x.poison (7, 0)) x.ws

/-- The home line that holds all four sectors. -/
def wholeLine (s : State) (r : Req) : Option L2Line :=
  match findLine (s.slice r.slice) r.tag r.line true with
  | some x => if x.valid = 0xF then some x else none
  | none => none

/-- A renewal, or the read of a watch or an fprobe, at the home. -/
def homeRenew (s : State) (r : Req) : State :=
  if !memUp s (sliceDie r.slice) then s.setPhase r.id (refuseAll r.lanes (11, 4))
  else
    match wholeLine s r with
    | some x =>
      let (s, x) := renewLine s r.slice x r.stamp (leaseOf s r.asid)
      answerRead s r x
    | none => (s.setPhase r.id .missing).modReq r.id (fun r => { r with lease := leaseOf s r.asid })

def renewalTry (id : Nat) (s : State) : Option State :=
  match s.req? id with
  | none => none
  | some r =>
    if !(r.isCopyRead || r.kind == .watch || r.kind == .probe) || !leaving s r then none
    else
      match r.peer with
      | some e => some (performPeer s r e)
      | none =>
        if r.isCopyRead && (l1Serves s r).isSome then none
        else
          match (if r.isCopyRead then replicaServes s r else none) with
          | some x =>
            let k := replicaSlice r.core r.va
            some ((s.setSlice k (touchLine (s.slice k) x)).setPhase r.id (.replied x.valid x.data x.poison x.ws x.ls))
          | none =>
            match takeToken s r with
            | none => some (waitToken s r)
            | some s => some (homeRenew s r)

def execRenewal (id : Nat) (s : State) : Out := orSame s (renewalTry id s)

/-- A returned copy: it replaces older copies, and the load is served from it (R338). Poisoned sectors are not
kept, nor is a copy that a write of the core has overtaken; the replica slice keeps none that a write of its sector has. -/
def renewalReturnTry (id : Nat) (s : State) : Option State :=
  match s.req? id with
  | none => none
  | some r =>
    match r.phase with
    | .replied v d p ws ls =>
      if !inFlight s r then none
      else
        let keep := v &&& ~~~ bytesSectors p
        let s := if r.stale then s else l1Install s r.core ⟨r.tag, r.line, keep, d, ws, ls⟩
        let s := if r.stale || r.passed then s else replicaInstall s r v d p ws ls
        some (s.setPhase r.id ((serveLanes r.size r.lanes d (sectorBytes v) p (7, 0)).phase ws))
    | _ => none

def execRenewalReturn (id : Nat) (s : State) : Out := orSame s (renewalReturnTry id s)

/-! ### Results that come back (R24, R94, R121, R198, R218) -/

/-- The outstanding result with a number, and its group. -/
def findPend (s : State) (id : Nat) : Option (Nat × Pend) :=
  (s.groups.filterMap (fun p => (p.2.pend.find? (fun x => x.id == id)).map (fun x => (p.1, x)))).head?

/-- The SFU and the divide unit of a partition serve one instruction at a time, in issue order (R146). -/
def firstOfUnit (s : State) (grp : Nat) (x : Pend) : Bool :=
  match s.group? grp with
  | none => false
  | some g =>
    !(x.unit == .sfu || x.unit == .divide) ||
    !(s.groups.any (fun p => p.2.core == g.core && p.2.part == g.part && p.2.pend.any (fun y => y.unit == x.unit && decide (y.id < x.id))))

/-- Delivers the elements of a mask of an outstanding result of a unit; the last ones bring its flags. -/
def deliverPend (s : State) (id : Nat) (unit : ResUnit) (mask : LaneMask) : Option State :=
  match findPend s id with
  | none => none
  | some (grp, x) =>
    let now := x.cells.filter (fun c => mask.getLsbD c.lane)
    let later := x.cells.filter (fun c => !mask.getLsbD c.lane)
    if x.unit ≠ unit ∨ (now.isEmpty ∧ !x.cells.isEmpty) ∨ !firstOfUnit s grp x then none
    else
      let (s, now) := bindNow s grp x now
      let s := s.modGroup grp (fun g => now.foldl writeCell g)
      if later.isEmpty then
        let s := s.modGroup grp (fun g => { g with pend := g.pend.filter (fun y => y.id != id) })
        some (raiseFlags s grp x.flags x.lane 64 x.pc)
      else
        some (s.modGroup grp (fun g => { g with pend := g.pend.map (fun y => if y.id = id then { y with cells := later } else y) }))

def execSfuResult (id : Nat) (mask : LaneMask) (s : State) : Out := orSame s (deliverPend s id .sfu mask)
def execDivideResult (id : Nat) (mask : LaneMask) (s : State) : Out := orSame s (deliverPend s id .divide mask)
def execCrossLaneResult (id : Nat) (mask : LaneMask) (s : State) : Out := orSame s (deliverPend s id .cross mask)

/-- What a load return delivers: loads, watches, reads of an fprobe and reads of scratch on path L. -/
def isLoadReturn (s : State) (r : Req) : Bool :=
  match r.kind with
  | .load | .direct | .watch | .probe | .dsld => true
  | .scratch => reqPath s r == some 1
  | _ => false

def loadReturnTry (id : Nat) (mask : LaneMask) (s : State) : Option State :=
  match s.req? id with
  | none => deliverPend s id .join mask
  | some r =>
    if !isLoadReturn s r || !inFlight s r then none
    else if r.phase == .queued then
      if r.isCopyRead && r.peer.isNone && leaving s r then
        match l1Serves s r with
        | some x =>
          let s := serveL1 s r x
          match s.req? id with | some r => takeReady s r mask | none => none
        | none => none
      else none
    else takeReady s r mask

def execLoadReturn (id : Nat) (mask : LaneMask) (s : State) : Out := orSame s (loadReturnTry id mask s)

def atomicReturnTry (id : Nat) (mask : LaneMask) (s : State) : Option State :=
  match s.req? id with
  | none => none
  | some r =>
    if !inFlight s r then none
    else
      match r.kind with
      | .atomic _ _ _ true => takeReady s r mask
      | .scratch => if reqPath s r = some 4 then takeReady s r mask else none
      | .mapft | .fltrd =>
        if r.phase == .queued then
          if mayLeave s r && !mapftWaits s r then
            let s := serveMtu s r
            match s.req? id with | some r => takeReady s r mask | none => none
          else none
        else takeReady s r mask
      | _ => none

def execAtomicReturn (id : Nat) (mask : LaneMask) (s : State) : Out := orSame s (atomicReturnTry id mask s)

/-! ### Writes (R337, R339, R226, R193) -/

/-- A write removes the copies that it makes old, as it leaves and as it is performed: the L1 copy for all but plain stores, whose
acknowledgement renews it, the replica of a home outside the sector, and what is on its way to become one (R339). -/
def dropOld (s : State) (r : Req) : State :=
  let s := if r.kind = .store then s else l1Drop s r.core r.tag r.line
  let k := replicaSlice r.core r.va
  let s := if sameSector r.core r.slice then s else s.setSlice k ((s.slice k).filter (fun y => !isLine r.tag r.line false y))
  markStale s r.core r.tag r.line

/-- The write at its home. An operation on bytes that the home does not hold misses. -/
def homeEvent (s : State) (r : Req) : State :=
  if !memUp s (sliceDie r.slice) then s.setPhase r.id (refuseWrite r (11, 4))
  else if r.kind = .store then performStore s r
  else
    match findLine (s.slice r.slice) r.tag r.line true with
    | some x =>
      if lanesBytes r.size r.lanes &&& ~~~ knownBytes x = 0 then performAtomic s r x.data (knownBytes x) x.poison (7, 0)
      else s.setPhase r.id .missing
    | none => s.setPhase r.id .missing

/-- A write leaves its core and is performed. A fres that leaves is a release: the view stamp rises (R193, R228). -/
def writeEventTry (id : Nat) (s : State) : Option State :=
  match s.req? id with
  | none => none
  | some r =>
    if !r.isWrite || !leaving s r || writeWaits s r then none
    else
      match r.peer with
      | some e => some (performPeer s r e)
      | none =>
        match takeToken s r with
        | none => some (waitToken s r)
        | some s' =>
          let s' := if r.kind matches .fres .. then s'.modGroup r.grp (fun g => { g with view := max g.view r.stamp }) else s'
          some (homeEvent (dropOld s' r) r)

def execWriteEvent (id : Nat) (s : State) : Out := orSame s (writeEventTry id s)

/-- The L1 takes the contents of a line that a store has written, unless it holds later ones (R339). A home that stores
have written without a fetch knows only some sectors (R365; assumption 21). A store is no use of the line in the order of R151 (DESIGN
CHOICE, assumption 52). -/
def l1Take (s : State) (r : Req) (w : Stamp) (v : BitVec 4) (d : BitVec 1024) : State :=
  s.modCore r.core (fun c => { c with
    l1 := c.l1.map (fun x => if x.asid = r.tag ∧ x.line = r.line ∧ x.ws ≤ w then { x with valid := v, data := d, ws := w, ls := w } else x) })

def storeAckTry (id : Nat) (s : State) : Option State :=
  match s.req? id with
  | none => none
  | some r =>
    match r.phase with
    | .acked w v d refused cause detail =>
      if !inFlight s r then none
      else
        let s := if r.kind = .store ∧ r.peer.isNone ∧ refused.isEmpty then l1Take s r w v d else s
        some (finishReq s r refused (cause, detail) w true)
    | _ => none

def execStoreAck (id : Nat) (s : State) : Out := orSame s (storeAckTry id s)

/-! ### Misses at a home (R362, R367) -/

/-- A missed request once the home holds its line. -/
def missFull (s : State) (r : Req) : State :=
  match wholeLine s r with
  | none => s
  | some x =>
    if r.isWrite then performAtomic (dropOld s r) r x.data (BitVec.allOnes 128) x.poison (7, 0)
    else
      let (s, x) := renewLine s r.slice x r.stamp r.lease
      answerRead s r x

/-- A missed request of which only some bytes are at hand. -/
def missPart (s : State) (r : Req) (d : BitVec 1024) (m p : BitVec 128) (cause : Nat × Nat) : State :=
  if r.isWrite then performAtomic (dropOld s r) r d m p cause
  else
    let (s, ws) := partRead s r.slice r.tag r.line m (some r.stamp) r.lease
    readAnswer s r (serveLanes r.size r.lanes d m p cause) ws

def missTry (id : Nat) (s : State) : Option State :=
  match s.req? id with
  | none => none
  | some r =>
    if r.phase != .missing || !inFlight s r then none
    else if !memUp s (sliceDie r.slice) then
      some (s.setPhase r.id (if r.isWrite then refuseWrite r (11, 4) else refuseAll r.lanes (11, 4)))
    else
      match homeMiss s r.slice r.tag r.line with
      | (s, .full) => some (missFull s r)
      | (s, .part d m p cause detail) => some (missPart s r d m p (cause, detail))
      | (s, .blocked) => some s

def execHomeMissFill (id : Nat) (s : State) : Out := orSame s (missTry id s)

/-! ### Watches that poll (R231) -/

def pollTry (grp : Nat) (s : State) : Option State :=
  match s.requests.find? (fun r => r.grp == grp && r.phase == .watching false) with
  | none => none
  | some r =>
    if !mayLeave s r then none
    else
      match sliceAccess s r.slice r.asid r.va (some r.stamp) with
      | (s, .error (c, d)) => some (s.setPhase r.id (refuseAll r.lanes (c, d)))
      | (s, .ok (d, m, p, ws, cause, detail)) =>
        let x := serveLanes r.size r.lanes d m p (cause, detail)
        match x.vals, r.lanes with
        | [(_, v)], [a] => some (if v != a.cmp then s.setPhase r.id (x.phase ws) else s)
        | _, _ => some (s.setPhase r.id (x.phase ws))

def execWatchPoll (grp : Nat) (s : State) : Out := orSame s (pollTry grp s)

/-! ### Token buckets (R331) -/

def bucketRate (s : State) (core : Nat) : Nat × Nat :=
  match s.context? (coreAsid s core) with
  | some c => ((c.regs.tbucket.extractLsb' 0 16).toNat, (c.regs.tbucket.extractLsb' 16 16).toNat)
  | none => (0, 0)

/-- Requests of a core that waited for a die's bucket are free to leave. -/
def wakeTokens (s : State) (core die : Nat) : State :=
  let mine := s.requests.filter (fun r => r.core == core && r.tokenDie == some die)
  { s with
    requests := s.requests.map (fun r => if r.core = core ∧ r.tokenDie = some die then { r with tokenDie := none } else r)
    groups := s.groups.map (fun p =>
      (p.1, if mine.any (fun r => r.grp == p.1) && p.2.park == some .token then { p.2 with park := none } else p.2)) }

def refillTry (core die : Nat) (s : State) : Option State :=
  let (rate, depth) := bucketRate s core
  if coreGoes s core && decide (rate ≠ 0 ∧ die < 4 ∧ die ≠ coreDie core) then
    some (wakeTokens (s.modCore core (fun c => { c with tokens := c.tokens.set die (min depth (c.tokens.getD die 0 + rate)) })) core die)
  else none

def execTokenRefill (core die : Nat) (s : State) : Out := orSame s (refillTry core die s)

/-! ### The fault ring (R373, R417) -/

/-- The ring of a context: base address and number of slots. -/
def ringBase (c : Context) : Nat := c.regs.frbase.toNat / 4096 * 4096
def ringSize (c : Context) : Nat := 2 ^ (c.regs.frctl.extractLsb' 0 5).toNat

/-- The record stands in the ring: its item waits for an answer, and the Forum is told. -/
def recordWritten (s : State) (c : Context) (x : RingWait) (k : Nat) : State :=
  let s := { s with ringWaits := s.ringWaits.filter (fun y => y.id != x.id) }
  let s := match x.item with
    | none => s
    | some i =>
      let s := { s with waitItems := s.waitItems ++ [(x.asid, k, i)] }
      match i with
      | .group grp => s.modGroup grp (fun g => { g with escal := g.escal.map (fun e => (k, e.2)) })
      | _ => s
  if c.notify = 0 then s
  else match devAdd s 0 x.asid c.notify.toNat 1 false with | (s, .ok _) => s.msix 1 | (s, .error _) => s

/-- A fault of the claim or of the write: the context is halted and the item stays held. -/
def ringFault (s : State) (x : RingWait) : State := haltContext s x.asid 2

/-- Writes the claimed record if the ring has room. The slot's page must be present and hold R, W and A. -/
def ringWrite (s : State) (c : Context) (x : RingWait) (k : Nat) : State :=
  let slot := ringBase c + 64 + 64 * (k % ringSize c)
  match devRead s x.die x.asid (ringBase c + 8) 8 0 with
  | (s, .error _) => ringFault s x
  | (s, .ok (b, _)) =>
    if (k + 2 ^ 64 - bytesVal b) % 2 ^ 64 ≥ ringSize c then s
    else
      match mtuWalk s x.die x.asid slot with
      | (s, .leaf e _ _) =>
        if !pteP e then ringFault s x
        else
          match devWrite s x.die x.asid slot (valBytes 8 k ++ x.bytes) 0 (devProv x.asid 0xFFFFFD) 27 with
          | (s, .ok _) => recordWritten s c x k
          | (s, .error _) => ringFault s x
      | (s, _) => ringFault s x

/-- A record of a held item waits while its context does not run; another is written unless the ring has faulted. -/
def ringOpen (c : Context) (x : RingWait) : Bool :=
  c.st == .running || (x.item.isNone && c.st != .torn && !(c.st == .halted && c.haltReason == 2))

def ringTry (id : Nat) (s : State) : Option State :=
  match s.ringWaits.find? (fun x => x.id == id) with
  | none => none
  | some x =>
    match s.context? x.asid with
    | none => none
    | some c =>
      if !ringOpen c x then none
      else
        match x.seq with
        | some k => some (ringWrite s c x k)
        | none =>
          match devAdd s x.die x.asid (ringBase c) 1 true with
          | (s, .error _) => some (ringFault s x)
          | (s, .ok k) =>
            let s := { s with ringWaits := s.ringWaits.map (fun y => if y.id = id then { y with seq := some k } else y) }
            some (ringWrite s c { x with seq := some k } k)

def execFaultRingPoll (id : Nat) (s : State) : Out := orSame s (ringTry id s)

/-! ### The patrol (R377) -/

/-- The virtual address of a sector of a mapped frame. -/
def sectorVa (s : State) (f : Frame) (pa : Nat) : Nat :=
  match walk s f.asid f.va with
  | .leaf _ level _ => f.va / 2 ^ levelBits level * 2 ^ levelBits level + pa % 2 ^ levelBits level
  | _ => f.va + pa % 2 ^ 14

/-- The patrol reads a line of HBM: it marks the sectors that it finds uncorrectable, those of `bad` and those that an error has
struck, unless they are marked already. -/
def patrolTry (pa : Nat) (bad : BitVec 4) (s : State) : Option State :=
  let pa := pa / 128 * 128
  if !inMemory pa || !memUp s (paDie pa) then none
  else
    let new := (List.range 4).filter (fun k => (bad.getLsbD k || s.hbmPoison.contains (pa / 32 + k)) && !s.hbmMarked.contains (pa / 32 + k))
    let f := s.frame (pa / 2 ^ 14)
    some (new.foldl (fun s k =>
      let s := { s with
        hbmPoison := if s.hbmPoison.contains (pa / 32 + k) then s.hbmPoison else (pa / 32 + k) :: s.hbmPoison
        hbmMarked := (pa / 32 + k) :: s.hbmMarked }
      if f.st = 1 ∨ f.st = 2 then
        queueRec s f.asid (recBody 8 f.asid 0 7 0xFFFFFFFF (sectorVa s f (pa + 32 * k)) (pa + 32 * k) []) none (paDie pa)
      else s) s)

def execPatrolRead (pa : Nat) (bad : BitVec 4) (s : State) : Out := orSame s (patrolTry pa bad s)

/-! ### The frame sweeper (R376) -/

/-- The frame under a controller's hand: controller g owns the physical addresses whose bits 38:36 are g. -/
def handFrame (g : Nat) (hand : Nat) : Nat := g * 2 ^ 22 + hand % 2 ^ 22

def sweepTry (g : Nat) (s : State) : Option State :=
  let c := s.ctl g
  let run := c.running || decide (c.cold.length < c.low)
  if g ≥ 8 ∨ run = false ∨ c.cold.length ≥ min c.high 65536 ∨ memUp s (g / 2) = false then none
  else
    let k := handFrame g c.hand
    let f := s.frame k
    let s := s.modCtl g (fun c => { c with hand := (c.hand + 1) % 2 ^ 22, running := true })
    let s :=
      if f.st = 0 ∨ f.st = 3 then s
      else if f.ac then s.modFrame k (fun f => { f with ac := false, q := false })
      else if f.q then s
      else
        (s.modFrame k (fun f => { f with q := true })).modCtl g (fun c => { c with cold := c.cold ++ [(k * 2 ^ 14, f.asid, f.va)] })
    some (s.modCtl g (fun c => { c with running := decide (c.cold.length < min c.high 65536) }))

def execFrameSweepAdvance (g : Nat) (s : State) : Out := orSame s (sweepTry g s)

end Sys2Proof.Machine
end

