-- ==== Sys2Proof/Machine/Transfer.lean ====
section
/-! DEFINITION. Steps of the cluster's engines: put, dsld, mcast and the network (11 R268 to R277, R283). -/

namespace Sys2Proof.Machine

/-- An arrival of `n` bytes at a scratch barrier word, or no barrier at all; false when the word is uncorrectable
(R317). -/
def engineArrive (s : State) (core off n : Nat) (stamp : Stamp) : State × Bool :=
  if off = noWord then (s, true)
  else if scratchBad s core off 8 then (s, false)
  else (barScratch s core off 2 n stamp, true)

/-- A failed command poisons its scratch barrier word; an uncorrectable word stays as it is. -/
def enginePoison (s : State) (core off : Nat) : State :=
  if off = noWord || scratchBad s core off 8 then s else barPoison s core off 0

/-! ### put (R269, R270) -/

/-- The cluster that holds a put, and the puts of the same list before it. -/
def findPut (s : State) (id : Nat) : Option (Nat × Put × List Put) :=
  (s.clusters.filterMap (fun c => (c.2.puts.find? (fun p => p.id == id)).map (fun p =>
    (c.1, p, c.2.puts.takeWhile (fun p => p.id != id))))).head?

def setPut (s : State) (cl : Nat) (p : Put) : State :=
  s.modCluster cl (fun c => { c with puts := c.puts.map (fun q => if q.id = p.id then p else q) })

/-- The source is read; words that are uncorrectable are left out. -/
def putRead (s : State) (cl : Nat) (p : Put) : State :=
  let n := blk p.block 3
  let off := blk p.block 2
  setPut s cl { p with
    started := true, bytes := scratchRead s p.core off n
    bad := (List.range (n / 4)).filter (fun k => scratchBad s p.core (off + 4 * k) 4) }

def putStartTry (id : Nat) (s : State) : Option State :=
  match findPut s id with
  | some (cl, p, _) =>
    if !p.started && coreGoes s p.core && allReturned s p.grp p.waits then some (putRead s cl p) else none
  | none => none

def execPutStart (id : Nat) (s : State) : Out := orSame s (putStartTry id s)

/-- The record of a failed put. -/
def putRecord (s : State) (p : Put) (addr : Nat) : State :=
  queueRec s p.asid (recBody 4 p.asid 7 5 p.gid addr 0 (valBytes 8 p.prov.toNat)) none (coreDie p.core)

/-- The bytes land, the arrival is made, and path C falls. -/
def putLand (s : State) (cl : Nat) (p : Put) : State :=
  let dst := 12 * cl + blk p.block 0
  let off := blk p.block 1
  let s := (List.range (blk p.block 3 / 4)).foldl (fun (s : State) k =>
    if p.bad.contains k then s else scratchWrite s dst (off + 4 * k) ((p.bytes.drop (4 * k)).take 4)) s
  let s :=
    match p.bad with
    | k :: _ => putRecord (enginePoison s dst (blk p.block 4)) p (blk p.block 2 + 4 * k)
    | [] =>
      match engineArrive s dst (blk p.block 4) (blk p.block 3) p.stamp with
      | (s, true) => s
      | (s, false) => putRecord s p (blk p.block 4)
  opReturn (s.modCluster cl (fun c => { c with puts := c.puts.filter (fun q => q.id != p.id) })) p.grp p.op

/-- Puts of one group to one core land in issue order. -/
def putArrivalTry (id : Nat) (s : State) : Option State :=
  match findPut s id with
  | some (cl, p, before) =>
    if p.started && coreGoes s p.core && !before.any (fun q => q.grp == p.grp && blk q.block 0 == blk p.block 0) then
      some (putLand s cl p)
    else none
  | none => none

def execPutArrival (id : Nat) (s : State) : Out := orSame s (putArrivalTry id s)

/-! ### dsld (R272) -/

/-- A request reads its target, after the earlier requests of the group to that core. -/
def dsldTry (id : Nat) (s : State) : Option State :=
  match s.req? id with
  | none => none
  | some r =>
    let before := s.requests.takeWhile (fun x => x.id != r.id)
    if r.kind == .dsld && r.phase == .queued && mayLeave s r &&
        !before.any (fun x => x.grp == r.grp && x.kind == .dsld && x.phase == .queued && dsldTarget x == dsldTarget r) then
      some (dsldRead s r)
    else none

def execDsldTargetRead (id : Nat) (s : State) : Out := orSame s (dsldTry id s)

/-! ### mcast (R274 to R276) -/

def findMcast (s : State) (id : Nat) : Option (Nat × Mcast) :=
  (s.clusters.filterMap (fun c => (c.2.mcasts.find? (fun m => m.id == id)).map (fun m => (c.1, m)))).head?

def setMcast (s : State) (cl : Nat) (m : Mcast) : State :=
  s.modCluster cl (fun c => { c with mcasts := c.mcasts.map (fun q => if q.id = m.id then m else q) })

def dropMcast (s : State) (cl : Nat) (m : Mcast) : State :=
  opReturn (s.modCluster cl (fun c => { c with mcasts := c.mcasts.filter (fun q => q.id != m.id) })) m.grp m.op

def Mcast.word (m : Mcast) : W := (m.instr.word).getD ⟨false, 0, false, 0, .i8, .v 0, .v 0, .v 0, .v 0, 0, 0⟩
/-- SRC and DST of IMM: a handle. -/
def Mcast.fromHandle (m : Mcast) : Bool := m.word.imm.getLsbD 0
def Mcast.toHandle (m : Mcast) : Bool := m.word.imm.getLsbD 1

/-- A record of an mcast: HOLD (3) or FAIL (4). -/
def mcastRecord (s : State) (cl : Nat) (m : Mcast) (type reason addr : Nat) : State :=
  queueRec s m.asid (recBody type m.asid reason 4 m.gid addr 0 (valBytes 8 m.prov.toNat))
    (if type = 3 then some (.mcast cl m.id) else none) (coreDie m.core)

/-- A failed mcast delivers nothing: its barrier words are poisoned and its source handle released. -/
def failMcast (s : State) (cl : Nat) (m : Mcast) (reason addr : Nat) : State :=
  let s := if m.toHandle then s else m.left.foldl (fun s k => enginePoison s k (blk m.block 5)) s
  let s := if m.fromHandle && m.buf.isNone then endRead s m.core (blk m.block 0 % 64) else s
  mcastRecord (dropMcast s cl m) cl m 4 reason addr

/-- A fault of a read: residency holds the mcast, anything else fails it. -/
def mcastFault (s : State) (cl : Nat) (m : Mcast) (addr cause : Nat) : State :=
  if cause = 7 then mcastRecord (setMcast s cl { m with held := true, addr := addr }) cl m 3 0 addr
  else failMcast s cl m (if cause = 11 then 7 else 6) addr

/-- Bytes in the multicast buffer of a cluster. -/
def bufferUsed (s : State) (cl : Nat) : Nat :=
  ((s.cluster cl).mcasts.map (fun m => (m.buf.map List.length).getD 0)).foldl (· + ·) 0

/-- Room for a tile in the buffer of 256 KiB. -/
def bufferRoom (s : State) (cl n : Nat) : Bool := bufferUsed s cl + n ≤ 262144

/-- The tile is too large, or its destination runs past the scratchpad. -/
def mcastBad (m : Mcast) (n : Nat) : Option Nat :=
  if n > 65536 then some 3 else if !m.toHandle && blk m.block 4 + n > 0x80000 then some 4 else none

/-- Reads the tile of a handle. -/
def mcastFromHandle (s : State) (cl : Nat) (m : Mcast) : Option State :=
  let h := blk m.block 0 % 64
  match handle? s m.core h with
  | none => none
  | some x =>
    match mcastBad m x.size with
    | some r => some (failMcast s cl m r 0)
    | none =>
      if !bufferRoom s cl x.size then none
      else if scratchBad s m.core x.off x.size then some (failMcast s cl m 7 x.off)
      else some (endRead (setMcast s cl { m with buf := some (scratchRead s m.core x.off x.size) }) m.core h)

/-- Reads the tile of a tensor. -/
def mcastFromTensor (s : State) (cl : Nat) (m : Mcast) : Option State :=
  let die := coreDie m.core
  let va := blk m.block 0 + 2 ^ 32 * blk m.block 1
  let idx := blk m.block 2
  match readTensor s die m.asid va m.stamp with
  | (s, .fault a c _) => some (mcastFault s cl m a c)
  | (s, .malformed) => some (failMcast s cl m 1 va)
  | (s, .ok t) =>
    if !t.inRange idx then some (failMcast s cl m 3 va)
    else
      match mcastBad m t.tileBytes with
      | some r => some (failMcast s cl m r va)
      | none =>
        if !bufferRoom s cl t.tileBytes then none
        else
          match readTile s die m.asid t idx m.stamp with
          | (s, .error (a, c, _)) => some (mcastFault s cl m a c)
          | (s, .ok bs) => some (setMcast s cl { m with buf := some bs })

/-- The read of an mcast whose waits are over. -/
def mcastReadGo (s : State) (cl : Nat) (m : Mcast) : Option State :=
  let m := { m with held := false, addr := 0 }
  if m.fromHandle then mcastFromHandle s cl m else mcastFromTensor s cl m

def mcastReadTry (id : Nat) (s : State) : Option State :=
  match findMcast s id with
  | some (cl, m) =>
    if m.buf.isNone && !m.held && coreGoes s m.core && allReturned s m.grp m.waits then mcastReadGo s cl m else none
  | none => none

def execMcastRead (id : Nat) (s : State) : Out := orSame s (mcastReadTry id s)

/-- Two mcasts have a destination in common. -/
def shareCore (a b : Mcast) : Bool := a.left.any (fun k => b.left.contains k)

/-- An mcast waits for its grant. -/
def Mcast.waits' (m : Mcast) : Bool := m.buf.isSome && !m.granted

/-- It needs a branch that a granted mcast holds. -/
def needsHeld (s : State) (cl : Nat) (m : Mcast) : Bool := (s.cluster cl).mcasts.any (fun q => q.granted && shareCore q m)

/-- The arbiter may grant an mcast (R275): `before` were accepted earlier. -/
def grantable (s : State) (cl : Nat) (m : Mcast) : Bool :=
  let before := (s.cluster cl).mcasts.takeWhile (fun q => q.id != m.id)
  m.waits' && !needsHeld s cl m &&
  !before.any (fun q => !q.granted && shareCore q m && (q.grp == m.grp || decide (q.passed ≥ 16)))

/-- A destination handle takes the tile. -/
def handleTakes (s : State) (core h n : Nat) : Bool :=
  match handle? s core h with | some x => x.st == .free && decide (n ≤ x.size) | none => false

/-- Every branch in one step; earlier mcasts that need a held branch have been passed over. -/
def mcastGrantGo (s : State) (cl : Nat) (m : Mcast) : State :=
  let h := blk m.block 4 % 64
  let n := (m.buf.map List.length).getD 0
  let before := ((s.cluster cl).mcasts.takeWhile (fun q => q.id != m.id)).map (fun q => q.id)
  let s := s.modCluster cl (fun c => { c with mcasts := c.mcasts.map (fun q =>
    if before.contains q.id && q.waits' && needsHeld s cl q then { q with passed := q.passed + 1 } else q) })
  if m.toHandle && !m.left.all (fun k => handleTakes s k h n) then failMcast s cl m 4 0
  else
    let s := if m.toHandle then m.left.foldl (fun s k => handleTo s k h .filling) s else s
    setMcast s cl { m with granted := true }

/-- Waiting mcasts are considered in acceptance order. -/
def mcastGrantTry (id : Nat) (s : State) : Option State :=
  match findMcast s id with
  | some (cl, m) =>
    let before := (s.cluster cl).mcasts.takeWhile (fun q => q.id != id)
    if coreGoes s m.core && grantable s cl m && !before.any (fun q => grantable s cl q) then some (mcastGrantGo s cl m) else none
  | none => none

def execMcastGrant (id : Nat) (s : State) : Out := orSame s (mcastGrantTry id s)

/-- The delivery at one core; the last branch ends the command. -/
def mcastDeliver (s : State) (cl : Nat) (m : Mcast) (core : Nat) : State :=
  let bs := m.buf.getD []
  let (s, ok) :=
    if m.toHandle then
      let h := blk m.block 4 % 64
      match handle? s core h with
      | some x => (handleFull (scratchWrite s core x.off bs) core h m.stamp, true)
      | none => (s, true)
    else engineArrive (scratchWrite s core (blk m.block 4) bs) core (blk m.block 5) bs.length m.stamp
  let s := if ok || m.failed then s else mcastRecord s cl m 4 7 (blk m.block 5)
  let m := { m with left := m.left.filter (· != core), failed := m.failed || !ok }
  if m.left.isEmpty then dropMcast s cl m else setMcast s cl m

def mcastDeliveryTry (id core : Nat) (s : State) : Option State :=
  match findMcast s id with
  | some (cl, m) =>
    if m.granted && m.left.contains core && coreGoes s m.core then some (mcastDeliver s cl m core) else none
  | none => none

def execMcastDelivery (id core : Nat) (s : State) : Out := orSame s (mcastDeliveryTry id core s)

/-! ### The network (R283) -/

/-- A message of a die's network is under way. -/
def networkBusy (s : State) (die : Nat) : Bool :=
  s.clusters.any (fun c => clusterDie c.1 == die && (!c.2.puts.isEmpty || !c.2.mcasts.isEmpty)) ||
  s.requests.any (fun r => coreDie r.core == die) ||
  s.cores.any (fun c => coreDie c.1 == die && c.2.steal.flight.isSome) ||
  s.groups.any (fun g => coreDie g.2.core == die && g.2.park == some .phaser)

/-- A message has waited 2^20 cycles at one hop: it is counted, and nothing else changes. -/
def execNetworkWatchdog (die : Nat) (s : State) : Out :=
  orSame s (if networkBusy s die then some (s.modDie die (fun d => { d with errors := d.errors + 1 })) else none)

end Sys2Proof.Machine
end

