-- ==== Sys2Proof/Machine/Packets.lean ====
section
/-! DEFINITION. Packets: their fields, their form and their completion (19 R404 to R409). -/

namespace Sys2Proof.Machine

def Packet.at' (p : Packet) (off n : Nat) : Nat := bytesAt p.bytes off n
def Packet.ctl (p : Packet) : Nat := p.at' 0 4
def Packet.type (p : Packet) : Nat := p.at' 0 1
def Packet.bf (p : Packet) : Bool := p.ctl.testBit 8
def Packet.ia (p : Packet) : Bool := p.ctl.testBit 9
def Packet.sig (p : Packet) : Nat := p.at' 8 8
/-- The ASID that CTXOP, RESUME and MAPOP name, and the one that LAUNCH and PIPELINE name. -/
def Packet.asid17 (p : Packet) : Nat := p.at' 17 1
def Packet.asid33 (p : Packet) : Nat := p.at' 33 1
def Packet.firmware (p : Packet) : Bool := p.type ≥ 0x80

/-! ### Form (R404, R406, R407, R411, R415) -/

/-- Bytes that must be zero. -/
def Packet.zeros (p : Packet) (off n : Nat) : Bool := p.at' off n == 0

/-- IMM of a COPY packet is one that copy may have. -/
def copyImmOk (imm : Nat) : Bool := imm < 256 && imm % 4 != 3 && imm / 4 % 4 != 3 && imm / 16 % 4 != 3

def mapopOk (p : Packet) : Bool :=
  let op := p.at' 16 1
  decide (1 ≤ op ∧ op ≤ 9) && p.at' 18 1 < 2 && p.zeros 19 5 && p.zeros 56 8 &&
  (op > 4 || decide (p.at' 24 8 < 2 ^ 58)) && (op != 8 || (p.at' 40 8 % 2 ^ 14 == 0 && decide (p.at' 32 8 ≤ 2 ^ 30)))

def launchOk (p : Packet) : Bool :=
  p.at' 24 8 % 128 == 0 && decide (1 ≤ p.at' 32 1 ∧ p.at' 32 1 ≤ 36) && p.zeros 34 30

/-- The form of the bytes of each type. -/
def bodyOk (p : Packet) : Bool :=
  match p.type with
  | 1 => (List.range 6).all (fun k => p.at' (16 + 8 * k) 8 % 8 == 0)
  | 2 => p.at' 16 8 % 8 == 0 && p.zeros 32 32
  | 3 => mapopOk p
  | 4 => decide (1 ≤ p.at' 16 1 ∧ p.at' 16 1 ≤ 3) && p.zeros 18 6 && p.zeros 32 32 && (p.at' 16 1 != 2 || p.at' 24 8 % 128 == 0)
  | 5 => decide (1 ≤ p.at' 16 1 ∧ p.at' 16 1 ≤ 4) && p.zeros 18 6 && p.zeros 32 32
  | 6 => copyImmOk (p.at' 52 4) && p.at' 56 1 < 4 && p.zeros 57 7
  | 7 => launchOk p
  | 8 => launchOk p
  | _ => false

/-- The form of a packet. A reserved bit that is set makes it MALFORMED, as R404 says of packets, though R9 has reserved fields
ignored (DESIGN CHOICE, assumption 40). -/
def packetOk (p : Packet) : Bool := p.firmware || (p.ctl < 1024 && p.sig % 8 == 0 && bodyOk p)

/-- Types that only a queue with PRIV may carry. -/
def Packet.privileged (p : Packet) : Bool := p.type == 3 || p.type == 4 || p.type == 5

/-! ### Completion (R401, R405, R407, R409) -/

def statusWord (code detail : Nat) : Nat := 2 ^ 31 + 256 * (detail % 256) + code % 256

/-- What a completion adds to the signal. -/
def signalAdd (code : Nat) : Nat := if code = 0 then 2 ^ 64 - 1 else 2 ^ 64 - 2 ^ 62

def setLatch (s : State) (q : Nat) : State := s.modQueue q (fun x => { x with latch := true })

/-- The largest stamp of a write in the spaces that a packet may have acted on: the add of R407 follows every effect of the
packet (DEDUCED, assumption 63). -/
def packetStamp (s : State) (p : Packet) : Stamp :=
  let mine (a : Nat) : Bool := [0, p.asid, p.asid17, p.asid33].contains a
  let m := s.slices.foldl (fun m k => k.2.foldl (fun m x => if x.home && mine x.asid then max m x.ws else m) m) 0
  s.floors.foldl (fun m f => if mine (f.1 % 256) then max m f.2 else m) m

/-- STATUS is written, and the signal is told. A fault on STATUS makes the code FAULT for the signal; a fault on the signal
makes the packet complete with FAULT. Either clears EN. A SIGNAL that is not aligned names no signal (R404, R407). -/
def finishPacket (s : State) (p : Packet) (code detail : Nat) : State :=
  let (s, code) :=
    match forumWrite s p.asid (p.slot.toNat + 4) (valBytes 4 (statusWord code detail)) with
    | (s, .ok _) => (s, code)
    | (s, .error _) => (clearEn s p.queue, 5)
  let s := if code = 0 then s else setLatch s p.queue
  if p.sig = 0 ∨ p.sig % 8 ≠ 0 then s
  else
    match devAdd s 0 p.asid p.sig (signalAdd code) false (packetStamp s p) with
    | (s, .ok _) => s
    | (s, .error _) =>
      setLatch (clearEn (forumWrite s p.asid (p.slot.toNat + 4) (valBytes 4 (statusWord 5 0))).1 p.queue) p.queue

/-- Completes a packet that has been taken. -/
def completePacket (s : State) (id code detail : Nat) : State :=
  match tabGet? s.packets id with
  | none => s
  | some p => finishPacket { s with packets := tabDel s.packets id } p code detail

/-- A packet of a type that an event may act on now. -/
def packetOf (s : State) (id type : Nat) : Option Packet :=
  match tabGet? s.packets id with
  | some p => if p.type = type ∧ p.started = false then some p else none
  | none => none

def startPacket (s : State) (id : Nat) : State := s.modPacket id (fun p => { p with started := true })

end Sys2Proof.Machine
end

