-- ==== Sys2Proof/Machine/System.lean ====
section
/-! DEFINITION. System instructions (09 R233 to R239): control registers, supervisor entry and return,
residency repair. -/

namespace Sys2Proof.Machine

/-! ### Control registers -/

/-- Four path counters as bytes of a word, the first path in bits 7:0 (R26; DESIGN CHOICE, assumption 26: R26 lists them alone). -/
def pathWord (g : Group) (p : Nat) : Nat :=
  g.count p + 256 * g.count (p + 1) + 65536 * g.count (p + 2) + 16777216 * g.count (p + 3)

/-- K_DIESTAT (R332). -/
def dieStat (s : State) : Nat :=
  (List.range 4).foldl (fun n d => n + (if (s.die d).coreUp then 2 ^ d else 0) + (if (s.die d).memUp then 2 ^ (4 + d) else 0)) 0

/-- K_DEFER (R370). -/
def deferCount (s : State) (asid : Nat) : Nat := min (s.held.filter (fun h => h.asid == asid)).length 0xFFFFFFFF

/-- The value of a control register. -/
def kValue (s : State) (g : Group) (c : CtxRegs) (k : KReg) : DWord :=
  let w (x : Word) : DWord := x.zeroExtend 64
  let n (x : Nat) : DWord := BitVec.ofNat 64 x
  match k with
  | .gid => w g.gid | .gmode => w g.gmode | .demand => n g.demand
  | .pathlo => n (pathWord g 0) | .pathhi => n (pathWord g 4)
  | .srseed => g.srseed | .view => n g.view | .ifp => g.ifp
  | .trapvec => g.trap.vec | .trapbudget => w g.trap.budget | .trapcause => w g.trap.cause | .trappc => g.trap.pc
  | .trapaddr => g.trap.addr
  | .trapam b => n (g.trap.am.extractLsb' (32 * b.val) 32).toNat
  | .trappend b => n (g.trap.pend.extractLsb' (32 * b.val) 32).toNat
  | .trapleft => w g.trap.left | .state => if g.sup then 1 else 0
  | .trapscr b => w (g.trap.scr.get ⟨b.val, by omega⟩)
  | .elbase => c.elbase | .elctl => w c.elctl | .elseq => w c.elseq
  | .spwin => let t := teamOf s g.core g.team; n (t.size * 65536 + t.base)
  | .farena => c.farena | .falen => w c.falen | .ifsize => w c.ifsize | .stageahead => w c.stageahead
  | .watchpoll => w c.watchpoll | .stealxd => w c.stealxd | .tbucket => w c.tbucket | .diestat => n (dieStat s)
  | .lease => w c.lease | .frbase => c.frbase | .frctl => w c.frctl | .asid => n g.asid
  | .ftcnt01 => n ((poolOf s g.asid 0).length + 65536 * (poolOf s g.asid 1).length)
  | .ftcnt23 => n ((poolOf s g.asid 2).length + 65536 * (poolOf s g.asid 3).length)
  | .defer => n (deferCount s g.asid)
  | .rbinterval => w c.rbinterval | .peertab => c.peertab

/-- A field clamped into a range, 0 or a small value taking the lower bound. -/
def clampField (v lo hi : Nat) : Nat := if v < lo then lo else if v > hi then hi else v

def bits (v : DWord) (lo len : Nat) : Nat := (v.extractLsb' lo len).toNat

/-- A 96-bit mask with one of its words replaced. -/
def maskWord (m : LaneMask) (b : Fin 3) (v : Word) : LaneMask :=
  let old : LaneMask := (m.extractLsb' (32 * b.val) 32).zeroExtend 96 <<< (32 * b.val)
  (m ^^^ old) ||| (v.zeroExtend 96 <<< (32 * b.val))

/-- A write to a register of group scope. -/
def kWriteGroup (g : Group) (k : KReg) (v : DWord) : Group :=
  match k with
  | .gmode => { g with gmode := BitVec.ofNat 32 (bits v 0 3) }
  | .srseed => { g with srseed := v }
  | .ifp => { g with ifp := v &&& ~~~ 15 }
  | .trapvec => { g with trap := { g.trap with vec := v } }
  | .trapbudget => { g with trap := { g.trap with budget := low32 v } }
  | .trappc => { g with trap := { g.trap with pc := v }, replay := none }
  | .trapam b => { g with trap := { g.trap with am := maskWord g.trap.am b (low32 v) } }
  | .trappend b => { g with trap := { g.trap with pend := maskWord g.trap.pend b (low32 v) } }
  | .trapscr b => { g with trap := { g.trap with scr := g.trap.scr.set b.val (low32 v) (by omega) } }
  | _ => g

/-- A write to a register of context scope, with the field maps of R140, R177, R232, R264, R331, R334, R372,
R398 and R440. The low bits that K_ELBASE, K_FARENA, K_FRBASE and K_PEERTAB ignore are kept and read back as written
(DESIGN CHOICE, assumption 26: R9 speaks of reserved fields alone). -/
def kWriteCtx (c : CtxRegs) (k : KReg) (v : DWord) : CtxRegs :=
  let n (x : Nat) : Word := BitVec.ofNat 32 x
  match k with
  | .elbase => { c with elbase := v }
  | .elctl => { c with elctl := n (2 ^ 31 * bits v 31 1 + clampField (bits v 0 5) 4 20) }
  | .elseq => { c with elseq := low32 v }
  | .farena => { c with farena := v }
  | .falen => { c with falen := n (bits v 0 24) }
  | .ifsize => { c with ifsize := n (clampField (bits v 0 12) 1 4095) }
  | .stageahead => { c with stageahead := n (clampField (bits v 0 5) 0 16) }
  | .watchpoll => { c with watchpoll := n (clampField (bits v 0 20) 64 1048575) }
  | .stealxd => { c with stealxd := n (2 ^ 31 * bits v 31 1 + 256 * clampField (bits v 8 10) 1 512 + bits v 0 8) }
  | .tbucket => { c with tbucket := n (65536 * clampField (bits v 16 16) 1 65535 + bits v 0 16) }
  | .lease => { c with lease := n (clampField (bits v 0 12) 1 4095) }
  | .frbase => { c with frbase := v }
  | .frctl => { c with frctl := n (clampField (bits v 0 5) 4 16) }
  | .rbinterval => { c with rbinterval := n (clampField (bits v 0 24) 1024 16777215) }
  | .peertab => { c with peertab := v }
  | _ => c

/-- A register of context scope. -/
def kCtxScope (k : KReg) : Bool :=
  match k with
  | .elbase | .elctl | .elseq | .farena | .falen | .ifsize | .stageahead | .watchpoll | .stealxd | .tbucket | .lease
  | .frbase | .frctl | .rbinterval | .peertab => true
  | _ => false

/-- The core reads the peer table: sixteen reads of 16 bytes under the R right; an entry whose read meets a
fault is held with V = 0 (R440). -/
def loadPeers (s : State) (core asid : Nat) : State :=
  let base := match s.context? asid with | some c => c.regs.peertab.toNat / 64 * 64 | none => 0
  let (s, l) := (List.range 16).foldl (fun (acc : State × List (BitVec 128)) k =>
    match devRead acc.1 (coreDie core) asid (base + 16 * k) 16 0 1 with
    | (s, .ok (b, _)) => (s, acc.2 ++ [BitVec.ofNat 128 (bytesVal b)])
    | (s, .error _) => (s, acc.2 ++ [0])) (s, [])
  s.modContext asid (fun c => { c with regs := { c.regs with peers := l } })

def execMfk (w : W) (s : State) : Out :=
  runWord (.mfk w) w false s (fun s grp g => whenActive g w s (fun _ =>
    match kSel w, s.context? g.asid with
    | some (k, hi), some c =>
      let v := kValue s g c.regs k
      .done (s.setGroup grp (if kWide w then writePair g w.d v else writeScalar g w.d (if hi then high32 v else low32 v)))
    | _, _ => .done s))

/-- The value that mtk supplies: a register, a pair, or 0 or all ones. -/
def mtkValue (g : Group) (w : W) (old : DWord) (hi : Bool) : DWord :=
  if kWide w then pairVal g w w.a
  else
    let x := scalarVal g w w.a
    if hi then x ++ low32 old else high32 old ++ x

def execMtk (w : W) (s : State) : Out :=
  runWord (.mtk w) w false s (fun s grp g => whenActive g w s (fun _ =>
    match kSel w, s.context? g.asid with
    | some (k, hi), some c =>
      if !k.userWrite && !g.sup then privilege s g
      else
        let v := mtkValue g w (kValue s g c.regs k) hi
        if kCtxScope k then
          let s := s.modContext g.asid (fun c => { c with regs := kWriteCtx c.regs k v })
          .done (if k = KReg.peertab then loadPeers s g.core g.asid else s)
        else .done (s.setGroup grp (kWriteGroup g k v))
    | _, _ => .done s))

/-! ### sys, trap and sysret (R236, R237, R165) -/

/-- sys and trap take their trap at the word that follows; the word counts as issued. In supervisor mode
they escalate before they issue (R167). -/
def softTrap (i : Instr) (w : W) (cause : Nat) (s : State) : Out :=
  runWord i w false s (fun s _ g => whenActive g w s (fun _ =>
    let t := wordTrap g cause w.imm.toNat g.pc
    if g.sup then .trap s t else .trap s { t with resume := nextPc g.pc }))

def execSys (w : W) (s : State) : Out := softTrap (.sys w) w 12 s
def execTrap (w : W) (s : State) : Out := softTrap (.trap w) w 13 s

/-- The lanes of a held operation that its reissue performs: those of K_TRAPPEND, or all of a scalar form
(R165). -/
def replayLanes (o : Op) (pend : LaneMask) : List LaneAcc :=
  if o.scalar then o.lanes else o.lanes.filter (fun a => pend.getLsbD a.lane)

/-- The rights that an access through a peer window needs (R159, R440). -/
def peerNeed (k : ReqKind) : Nat := match k with | .store => 18 | .atomic .. => 27 | _ => 1

/-- Loads, stores and atomics alone reach a peer (R440). -/
def reachesPeer (k : ReqKind) : Bool := k matches .load | .store | .atomic ..

/-- The check of a lane that is reissued: the record that the PLB holds or the MTU finds, or the peer table as it now
is. -/
def replayCheck (s : State) (g : Group) (k : ReqKind) (a : LaneAcc) : State × Chk :=
  if highBits a.addr then (s, if reachesPeer k && peerSpace a.addr then checkPeer s g a.addr (peerNeed k) else .bad 5 0)
  else
    match plbFind s g.core g.asid a.addr.toNat with
    | some r => (s, .ok (some r) none)
    | none =>
      match mtuCheck s (coreDie g.core) g.asid a.addr.toNat 0 with
      | (s, .ok r) => (s, .ok (some r) none)
      | (s, .error (c, d)) => (s, .bad c d)

/-- The stamp that lanes of an operation carry: the largest of those that its descriptor gave them (R172). -/
def Op.laneStamp (o : Op) (l : List LaneAcc) : Stamp := l.foldl (fun m a => max m (tabGet o.stamps a.lane o.stamp)) 0

/-- The requests of a reissued operation carry the stamps of their lanes. -/
def Op.restamp (o : Op) (s : State) : State :=
  if o.stamps.isEmpty then s
  else { s with requests := s.requests.map (fun r => if r.op = o.id then { r with stamp := o.laneStamp r.lanes } else r) }

/-- Reissues a held operation (R165, R170, R219): the accesses as they were, with the stamps they carry. An acquire that
has no lane left returns as it stands, and raises the view stamp to what its served lanes read (R228). A dsld of the group's
own core takes effect there at once (R272). -/
def reissueOp (s : State) (grp : Nat) (g : Group) (o : Op) (l : List LaneAcc) : State :=
  let mtu := o.kind matches .mapft | .fltrd | .dsld
  let (s, lanesL) := l.foldl (fun (acc : State × List (LaneAcc × Chk)) a =>
    let (s, c) := if mtu then (acc.1, Chk.ok none none) else replayCheck acc.1 g o.kind a
    (s, acc.2 ++ [(a, c)])) (s, [])
  let ok := lanesL.filter (fun p => p.2.isOk)
  let bad := lanesL.filter (fun p => !p.2.isOk)
  let cause : Nat × Nat := match bad with | (_, .bad c d) :: _ => (c, d) | _ => (0, 0)
  let s := s.modGroup grp (fun g =>
    let o := { o with held := bad.map (fun p => p.1), heldCause := cause, heldTaken := false, again := false, done := ok.isEmpty }
    (g.acquired o).modOp o.id (fun _ => o))
  let s := makeReqs s
    { id := 0, grp := grp, op := o.id, core := g.core, asid := g.asid, kind := o.kind, beat := 0, line := 0, size := o.size
      lanes := [], stamp := o.stamp, phase := .queued, tokenDie := none, woken := false, slice := 0, peer := none, lease := 0, stale := false, passed := false } ok
  let s := o.restamp s
  if o.kind = .dsld then dsldLocal s grp else s

/-- What sysret does once K_TRAPPC is usable (R165). The pc is that of K_TRAPPC. -/
def sysretGo (s : State) (grp : Nat) (g : Group) : State :=
  let s := s.setGroup grp (leaveTrap g)
  if g.trap.cause.getLsbD 31 then
    match g.ops.find? (fun o => o.heldTaken && !o.held.isEmpty) with
    | some o => reissueOp s grp g o (replayLanes o g.trap.pend)
    | none => s
  else s

/-- The held operation that sysret would reissue does not fit in the request slots (R148). -/
def heldLack (s : State) (g : Group) : Bool :=
  g.trap.cause.getLsbD 31 &&
  match g.ops.find? (fun o => o.heldTaken && !o.held.isEmpty) with
  | some o => slotsLack s g.core o.kind (replayLanes o g.trap.pend)
  | none => false

def execSysret (w : W) (s : State) : Out :=
  runWord (.sysret w) w false s (fun s grp g =>
    if !g.sup then privilege s g
    else if !trapPcUsable g then .escal s 5
    else if heldLack s g then .hold s .room
    else .over (sysretGo s grp g))

/-! ### mapft and fltrd (R238, R239) -/

/-- A request to the MTU of the core's die, on path A. -/
def mtuOp (i : Instr) (w : W) (kind : ReqKind) (addr : Group → Nat → DWord) (s : State) : Out :=
  runWord i w true s (fun s grp g => whenActive g w s (fun _ =>
    if !g.sup then privilege s g
    else
      let vec := isVector i w
      issueGlobal s grp g
        { instr := i, kind := kind, path := some 4, size := 4, vec := vec, scope := 0, rel := false, acq := false
          drifts := false
          lanesL := (memLanes g w vec).map (fun l => (⟨l, addr g l, 0, 0⟩, Chk.ok none none)) }))

def execMapft (w : W) (s : State) : Out := mtuOp (.mapft w) w .mapft (fun g l => opd64 g w.imm w.a l) s
def execFltrd (w : W) (s : State) : Out := mtuOp (.fltrd w) w .fltrd (fun g l => memAddr g w l) s

end Sys2Proof.Machine
end

