-- ==== Sys2Proof/Machine/Copies.lean ====
section
/-! DEFINITION. Steps of the copy engines, arrivals at barriers, and the landing of a migrated group (15 R317, R320,
R323 to R330). -/

namespace Sys2Proof.Machine

/-! ### Endpoints -/

def Copy.sk (c : Copy) : Nat := c.imm.toNat % 4
def Copy.dk (c : Copy) : Nat := c.imm.toNat / 4 % 4
def Copy.bk (c : Copy) : Nat := c.imm.toNat / 16 % 4
def Copy.start (c : Copy) : Nat := blk c.block 8
/-- A pair of block registers. -/
def Copy.pair (c : Copy) (k : Nat) : Nat := blk c.block k + 2 ^ 32 * blk c.block (k + 1)

/-- The core that an S endpoint or a barrier names: within the cluster, or by global number for a COPY packet. -/
def Copy.coreOf (c : Copy) (n : Nat) : Nat :=
  if c.grp.isSome then (clusterCore c.core n).getD c.core else n

/-- A die's copies, and the copy with a number. -/
def findCopy (s : State) (id : Nat) : Option (Nat × Copy) :=
  ((List.range 4).filterMap (fun d => ((s.die d).copies.find? (fun c => c.id == id)).map (fun c => (d, c)))).head?

def setCopy (s : State) (die : Nat) (c : Copy) : State :=
  s.modDie die (fun d => { d with copies := d.copies.map (fun x => if x.id = c.id then c else x) })

/-- The copy's context has not stopped and its die's core domain is up; a COPY packet's copy needs no context. -/
def copyRuns (s : State) (die : Nat) (c : Copy) : Bool :=
  (match s.context? c.asid with
    | some x => ctxGoes s c.asid || (c.grp.isNone && (x.st == .ended || x.st == .torn))
    | none => c.grp.isNone) && (s.die die).coreUp

/-- A linear endpoint: core, offset and length of its room. -/
def Copy.room (s : State) (c : Copy) (kind w : Nat) : Nat × Nat × Nat :=
  if kind = 1 then
    match handle? s c.core (blk c.block w % 64) with | some h => (c.core, h.off, h.size) | none => (c.core, 0, 0)
  else (c.coreOf (blk c.block (w + 1)), blk c.block w, 0x80000 - blk c.block w)

/-! ### Descriptors -/

/-- The lines of a descriptor as read. -/
def readDesc (s : State) (die asid va : Nat) (c : Stamp) : State × Except (Nat × Nat) (List Byte) :=
  if va % 128 ≠ 0 then (s, .ok (List.replicate 256 0))
  else
    match devRead s die asid va 128 c 1 with
    | (s, .error (a, _)) => (s, .error (va, a))
    | (s, .ok (x, _)) =>
      if !twoLines x then (s, .ok (x ++ List.replicate 128 0))
      else
        match devRead s die asid (va + 128) 128 c 1 with
        | (s, .error (a, _)) => (s, .error (va + 128, a))
        | (s, .ok (y, _)) => (s, .ok (x ++ y))

/-- Both descriptors of a copy, 256 bytes each; zeros for an endpoint that has none. -/
def readDescs (s : State) (die : Nat) (c : Copy) : State × Except (Nat × Nat) (List Byte) :=
  match (if c.sk = 0 then readDesc s die c.asid (c.pair 0) c.stamp else (s, .ok (List.replicate 256 0))) with
  | (s, .error e) => (s, .error e)
  | (s, .ok a) =>
    match (if c.dk = 0 then readDesc s die c.asid (c.pair 2) c.stamp else (s, .ok (List.replicate 256 0))) with
    | (s, .error e) => (s, .error e)
    | (s, .ok b) => (s, .ok (a ++ b))

def srcTensor' (c : Copy) (descs : List Byte) : Option Tensor := if c.sk = 0 then tensorOf (descs.take 256) else none
def dstTensor' (c : Copy) (descs : List Byte) : Option Tensor := if c.dk = 0 then tensorOf (descs.drop 256) else none

/-- Size of the tile that a copy moves. -/
def tileSize (c : Copy) (descs : List Byte) : Nat :=
  match srcTensor' c descs, dstTensor' c descs with
  | some t, _ => t.tileBytes
  | none, some t => t.tileBytes
  | none, none => 0

/-! ### Footprints (R325) -/

/-- A range of an address space: 0 is global, 1 + core a scratchpad. -/
structure Foot where
  space : Nat
  lo : Nat
  hi : Nat

def Foot.meets (a b : Foot) : Bool := a.space == b.space && decide (a.lo < b.hi ∧ b.lo < a.hi)

/-- From the lowest to the highest byte of the in-range elements and scales of a tile. -/
def tensorFoot (t : Tensor) (idx : Nat) : List Foot :=
  match t.pieces idx with
  | [] => []
  | p :: r => [⟨0, (r.foldl (fun m q => min m q.2.1) p.2.1), (r.foldl (fun m q => max m (q.2.1 + q.2.2)) (p.2.1 + p.2.2))⟩]

/-- The footprint of an endpoint. -/
def endFoot (s : State) (c : Copy) (descs : List Byte) (dst : Bool) : List Foot :=
  let kind := if dst then c.dk else c.sk
  if kind = 0 then
    match (if dst then dstTensor' c descs else srcTensor' c descs) with
    | some t => tensorFoot t (blk c.block (if dst then 5 else 4))
    | none => []
  else
    let (core, off, n) := c.room s kind (if dst then 2 else 0)
    [⟨1 + core, off, off + (if kind = 1 then n else tileSize c descs)⟩]

/-- The descriptors of a copy: those it was started with, or as they stand; none while they cannot be read. -/
def descsNow (s : State) (die : Nat) (c : Copy) : Option (List Byte) :=
  if c.started then some c.descs
  else match (readDescs s die c).2 with | .ok d => some d | .error _ => none

/-- Copy `b` of die `db` must wait for an earlier copy `a` of die `da`: their footprints overlap, or the footprint of `a`
is not known yet. A copy whose own descriptors cannot be read is taken, and its read faults. -/
def overlap (s : State) (da db : Nat) (a b : Copy) : Bool :=
  match descsNow s da a, descsNow s db b with
  | none, some _ => true
  | some xa, some xb =>
    let wa := endFoot s a xa true
    let wb := endFoot s b xb true
    let fa := endFoot s a xa false ++ wa
    let fb := endFoot s b xb false ++ wb
    wa.any (fun x => fb.any (fun y => x.meets y)) || wb.any (fun x => fa.any (fun y => x.meets y))
  | _, none => false

/-- An earlier-accepted unfinished copy of the same group, on any die, overlaps this one. -/
def footHeld (s : State) (die : Nat) (c : Copy) : Bool :=
  c.grp.isSome && (List.range 4).any (fun d =>
    (s.die d).copies.any (fun x => decide (x.id < c.id) && x.grp == c.grp && overlap s d die x c))

/-! ### Ends of a copy (R320, R326, R327) -/

/-- A copy leaves its engine: its source handle's read ends and its path or its packet hears of it. -/
def copyLeave (s : State) (die : Nat) (c : Copy) (code detail : Nat) : State :=
  let s := s.modDie die (fun d => { d with copies := d.copies.filter (fun x => x.id != c.id) })
  let s := if c.sk = 1 then endRead s c.core (blk c.block 0 % 64) else s
  let s := match c.grp with | some g => opReturn s g c.op | none => s
  match c.pkt with | some p => completePacket s p code detail | none => s

def copyRecord (s : State) (die : Nat) (c : Copy) (type reason addr resume : Nat) : State :=
  queueRec s c.asid (recBody type c.asid reason 3 c.gid addr resume (valBytes 8 c.prov.toNat))
    (if type = 3 then some (.copy die c.id) else none) die

/-- An operation of an engine on a global barrier word, as one event at its home. False: the word was not changed,
for poison or a domain that is down. A page that is not present takes it as an operation entry (R365). -/
def barGlobal (s : State) (die : Nat) (c : Copy) (stamp : Stamp) (op n : Nat) : State × Bool :=
  let va := c.pair 6
  match mtuCheck s die c.asid va 35 with
  | (s, .error _) => (s, false)
  | (s, .ok r) =>
    match homeAccess s r c.asid va none with
    | (s, .error _) => (s, false)
    | (s, .ok (d, m, p, _, cause, _)) =>
      let want := byteMask (va % 128) 8
      let slice := homeSlice r.place r.home va
      if want &&& ~~~ m != 0 then
        if cause = 7 then
          match deferEvent s slice c.asid (.bar op) va 8 (BitVec.ofNat 64 n) 0 stamp c.prov c.gid with
          | (s, w) => (s, w.isSome)
        else (s, false)
      else if want &&& p != 0 then (s, false)
      else
        let new := barApply op (BitVec.ofNat 64 (lineVal d (va % 128) 8)) n
        match homeWrite s slice (tagAsid c.asid va) (va / 128) stamp (lineOf (va % 128) (valBytes 8 new.toNat)) want 0 c.prov with
        | (s, w) => (s, w.isSome)

/-- A failed copy poisons its barrier with the resume offset. -/
def copyPoison (s : State) (die : Nat) (c : Copy) (resume : Nat) : State :=
  if c.bk = 1 then
    let core := c.coreOf (blk c.block 7)
    if scratchBad s core (blk c.block 6) 8 then s else barPoison s core (blk c.block 6) resume
  else if c.bk = 2 then
    (barGlobal s die c c.stamp 3 resume).1
  else s

/-- A copy fails; `poison` is false when its barrier is not to be written. -/
def failCopy (s : State) (die : Nat) (c : Copy) (reason resume addr : Nat) (poison : Bool) : State :=
  let s := if poison then copyPoison s die c resume else s
  let s := if c.dk = 1 then handleTo s c.core (blk c.block 2 % 64) .free else s
  copyLeave (copyRecord s die c 4 reason addr resume) die c 1 reason

/-- What a fault of a read means: 0 holds the copy. -/
def copyReason (cause : Nat) : Nat := if cause = 7 then 0 else if cause = 11 then 7 else 6

/-- Fails or holds a copy for a fault whose earlier pieces are all done. -/
def copyFault (s : State) (die : Nat) (c : Copy) (reason resume addr : Nat) : State :=
  if reason = 0 then
    copyRecord (setCopy s die { c with held := true, fault := some (0, resume, addr) }) die c 3 0 addr resume
  else failCopy s die c reason resume addr true

/-! ### Starting a copy (R323) -/

/-- MALFORMED and TILE. -/
def checkTile (c : Copy) (descs : List Byte) : Option Nat :=
  let bad (kind : Nat) (t : Option Tensor) : Bool := kind == 0 && t.isNone
  let out (t : Option Tensor) (w : Nat) : Bool :=
    match t with
    | some t => !t.inRange (blk c.block w) || decide (t.tileBytes > 2 ^ 32 ∨ c.start ≥ t.tileBytes)
    | none => false
  let ts := srcTensor' c descs
  let td := dstTensor' c descs
  if bad c.sk ts || bad c.dk td then some 1
  else if out ts 4 || out td 5 then some 3
  else none

/-- MISMATCH. -/
def checkMatch (c : Copy) (descs : List Byte) : Bool :=
  match srcTensor' c descs, dstTensor' c descs with
  | some a, some b => a.rank == b.rank && a.tile == b.tile && (a.ty == .e2m1) == (b.ty == .e2m1) && a.ty.bytes == b.ty.bytes
  | _, _ => true

/-- SCRATCH. -/
def checkRoom (s : State) (c : Copy) (descs : List Byte) : Bool :=
  let fits (kind w : Nat) : Bool := kind == 0 || decide (tileSize c descs ≤ (c.room s kind w).2.2)
  fits c.sk 0 && fits c.dk 2

/-- A page of a range is a B page. -/
def meetsB (s : State) (asid : Nat) (f : Foot) : Bool :=
  (List.range (f.hi / 2 ^ 14 + 1 - f.lo / 2 ^ 14)).any (fun k =>
    let va := (f.lo / 2 ^ 14 + k) * 2 ^ 14
    decide (va < f.hi) && (match walk s asid va with | .leaf e _ _ => pteB e | _ => false))

/-- BARRIER: 0 passes, 1 fails, 2 fails for the barrier's own page. -/
def checkBarrier (s : State) (die : Nat) (c : Copy) (descs : List Byte) : Nat :=
  let dst := endFoot s c descs true
  if c.dk = 0 && dst.any (fun f => meetsB s c.asid f) then 1
  else if c.dk = 2 && dst.any (fun f => decide (f.lo < 0x2000)) then 1
  else if c.bk = 2 && (match (mtuCheck s die c.asid (c.pair 6) 35).2 with | .ok _ => false | .error _ => true) then 2
  else 0

/-- An engine reads the descriptors and makes the checks in order. -/
def copyBegin (s : State) (die : Nat) (c : Copy) : State :=
  let c := { c with engine := true, held := false, fault := none }
  match readDescs s die c with
  | (s, .error (addr, cause)) => copyFault s die c (copyReason cause) 0 addr
  | (s, .ok descs) =>
    match checkTile c descs with
    | some r => failCopy s die c r 0 0 true
    | none =>
      if !checkMatch c descs then failCopy s die c 2 0 0 true
      else if !checkRoom s c descs then failCopy s die c 4 0 0 true
      else
        match checkBarrier s die c descs with
        | 0 => setCopy s die { c with started := true, descs := descs, size := tileSize c descs }
        | k => failCopy s die c 5 0 0 (k == 1)

/-- Engines that a copy occupies. -/
def enginesBusy (s : State) (die : Nat) : Nat := ((s.die die).copies.filter (fun c => c.engine)).length

/-- A copy may be taken by an engine. -/
def copyReady (s : State) (die : Nat) (c : Copy) : Bool :=
  !c.started && !c.held && copyRuns s die c &&
  (match c.grp with | some g => allReturned s g c.waits | none => true) && !footHeld s die c

def copyStartTry (id : Nat) (s : State) : Option State :=
  match findCopy s id with
  | some (die, c) =>
    let before := (s.die die).copies.takeWhile (fun x => x.id != id)
    let turn := c.engine || (decide (enginesBusy s die < 64) && !before.any (fun x => !x.engine && copyReady s die x))
    if copyReady s die c && turn then some (copyBegin s die c) else none
  | none => none

def execCopyStart (id : Nat) (s : State) : Out := orSame s (copyStartTry id s)

/-! ### Pieces (R324, R326) -/

/-- Numbers of the pieces from START on. -/
def Copy.pieces (c : Copy) : List Nat := (List.range ((c.size + 127) / 128 - c.start / 128)).map (fun k => c.start / 128 + k)

/-- The part of runs that lies in a range of packed offsets: offset within the range, address and length. -/
def cutPieces (l : List (Nat × Nat × Nat)) (lo hi : Nat) : List (Nat × Nat × Nat) :=
  l.filterMap (fun p =>
    let a := max p.1 lo
    let b := min (p.1 + p.2.2) hi
    if a < b then some (a - lo, (p.2.1 + (a - p.1)) % 2 ^ 64, b - a) else none)

/-- The bytes of a piece at the source. -/
def pieceRead (s : State) (die : Nat) (c : Copy) (lo n : Nat) : State × Except (Nat × Nat) (List Byte) :=
  match srcTensor' c c.descs with
  | some t =>
    match readPieces (homeReader die c.asid c.stamp) s (cutPieces (t.pieces (blk c.block 4)) lo (lo + n)) (List.replicate n 0) with
    | (s, .ok bs) => (s, .ok bs)
    | (s, .error (a, cause, _)) => (s, .error (a, copyReason cause))
  | none =>
    let (core, off, _) := c.room s c.sk 0
    if scratchBad s core (off + lo) n then (s, .error (off + lo, 7)) else (s, .ok (scratchRead s core (off + lo) n))

/-- What a fault of a destination write means. -/
def writeReason (cause detail : Nat) : Nat := if cause = 11 then 7 else if cause = 6 ∧ detail / 16 % 2 = 1 then 5 else 6

/-- What a line takes of a piece: its lowest address written, and the bytes with their mask. -/
structure LinePart where
  va   : Nat
  data : BitVec 1024
  mask : BitVec 128
  n    : Nat

/-- The runs of a piece gathered by line: the part in one line is one event (R345). -/
def lineParts (l : List (Nat × Nat × Nat)) (bs : List Byte) : List LinePart :=
  let cut := l.flatMap (fun p => (linePieces p.2.1 p.2.2).map (fun q => (p.1 + (q.1 - p.2.1), q.1, q.2)))
  ((cut.map (fun p => p.2.1 / 128)).eraseDups).map (fun line =>
    let mine := cut.filter (fun p => p.2.1 / 128 == line)
    mine.foldl (fun (x : LinePart) p =>
      let off := p.2.1 % 128
      { va := min x.va p.2.1
        data := lineMerge x.data (lineOf off ((bs.drop p.1).take p.2.2)) (byteMask off p.2.2)
        mask := x.mask ||| byteMask off p.2.2, n := x.n + p.2.2 }) ⟨line * 128 + 127, 0, 0, 0⟩)

/-- Writes the lines of a piece at a global destination: the largest completion stamp and the bytes written. -/
def writeRuns (s : State) (die : Nat) (c : Copy) (l : List LinePart) (acc : Stamp × Nat) :
    State × Except (Nat × Nat) (Stamp × Nat) :=
  match l with
  | [] => (s, .ok acc)
  | x :: r =>
    match devWriteLine s die c.asid x.va x.data x.mask c.stamp c.prov 18 with
    | (s, .ok w) => writeRuns s die c r (max acc.1 w, acc.2 + x.n)
    | (s, .error (cause, detail)) => (s, .error (x.va, writeReason cause detail))

def pieceWrite (s : State) (die : Nat) (c : Copy) (lo : Nat) (bs : List Byte) : State × Except (Nat × Nat) (Stamp × Nat) :=
  match dstTensor' c c.descs with
  | some t => writeRuns s die c (lineParts (cutPieces (t.pieces (blk c.block 5)) lo (lo + bs.length)) bs) (0, 0)
  | none =>
    let (core, off, _) := c.room s c.dk 2
    (scratchWrite s core (off + lo) bs, .ok (0, bs.length))

/-- A fault that stands, once every piece before it is done. -/
def settleFault (s : State) (die : Nat) (c : Copy) : State :=
  match c.fault with
  | none => s
  | some (reason, resume, addr) =>
    if c.pieces.all (fun k => decide (128 * k ≥ resume) || c.done.contains k) then copyFault s die c reason resume addr else s

/-- Performs a piece. -/
def pieceGo (s : State) (die : Nat) (c : Copy) (k : Nat) : State :=
  let lo := 128 * k
  let n := min 128 (c.size - lo)
  let faulted (s : State) (addr reason : Nat) : State :=
    let c := { c with fault := some (reason, lo, addr) }
    settleFault (setCopy s die c) die c
  match pieceRead s die c lo n with
  | (s, .error (addr, reason)) => faulted s addr reason
  | (s, .ok bs) =>
    match pieceWrite s die c lo bs with
    | (s, .error (addr, reason)) => faulted s addr reason
    | (s, .ok (w, b)) =>
      let c := { c with done := k :: c.done, arrStamp := max c.arrStamp w, bytes := c.bytes + b }
      settleFault (setCopy s die c) die c

/-- A piece that is due: after a fault, only pieces before it. -/
def pieceDue (c : Copy) (k : Nat) : Bool :=
  c.started && !c.held && c.pieces.contains k && !c.done.contains k &&
  (match c.fault with | some (_, resume, _) => decide (128 * k < resume) | none => true)

def copyPieceTry (id k : Nat) (s : State) : Option State :=
  match findCopy s id with
  | some (die, c) => if pieceDue c k && copyRuns s die c then some (pieceGo s die c k) else none
  | none => none

def execCopyPieceDone (id k : Nat) (s : State) : Out := orSame s (copyPieceTry id k s)

/-- A held copy goes on: its faulting access is made again (R416 ACT 3). One that has not begun waits on its engine for
the copies it overlaps. -/
def copyReissue (s : State) (die : Nat) (c : Copy) : State := setCopy s die { c with held := false, fault := none }

/-! ### Arrivals (R317, R319, R327) -/

/-- Every piece is done: the arrival is made, or the handle turns full. The arrival of a restored copy counts the bytes that it wrote
before its save too, and a copy whose arrival fails records the resume offset 0 (DESIGN CHOICE, assumption 71). -/
def copyComplete (s : State) (die : Nat) (c : Copy) : State :=
  let stamp := max c.arrStamp c.stamp
  let fail (s : State) : State := failCopy s die c 7 0 (if c.bk = 1 then blk c.block 6 else c.pair 6) false
  let s1 := if c.dk = 1 then handleFull s c.core (blk c.block 2 % 64) stamp else s
  if c.bk = 1 then
    match engineArrive s1 (c.coreOf (blk c.block 7)) (blk c.block 6) c.bytes stamp with
    | (s2, true) => copyLeave s2 die c 0 0
    | (_, false) => fail s
  else if c.bk = 2 then
    match barGlobal s1 die c stamp 2 c.bytes with
    | (s2, true) => copyLeave s2 die c 0 0
    | (s2, false) => fail s2
  else copyLeave s1 die c 0 0

def barrierArrivalTry (id : Nat) (s : State) : Option State :=
  match findCopy s id with
  | some (die, c) =>
    if c.started && !c.held && c.fault.isNone && copyRuns s die c && c.pieces.all (fun k => c.done.contains k) then
      some (copyComplete s die c)
    else none
  | none => none

def execBarrierArrival (id : Nat) (s : State) : Out := orSame s (barrierArrivalTry id s)

/-! ### The landing of a migrated group (R169, R170, R330) -/

/-- Everything that a group has sent has returned. -/
def sentReturned (s : State) (grp : Nat) (g : Group) : Bool :=
  g.pend.isEmpty && s.requests.all (fun r => r.grp != grp || r.unsent)

/-- Takes an operation's unsent requests back: their lanes with those it holds, and the state without them. -/
def takeBack (s : State) (grp : Nat) (o : Op) : State × List LaneAcc :=
  let mine := s.requests.filter (fun r => r.grp == grp && r.op == o.id && r.unsent)
  ({ s with
      requests := s.requests.filter (fun r => !(mine.any (fun x => x.id == r.id)))
      watchers := s.watchers.filter (fun w => !(mine.any (fun x => x.id == w.req))) },
   mine.foldl (fun l r => insertLanes l r.lanes) (if o.heldTaken then [] else o.held))

/-- An operation whose lanes wait to be reissued. -/
def postpone (grp : Nat) (s : State) (o : Op) : State :=
  let (s1, lanes) := takeBack s grp o
  if lanes.isEmpty then s
  else s1.modGroup grp (fun g => { g with ops := g.ops.map (fun x =>
    if x.id = o.id then { x with held := lanes, done := true, again := true } else x) })

/-- Reissues operations in issue order while the core has request slots for them (R2, R148); from the first that has none on they
wait. -/
def reissueOps (s : State) (grp : Nat) (l : List Op) : State :=
  match l with
  | [] => s
  | o :: rest =>
    match s.group? grp, takeBack s grp o with
    | none, _ => s
    | some g, (s1, lanes) =>
      if lanes.isEmpty then reissueOps s grp rest
      else if slotsLack s1 g.core o.kind lanes then
        (o :: rest).foldl (postpone grp) s
      else reissueOps (reissueOp s1 grp g o lanes) grp rest

/-- Unsent requests and held operations of a group are made again, where it now runs, in issue order. An operation whose
handler has been entered waits for its sysret. -/
def reissueUnsent (s : State) (grp : Nat) : State :=
  match s.group? grp with
  | none => s
  | some g => reissueOps s grp g.ops

/-- The operations of a group that still wait to be reissued. -/
def reissueLater (s : State) (grp : Nat) : State :=
  match s.group? grp with
  | none => s
  | some g => reissueOps s grp (g.ops.filter (fun o => o.again))

/-- A group that is stopped: its view rises to what it has observed, and its drift count restarts (R227, R335). -/
def Group.stopped (g : Group) : Group := { g with view := max g.view g.observed, drift := 0 }

/-- The batch state of a group moves with it (R256). -/
def moveBatches (s : State) (grp old new : Nat) : State :=
  match tabGet? (s.core old).batches grp with
  | some b =>
    if old = new then s
    else setBatches (s.modCore old (fun c => { c with batches := tabDel c.batches grp })) new grp b
  | none => s

def migrateLandTry (grp : Nat) (s : State) : Option State :=
  match s.group? grp with
  | none => none
  | some g =>
    match g.migTo with
    | none => none
    | some (core, part) =>
      if !sentReturned s grp g || !coreRuns s core then none
      else
        let old := g.core
        let (s, team) := newTeam s core 32 0
        let g' := { g.stopped with core := core, part := part, slot := 17, team := team, park := none, migTo := none, active := false, since := none, seen := none, answers := [], wanted := [] }
        let s := reissueUnsent (moveBatches (s.setGroup grp g') grp old core) grp
        let s := if teamAlive s old g.team then s else s.modCore old (fun c => { c with teams := tabDel c.teams g.team })
        some (settleStages s g.asid)

def execMigrateLand (grp : Nat) (s : State) : Out := orSame s (migrateLandTry grp s)

end Sys2Proof.Machine
end

