-- ==== Sys2Proof/Machine/Steal.lean ====
section
/-! DEFINITION. Steps of the deque, the Alley and the stager (08 R182 to R189, R207, 11 R263 to R266). -/

namespace Sys2Proof.Machine

/-! ### Releases (R189): the entry's stamp has risen with each access that it waited for -/

def takeableTry (core serial : Nat) (s : State) : Option State :=
  let n := BitVec.ofNat 32 serial
  match findEntry s core n with
  | some e =>
    if !e.takeable && coreRuns s core && allReturned s e.spawnGrp e.waits then
      some (modEntry s core n (fun e => { e with takeable := true }))
    else none
  | none => none

def execEntryTakeable (core serial : Nat) (s : State) : Out := orSame s (takeableTry core serial s)

/-! ### Stealing (R263 to R265) -/

/-- Distance of two cores of a cluster on the rectangle of four columns (R5). -/
def manhattan (a b : Nat) : Nat :=
  (if a / 4 < b / 4 then b / 4 - a / 4 else a / 4 - b / 4) + (if a % 4 < b % 4 then b % 4 - a % 4 else a % 4 - b % 4)

/-- The victims of a core in order: a core of its cluster, another cluster of its die, a cluster of another die. -/
inductive Victim where
  | core (c : Nat)
  | cluster (k : Nat)
  | far (k : Nat)

def victims (core : Nat) : List Victim :=
  let own := core % 12
  let cl := coreCluster core
  let die := coreDie core
  let c := cl % 9
  let near := (List.range 6).flatMap (fun d => (List.range 12).filter (fun k => k != own && manhattan own k == d))
  let sector (s : Nat) : List Nat := (List.range 3).map (fun k => 3 * (s % 3) + k)
  let mine := (List.range 2).map (fun k => c / 3 * 3 + (c + 1 + k) % 3)
  near.map (fun k => .core (12 * cl + k)) ++
  (mine ++ sector (c / 3 + 1) ++ sector (c / 3 + 2)).map (fun k => .cluster (9 * die + k)) ++
  (List.range 3).flatMap (fun d => (List.range 9).map (fun k => .far (9 * ((die + 1 + d) % 4) + k)))

/-- Number of victims of orders 1 and 2. -/
def localVictims : Nat := 19

/-- An entry that a thief may take. -/
def stealable (e : Entry) : Bool := e.takeable && !e.clo.pin && e.fresh

/-- The coldest entry of a core that a thief of a domain may take. -/
def coldest (s : State) (dom : Option (Option (Nat × Nat))) (core : Nat) : Option Entry :=
  if (s.core core).domain == dom && (s.core core).drainTo.isNone && (s.die (coreDie core)).coreUp then (s.core core).deque.reverse.find? stealable else none

/-- Of the cores of a cluster, the one with the deepest deque that has such an entry. -/
def deepest (s : State) (dom : Option (Option (Nat × Nat))) (cl : Nat) : Option Nat :=
  ((List.range 12).map (fun k => 12 * cl + k)).foldl (fun best c =>
    if (coldest s dom c).isNone then best
    else
      match best with
      | none => some c
      | some b => if (s.core b).deque.length < (s.core c).deque.length then some c else some b) none

def stealRegs (s : State) (core : Nat) : Word :=
  match s.context? (coreAsid s core) with | some c => c.regs.stealxd | none => 0

/-- The victim core of an attempt, and what it gives. -/
def stealFrom (s : State) (core : Nat) (v : Victim) : Option (Nat × Entry) :=
  let dom := (s.core core).domain
  let give (c : Nat) : Option (Nat × Entry) :=
    if coreAsid s c = coreAsid s core then (coldest s dom c).map (fun e => (c, e)) else none
  match v with
  | .core c => give c
  | .cluster k => match deepest s dom k with | some c => give c | none => none
  | .far k =>
    match deepest s dom k with
    | some c => if (s.core c).deque.length < ((stealRegs s core).extractLsb' 8 10).toNat then none else give c
    | none => none

/-- Order 3 is open to a core (R264). -/
def farOpen (s : State) (core : Nat) : Bool :=
  (stealRegs s core).getLsbD 31 && decide ((s.core core).steal.localFails ≥ ((stealRegs s core).extractLsb' 0 8).toNat)

/-- The thief is past its last victim: it waits before it starts again. -/
def stealPause (s : State) (core : Nat) : State :=
  s.modCore core (fun c => { c with steal := { c.steal with pos := 0, backoff := true } })

/-- A failed attempt counts, if it was of order 1 or 2, and moves on. -/
def stealFailed (s : State) (core : Nat) : State :=
  let s := s.modCore core (fun c => { c with steal :=
    { c.steal with pos := c.steal.pos + 1, localFails := if c.steal.pos < localVictims then c.steal.localFails + 1 else c.steal.localFails } })
  let k := (s.core core).steal
  if k.pos ≥ (victims core).length || (decide (k.pos ≥ localVictims) && !farOpen s core) then stealPause s core else s

/-- A pipeline's context runs, and the memory domain of its home die is up (R390). -/
def pipeRuns (s : State) (pipe : Nat) : Bool :=
  match tabGet? s.pipes pipe with
  | some p => memUp s p.home && ctxRuns s p.asid
  | none => false

/-- The head record that a core may take now, with its pipeline, its stage and its place (R184 step 2, R389). -/
def headRecord (s : State) (core : Nat) : Option (Nat × Nat × Slot × Place) :=
  let k := s.core core
  match k.domain, k.drainTo with
  | some (some (pipe, stage)), none =>
    if !coreRuns s core || !pipeRuns s pipe || k.deque.any (fun e => runnable s core e) then none
    else
      match stage? s pipe stage with
      | some x =>
        match x.slots with
        | y :: _ => if y.visible then (ordinaryPlace s core y.clo.demand none y.clo.scr).map (fun p => (pipe, stage, y, p)) else none
        | [] => none
      | none => none
  | _, _ => none

/-- The condition of R184 under which a core steals: it comes after a record that the core could take. -/
def mayStealNow (s : State) (core : Nat) : Bool :=
  let k := s.core core
  coreRuns s core && k.domain.isSome && k.drainTo.isNone && !k.deque.any (fun e => runnable s core e) && !dequeFull s core &&
  (List.range 8).any (fun p => (freeSlot s core p).isSome) && (headRecord s core).isNone

def stealTry (core : Nat) (s : State) : Option State :=
  let k := (s.core core).steal
  if !mayStealNow s core || k.flight.isSome || k.backoff then none
  else
    match (if k.pos ≥ localVictims && !farOpen s core then none else (victims core)[k.pos]?) with
    | none => some (stealPause s core)
    | some v =>
      match stealFrom s core v with
      | some (victim, e) =>
        some ((dropEntry s victim e.serial).modCore core (fun c => { c with steal := { c.steal with flight := some (e, victim) } }))
      | none => some (stealFailed s core)

def execStealAttempt (core : Nat) (s : State) : Out := orSame s (stealTry core s)

/-- The closure goes back to the victim's cold end, into the slot that its copy kept. It is not pushed by a spawn nor received by a
steal, so the victim's failures and its wait go on (DESIGN CHOICE, assumption 59: R264 does not name this case). -/
def pushBack (s : State) (victim : Nat) (e : Entry) : State :=
  s.modCore victim (fun c => { c with deque := c.deque ++ [e] })

/-- A stolen closure enters the thief's deque, and its staging begins there (R207, R265). -/
def receive (s : State) (core : Nat) (e : Entry) : State :=
  pushEntry s core (if e.staging == .notBegun then { e with staging := .begun [] [] } else e)

/-- The closure arrives. -/
def transferTry (core : Nat) (intact : Bool) (s : State) : Option State :=
  match (s.core core).steal.flight with
  | none => none
  | some (e, victim) =>
    if !coreRuns s core then none
    else
      let s := s.modCore core (fun c => { c with steal := { c.steal with flight := none } })
      if intact && !dequeFull s core then
        some (receive s core e)
      else
        let s := if intact then s else s.modDie (coreDie victim) (fun d => { d with errors := d.errors + 1 })
        some (stealFailed (pushBack s victim e) core)

def execStealTransfer (core : Nat) (intact : Bool) (s : State) : Out := orSame s (transferTry core intact s)

def backoffTry (core : Nat) (s : State) : Option State :=
  if (s.core core).steal.backoff && coreRuns s core then
    some (s.modCore core (fun c => { c with steal := { c.steal with backoff := false, pos := 0 } }))
  else none

def execStealBackoffExpiry (core : Nat) (s : State) : Out := orSame s (backoffTry core s)

/-! ### The stager (R207) -/

/-- Handles whose fill has begun: filling and full. -/
def Staging.lists (x : Staging) : List Nat × List Nat :=
  match x with | .begun a b => (a, b) | .faulted a b _ => (a, b) | _ => ([], [])

/-- Number of the name that is to begin next, and its handle. -/
def Entry.nextName (e : Entry) : Option (Nat × Nat) :=
  let (a, b) := e.staging.lists
  let k := a.length + b.length
  match e.staging with
  | .notBegun | .begun .. => if k < e.clo.nstage then some (k, (e.clo.stage.getD (4 * k + 3) 0).toNat % 64) else none
  | _ => none

/-- Descriptor address and tile index of a staging name. -/
def Entry.stageName (e : Entry) (k : Nat) : Nat × Nat :=
  ((e.clo.stage.getD (4 * k) 0).toNat + 2 ^ 32 * (e.clo.stage.getD (4 * k + 1) 0).toNat, (e.clo.stage.getD (4 * k + 2) 0).toNat)

/-- The entries of a core that the stager may serve, the hotter first: those about to run inline, those it has begun, and
those among the hottest. -/
def stageOrder (s : State) (core : Nat) : List Entry :=
  let depth := match s.context? (coreAsid s core) with | some c => c.regs.stageahead.toNat | none => 0
  let d := (s.core core).deque
  (s.groups.filterMap (fun p => if p.2.core = core then p.2.running else none)) ++ d.take depth ++
    (d.drop depth).filter (fun e => !(e.staging == .notBegun))

/-- The entry is removed: from the deque, or from the inline run that was to start it. -/
def removeEntry (s : State) (core : Nat) (serial : Word) : State :=
  let s := dropEntry s core serial
  { s with groups := tabMap s.groups (fun g =>
      if g.core = core ∧ g.running.map (fun e => e.serial) = some serial then { g with running := none } else g) }

/-- Provenance of a device write for a task that has not started. -/
def entryProv (asid : Nat) (e : Entry) : DWord := provOf asid e.serial 0 0

/-- Handles that are filling for an entry turn free. -/
def freeFilling (s : State) (core : Nat) (e : Entry) : State := e.staging.lists.1.foldl (fun s h => handleTo s core h .free) s

/-- The task of an entry fails before it runs; its stage may have had no other task (R391). -/
def failEntry (s : State) (core : Nat) (e : Entry) (code : Nat) (w2 w3 : Word) : State :=
  let asid := coreAsid s core
  settleStages
    (failFuture (removeEntry (freeFilling s core e) core e.serial) core asid e.clo.future code e.serial w2 w3 e.stamp (entryProv asid e)) asid

/-- A fault of a staging read: the entry is held. -/
def stageFault (s : State) (core : Nat) (e : Entry) (addr : Nat) : State :=
  let asid := coreAsid s core
  let (a, b) := e.staging.lists
  let s := modEntry s core e.serial (fun e => { e with staging := .faulted a b addr })
  queueRec s asid (recBody 3 asid 0 6 e.spawner addr e.serial.toNat (valBytes 8 (entryProv asid e).toNat))
    (some (.staging core e.serial.toNat)) (coreDie core)

/-- The tile of a name: its descriptor, or the entry's fault. -/
def stageTensor (s : State) (core : Nat) (e : Entry) (k : Nat) : State × Except Nat Tensor :=
  let (va, idx) := e.stageName k
  match readTensor s (coreDie core) (coreAsid s core) va e.stamp with
  | (s, .fault a _ _) => (s, .error a)
  | (s, .malformed) => (s, .error va)
  | (s, .ok t) => if t.inRange idx then (s, .ok t) else (s, .error va)

/-- The next name of an entry begins: HANDLE if its handle cannot take the tile, otherwise the handle turns
filling. -/
def stageGo (s : State) (core : Nat) (e : Entry) (k h : Nat) : Option State :=
  match stageTensor s core e k with
  | (s, .error a) => some (stageFault s core e a)
  | (s, .ok t) =>
    match handle? s core h with
    | none => some (failEntry s core e 4 (BitVec.ofNat 32 h) (BitVec.ofNat 32 t.tileBytes))
    | some x =>
      if t.tileBytes > x.size then some (failEntry s core e 4 (BitVec.ofNat 32 h) (BitVec.ofNat 32 t.tileBytes))
      else if x.st ≠ .free then none
      else
        let s := handleTo s core h .filling
        some (modEntry s core e.serial (fun e => let (a, b) := e.staging.lists; { e with staging := .begun (a ++ [h]) b }))

/-- Every access of the spawner that an entry waits for is over. -/
def stageReady (s : State) (e : Entry) : Bool := e.takeable || allReturned s e.spawnGrp e.waits

def stagingStartTry (core serial : Nat) (s : State) : Option State :=
  let order := stageOrder s core
  match order.find? (fun e => e.serial.toNat == serial) with
  | none => none
  | some e =>
    match e.nextName with
    | none => none
    | some (k, h) =>
      let hotter := order.takeWhile (fun x => x.serial.toNat != serial)
      let waitsFor (x : Entry) : Bool := stageReady s x && (match x.nextName with | some (_, h') => h' == h | none => false)
      if coreGoes s core && stageReady s e && !hotter.any waitsFor then stageGo s core e k h else none

def execStagingStart (core serial : Nat) (s : State) : Out := orSame s (stagingStartTry core serial s)

/-- The first tile on its way arrives: its handle turns full, and the entry is staged when all that it names are. -/
def stageFill (s : State) (core : Nat) (e : Entry) : State :=
  let (a, b) := e.staging.lists
  let k := b.length
  match a with
  | [] => s
  | h :: rest =>
    match stageTensor s core e k with
    | (s, .error va) => stageFault s core e va
    | (s, .ok t) =>
      match readTile s (coreDie core) (coreAsid s core) t (e.stageName k).2 e.stamp, handle? s core h with
      | (s, .error (va, _, _)), _ => stageFault s core e va
      | (s, .ok bs), some x =>
        let s := modEntry (scratchWrite s core x.off bs) core e.serial (fun e => { e with staging := .begun rest (b ++ [h]) })
        handleFull s core h e.stamp
      | (s, .ok _), none => s

def stagingFillTry (core serial : Nat) (s : State) : Option State :=
  match findEntry s core (BitVec.ofNat 32 serial) with
  | some e =>
    match e.staging with
    | .begun (_ :: _) _ => if coreGoes s core then some (stageFill s core e) else none
    | _ => none
  | none => none

def execStagingFillComplete (core serial : Nat) (s : State) : Out := orSame s (stagingFillTry core serial s)

/-- A held staging read is made again (R416 ACT 3). -/
def stageReissue (s : State) (core : Nat) (e : Entry) : State :=
  let (a, b) := e.staging.lists
  let e := { e with staging := .begun a b }
  let s := modEntry s core e.serial (fun _ => e)
  match a, e.nextName with
  | _ :: _, _ => stageFill s core e
  | [], some (k, h) => (stageGo s core e k h).getD s
  | [], none => s

end Sys2Proof.Machine
end

