-- ==== Sys2Proof/Machine/Roundabout.lean ====
section
/-! DEFINITION. Steps of the pipelines: Arcade slots, waiting enqs, record tasks and the Roundabout (18 R380, R386,
R389 to R397). -/

namespace Sys2Proof.Machine

/-! ### Slots (R386) -/

def slotVisibleTry (pipe stage slot : Nat) (s : State) : Option State :=
  match stage? s pipe stage with
  | none => none
  | some x =>
    match x.slots.find? (fun y => y.num == slot) with
    | some y =>
      if !y.visible && pipeRuns s pipe && allReturned s y.grp y.waits then
        some (s.modStage pipe stage (fun x => { x with slots := x.slots.map (fun z =>
          if z.num = slot then { z with visible := true } else z) }))
      else none
    | none => none

def execArcadeSlotVisible (pipe stage slot : Nat) (s : State) : Out := orSame s (slotVisibleTry pipe stage slot s)

/-- The enq at the head of the wait list takes a free slot. -/
def enqServeTry (pipe stage : Nat) (s : State) : Option State :=
  match stage? s pipe stage with
  | none => none
  | some x =>
    match x.waits with
    | [] => none
    | (grp, y) :: rest =>
      if arcadeFull x || !pipeRuns s pipe then none
      else
        let s := s.modStage pipe stage (fun x => { x with waits := rest })
        some (answerEnq (reserveSlot s pipe stage { y with visible := y.waits.isEmpty }) grp 0)

def execEnqWaitServed (pipe stage : Nat) (s : State) : Out := orSame s (enqServeTry pipe stage s)

/-! ### Closures from outside a deque (R175) -/

/-- A CLOSURE record (R375). -/
def closureRecord (s : State) (asid reason unit addr w24 die : Nat) : State :=
  queueRec s asid (recBody 6 asid reason unit 0xFFFFFFFF addr w24 []) none die

/-- BADCLOSURE. -/
def badClosure (s : State) (core asid : Nat) (c : Closure) (stamp : Stamp) : State :=
  failFuture s core asid c.future 1 0 c.flags c.need stamp (provOf asid 0 0 0)

/-! ### Record tasks (R389) -/

/-- A core takes the head record of its stage. A task that starts ends its run of failed steals (R264). -/
def takeRecord (s : State) (core pipe stage : Nat) (y : Slot) (p : Place) : Option State :=
  let asid := coreAsid s core
  let s := s.modStage pipe stage (fun x => { x with slots := x.slots.drop 1 })
  let ok := match s.context? asid with | some c => futureOk c.regs y.clo.future | none => false
  let s? :=
    if y.poison || !ok then some (closureRecord s asid 2 0 0 y.clo.future.toNat (coreDie core))
    else if !closureOk y.clo then some (badClosure s core asid y.clo y.stamp)
    else
      let (s, serial) := takeSerial s asid core
      startTask s core y.clo serial y.stamp 0x1FF false true p
  s?.map (fun t =>
    let started := decide (s.groups.length < t.groups.length)
    settleStages (if started then t.modCore core (fun c => { c with steal := { c.steal with localFails := 0 } }) else t) asid)

def recordTakeTry (core : Nat) (s : State) : Option State :=
  match headRecord s core with
  | some (pipe, stage, y, p) => takeRecord s core pipe stage y p
  | none => none

def execRecordTake (core : Nat) (s : State) : Out := orSame s (recordTakeTry core s)

/-! ### Targets (R395) -/

/-- What a decision knows of a live stage: index, MIN, MAX, cores counted, demand and target. -/
structure Want where
  idx : Nat
  min : Nat
  max : Nat
  cores : Nat
  demand : Nat
  target : Nat
deriving DecidableEq, Repr

def sumOf (l : List Nat) : Nat := l.foldl (· + ·) 0

/-- A list in descending order of a key, the earlier first on a tie. -/
def descending (key : Want → Nat) (l : List Want) : List Want :=
  l.foldl (fun acc x => acc.takeWhile (fun y => decide (key y ≥ key x)) ++ x :: acc.dropWhile (fun y => decide (key y ≥ key x))) []

/-- One pass over stages in an order: each takes a core while some are left. -/
def passOnce (order : List Nat) (left : Nat) (l : List Want) : Nat × List Want :=
  order.foldl (fun (acc : Nat × List Want) j =>
    if acc.1 = 0 then acc
    else (acc.1 - 1, acc.2.map (fun x => if x.idx = j then { x with target := x.target + 1 } else x))) (left, l)

def passes (key : Want → Nat) (left : Nat) (l : List Want) (fuel : Nat) : List Want :=
  match fuel with
  | 0 => l
  | fuel + 1 =>
    let below := l.filter (fun x => x.target < x.max)
    if left = 0 || below.isEmpty then l
    else
      let (left, l) := passOnce ((descending key below).map (fun x => x.idx)) left l
      passes key left l fuel

/-- The targets of the live stages for `n` cores in the pool. -/
def targets (n hyst : Nat) (l : List Want) : List Want :=
  let d := sumOf (l.map (fun x => x.demand))
  let f := n - sumOf (l.map (fun x => x.min))
  let l :=
    if d = 0 then l.map (fun x => { x with target := max x.cores x.min })
    else
      let l := l.map (fun x => { x with target := min x.max (x.min + f * x.demand / d) })
      passes (fun x => f * x.demand % d) (n - sumOf (l.map (fun x => x.target))) l (n + 1)
  l.map (fun x =>
    let gap := if x.target < x.cores then x.cores - x.target else x.target - x.cores
    if x.cores ≥ x.min ∧ gap < hyst then { x with target := x.cores } else x)

/-- Stages that a stage feeds have a full Arcade. -/
def feedsFull (p : Pipe) (j : Nat) : Bool := p.stages.any (fun x => isProducer x j && arcadeFull x)

def liveStages (p : Pipe) : List (Nat × Stage) := ((List.range p.stages.length).zip p.stages).filter (fun x => !x.2.retired)

def counted (p : Pipe) (j : Nat) : Nat := (p.assigned.filter (fun c => c.2 == j)).length

/-- What the sample of an interval finds. -/
def wants (p : Pipe) : List Want :=
  (liveStages p).map (fun x =>
    ⟨x.1, x.2.min, x.2.max, counted p x.1, if feedsFull p x.1 then 0 else x.2.weight * x.2.slots.length, 0⟩)

/-- Cores in the pool. -/
def poolSize (s : State) (p : Pipe) : Nat :=
  match s.context? p.asid with
  | some c => 12 * c.clusters.length - (if p.rootDone then 0 else 1)
  | none => 0

/-! ### The initial assignment (R394) -/

/-- Each core goes to the stage of lowest index that is below its target. -/
def assignCores (l : List Want) (cores : List Nat) : Tab Nat × List Nat :=
  let r := cores.foldl (fun (acc : List Want × Tab Nat × List Nat) c =>
    match acc.1.find? (fun x => x.cores < x.target) with
    | some x => (acc.1.map (fun y => if y.idx = x.idx then { y with cores := y.cores + 1 } else y), acc.2.1 ++ [(c, x.idx)], acc.2.2)
    | none => (acc.1, acc.2.1, acc.2.2 ++ [c])) (l, [], [])
  r.2

def initialWants (stages : List Stage) (n hyst : Nat) : List Want :=
  targets n hyst (((List.range stages.length).zip stages).map (fun x => ⟨x.1, x.2.min, x.2.max, 0, x.2.weight, 0⟩))

/-! ### Moves (R396, R397) -/

/-- The stage with the largest value of a key, above zero, the lower index on a tie. -/
def largest (key : Want → Nat) (l : List Want) : Option Want :=
  ((descending key l).head?).bind (fun x => if key x = 0 then none else some x)

/-- The donor's lowest-numbered core whose deque is empty and which is not draining. -/
def donorCore (s : State) (pipe : Nat) (p : Pipe) (j : Nat) : Option Nat :=
  listMin? ((p.assigned.filter (fun c =>
    c.2 == j && (s.core c.1).deque.isEmpty && (s.core c.1).drainTo.isNone && (s.core c.1).domain == some (some (pipe, j)))).map
    (fun c => c.1))

/-- The core that a move takes, with the stage it leaves; donors without one are passed over. -/
def moveFrom (s : State) (pipe : Nat) (p : Pipe) (l : List Want) (fuel : Nat) : Option (Nat × Option Nat) :=
  match listMin? p.unassigned with
  | some c => some (c, none)
  | none =>
    match fuel with
    | 0 => none
    | fuel + 1 =>
      match largest (fun x => x.cores - x.target) l with
      | none => none
      | some x =>
        match donorCore s pipe p x.idx with
        | some c => some (c, some x.idx)
        | none => moveFrom s pipe p (l.filter (fun y => y.idx != x.idx)) fuel

/-- A core is given to a stage: at once if it is unassigned and idle, otherwise it drains first (R185, R397). -/
def moveCore (s : State) (pipe c j : Nat) (drains : Bool) : State :=
  let s := s.modPipe pipe (fun p => { p with assigned := tabPut p.assigned c j, unassigned := p.unassigned.filter (· != c) })
  s.modCore c (fun x => if drains then { x with drainTo := some (pipe, j) } else { x with domain := some (some (pipe, j)) })

def moves (s : State) (pipe : Nat) (l : List Want) (fuel : Nat) : State :=
  match fuel with
  | 0 => s
  | fuel + 1 =>
    match tabGet? s.pipes pipe with
    | none => s
    | some p =>
      match largest (fun x => x.target - x.cores) l, moveFrom s pipe p l 16 with
      | some x, some (c, donor) =>
        let l := l.map (fun y =>
          if y.idx = x.idx then { y with cores := y.cores + 1 }
          else if some y.idx = donor then { y with cores := y.cores - 1 } else y)
        moves (moveCore s pipe c x.idx (donor.isSome || !coreIdle s c)) pipe l fuel
      | _, _ => s

def intervalTry (pipe : Nat) (s : State) : Option State :=
  match tabGet? s.pipes pipe with
  | some p =>
    if pipeRuns s pipe then
      let n := poolSize s p
      some (moves s pipe (targets n p.hyst (wants p)) (max 1 (n / 8)))
    else none
  | none => none

def execRoundaboutInterval (pipe : Nat) (s : State) : Out := orSame s (intervalTry pipe s)

/-- A draining core without work of its old domain switches; a stage that has retired meanwhile leaves it unassigned. -/
def drainTry (core : Nat) (s : State) : Option State :=
  match (s.core core).drainTo with
  | some (pipe, j) =>
    if coreRuns s core && coreIdle s core then
      let gone := match stage? s pipe j with | some x => x.retired | none => true
      let s := if gone then unassign s pipe core
        else s.modCore core (fun c => { c with domain := some (some (pipe, j)), drainTo := none })
      some (settleStages s (coreAsid s core))
    else none
  | none => none

def execDrainSwitch (core : Nat) (s : State) : Out := orSame s (drainTry core s)

end Sys2Proof.Machine
end

