-- ==== Sys2Proof/Machine/Stopping.lean ====
section
/-! DEFINITION. Bringing a context to a stop: requests return, engines reach their boundaries (07 R169, 10 R262, 11 R266,
R284, 15 R328, 19 R420), and what a rebase does to stamps (16 R349). -/

namespace Sys2Proof.Machine

def ctxCores (c : Context) : List Nat := c.clusters.flatMap (fun k => (List.range 12).map (fun j => 12 * k + j))
def ctxGroups (s : State) (asid : Nat) : List (Nat × Group) := s.groups.filter (fun p => p.2.asid == asid)

/-- A group of the context runs a trap handler (R168). -/
def inHandler (s : State) (asid : Nat) : Bool :=
  (ctxGroups s asid).any (fun p => p.2.inTrap)

/-! ### Requests and results -/

/-- A step of a request that has left its core. -/
def drainStep (s : State) (r : Req) : Option State :=
  match r.phase with
  | .missing => missTry r.id s
  | .replied .. => renewalReturnTry r.id s
  | .acked .. => storeAckTry r.id s
  | .ready .. => takeReady s r allLanes
  | _ => none

/-- A request that has left returns; one that cannot has not been performed and counts as unsent. -/
def drainReq (s : State) (id fuel : Nat) : State :=
  match fuel with
  | 0 => s
  | fuel + 1 =>
    match s.req? id with
    | none => s
    | some r =>
      if r.unsent then s
      else
        match drainStep s r with
        | some s => drainReq s id fuel
        | none => s.setPhase id .queued

/-- Inserts an outstanding result in the order of issue. -/
def insertPend (l : List Pend) (x : Pend) : List Pend := l.takeWhile (fun y => y.id < x.id) ++ x :: l.dropWhile (fun y => y.id < x.id)

/-- The outstanding results of a context's groups are delivered in the order of their issue, which is that of every unit
(R146). -/
def drainPends (s : State) (asid : Nat) : State :=
  ((ctxGroups s asid).flatMap (fun p => p.2.pend)).foldl insertPend [] |>.foldl
    (fun s x => (deliverPend s x.id x.unit allLanes).getD s) s

/-- Everything that groups of a context have sent returns. -/
def drainAccesses (s : State) (asid : Nat) : State :=
  let ids := (s.requests.filter (fun r => r.asid == asid && !r.unsent)).map (fun r => r.id)
  drainPends (ids.foldl (fun s id => drainReq s id 5) s) asid

/-! ### Engines -/

/-- A running mloop goes on until its steps are a multiple of its granule, or to its end. -/
def runToGranule (s : State) (core id fuel : Nat) : State :=
  match fuel with
  | 0 => s
  | fuel + 1 =>
    match (s.core core).queue.head? with
    | some c =>
      let m := mloopSplit c.word
      let at' := m != 3 && c.step % (if m = 0 then 1 else if m = 1 then 16 else 256) == 0
      if c.id != id || !c.isMloop || !c.started || c.held || at' then s else runToGranule (mloopGo s core c) core id fuel
    | none => s

def stopEngine (s : State) (core : Nat) : State :=
  let s := (s.core core).epis.foldl (fun s c => epiFinish s core c) s
  match (s.core core).queue.head? with
  | some c => runToGranule s core c.id 4096
  | none => s

/-- A request that a put waits for is sent and returns; what finds no room, or has come back unserved, stays (assumption 36). -/
def sendNow (s : State) (id : Nat) : State :=
  match s.req? id with
  | none => s
  | some r =>
    let d := sliceDie r.slice
    let s' := s.modCore r.core (fun c => { c with tokens := c.tokens.set d (max 1 (c.tokens.getD d 0)) })
    match (if r.isWrite then writeEventTry id s' else atomicReturnTry id allLanes s') with
    | some t => if t.blocked then s else drainReq t id 5
    | none => s

/-- The unsent requests that the puts of a cluster wait for, in the order of issue. -/
def putRequests (s : State) (cl : Nat) : List Req :=
  (s.requests.filter (fun r => r.unsent && (s.cluster cl).puts.any (fun p => !p.started && p.waits.contains r.op))).foldl
    (fun l r => l.takeWhile (fun x => x.op ≤ r.op) ++ r :: l.dropWhile (fun x => x.op ≤ r.op)) []

/-- Every accepted put completes, after the accesses that it waits for (R268, R284). -/
def finishPuts (s : State) (cl : Nat) : State :=
  let s := (putRequests s cl).foldl (fun s r => sendNow s r.id) s
  (s.cluster cl).puts.foldl (fun s p =>
    let s := match findPut s p.id with | some (_, p, _) => if p.started then s else putRead s cl p | none => s
    match findPut s p.id with
    | some (_, p, _) => putLand s cl p
    | none => s) s

/-- Granted mcasts are delivered. -/
def finishMcasts (s : State) (cl : Nat) : State :=
  (s.cluster cl).mcasts.foldl (fun s m =>
    if m.granted then
      m.left.foldl (fun s core => match findMcast s m.id with | some (_, m) => mcastDeliver s cl m core | none => s) s
    else s) s

/-- Bytes of the granule of a copy; 0 is the whole copy. -/
def Copy.granule (c : Copy) : Nat :=
  let k := c.imm.toNat / 64 % 4
  if k = 0 then 2 ^ 12 else if k = 1 then 2 ^ 16 else if k = 2 then 2 ^ 20 else 0

/-- Pieces of a running copy up to the next multiple of its granule. -/
def Copy.toGranule (c : Copy) : List Nat :=
  let reach := c.done.foldl (fun m k => max m (128 * (k + 1) - c.start)) 0
  let stop := if c.granule = 0 then c.size else c.start + (reach + c.granule - 1) / c.granule * c.granule
  c.pieces.filter (fun k => decide (128 * k < stop) && !c.done.contains k)

def runPieces (s : State) (id : Nat) (l : List Nat) : State :=
  l.foldl (fun s k =>
    match findCopy s id with
    | some (die, c) => if pieceDue c k then pieceGo s die c k else s
    | none => s) s

/-- A running copy reaches its boundary, or its end. -/
def stopCopy (s : State) (c : Copy) : State :=
  if !c.started || c.held then s
  else
    let s := runPieces s c.id c.toGranule
    match findCopy s c.id with
    | some (die, c) =>
      if !c.held && c.fault.isNone && c.pieces.all (fun k => c.done.contains k) then copyComplete s die c else s
    | none => s

def ctxCopies (s : State) (asid : Nat) : List (Nat × Copy) :=
  (List.range 4).flatMap (fun d => ((s.die d).copies.filter (fun c => c.asid == asid)).map (fun c => (d, c)))

/-- A steal in flight is completed. -/
def finishSteal (s : State) (core : Nat) : State :=
  match (s.core core).steal.flight with
  | some (e, victim) =>
    let s := s.modCore core (fun c => { c with steal := ⟨0, 0, false, none⟩ })
    if dequeFull s core then pushBack s victim e else receive s core e
  | none => s.modCore core (fun c => { c with steal := ⟨0, 0, false, none⟩ })

/-- The staging of an entry that had begun starts again, and holds it on its core: its filling handles turn free (R207). -/
def restageEntry (e : Entry) : Entry :=
  let (_, b) := e.staging.lists
  match e.staging with
  | .begun .. | .faulted .. => { e with staging := .begun [] b }
  | _ => e

def restage (s : State) (core : Nat) : State :=
  let mine := (s.core core).deque ++ s.groups.filterMap (fun p => if p.2.core = core then p.2.running else none)
  let s := mine.foldl (fun s e => freeFilling s core e) s
  let s := s.modCore core (fun c => { c with deque := c.deque.map restageEntry })
  { s with
    groups := tabMap s.groups (fun g => if g.core = core then { g with running := g.running.map restageEntry } else g)
    waitItems := s.waitItems.filter (fun w => match w.2.2 with | .staging c _ => c != core | _ => true) }

/-! ### Groups -/

/-- The group is inside the watch of an operation. -/
def Group.inWatch (g : Group) (o : Op) : Bool := o.kind == .watch && g.inWord == some (.op o.id)

/-- A group stopped at a boundary: a word that waits issues again, the watch that it is inside too (R240); one that has acted goes
on waiting. A watch whose word is over is an operation like another, reissued after the resumption (R218, R231). -/
def stopGroup (g : Group) : Group :=
  { g.stopped with
    inWord := if g.inWord matches some .again | some (.parked _) | some (.op _) | some (.handle _) then none else g.inWord
    ops := g.ops.filter (fun o => !g.inWatch o)
    park := if g.park = some .escalated || g.park = some .sleep then g.park else none
    answers := [], wanted := [] }

/-- Watches of a context give up their slots; the request of a word that will issue again goes (R231, R240). -/
def dropWatches (s : State) (asid : Nat) : State :=
  let mine := s.requests.filter (fun r => r.asid == asid && r.kind == .watch)
  let live (r : Req) : Bool := match s.group? r.grp with | some g => g.ops.any (fun o => o.id == r.op) | none => false
  let gone := (mine.filter (fun r => !live r)).map (fun r => r.id)
  { s with
    requests := (s.requests.filter (fun r => !gone.contains r.id)).map (fun r =>
      if mine.any (fun x => x.id == r.id) then { r with phase := if r.unsent then .queued else r.phase } else r)
    watchers := s.watchers.filter (fun w => !(mine.any (fun x => x.id == w.req))) }

/-- A phsw that has signalled completes before the save once its phase has ended (R282). -/
def finishSignal (s : State) (grp : Nat) : State :=
  match s.group? grp with
  | none => s
  | some g =>
    match g.inWord, g.current with
    | some .signalled, some (.phsw w) => match execPhsw w { s with cur := grp } with | .next t => t | _ => s
    | _, _ => s

/-- A phsw of the context has signalled and its phase has not ended: a save waits for it (R282). -/
def signalPending (s : State) (asid : Nat) : Bool :=
  (ctxGroups s asid).any (fun p =>
    match (finishSignal s p.1).group? p.1 with
    | some g => g.inWord == some .signalled
    | none => false)

/-- The context can be stopped: no handler runs, and no phsw is between its signal and its end (R168, R282). -/
def canStop (s : State) (asid : Nat) : Bool := !inHandler s asid && !signalPending s asid

/-- Brings a context to its boundaries. -/
def stopContext (s : State) (asid : Nat) : State :=
  match s.context? asid with
  | none => s
  | some c =>
    let cores := ctxCores c
    let s := drainAccesses s asid
    let s := (ctxGroups s asid).foldl (fun s p => (migrateLandTry p.1 (finishSignal s p.1)).getD s) s
    let s := c.clusters.foldl (fun s k => finishMcasts (finishPuts s k) k) s
    let s := (ctxCopies s asid).foldl (fun s x => stopCopy s x.2) s
    let s := cores.foldl stopEngine s
    let s := cores.foldl (fun s k => restage (finishSteal s k) k) s
    let s := { s with
      groups := tabMap s.groups (fun g => if g.asid = asid then stopGroup g else g)
      pipes := tabMap s.pipes (fun p => if p.asid = asid then { p with stages := p.stages.map (fun x => { x with waits := [] }) } else p) }
    dropWatches (drainAccesses s asid) asid

/-- The core reads the peer table at restore (R440). -/
def rereadPeers (s : State) (asid : Nat) : State :=
  match s.context? asid with
  | some c => match c.clusters with | k :: _ => loadPeers s (12 * k) asid | [] => s
  | none => s

/-- A stopped context goes on: unsent requests are made again, and the token buckets are full (R170, R331). -/
def resumeContext (s : State) (asid : Nat) : State :=
  match s.context? asid with
  | none => s
  | some c =>
    let depth := (c.regs.tbucket.extractLsb' 16 16).toNat
    let s := (ctxCores c).foldl (fun (s : State) k => s.modCore k (fun x => { x with tokens := List.replicate 4 depth })) s
    (ctxGroups s asid).foldl (fun s p => reissueUnsent s p.1) s

/-! ### Stamps set to zero (R349) -/

def Op.unstamped (o : Op) : Op := { o with stamp := 0, stamps := [], acqStamp := 0 }
def Entry.unstamped (e : Entry) : Entry := { e with stamp := 0 }
def Group.unstamped (g : Group) : Group :=
  { g with view := 0, observed := 0, compl := 0, ops := g.ops.map Op.unstamped, running := g.running.map Entry.unstamped }
def MCmd.unstamped (c : MCmd) : MCmd := { c with stamp := 0 }
def CoreS.unstamped (c : CoreS) : CoreS :=
  { c with
    arrStamp := [], deque := c.deque.map Entry.unstamped, handles := tabMap c.handles (fun h => { h with stamp := 0 })
    waiting := c.waiting.map MCmd.unstamped, queue := c.queue.map MCmd.unstamped, epis := c.epis.map MCmd.unstamped
    steal := { c.steal with flight := c.steal.flight.map (fun f => (f.1.unstamped, f.2)) } }
def ClusterS.unstamped (c : ClusterS) : ClusterS :=
  { c with
    phasers := tabMap c.phasers (fun p => { p with stamp := 0, cstamp := 0 }), puts := c.puts.map (fun p => { p with stamp := 0 })
    mcasts := c.mcasts.map (fun m => { m with stamp := 0 }) }
def Copy.unstamped (c : Copy) : Copy := { c with stamp := 0, arrStamp := 0 }
def Stage.unstamped (x : Stage) : Stage :=
  { x with slots := x.slots.map (fun y => { y with stamp := 0 }), waits := x.waits.map (fun w => (w.1, { w.2 with stamp := 0 })) }
def SavedCtx.unstamped (c : SavedCtx) : SavedCtx :=
  { c with
    groups := c.groups.map (fun p => (p.1, p.2.unstamped)), cores := c.cores.map (fun p => (p.1, p.2.unstamped))
    clusters := c.clusters.map (fun p => (p.1, p.2.unstamped)), copies := c.copies.map (fun p => (p.1, p.2.unstamped)) }

/-- Every stamp of an ASID's lines: copies and replicas go, home lines and floors are zero. -/
def unstampLines (s : State) (asid : Nat) : State :=
  { s with
    cores := tabMap s.cores (fun c => { c with l1 := c.l1.filter (fun x => x.asid != asid) })
    slices := s.slices.map (fun p => (p.1, (p.2.filter (fun x => x.home || x.asid != asid)).map (fun x =>
      if x.asid = asid then { x with ws := 0, ls := 0 } else x)))
    floors := s.floors.filter (fun f => f.1 % 256 != asid) }

/-- Every stamp of a context's own state; those of one that is saved become zero at its restore (R349 step 3). -/
def unstampContext (s : State) (asid : Nat) : State :=
  match s.context? asid with
  | none => s
  | some c =>
    let cores := ctxCores c
    { s with
      groups := tabMap s.groups (fun g => if g.asid = asid then g.unstamped else g)
      cores := s.cores.map (fun p => if cores.contains p.1 then (p.1, p.2.unstamped) else p)
      clusters := s.clusters.map (fun p => if c.clusters.contains p.1 then (p.1, p.2.unstamped) else p)
      dies := s.dies.map (fun d => { d with copies := d.copies.map (fun x => if x.asid = asid then x.unstamped else x) })
      requests := s.requests.map (fun r => if r.asid = asid then { r with stamp := 0 } else r)
      pipes := tabMap s.pipes (fun p => if p.asid = asid then { p with stages := p.stages.map Stage.unstamped } else p)
      contexts := tabPut s.contexts asid { c with saved := c.saved.map (fun x => { x with rebased := true }) } }

end Sys2Proof.Machine
end

