-- ==== Sys2Proof/Machine/Saving.lean ====
section
/-! DEFINITION. Save records, sections of the save area, and the mapping of a saved context onto another allotment
(07 R169 to R172, 10 R262, 11 R284, 15 R328, 18 R399, 19 R418, R419). -/

namespace Sys2Proof.Machine

/-! ### Replay descriptors (R172) -/

/-- The lanes of an operation that a replay descriptor names: unsent ones and held ones. -/
def descLanes (s : State) (grp : Nat) (o : Op) : List LaneAcc :=
  (s.requests.filter (fun r => r.grp == grp && r.op == o.id && r.unsent)).foldl (fun l r => insertLanes l r.lanes) o.held

/-- Before a group is saved, its unsent lanes are kept with its operations. Commands of engines stay as they stand. -/
def gatherOps (s : State) (grp : Nat) (g : Group) : Group :=
  { g with ops := g.ops.map (fun o =>
      if o.heldTaken || o.kind == .engine then o
      else { o with held := descLanes s grp o, heldCause := if o.held.isEmpty then (0, 0) else o.heldCause, done := true }) }

/-- The address of a lane as a descriptor gives it: an offset for a scratch access of the cluster. -/
def descAddr (o : Op) (a : LaneAcc) : Nat := if o.kind = .dsld then dsldOff a.addr else a.addr.toNat

def descMask (o : Op) : LaneMask := if o.scalar then 1 else lanesMask (o.held.map (fun a => a.lane))

/-- Store data or an atomic's operand, of the width of its type; zero for a load. -/
def descData (o : Op) (a : LaneAcc) : Nat :=
  match o.kind with
  | .store | .atomic .. | .bar _ | .fres .. => a.data.toNat % 2 ^ (8 * o.size)
  | _ => 0

/-- The comparison value of a cas. -/
def descCmp (o : Op) (a : LaneAcc) : Nat :=
  match o.kind with
  | .atomic 7 false .. => a.cmp.toNat % 2 ^ (8 * o.size)
  | _ => 0

/-- Some lane of the descriptor came back for a residency miss. -/
def descHeld (o : Op) : Bool := !o.held.isEmpty && o.heldCause.1 == 7

def descBytes (o : Op) : List Byte :=
  valBytes 12 (encode o.instr).toNat ++ valBytes 4 (o.path.getD 0 + (if descHeld o then 8 else 0)) ++
    valBytes 12 (descMask o).toNat ++ valBytes 4 o.held.length ++
    o.held.flatMap (fun a =>
      valBytes 8 (descAddr o a) ++ valBytes 8 (descData o a) ++ valBytes 8 (descCmp o a) ++ valBytes 8 (tabGet o.stamps a.lane o.stamp))

/-- The operations of a saved group that have a descriptor, in issue order. -/
def Group.replays (g : Group) : List Op := g.ops.filter (fun o => !o.held.isEmpty)

/-! ### The save record of a group (R171) -/

/-- The path counters in the order G, S, D, W, A, C, M, E. -/
def Group.counts (g : Group) : List Byte := (List.range 8).flatMap (fun p => valBytes 1 (g.count p))

/-- Bytes 0 to 255. -/
def recordHead (g : Group) : List Byte :=
  valBytes 8 g.pc.toNat ++ valBytes 4 g.gid.toNat ++
    valBytes 4 (g.flags.toNat + (if g.sup then 256 else 0) + 65536 * g.demand) ++ valBytes 8 g.view ++ valBytes 8 g.ifp.toNat ++
    valBytes 8 g.srseed.toNat ++ valBytes 4 g.gmode.toNat ++ valBytes 4 (g.window.getD 0 + 65536 * g.dropped) ++ g.counts ++
    valBytes 4 g.sleepLeft ++ valBytes 4 g.replays.length ++ valBytes 8 g.trap.pc.toNat ++ valBytes 8 g.trap.addr.toNat ++
    valBytes 4 g.trap.cause.toNat ++ valBytes 12 g.trap.am.toNat ++ valBytes 12 g.trap.pend.toNat ++ valBytes 4 g.trap.left.toNat ++
    wordsBytes g.trap.scr.toList ++ valBytes 8 g.trap.vec.toNat ++ valBytes 4 g.trap.budget.toNat ++ List.replicate 116 0

def groupRecord (g : Group) : List Byte :=
  recordHead g ++ wordsBytes g.sregs.toList ++ (List.range (8 * g.demand)).flatMap (fun k => wordsBytes (g.vreg k).toList) ++
    g.replays.flatMap descBytes

/-- The demand that a record gives. -/
def recordDemand (b : List Byte) : Nat := bytesAt b 14 1 % 64

/-- Reserved bits of a record are zero, and its demand is one that a task may have. -/
def headOk (b : List Byte) : Bool :=
  let w := bytesAt b 12 4
  w / 64 % 4 == 0 && w / 512 % 128 == 0 && w / 2 ^ 22 == 0 && 1 ≤ recordDemand b && recordDemand b ≤ 32 && bytesAt b 22 2 == 0 &&
  bytesAt b 44 4 / 128 % 512 == 0 && bytesAt b 140 116 == 0

/-- The registers and trap state that a record gives; reserved bits of K_GMODE and K_TRAPCAUSE stay zero (R9). A demand beyond the
group's blocks takes more of them. -/
def readHead (g : Group) (b : List Byte) : Group :=
  let w := bytesAt b 12 4
  let win := bytesAt b 44 2 % 128
  let n := recordDemand b
  { g with
    demand := n, blocks := max g.blocks n, pc := BitVec.ofNat 64 (bytesAt b 0 8), gid := BitVec.ofNat 32 (bytesAt b 8 4), flags := BitVec.ofNat 6 w
    sup := w.testBit 8, view := bytesAt b 16 6, ifp := BitVec.ofNat 64 (bytesAt b 24 8), srseed := BitVec.ofNat 64 (bytesAt b 32 8)
    gmode := BitVec.ofNat 32 (bytesAt b 40 4 % 8), window := if win = 0 then none else some win, dropped := bytesAt b 46 2
    sleepLeft := bytesAt b 56 4
    trap := { vec := BitVec.ofNat 64 (bytesAt b 128 8), budget := BitVec.ofNat 32 (bytesAt b 136 4)
              cause := BitVec.ofNat 32 (bytesAt b 80 4) &&& 0x80FFFFFF, pc := BitVec.ofNat 64 (bytesAt b 64 8)
              addr := BitVec.ofNat 64 (bytesAt b 72 8), am := BitVec.ofNat 96 (bytesAt b 84 12)
              pend := BitVec.ofNat 96 (bytesAt b 96 12), left := BitVec.ofNat 32 (bytesAt b 108 4)
              scr := ⟨((List.range 4).map (fun k => BitVec.ofNat 32 (bytesAt b (112 + 4 * k) 4))).toArray, by simp⟩ }
    sregs := ⟨((List.range 64).map (fun k => BitVec.ofNat 32 (bytesAt b (256 + 4 * k) 4))).toArray, by simp⟩
    vregs := (List.range (8 * n)).map (fun k => (k, vregOf (fun i => BitVec.ofNat 32 (bytesAt b (512 + 384 * k + 4 * i) 4)))) ++
      g.vregs.filter (fun p => p.1 ≥ 8 * n) }

/-- What a memory word makes of a descriptor that names it: kind, size, path, whether it is a vector form, and the scope of an
acquire. -/
structure ReplayForm where
  kind : ReqKind
  size : Nat
  path : Option Nat
  vec  : Bool
  acq  : Option Nat

def replayForm (g : Group) (i : Instr) : Option ReplayForm :=
  let acqOf (w : W) : Option Nat := if w.ord == 1 then some w.scope else none
  let atom (w : W) (fadd : Bool) : ReplayForm :=
    ⟨.atomic w.v.val fadd w.t (w.d != .zero), w.t.bytes, some (if w.d != .zero then 4 else 3), isVector i w, acqOf w⟩
  let future (w : W) (fail : Bool) : ReplayForm :=
    let v := blockRegs g w.b 4
    ⟨.fres fail (quad (v.getD 0 0) (v.getD 1 0) (v.getD 2 0) (v.getD 3 0)) [], 32, some 3, false, none⟩
  match i with
  | .ld w | .ldx w => some ⟨.load, w.t.bytes, some 0, isVector i w, acqOf w⟩
  | .st w | .stx w => some ⟨.store, w.t.bytes, some 3, isVector i w, none⟩
  | .atom w => some (atom w false)
  | .atomFadd w => some (atom w true)
  | .ldd w => some ⟨.direct, 4 * 2 ^ w.ord, some 2, isVector i w, none⟩
  | .watch w => some ⟨.watch, 8, none, false, some w.scope⟩
  | .fprobe _ => some ⟨.probe, 4, none, false, some 4⟩
  | .dsld w => some ⟨.dsld, w.t.bytes, some 1, isVector i w, none⟩
  | .mapft w => some ⟨.mapft, 4, some 4, isVector i w, none⟩
  | .fltrd w => some ⟨.fltrd, 4, some 4, isVector i w, none⟩
  | .fres w => some (future w false)
  | .fresFail w => some (future w true)
  | .barInit _ => some ⟨.bar 0, 8, some 3, false, none⟩
  | .barExp _ => some ⟨.bar 1, 8, some 3, false, none⟩
  | .barArr _ => some ⟨.bar 2, 8, some 3, false, none⟩
  | _ => none

/-- The operation of a descriptor that is none of those that were saved. What no descriptor gives, the target core of a dsld, the
offset of an ldd and the value of an fres, comes from the registers of the record (assumption 61). -/
def newReplay (g : Group) (id : Nat) (b : List Byte) : Option Op :=
  match decodeWord false (BitVec.ofNat 96 (bytesAt b 0 12)) with
  | .error _ => none
  | .ok i =>
    match replayForm g i, i.word with
    | some f, some w =>
      let lane (l : Nat) : LaneAcc :=
        let x := (opd32 g w.imm w.c l).toNat
        ⟨l, if f.kind = .dsld then dsldKey x 0 else 0, if f.kind = .direct then BitVec.ofNat 64 x else 0, 0⟩
      let lanesL := (maskLanes (BitVec.ofNat 96 (bytesAt b 16 12))).map lane
      if bytesAt b 12 4 % 8 ≠ f.path.getD 0 ∨ (f.vec = false ∧ bytesAt b 16 12 ≠ 1) then none
      else some
        { id := id, path := f.path, instr := i, scalar := !f.vec, kind := f.kind, size := f.size, lanes := lanesL, stamp := 0, sup := g.sup
          acq := f.acq, acqStamp := 0, done := true, held := lanesL, heldCause := (if bytesAt b 12 4 / 8 % 2 = 1 then 7 else 0, 0)
          heldTaken := false, again := false, stamps := [], prov := g.prov }
    | _, _ => none

/-- An operation with the accesses that the entries of its descriptor name. -/
def Op.entries (o : Op) (b : List Byte) : Op :=
  let n := o.held.length
  let lane (k : Nat) (a : LaneAcc) : LaneAcc :=
    let x := bytesAt b (32 + 32 * k) 8
    { a with
      addr := if o.kind = .dsld then dsldKey (a.addr.toNat / 2 ^ 19) (x % 2 ^ 19) else BitVec.ofNat 64 x
      data := if o.kind matches .store | .atomic .. | .bar _ | .fres .. then BitVec.ofNat 64 (bytesAt b (32 + 32 * k + 8) 8) else a.data
      cmp := if o.kind matches .atomic 7 false .. then BitVec.ofNat 64 (bytesAt b (32 + 32 * k + 16) 8) else a.cmp }
  let held := (List.range n).zipWith lane o.held
  { o with
    held := held, stamp := 0
    lanes := o.lanes.map (fun a => (held.find? (fun x => x.lane == a.lane)).getD a)
    stamps := (List.range n).zipWith (fun k a => (a.lane, bytesAt b (32 + 32 * k + 24) 6)) o.held }

/-- The operation of the descriptor at the head of some bytes: the saved one whose header stands there, or another; none when the
descriptor does not match its header. -/
def readDescr (g : Group) (old : Option Op) (id : Nat) (b : List Byte) : Option Op :=
  let n := bytesAt b 28 4
  if b.length < 32 + 32 * n ∨ bytesAt b 12 4 ≥ 16 ∨ (maskLanes (BitVec.ofNat 96 (bytesAt b 16 12))).length ≠ n ∨
      (List.range n).any (fun k => bytesAt b (32 + 32 * k + 30) 2 != 0) then none
  else
    let same := match old with | some o => if b.take 32 = (descBytes o).take 32 then some o else none | none => none
    (match same with | some o => some o | none => newReplay g id b).map (fun (o : Op) => o.entries b)

/-- The `m` descriptors that follow the registers, in the places of the saved operations that have one. The others stay. -/
def readDescrs (g : Group) (ops : List Op) (next m : Nat) (b : List Byte) : Option (List Op) :=
  match ops with
  | o :: rest =>
    if o.held.isEmpty then (readDescrs g rest next m b).map (fun l => o :: l)
    else if m = 0 then readDescrs g rest next 0 b
    else
      match readDescr g (some o) o.id b, readDescrs g rest next (m - 1) (b.drop (32 + 32 * bytesAt b 28 4)) with
      | some o, some l => some (o :: l)
      | _, _ => none
  | [] =>
    ((List.range m).foldl (fun (acc : Option (List Op × List Byte)) k =>
      match acc with
      | some (l, b) => (readDescr g none (next + k) b).map (fun o => (l ++ [o], b.drop (32 + 32 * bytesAt b 28 4)))
      | none => none) (some ([], b))).bind (fun x => if x.2.isEmpty then some x.1 else none)

/-- The operations that a record's path counters count: a count beyond the operations at hand never falls, and one below them does
not match its descriptors (DESIGN CHOICE, assumption 61). -/
def countOps (ops : List Op) (next : Nat) (counts : List Byte) : Option (List Op) :=
  let l := pruneOps ops []
  let have' (p : Nat) : Nat := (l.filter (fun o => o.path == some p)).length
  let want (p : Nat) : Nat := (counts.getD p 0).toNat
  if (List.range 8).any (fun p => decide (want p < have' p)) then none
  else
    let extra := (List.range 8).flatMap (fun p => List.replicate (want p - have' p) p)
    some (l ++ extra.zipIdx.map (fun x =>
      { id := next + x.2, path := some x.1, instr := tretWord, scalar := true, kind := .engine, size := 0, lanes := [], stamp := 0, sup := false
        acq := none, acqStamp := 0, done := false, held := [], heldCause := (0, 0), heldTaken := false, again := false, stamps := [], prov := 0 }))

/-- Keys that a record may need for operations that were not saved: no record holds more descriptors than half of them. -/
def recordKeys : Nat := 2 ^ 20

/-- A group as its record in the save area describes it. -/
def readRecord' (g : Group) (next : Nat) (b : List Byte) : Option Group :=
  let m := bytesAt b 60 4
  let d := b.drop (512 + 3072 * recordDemand b)
  if headOk b && decide (32 * m ≤ d.length) then
    let x := readHead g b
    ((readDescrs x g.ops next m d).bind (fun ops => countOps ops (next + recordKeys / 2) ((b.drop 48).take 8))).map
      (fun ops => { x with ops := ops })
  else none

/-! ### Blocks of restored groups (R149, R170, R172) -/

/-- Whether the blocks of a group fit beside those of the others where it stands. -/
def blocksFit (l : List (Nat × Group)) (g : Group) : Bool :=
  if g.slot = 16 then g.blocks ≤ 16
  else
    let used := (l.filter (fun p => p.2.core == g.core && p.2.part == g.part && p.2.slot != 16)).map (fun p => p.2.blocks)
    used.foldl (· + ·) 0 ≤ (if g.part = 0 then 48 else 64)

/-- A group whose record names more blocks than its partition has stands in the lowest partition with a free slot that has them
(R170: in any slot of any partition). None: no partition has. -/
def placeAgain (l : List (Nat × Group)) (k : Nat) (g : Group) : Option (List (Nat × Group)) :=
  if blocksFit l g then some l
  else
    ((List.range 8).findSome? (fun p =>
      (firstFree 16 ((l.filter (fun x => x.2.core == g.core && x.2.part == p)).map (fun x => x.2.slot))).bind (fun slot =>
        let g' := { g with part := p, slot := slot }
        let l' := l.map (fun x => if x.1 = k then (k, g') else x)
        if blocksFit l' g' then some l' else none)))

/-- The restored groups in partitions that hold their blocks; none when they do not fit. -/
def placeGroups (l : List (Nat × Group)) : Option (List (Nat × Group)) :=
  l.foldl (fun acc p => acc.bind (fun l => placeAgain l p.1 p.2)) (some l)

/-! ### Sections (R419) -/

def Section.head (x : Section) : List Byte := valBytes 4 x.kind ++ valBytes 4 x.unit ++ valBytes 8 x.body.length ++ List.replicate 16 0
def Section.bytes (x : Section) : List Byte := x.head ++ x.body

/-- What a section other than a group record holds; the spec names it and does not lay it out. -/
inductive SectionContent where
  /-- KIND 1: the context's registers, its abort state (halted with a reason, its packet discarded, its root ended), the streams closed
  into its stages, and how many frames its pools and entries the Cul-de-sacs hold for it -/
  | context (regs : CtxRegs) (halt : Option Nat) (discarded rootDone : Bool) (streams : List (List Nat)) (pool held : Nat)
  /-- KIND 3 -/
  | deque (l : List Entry)
  /-- KIND 4: the scratchpad with its uncorrectable words and the arrival stamps of its barrier words -/
  | scratch (cells : List Host.Cell) (poison : List Nat) (arrivals : Tab Stamp)
  /-- KIND 5 -/
  | handles (l : Tab Handle) (teams : Tab Team)
  /-- KIND 6: accumulators, commands and batches -/
  | matrix (tiles : Tab Tile) (waiting queue : List MCmd) (batches : Tab Batches)
  /-- KIND 7 -/
  | cluster (c : ClusterS)
  /-- KIND 8 -/
  | copies (l : List Copy)
  /-- KIND 9 -/
  | pipe (p : Option Pipe)

end Sys2Proof.Machine

/-- The byte at an offset of a section whose layout the spec does not give, from its content and the offset (R419). -/
opaque Sys2Proof.Config.sectionByte : Sys2Proof.Machine.SectionContent → Nat → Sys2Proof.Byte

namespace Sys2Proof.Machine

/-- A section whose content the spec does not lay out. -/
def openSection (kind unit : Nat) (x : SectionContent) : Section :=
  ⟨kind, unit, (List.range (Config.sectionSize kind)).map (Config.sectionByte x)⟩

/-- The four sections of a core. -/
def coreSections (k : Nat) (c : CoreS) : List Section :=
  [openSection 3 k (.deque c.deque), openSection 4 k (.scratch c.scratch c.scratchPoison c.arrStamp),
    openSection 5 k (.handles c.handles c.teams), openSection 6 k (.matrix c.tiles c.waiting c.queue c.batches)]

/-- The sections of a saved context. -/
def savedSections (s : State) (asid : Nat) (c : Context) (sv : SavedCtx) : List Section :=
  let pool := ((List.range 4).map (fun d => (poolOf s asid d).length)).foldl (· + ·) 0
  let held := (s.held.filter (fun h => h.asid == asid)).length
  let streams := match c.pipe with | some k => (tabGet? s.pipes k).map (fun (p : Pipe) => p.stages.map (fun (x : Stage) => x.closed)) | none => none
  let halt := if c.st = .halted then some c.haltReason else none
  [openSection 1 0 (.context c.regs halt c.discarded c.rootDone (streams.getD []) pool held)] ++ sv.groups.map (fun p => ⟨2, p.2.core, groupRecord p.2⟩) ++
  sv.cores.flatMap (fun p => coreSections p.1 p.2) ++ sv.clusters.map (fun p => openSection 7 p.1 (.cluster p.2)) ++
  ((List.range 4).filter (fun d => sv.shape.any (fun p => p.1 == d) || sv.copies.any (fun p => p.1 == d))).map (fun d =>
    openSection 8 d (.copies ((sv.copies.filter (fun x => x.1 == d)).map (fun x => x.2)))) ++
  (match c.pipe with | some k => [openSection 9 0 (.pipe (tabGet? s.pipes k))] | none => [])

def sectionsBytes (l : List Section) : List Byte := l.flatMap Section.bytes

/-- The section at an address of a save area: its header and its content. -/
def readSection (s : State) (asid addr : Nat) : State × Option (List Byte × List Byte) :=
  match forumRead s asid addr 32 with
  | (s, .error _) => (s, none)
  | (s, .ok (h, _)) =>
    let n := bytesAt h 8 8
    if n = 0 then (s, some (h, []))
    else if n ≥ 2 ^ 24 then (s, none)
    else match forumRead s asid (addr + 32) n with | (s, .ok (b, _)) => (s, some (h, b)) | (s, .error _) => (s, none)

/-- Reads a save area back: group records are read as they stand, and every other section must hold what was written
(assumption 61). `next` are keys for operations that were not saved. -/
def readSections (s : State) (asid addr next : Nat) (l : List Section) (groups : List (Nat × Group)) : State × Option (List (Nat × Group)) :=
  match l with
  | [] => (s, some [])
  | x :: rest =>
    match readSection s asid addr with
    | (s, none) => (s, none)
    | (s, some (h, b)) =>
      let n := addr + 32 + b.length
      if x.kind = 2 then
        match (if h.take 8 = x.head.take 8 ∧ bytesAt h 16 16 = 0 then groups else []) with
        | [] => (s, none)
        | (k, g) :: gs =>
          match readRecord' g next b, readSections s asid n (next + recordKeys) rest gs with
          | some g, (s, some l) => (s, some ((k, g) :: l))
          | _, (s, _) => (s, none)
      else if h ++ b = x.bytes then readSections s asid n next rest groups
      else (s, none)

/-! ### Allotments (R412, R418) -/

def clusterFree (s : State) (k : Nat) : Bool :=
  !s.contexts.any (fun c => c.2.clusters.contains k) && (s.die (clusterDie k)).coreUp

/-- The free clusters of a die, lowest first. -/
def freeOn (s : State) (die : Nat) : List Nat := ((List.range 9).map (fun k => 9 * die + k)).filter (fun k => clusterFree s k)

/-- The die with the fewest free clusters among those that suffice. -/
def bestDie (s : State) (n : Nat) : Option Nat :=
  (List.range 4).foldl (fun best d =>
    if (freeOn s d).length < n then best
    else match best with | none => some d | some b => if (freeOn s d).length < (freeOn s b).length then some d else some b) none

/-- The allotment of a launch; none while it must wait. -/
def chooseClusters (s : State) (n : Nat) : Option (List Nat) :=
  match bestDie s n with
  | some d => some ((freeOn s d).take n)
  | none =>
    let all := (List.range 4).flatMap (fun d => freeOn s d)
    if all.length < n then none else some (all.take n)

/-- The shape of an allotment: each of its dies with its number of clusters. -/
def allotmentShape (clusters : List Nat) : List (Nat × Nat) :=
  (List.range 4).filterMap (fun d =>
    let n := (clusters.filter (fun k => clusterDie k == d)).length
    if n = 0 then none else some (d, n))

/-- Ways to give the dies of a shape other dies with room, the lowest first. -/
def dieMaps (s : State) (shape : List (Nat × Nat)) (used : List Nat) : List (List (Nat × Nat)) :=
  match shape with
  | [] => [[]]
  | (d, n) :: rest =>
    ((List.range 4).filter (fun e => !used.contains e && decide (n ≤ (freeOn s e).length))).flatMap (fun e =>
      (dieMaps s rest (e :: used)).map (fun m => (d, e) :: m))

/-- The dies that take the place of a shape's dies. -/
def restoreDies (s : State) (shape : List (Nat × Nat)) : Option (List (Nat × Nat)) :=
  match shape with
  | [(d, n)] => (bestDie s n).map (fun e => [(d, e)])
  | _ => (dieMaps s shape []).head?

/-- How a saved context's numbers become those of its new allotment. -/
structure Remap where
  dies : List (Nat × Nat)
  clusters : List (Nat × Nat)

def remapOf (s : State) (clusters : List Nat) (dies : List (Nat × Nat)) : Remap :=
  ⟨dies, dies.flatMap (fun x =>
    let old := clusters.filter (fun k => clusterDie k == x.1)
    old.zip ((freeOn s x.2).take old.length))⟩

def Remap.cluster (r : Remap) (k : Nat) : Nat := tabGet r.clusters k k
def Remap.core (r : Remap) (c : Nat) : Nat := 12 * r.cluster (coreCluster c) + c % 12
def Remap.die (r : Remap) (d : Nat) : Nat := tabGet r.dies d d
/-- Core numbers that may name no core. -/
def Remap.origin (r : Remap) (c : Nat) : Nat := if c < 432 then r.core c else c

def Remap.entry (r : Remap) (e : Entry) : Entry := { e with origin := r.origin e.origin }
def Remap.group (r : Remap) (g : Group) : Group :=
  { g with
    core := r.core g.core, tasks := g.tasks.map (fun t => { t with origin := r.origin t.origin }), running := g.running.map r.entry
    migTo := g.migTo.map (fun x => (r.core x.1, x.2)), since := none, seen := none, refind := g.tasks.length }
def Remap.put (r : Remap) (p : Put) : Put := { p with core := r.core p.core }
def Remap.mcast (r : Remap) (m : Mcast) : Mcast := { m with core := r.core m.core, left := m.left.map r.core }

/-- The block words of a copy that hold global core numbers: those of a COPY packet's S endpoints and barrier. -/
def Remap.copy (r : Remap) (c : Copy) : Copy :=
  let word (k : Nat) (on : Bool) (l : List Word) : List Word :=
    if on && c.grp.isNone then l.set k (BitVec.ofNat 32 (r.origin (blk l k))) else l
  { c with core := r.core c.core, block := word 7 (c.bk == 1) (word 3 (c.dk == 2) (word 1 (c.sk == 2) c.block)) }

def Remap.item (r : Remap) (i : WItem) : WItem :=
  match i with
  | .group g => .group g
  | .cmd core id => .cmd (r.core core) id
  | .copy die id => .copy (r.die die) id
  | .mcast cl id => .mcast (r.cluster cl) id
  | .staging core serial => .staging (r.core core) serial

def Remap.pipe (r : Remap) (p : Pipe) : Pipe :=
  { p with
    home := r.die p.home, rootCore := r.core p.rootCore, assigned := p.assigned.map (fun x => (r.core x.1, x.2))
    unassigned := p.unassigned.map r.core }

/-- A saved core on the core that takes its place. -/
def Remap.coreState (r : Remap) (old new : CoreS) : CoreS :=
  { old with
    deque := old.deque.map r.entry, l1 := [], icache := [], plb := [], gens := new.gens, errors := new.errors }

def Remap.clusterState (r : Remap) (c : ClusterS) : ClusterS := { c with puts := c.puts.map r.put, mcasts := c.mcasts.map r.mcast }

/-! ### Giving clusters up -/

/-- What of a core outlasts its context: the cells of its scratchpad and its counts. -/
def CoreS.cleared (c : CoreS) : CoreS :=
  { CoreS.empty with scratch := c.scratch, scratchPoison := c.scratchPoison, gens := c.gens, errors := c.errors }

/-- The clusters of a context are freed. -/
def freeClusters (s : State) (asid : Nat) : State :=
  match s.context? asid with
  | none => s
  | some c =>
    let cores := ctxCores c
    let gone := (s.requests.filter (fun r => r.asid == asid)).map (fun r => r.id)
    { s with
      groups := s.groups.filter (fun p => p.2.asid != asid)
      requests := s.requests.filter (fun r => r.asid != asid)
      watchers := s.watchers.filter (fun w => !gone.contains w.req)
      cores := s.cores.map (fun p => if cores.contains p.1 then (p.1, p.2.cleared) else p)
      clusters := s.clusters.filter (fun p => !c.clusters.contains p.1)
      contexts := tabPut s.contexts asid { c with clusters := [] }
      host := { s.host with peerPorts := s.host.peerPorts.filter (fun x => x.1 / 4096 != asid) } }

/-- Number of a context state in STATUS (R411). -/
def statusOf (c : Context) : Nat :=
  (match c.st with | .running => 1 | .saved => 2 | .halted => 3 | .ended => 4 | .torn => 5) +
    (if c.st = .halted then 256 * c.haltReason else 0)

/-- STATUS of the context descriptor is written. -/
def writeStatus (s : State) (asid : Nat) : State :=
  match s.context? asid with
  | some c => (forumWrite s c.descAsid (c.desc.toNat + 80) (valBytes 8 (statusOf c))).1
  | none => s

end Sys2Proof.Machine
end

