-- ==== Sys2Proof/Machine/Contexts.lean ====
section
/-! DEFINITION. Saving, restoring, tearing down and ending a context (19 R413, R417 to R420). -/

namespace Sys2Proof.Machine

/-! ### SAVE (R418, R420) -/

/-- The saved form of a context that has been brought to its boundaries. -/
def savedOf (s : State) (asid : Nat) (c : Context) : SavedCtx :=
  { shape := allotmentShape c.clusters
    groups := (ctxGroups s asid).map (fun p => (p.1, gatherOps s p.1 p.2))
    cores := (ctxCores c).map (fun k => (k, s.core k)), clusters := c.clusters.map (fun k => (k, s.cluster k))
    copies := ctxCopies s asid, image := [], rebased := false }

/-- Writes a stopped context into its save area and frees its clusters; none when the area is absent, too small, or
cannot be written. -/
def saveStopped (s : State) (asid : Nat) (st : CtxState) : Option State :=
  match s.context? asid with
  | none => none
  | some c =>
    let sv := savedOf s asid c
    let sv := { sv with image := savedSections s asid c sv }
    let b := sectionsBytes sv.image
    if b.length > c.saveLen then none
    else
      match forumWrite s asid c.saveAddr.toNat b with
      | (_, .error _) => none
      | (s, .ok _) =>
        let s := { s with dies := s.dies.map (fun d => { d with copies := d.copies.filter (fun x => x.asid != asid) }) }
        some (writeStatus ((freeClusters s asid).modContext asid (fun x => { x with st := st, stopped := true, saved := some sv })) asid)

/-- The state that a save leaves a context in: one that was halted on the way stays halted. -/
def afterStop (s : State) (asid : Nat) : CtxState :=
  match s.context? asid with | some c => if c.st = .halted then .halted else .saved | none => .saved

def saveTry (pkt : Nat) (s : State) : Option State :=
  match packetOf s pkt 4 with
  | none => none
  | some p =>
    let asid := p.asid17
    if p.at' 16 1 ≠ 1 then none
    else
      match s.context? asid with
      | some c =>
        if c.st ≠ .running then some (completePacket s pkt 3 0x32)
        else if !canStop s asid then none
        else
          let t := stopContext s asid
          match saveStopped t asid (afterStop t asid) with
          | some t => some (completePacket t pkt 0 0)
          | none => some (completePacket s pkt 3 0x30)
      | none => some (completePacket s pkt 3 0x32)

def execCtxopSave (pkt : Nat) (s : State) : Out := orSame s (saveTry pkt s)

/-- Stops a halted context as a running one is stopped. -/
def stopHalted (s : State) (asid : Nat) : State :=
  match s.context? asid with
  | none => s
  | some c =>
    (stopContext (s.modContext asid (fun x => { x with st := .running })) asid).modContext asid (fun x =>
      { x with st := c.st, haltReason := c.haltReason })

/-- The Forum's save of a halted context: without a save area that takes it, it stays stopped on its clusters (R417). -/
def haltSave (s : State) (asid : Nat) : State :=
  let s := stopHalted s asid
  match saveStopped s asid .halted with
  | some s => s
  | none => writeStatus (s.modContext asid (fun x => { x with stopped := true })) asid

/-! ### RESTORE (R418, R419) -/

/-- The items of a context that wait for firmware, with their numbers in the new allotment. -/
def remapWaits (s : State) (asid : Nat) (r : Remap) : State :=
  { s with
    waitItems := s.waitItems.map (fun w => if w.1 = asid then (w.1, w.2.1, r.item w.2.2) else w)
    ringWaits := s.ringWaits.map (fun w => if w.asid = asid then { w with item := w.item.map r.item } else w) }

/-- A saved context as it is restored after a rebase: every stamp is zero (R349). -/
def SavedCtx.afterRebase (sv : SavedCtx) : SavedCtx := if sv.rebased then sv.unstamped else sv

/-- The ordinary lines of a die leave the ways that its pipelines reserve (R380). -/
def trimSlices (s : State) (die : Nat) : State :=
  (s.slices.filter (fun p => sliceDie p.1 == die)).foldl (fun (s : State) p =>
    ((p.2.map (fun x => x.line % 1024)).eraseDups).foldl (fun (s : State) k =>
      let inSet := (s.slice p.1).filter (fun y => y.line % 1024 == k)
      (evictSome s p.1 inSet.reverse (inSet.length - openWays s p.1)).1) s) s

/-- Puts a saved context onto the clusters of a mapping and lets it go on; its pipeline takes its ways on its new home die (R380). -/
def restoreGo (s : State) (asid : Nat) (sv : SavedCtx) (groups : List (Nat × Group)) (r : Remap) : State :=
  let sv := { sv with groups := groups }.afterRebase
  let s : State := { s with
    groups := s.groups ++ sv.groups.map (fun p => (p.1, r.group p.2))
    pipes := tabMap s.pipes (fun p => if p.asid = asid then r.pipe p else p) }
  let s := (s.pipes.filter (fun p => p.2.asid == asid)).foldl (fun (s : State) (p : Nat × Pipe) => trimSlices s p.2.home) s
  let s := sv.cores.foldl (fun (s : State) p => s.modCore (r.core p.1) (fun new => r.coreState p.2 new)) s
  let s := sv.clusters.foldl (fun (s : State) p => s.modCluster (r.cluster p.1) (fun _ => r.clusterState p.2)) s
  let s := sv.copies.foldl (fun (s : State) p => s.modDie (r.die p.1) (fun d => { d with copies := d.copies ++ [r.copy p.2] })) s
  let s := (remapWaits s asid r).modContext asid (fun c =>
    { c with st := .running, haltReason := 0, stopped := false, saved := none, clusters := r.clusters.map (fun x => x.2) })
  writeStatus (resumeContext (rereadPeers s asid) asid) asid

/-- What RESTORE finds in the save area; groups whose blocks no partition has make it fail its checks (assumption 61). -/
def readSaved (s : State) (asid : Nat) (c : Context) (sv : SavedCtx) : State × Option (List (Nat × Group)) :=
  let (s', r) := readSections s asid c.saveAddr.toNat s.nextId sv.image sv.groups
  ({ s' with nextId := s.nextId + recordKeys * (sv.groups.length + 1) }, r.bind placeGroups)

/-- The reserved ways of a saved pipeline fit beside the others of the die that becomes its home (R380; until they do the
restore waits, assumption 61). -/
def waysFit (s : State) (asid : Nat) (r : Remap) : Bool :=
  s.pipes.all (fun p => p.2.asid != asid || r.die p.2.home == p.2.home ||
    decide (reservedWays s (r.die p.2.home) + p.2.ways ≤ 8))

/-- The copies of a saved context fit into the engines and the queues of their new dies (R2, R322; until they do the restore waits,
assumption 61). -/
def copiesFit (s : State) (sv : SavedCtx) (r : Remap) : Bool :=
  (List.range 4).all (fun d =>
    let mine := sv.copies.filter (fun (p : Nat × Copy) => r.die p.1 == d)
    decide (enginesBusy s d + (mine.filter (fun (p : Nat × Copy) => p.2.engine)).length ≤ 64 ∧
      copiesWaiting s d + (mine.filter (fun (p : Nat × Copy) => !p.2.engine)).length ≤ 1024))

def restoreTry (pkt : Nat) (s : State) : Option State :=
  match packetOf s pkt 4 with
  | none => none
  | some p =>
    let asid := p.asid17
    if p.at' 16 1 ≠ 2 then none
    else
      match forumRead s p.asid (p.at' 24 8 + 80) 8 with
      | (s, .error _) => some (completePacket s pkt 5 0)
      | (s, .ok (b, _)) =>
        let st := bytesAt b 0 1
        match s.context? asid with
        | none => some (completePacket s pkt 3 0x32)
        | some c =>
          match c.saved with
          | none => some (completePacket s pkt 3 0x32)
          | some sv =>
            if st ≠ 2 ∧ st ≠ 3 then some (completePacket s pkt 3 0x32)
            else
              match readSaved s asid c sv with
              | (s, none) => some (completePacket s pkt 3 0x31)
              | (s, some groups) =>
                match (restoreDies s sv.shape).map (remapOf s (sv.clusters.map (fun x => x.1))) with
                | some r => if waysFit s asid r && copiesFit s sv r then some (completePacket (restoreGo s asid sv groups r) pkt 0 0) else none
                | none => none

def execCtxopRestore (pkt : Nat) (s : State) : Out := orSame s (restoreTry pkt s)

/-! ### Rebases (R349, R417) -/

/-- The live contexts that a rebase of an ASID takes together. -/
def rebaseSet (s : State) (asid : Nat) : List Nat :=
  if asid = 0 then (s.contexts.filter (fun p => p.2.st == .running || p.2.st == .saved || p.2.st == .halted)).map (fun p => p.1)
  else if (s.context? asid).isSome then [asid] else []

/-- A context on its clusters is stopped and saved; none where a SAVE would be refused. -/
def rebaseSave (s : State) (asid : Nat) : Option State :=
  let t := stopContext s asid
  saveStopped t asid (afterStop t asid)

/-- A mapping of a saved context onto the clusters that it had. -/
def Remap.same (sv : SavedCtx) : Remap := ⟨sv.shape.map (fun p => (p.1, p.1)), sv.clusters.map (fun p => (p.1, p.1))⟩

/-- The context that a rebase has saved goes on where it was, from what stands in its save area. -/
def rebaseRestore (s : State) (asid : Nat) : State :=
  match s.context? asid with
  | none => s
  | some c =>
    match (if c.st = .saved then c.saved else none) with
    | none => s
    | some sv =>
      match readSaved s asid c sv with
      | (s, some groups) => restoreGo s asid sv groups (Remap.same sv)
      | (s, none) => s

/-- A rebase is a SAVE and a RESTORE onto the same clusters of every running context concerned, and every stamp is zero between them;
a context that is saved or stopped already stays so. While a SAVE of one of them would be refused, the rebase waits (DESIGN CHOICE,
assumption 70: R349 and R417 name no such case). -/
def rebaseTry (asid : Nat) (s : State) : Option State :=
  let set := rebaseSet s asid
  let live := set.filter (fun a => ctxRuns s a)
  if !s.rebases.contains asid || set.any (fun a => ctxStops s a) || live.any (fun a => !canStop s a) then none
  else
    (live.foldl (fun (s : Option State) a => s.bind (fun s => rebaseSave s a)) (some s)).map fun s =>
      let s := set.foldl (fun s a => unstampLines (unstampContext s a) a) (unstampLines s asid)
      let s := live.foldl rebaseRestore s
      { s with rebases := s.rebases.filter (fun a => a != asid && !set.contains a) }

def execRebase (asid : Nat) (s : State) : Out := orSame s (rebaseTry asid s)

/-! ### TEARDOWN (R420) -/

/-- Fails a future for a teardown; a write that meets a fault is counted. -/
def tearFuture (acc : State × Nat) (asid : Nat) (fut : DWord) (code : Nat) (serial : Word) (stamp : Stamp) : State × Nat :=
  match recordWrite acc.1 0 asid fut.toNat true (quad (BitVec.ofNat 32 code) serial 0 0) stamp (devProv asid 0xFFFFFD) with
  | (s, .fault ..) => (s, acc.2 + 1)
  | (s, _) => (s, acc.2)

/-- The futures of a group's tasks, and of the entry it was about to run. -/
def tearGroup (asid : Nat) (acc : State × Nat) (g : Group) : State × Nat :=
  let acc := g.tasks.foldl (fun acc t => tearFuture acc asid t.future 6 t.serial g.commandStamp) acc
  match g.running with
  | some e => tearFuture acc asid e.clo.future 7 e.serial e.stamp
  | none => acc

def tearEntries (asid : Nat) (acc : State × Nat) (l : List Entry) : State × Nat :=
  l.foldl (fun acc e => tearFuture acc asid e.clo.future 7 e.serial e.stamp) acc

def tearPipes (asid : Nat) (acc : State × Nat) : State × Nat :=
  (acc.1.pipes.filter (fun p => p.2.asid == asid)).foldl (fun acc p =>
    (p.2.stages.flatMap (fun x => x.slots)).foldl (fun acc y => tearFuture acc asid y.clo.future 7 0 y.stamp) acc) acc

/-- Commands that wait for acceptance are accepted as they stand. -/
def acceptAll (s : State) (core : Nat) : State := (s.core core).waiting.foldl (fun s c => acceptGo s core c) s

/-- The commands left in an engine: an mloop fails with FIRMWARE, an mzero or epi is finished. -/
def tearQueue (s : State) (core : Nat) : State :=
  let s := (s.core core).queue.foldl (fun s c =>
    if c.isMloop then failCommand s core c 8 c.addr true else if c.isEpi then epiBegin s core c else mzeroGo s core c) s
  (s.core core).epis.foldl (fun s c => epiFinish s core c) s

/-- Puts complete whatever they waited for. -/
def tearPuts (s : State) (cl : Nat) : State :=
  (s.cluster cl).puts.foldl (fun s p =>
    let s := if p.started then s else putRead s cl p
    match findPut s p.id with | some (_, p, _) => putLand s cl p | none => s) s

def tearMcasts (s : State) (cl : Nat) : State := (s.cluster cl).mcasts.foldl (fun s m => failMcast s cl m 8 m.addr) s

/-- The resume offset of a copy stopped at its granule. -/
def Copy.resume (c : Copy) : Nat := match c.pieces.find? (fun k => !c.done.contains k) with | some k => max c.start (128 * k) | none => c.start

/-- The address that a held copy missed. -/
def Copy.missAddr (c : Copy) : Nat := if c.held then (c.fault.map (fun f => f.2.2)).getD 0 else 0

def tearCopies (s : State) (asid : Nat) : State := (ctxCopies s asid).foldl (fun s x => failCopy s x.1 x.2 8 x.2.resume x.2.missAddr true) s

/-- A context on its clusters is stopped, and what it leaves is completed or failed. -/
def tearLive (s : State) (asid : Nat) (c : Context) : State × Nat :=
  let s := stopHalted s asid
  let s := (ctxCores c).foldl (fun s k => tearQueue (acceptAll s k) k) s
  let s := c.clusters.foldl (fun s k => tearMcasts (tearPuts s k) k) s
  let s := tearCopies s asid
  let acc := (ctxGroups s asid).foldl (fun acc p => tearGroup asid acc p.2) (s, 0)
  (ctxCores c).foldl (fun acc k => tearEntries asid acc (acc.1.core k).deque) acc

/-- What a saved context leaves is reported: its scratchpads are gone, so an mloop writes its record only, and an mzero or
epi that finishes leaves nothing to be seen. -/
def tearSaved (s : State) (asid : Nat) (sv : SavedCtx) : State × Nat :=
  let s := sv.cores.foldl (fun s p => ((p.2.queue ++ p.2.waiting).filter (fun c => c.isMloop)).foldl (fun s c => cmdRecord s p.1 c 4 8 c.addr) s) s
  let s := sv.clusters.foldl (fun s p => p.2.mcasts.foldl (fun s m => mcastRecord s p.1 m 4 8 m.addr) s) s
  let s := sv.copies.foldl (fun (s : State) p =>
    let s := if p.2.bk = 2 then copyPoison s p.1 p.2 p.2.resume else s
    let s := copyRecord s p.1 p.2 4 8 p.2.missAddr p.2.resume
    match p.2.pkt with | some k => completePacket s k 1 8 | none => s) s
  let acc := sv.groups.foldl (fun acc p => tearGroup asid acc p.2) (s, 0)
  sv.cores.foldl (fun acc p => tearEntries asid acc p.2.deque) acc

/-- Records that wait for the ring are tried once more, then given up. -/
def flushRing (s : State) (asid : Nat) : State :=
  let s := s.modContext asid (fun c => { c with st := .running })
  let s := (s.ringWaits.filter (fun x => x.asid == asid)).foldl (fun s x => (ringTry x.id s).getD s) s
  { s with ringWaits := s.ringWaits.filter (fun x => x.asid != asid), waitItems := s.waitItems.filter (fun w => w.1 != asid) }

/-- Tears a context down; the number counts future writes that met a fault. -/
def tearContext (s : State) (asid : Nat) (c : Context) : State × Nat :=
  let (s, n) :=
    match c.saved with
    | some sv => tearPipes asid (tearSaved s asid sv)
    | none => if c.st = .running ∨ c.st = .halted then tearPipes asid (tearLive s asid c) else (s, 0)
  let s := flushRing s asid
  let s := { s with
    held := s.held.filter (fun h => h.asid != asid), pipes := s.pipes.filter (fun p => p.2.asid != asid)
    rebases := s.rebases.filter (fun a => a != asid) }
  let s := (freeClusters s asid).modContext asid (fun x => { x with st := .torn, saved := none, stopped := true, pkt := none })
  let s := writeStatus s asid
  (match c.pkt with | some k => completePacket s k 2 0 | none => s, n)

def teardownTry (pkt : Nat) (s : State) : Option State :=
  match packetOf s pkt 4 with
  | none => none
  | some p =>
    if p.at' 16 1 ≠ 3 then none
    else
      match s.context? p.asid17 with
      | some c =>
        if c.st = .torn then some (completePacket s pkt 3 0x32)
        else
          let (s, n) := tearContext s p.asid17 c
          some (completePacket s pkt 0 (min n 255))
      | none => some (completePacket s pkt 3 0x32)

def execCtxopTeardown (pkt : Nat) (s : State) : Out := orSame s (teardownTry pkt s)

/-! ### The end of a context (R413) -/

/-- A command of the context is unfinished. -/
def commandsLeft (s : State) (asid : Nat) (c : Context) : Bool :=
  (ctxCores c).any (fun k => let x := s.core k; !(x.waiting.isEmpty && x.queue.isEmpty && x.epis.isEmpty)) ||
  c.clusters.any (fun k => let x := s.cluster k; !(x.puts.isEmpty && x.mcasts.isEmpty)) ||
  (ctxCopies s asid).any (fun x => x.2.grp.isSome || x.2.sk == 2 || x.2.dk == 2 || x.2.bk == 1)

/-- STATE of the root future. -/
def rootState (s : State) (asid : Nat) (c : Context) : State × Option Nat :=
  match forumRead s asid (c.rootFuture.toNat + 16) 4 with
  | (s, .ok (b, _)) => (s, some (bytesVal b))
  | (s, .error _) => (s, none)

/-- The clusters of a context that has ended are free; what stands in them is cleared when they are placed again. -/
def releaseClusters (s : State) (asid : Nat) (c : Context) : State :=
  (ctxCores c).foldl (fun (s : State) k => s.modCore k (fun x => { x with deque := [], domain := none, drainTo := none }))
    { s with
      requests := s.requests.filter (fun r => r.asid != asid)
      host := { s.host with peerPorts := s.host.peerPorts.filter (fun x => x.1 / 4096 != asid) } }

def endGo (s : State) (asid : Nat) (c : Context) (code detail : Nat) : State :=
  let s := (releaseClusters s asid c).modContext asid (fun x => { x with st := .ended, pkt := none, clusters := [] })
  let s := writeStatus s asid
  match c.pkt with | some k => completePacket s k code detail | none => s

def contextEndTry (asid : Nat) (s : State) : Option State :=
  match s.context? asid with
  | none => none
  | some c =>
    if c.st ≠ .running || !(ctxGroups s asid).isEmpty || commandsLeft s asid c || s.pipes.any (fun p => p.2.asid == asid) then none
    else if c.discarded then some (endGo s asid c 1 0xFE)
    else
      match rootState s asid c with
      | (s, some 1) => some (endGo s asid c 0 0)
      | (s, some (_ + 2)) => some (endGo s asid c 1 0)
      | _ => none

def execContextEnd (asid : Nat) (s : State) : Out := orSame s (contextEndTry asid s)

end Sys2Proof.Machine
end

