-- ==== Sys2Proof/Machine/Forum.lean ====
section
/-! DEFINITION. The Forum: taking packets, mapping queues, signals, answers to held items, copies and firmware packets
(19 R400 to R410, R414, R416). -/

namespace Sys2Proof.Machine

/-- The Forum runs: the firmware has been started and nothing has stopped the module (R442). -/
def forumRuns (s : State) : Bool := !s.host.scrubbing && (s.host.boot matches .early | .run)

/-! ### Taking a packet (R402, R404, R405, R409) -/

/-- The packets of a queue that are taken and not complete. -/
def queuePackets (s : State) (q : Nat) : List (Nat × Packet) := s.packets.filter (fun p => p.2.queue == q)

/-- The group is saved with its context: what it has issued is not yet over. -/
def groupSaved (s : State) (grp : Nat) : Bool :=
  s.contexts.any (fun c => match c.2.saved with | some sv => sv.groups.any (fun g => g.1 == grp) | none => false)

/-- Every access that preceded the qput of a slot is acknowledged (R410). -/
def slotReady (s : State) (x : Queue) : Bool :=
  match x.puts.find? (fun p => p.1 == x.read) with
  | some (_, waits, grp) => waits.isEmpty || (allReturned s grp waits && !groupSaved s grp)
  | none => true

/-- WRITE as it stands: the Forum's own for a QP queue, otherwise the descriptor's. -/
def currentWrite (s : State) (q : Nat) (x : Queue) : State × Option Nat :=
  if x.qp then (s, some x.write)
  else
    match forumRead s (hostAsid s) (qtAddr s q + 16) 8 with
    | (s, .ok (b, _)) => (s.modQueue q (fun y => { y with write := bytesVal b }), some (bytesVal b))
    | (s, .error _) => (queueBad s q, none)

/-- The packet enters the Forum, or completes at once: ABORTED, MALFORMED or REFUSED. -/
def admitPacket (s : State) (q : Nat) (x : Queue) (b : List Byte) : State :=
  let (s, id) := s.fresh
  let p : Packet :=
    { id := id, queue := q, slot := BitVec.ofNat 64 (slotAddr x x.read), asid := x.asid, priv := x.priv, bytes := b
      settled := List.replicate 6 false, negative := false, checked := false, started := false, ctx := none, root := 0, pipe := none
      code := none }
  if p.ia && x.latch then finishPacket s p 2 0
  else
    let s := if p.ia then s else s.modQueue q (fun y => { y with latch := false })
    if !packetOk p then finishPacket s p 4 0
    else if p.privileged && !x.priv then finishPacket s p 3 0xFF
    else { s with packets := s.packets ++ [(id, p)] }

/-- The head slot is read as one snapshot and READ advances. -/
def takeHead (s : State) (q : Nat) (x : Queue) : Option State :=
  match forumRead s x.asid (slotAddr x x.read) 64 with
  | (s, .error _) => some ((clearEn s q).hostErr 2)
  | (s, .ok (b, _)) =>
    let busy := !(queuePackets s q).isEmpty
    if b.getD 0 0 = 0 ∨ (busy ∧ (bytesAt b 0 4).testBit 8) then none
    else
      let n := (x.read + 1) % 2 ^ 64
      let s := s.modQueue q (fun y => { y with read := n, puts := y.puts.filter (fun p => p.1 != x.read) })
      some (admitPacket (writeBack s q 24 n).1 q x b)

def packetTakeTry (q : Nat) (s : State) : Option State :=
  match tabGet? s.queues q with
  | none => none
  | some x =>
    if !x.mapped || (queuePackets s q).any (fun p => !p.2.started) || !forumRuns s then none
    else
      match currentWrite s q x with
      | (s, none) => some s
      | (s, some w) => if x.read < w && slotReady s x then takeHead s q { x with write := w } else none

def execPacketTake (queue : Nat) (s : State) : Out := orSame s (packetTakeTry queue s)

/-! ### Lanes (R400, R401, R403) -/

/-- A registered queue as the table describes it now, if it is unmapped and has work. -/
def unmappedWork (s : State) (q : Nat) : Option Queue :=
  match tabGet? s.queues q with
  | some x =>
    if x.mapped || x.bad then none
    else match (loadQueue s q).2 with | some y => if y.hasWork then some y else none | none => none
  | none => none

def someUnmapped (s : State) : Bool := s.queues.any (fun p => (unmappedWork s p.1).isSome)

/-- A free lane maps the queue that has waited longest; a queue that the Forum has not looked at counts from now. A look that finds it
registered, or no longer so, is kept. -/
def queueMapTry (q : Nat) (s : State) : Option State :=
  if !forumRuns s || q ≥ 4096 || (s.queues.filter (fun p => p.2.mapped)).length ≥ 32 then none
  else
    match tabGet? s.queues q with
    | none => some (loadQueue s q).1
    | some x =>
      if x.mapped || x.bad then none
      else
        match loadQueue s q with
        | (t, some y) =>
          let older := s.queues.any (fun p => match unmappedWork s p.1 with | some z => decide (z.since < y.since) | none => false)
          if y.hasWork && !older then some (t.modQueue q (fun z => { z with mapped := true }))
          else if x.reg then none else some t
        | (t, none) => if x.reg || t.queues.any (fun p => p.1 == q && p.2.bad) then some t else none

def execQueueMap (queue : Nat) (s : State) : Out := orSame s (queueMapTry queue s)

/-- The head packet of a queue waits (R403). -/
def queueWaiting (s : State) (q : Nat) (x : Queue) : Bool :=
  (queuePackets s q).any (fun p => !p.2.started && (p.2.type == 1 || p.2.type == 7 || p.2.type == 8)) ||
  (!(queuePackets s q).isEmpty &&
    (match (forumRead s x.asid (slotAddr x x.read) 4).2 with | .ok (b, _) => (bytesVal b).testBit 8 | .error _ => false))

def queueUnmapTry (q : Nat) (s : State) : Option State :=
  match tabGet? s.queues q with
  | none => none
  | some x =>
    let idle := match (currentWrite s q x).2 with | some w => x.read == w | none => true
    if forumRuns s && x.mapped && someUnmapped s && (idle || queueWaiting s q x) then
      some (unmapQueue s q)
    else none

def execQueueUnmap (queue : Nat) (s : State) : Out := orSame s (queueUnmapTry queue s)

/-! ### BARRIER-AND and SIGNAL (R406 to R408) -/

/-- A fault on a signal completes the packet with FAULT and clears EN. -/
def signalFault (s : State) (p : Packet) : State := clearEn (completePacket s p.id 5 0) p.queue

def signalAddr (p : Packet) (k : Nat) : Nat := p.at' (16 + 8 * k) 8

/-- The packet begins to watch its signals; without any it is done. -/
def barrierAndTry (id : Nat) (s : State) : Option State :=
  match packetOf s id 1 with
  | some p =>
    if p.checked then none
    else
      let settled := (List.range 6).map (fun k => signalAddr p k == 0)
      if settled.all (fun b => b) then some (completePacket s id 0 0)
      else some (s.modPacket id (fun p => { p with checked := true, settled := settled }))
  | none => none

def execBarrierAnd (pkt : Nat) (s : State) : Out := orSame s (barrierAndTry pkt s)

/-- A read of a signal that returns 0 or less settles it. -/
def settleTry (id k : Nat) (s : State) : Option State :=
  match packetOf s id 1 with
  | some p =>
    if !p.checked || k ≥ 6 || p.settled.getD k true then none
    else
      match devRead s 0 p.asid (signalAddr p k) 8 0 17 with
      | (s, .error _) => some (signalFault s p)
      | (s, .ok (b, _)) =>
        let v := (BitVec.ofNat 64 (bytesVal b)).toInt
        let settled := p.settled.set k true
        if v > 0 then none
        else if v < 0 then some (completePacket s id 1 0)
        else if settled.all (fun b => b) then some (completePacket s id 0 0)
        else some (s.modPacket id (fun p => { p with settled := settled }))
  | none => none

def execBarrierAndSettle (pkt index : Nat) (s : State) : Out := orSame s (settleTry pkt index s)

def signalTry (id : Nat) (s : State) : Option State :=
  match packetOf s id 2 with
  | some p =>
    match devAdd s 0 p.asid (p.at' 16 8) (p.at' 24 8) false with
    | (s, .ok _) => some (completePacket s id 0 0)
    | (s, .error _) => some (signalFault s p)
  | none => none

def execSignal (pkt : Nat) (s : State) : Out := orSame s (signalTry pkt s)

/-! ### RESUME (R416) -/

/-- The item that waits under a SEQ and an ASID. -/
def waitingItem (s : State) (p : Packet) : Option WItem :=
  (s.waitItems.find? (fun w => w.1 == p.asid17 && w.2.1 == p.at' 24 8)).map (fun w => w.2.2)

def dropItem (s : State) (p : Packet) : State :=
  { s with waitItems := s.waitItems.filter (fun w => !(w.1 == p.asid17 && w.2.1 == p.at' 24 8)) }

def WItem.isGroup (i : WItem) : Bool := i matches .group _

/-- The common part of the four answers: the refusals, then the answer itself. A context that is saved or halted holds
its answer back. -/
def resumeTry (id act : Nat) (wantGroup : Bool) (f : State → WItem → Option State) (s : State) : Option State :=
  match packetOf s id 5 with
  | none => none
  | some p =>
    if p.at' 16 1 ≠ act then none
    else
      match waitingItem s p with
      | none => some (completePacket s id 3 0x21)
      | some i =>
        if i.isGroup != wantGroup then some (completePacket s id 3 0x20)
        else
          match s.context? p.asid17 with
          | some c => if c.st = .running then (f (dropItem s p) i).map (fun s => completePacket s id 0 0) else none
          | none => some (completePacket s id 3 0x21)

/-- The group that firmware answers stops waiting for it. -/
def answerGroup (s : State) (i : WItem) (f : State → Nat → Group → Nat → Option State) : Option State :=
  match i with
  | .group grp =>
    match s.group? grp with
    | some g =>
      let reason := match g.escal with | some e => e.2 | none => 0
      let g := { g with escal := none, park := none }
      f (s.setGroup grp g) grp g reason
    | none => some s
  | _ => some s

/-- ACT 1: sysret from the trap state as it stands, or the return of an inline task once more. Like sysret, it waits while the held
operation does not fit in the request slots (R2, R148). -/
def resumeReturn (s : State) (grp : Nat) (g : Group) (reason : Nat) : Option State :=
  if reason = 6 then some (inlineReturn s grp)
  else if !trapPcUsable g then some (escalateTrap s grp 5)
  else if heldLack s g then none
  else some (sysretGo s grp g)

def execResumeSysret (pkt : Nat) (s : State) : Out := orSame s (resumeTry pkt 1 true (fun s i => answerGroup s i resumeReturn) s)

/-- The enclosing tasks of a group fail and the group retires; its open batch closes first, which may have to wait (R256). -/
def failAllTasks (s : State) (grp : Nat) (g : Group) : Option State :=
  (closeForWait s g.core grp).map fun s =>
  let s := g.tasks.dropLast.reverse.foldl (fun s t =>
    failFuture s g.core g.asid t.future 6 t.serial g.trap.cause 0 g.commandStamp g.prov g.gid) s
  retireGroup (s.modGroup grp (fun x => { x with tasks := x.tasks.take 1 })) grp

/-- ACT 2: the running task ends with its future failed. What its held operations have still to do is dropped (DESIGN CHOICE,
assumption 56). -/
def resumeFail (s : State) (grp : Nat) (g : Group) (reason : Nat) : Option State :=
  if reason = 6 then failAllTasks s grp g
  else
    let last := { g.task with failing := true }
    some (s.setGroup grp { (g.setAm g.trap.am).dropHeld with
      sup := false, inWord := none, arrival := none, replay := none, answers := [], wanted := []
      tasks := g.tasks.dropLast ++ [last] })

def execResumeFailTask (pkt : Nat) (s : State) : Out := orSame s (resumeTry pkt 2 true (fun s i => answerGroup s i resumeFail) s)

/-- ACT 3: the held item makes its faulting access again. -/
def resumeItem (s : State) (i : WItem) : State :=
  match i with
  | .group _ => s
  | .cmd core id => match (s.core core).queue.find? (fun c => c.id == id) with | some c => cmdReissue s core c | none => s
  | .copy die id => match (s.die die).copies.find? (fun c => c.id == id) with | some c => copyReissue s die c | none => s
  | .mcast cl id =>
    match (s.cluster cl).mcasts.find? (fun m => m.id == id) with
    | some m => (mcastReadGo s cl m).getD (setMcast s cl { m with held := false, addr := 0 })
    | none => s
  | .staging core serial => match findEntry s core (BitVec.ofNat 32 serial) with | some e => stageReissue s core e | none => s

def execResumeReissue (pkt : Nat) (s : State) : Out := orSame s (resumeTry pkt 3 false (fun s i => some (resumeItem s i)) s)

/-- ACT 4: the held item fails. -/
def failItem (s : State) (i : WItem) : State :=
  match i with
  | .group _ => s
  | .cmd core id => match (s.core core).queue.find? (fun c => c.id == id) with | some c => failCommand s core c 8 c.addr true | none => s
  | .copy die id =>
    match (s.die die).copies.find? (fun c => c.id == id) with
    | some c => failCopy s die c 8 ((c.fault.map (fun f => f.2.1)).getD 0) ((c.fault.map (fun f => f.2.2)).getD 0) true
    | none => s
  | .mcast cl id => match (s.cluster cl).mcasts.find? (fun m => m.id == id) with | some m => failMcast s cl m 8 m.addr | none => s
  | .staging core serial =>
    match findEntry s core (BitVec.ofNat 32 serial) with
    | some e =>
      let addr := match e.staging with | .faulted _ _ a => a | _ => 0
      failEntry s core e 3 (BitVec.ofNat 32 addr) (BitVec.ofNat 32 (addr / 2 ^ 32))
    | none => s

def execResumeFailItem (pkt : Nat) (s : State) : Out := orSame s (resumeTry pkt 4 false (fun s i => some (failItem s i)) s)

/-! ### COPY packets (R414) -/

/-- A core of a live context of an ASID, by global number. -/
def liveCore (s : State) (asid n : Nat) : Option Nat :=
  if n < 432 ∧ coreAsid s n = asid then some n else none

def copyPacketTry (id : Nat) (s : State) : Option State :=
  match packetOf s id 6 with
  | none => none
  | some p =>
    let imm : Word := BitVec.ofNat 32 (p.at' 52 4)
    let b := wordsOf p.bytes 16 9
    let die := p.at' 56 1
    let sk := imm.toNat % 4
    let dk := imm.toNat / 4 % 4
    let st := copyStatus s 432 (liveCore s p.asid) sk dk (imm.toNat / 16 % 4) b
    if st ≠ 0 then some (completePacket s id 3 st)
    else if copiesWaiting s die ≥ 1024 then none
    else
      let c : Copy := ⟨s.nextId, none, some id, 0, p.asid, 0xFFFFFFFF, 0, imm, b, [], 0, false, false, [], 0, [], 0, 0, none, false,
        devProv p.asid 0xFFFFFF⟩
      some (startPacket (acceptCopy { s with nextId := s.nextId + 1 } die c sk dk) id)

def execCopyPacket (pkt : Nat) (s : State) : Out := orSame s (copyPacketTry pkt s)

/-! ### Firmware packets (R400) -/

def firmwareTry (id : Nat) (s : State) : Option State :=
  match tabGet? s.packets id with
  | some p => if p.firmware && !p.started then some (startPacket s id) else none
  | none => none

def execFirmwarePacket (pkt : Nat) (s : State) : Out := orSame s (firmwareTry pkt s)

def firmwareDoneTry (id : Nat) (code detail : Byte) (s : State) : Option State :=
  match tabGet? s.packets id with
  | some p => if p.firmware && p.started then some (completePacket s id code.toNat detail.toNat) else none
  | none => none

def execFirmwarePacketComplete (pkt : Nat) (code detail : Byte) (s : State) : Out := orSame s (firmwareDoneTry pkt code detail s)

end Sys2Proof.Machine
end

