-- ==== Sys2Proof/Machine/Mapops.lean ====
section
/-! DEFINITION. The operations of the MTUs that MAPOP packets carry (17 R359 to R363, R368 to R370, R376, 19 R415). -/

namespace Sys2Proof.Machine

/-! ### Frames (R359) -/

/-- The frame has a place in a range of `n` frames from `f`. -/
def inFrames (f n k : Nat) : Bool := decide (f ≤ k ∧ k < f + n)

/-- Some frame of a range satisfies a condition that a free frame does not; one that is not listed is free, unless the MTUs own
it from power-on. -/
def anyFrame (s : State) (f n : Nat) (p : Frame → Bool) : Bool :=
  s.frames.any (fun x => inFrames f n x.1 && p x.2) ||
  (p ⟨3, false, false, 0, 0, 0⟩ &&
    (s.metaFrames.any (fun r => decide (r.1 < f + n ∧ f < r.1 + r.2)) || s.tableFrames.any (inFrames f n)))

/-- A leaf over `n` frames from `f` would be a synonym. -/
def synonym (s : State) (f n : Nat) (w : Bool) : Bool :=
  anyFrame s f n (fun x => if w then x.st != 0 else x.st == 2 || x.st == 3 || (x.st == 1 && decide (x.rcount ≥ 16383)))

/-- A frame after one of its mappings is gone. -/
def Frame.released (x : Frame) : Frame :=
  if x.st = 1 ∧ x.rcount > 1 then { x with rcount := x.rcount - 1 } else { x with st := 0, rcount := 0 }

/-- A frame after a mapping for a page. -/
def Frame.taken (x : Frame) (w : Bool) (asid va : Nat) : Frame :=
  { x with st := if w then 2 else 1, rcount := if w then 0 else x.rcount + 1, asid := asid, va := va }

def releaseFrames (s : State) (f n : Nat) : State :=
  { s with frames := s.frames.map (fun x => if inFrames f n x.1 then (x.1, x.2.released) else x) }

def takeFrames (s : State) (f n : Nat) (w : Bool) (asid va : Nat) : State :=
  (List.range n).foldl (fun s k => s.modFrame (f + k) (fun x => x.taken w asid va)) s

/-- A frame becomes the MTUs'. -/
def ownFrame (s : State) (f : Nat) : State := s.modFrame f (fun x => { x with st := 3, rcount := 0 })

/-- A new table of zeros, in the next of the frames that the MTUs keep for tables: its physical address. -/
def newTable (s : State) : State × Nat :=
  match s.tableFrames with
  | f :: rest => ({ zeroRange (ownFrame s f) (f * 2 ^ 14) (2 ^ 14) with tableFrames := rest }, f * 2 ^ 14)
  | [] => (s, 0)

/-! ### Entries -/

def granW (e : DWord) : Bool := pteRights e &&& 2 != 0

/-- The number of a leaf's page. -/
def pageOf (va level : Nat) : Nat := va / 2 ^ levelBits level

/-- The frames of a present leaf are given back. -/
def releaseLeaf (s : State) (e : DWord) (level : Nat) : State :=
  if pteV e && pteP e then releaseFrames s (pteFrame e) (levelFrames level) else s

/-- Makes the tables from a level down to one, and answers the place of the entry there. -/
def makeTables (s : State) (va from' upTo t : Nat) (fuel : Nat) : State × Nat :=
  let pte := t + 8 * (va / 2 ^ (47 - 11 * from') % 2 ^ 11)
  match fuel with
  | 0 => (s, pte)
  | fuel + 1 =>
    if from' ≥ upTo then (s, pte)
    else
      let (s, t) := newTable s
      makeTables (writePte s pte (setField 1 22 38 (t / 2 ^ 14))) va (from' + 1) upTo t fuel

/-- How deep the tables of an address reach: the level where no table follows, and the table of that level. -/
def tableEnd (s : State) (va level t : Nat) (fuel : Nat) : Nat × Nat :=
  match fuel with
  | 0 => (level, t)
  | fuel + 1 =>
    let e := readPte s (t + 8 * (va / 2 ^ (47 - 11 * level) % 2 ^ 11))
    if level ≥ 3 || !pteV e || pteLeaf e || pteMalformed e level then (level, t) else tableEnd s va (level + 1) (pteFrame e * 2 ^ 14) fuel

/-- The level that MAP writes at: that of a leaf in the way, else one whose page size the address and the frame fit. -/
def mapLevel (tag va : Nat) (leaf : DWord) (deep : Nat) (old : Option Nat) : Nat :=
  match old with
  | some l => l
  | none =>
    let fits (l : Nat) : Bool := l ≥ deep && va % 2 ^ levelBits l == 0 && pteFrame leaf % levelFrames l == 0
    let l := Config.mapLevel tag va leaf
    if (l == 1 || l == 2) && fits l then l else 3

/-- The leaf that stands for an address: entry, level and place. -/
def leafAt (s : State) (asid va : Nat) : Option (DWord × Nat × Nat) :=
  match walk s asid va with | .leaf e level pte => some (e, level, pte) | _ => none

/-! ### MAP (R360, R361) -/

inductive MapAns where
  | done | synonym | frameBusy | noEntry | held | badLeaf | pool
deriving DecidableEq, Repr

/-- Completion code and detail. -/
def MapAns.code (a : MapAns) : Nat × Nat :=
  match a with
  | .done => (0, 0) | .synonym => (3, 1) | .frameBusy => (3, 2) | .noEntry => (3, 3) | .held => (3, 4) | .badLeaf => (3, 5) | .pool => (3, 6)

/-- The root table of an address's tables; one is made if there is none. -/
def rootFor (s : State) (tag : Nat) : State × Nat :=
  match tabGet? s.roots tag with
  | some t => (s, t)
  | none =>
    let (s, t) := newTable s
    ({ s with roots := tabPut s.roots tag t }, t)

/-- How many tables a MAP needs that are not there. -/
def tablesNeeded (s : State) (asid va : Nat) (leaf : DWord) : Nat :=
  let tag := tagAsid asid va
  let old := leafAt s asid va
  let (deep, root) := match tabGet? s.roots tag with | some t => ((tableEnd s va 0 t 3).1, 0) | none => (0, 1)
  if old.isSome then 0 else root + (mapLevel tag va leaf deep none - deep)

def mapPage (s : State) (asid va : Nat) (leaf : DWord) : State × MapAns :=
  let tag := tagAsid asid va
  let old := leafAt s asid va
  let deep := match tabGet? s.roots tag with | some t => (tableEnd s va 0 t 3).1 | none => 0
  let level := mapLevel tag va leaf deep (old.map (fun x => x.2.1))
  let bits := levelBits level
  let f := pteFrame leaf
  let n := levelFrames level
  if !pteLeaf leaf || pteMalformed leaf level || !inMemory (f * 2 ^ 14) then (s, .badLeaf)
  else
    let freed := match old with | some (e, l, _) => releaseLeaf s e l | none => s
    if pteP leaf && synonym freed f n (granW leaf) then (s, .synonym)
    else
      let s := purgePlb s tag (pageOf va level) bits
      let s := if old.isSome then (flushPage s tag (pageOf va level) bits).1 else s
      let s := match old with | some (e, l, _) => releaseLeaf s e l | none => s
      let s := if pteP leaf then takeFrames s f n (granW leaf) tag (pageOf va level * 2 ^ bits) else s
      let (s, pte) :=
        match old with
        | some (_, _, pte) => (s, pte)
        | none =>
          let (s, root) := rootFor s tag
          let (l, t) := tableEnd s va 0 root 3
          makeTables s va l level t 3
      let s := if pteP leaf then replayPage s tag (pageOf va level) bits (f * 2 ^ 14) else s
      (writePte s pte leaf, .done)

/-! ### CLEAR, UNMAP, PROTECT -/

def clearPage (s : State) (asid va : Nat) : State × MapAns :=
  match leafAt s asid va with
  | none => (s, .noEntry)
  | some (e, level, pte) =>
    let tag := tagAsid asid va
    let s := (flushPage (purgePlb s tag (pageOf va level) (levelBits level)) tag (pageOf va level) (levelBits level)).1
    (writePte (releaseLeaf s e level) pte (setBit e 1 false), .done)

def unmapPage (s : State) (asid va : Nat) (discard : Bool) : State × MapAns :=
  match leafAt s asid va with
  | none => (s, .noEntry)
  | some (e, level, pte) =>
    let tag := tagAsid asid va
    let page := pageOf va level
    let bits := levelBits level
    let s := (flushPage (purgePlb s tag page bits) tag page bits).1
    if !discard && !(pageHeld s tag page bits).isEmpty then (s, .held)
    else
      let s := { s with held := s.held.filter (fun h => !(h.asid == tag && h.line * 128 / 2 ^ bits == page)) }
      (writePte (releaseLeaf s e level) pte (setBit (setBit e 0 false) 1 false), .done)

/-- The leaf with rights, B, PLACE, HOME and HSET of another. -/
def protectLeaf (e leaf : DWord) : DWord :=
  let e := setField e 5 5 (leaf.extractLsb' 5 5).toNat
  setField e 11 11 (leaf.extractLsb' 11 11).toNat

/-- Page frames go from one kind of mapping to another. -/
def retake (s : State) (e new : DWord) (level tag va : Nat) : State :=
  if pteP e && granW e != granW new then
    takeFrames (releaseFrames s (pteFrame e) (levelFrames level)) (pteFrame e) (levelFrames level) (granW new) tag va
  else s

def protectPage (s : State) (asid va : Nat) (leaf : DWord) : State × MapAns :=
  match leafAt s asid va with
  | none => (s, .noEntry)
  | some (e, level, pte) =>
    let tag := tagAsid asid va
    let new := protectLeaf e leaf
    if !pteLeaf leaf || pteMalformed (setField leaf 22 38 (pteFrame e)) level then (s, .badLeaf)
    else if pteP e && !granW e && granW new && synonym (releaseLeaf s e level) (pteFrame e) (levelFrames level) true then (s, .synonym)
    else
      let page := pageOf va level
      let bits := levelBits level
      let moves := ptePlace e != ptePlace new || pteHome e != pteHome new || pteRights e &&& ~~~ pteRights new != 0
      let s := purgePlb s tag page bits
      let s := if moves then (flushPage s tag page bits).1 else s
      (writePte (retake s e new level tag (page * 2 ^ bits)) pte new, .done)

/-! ### POOLADD, POOLTAKE, SPILL, COLD (R363, R369, R376) -/

def poolAdd (s : State) (asid die pa : Nat) : State × MapAns :=
  let f := pa / 2 ^ 14
  if !inMemory pa || paDie pa != die then (s, .pool)
  else if (s.frame f).st ≠ 0 then (s, .frameBusy)
  else if (poolOf s asid die).length ≥ 65535 then (s, .pool)
  else ({ ownFrame s f with pools := tabPut s.pools (poolKey asid die) (f :: poolOf s asid die) }, .done)

/-- Frames taken from a pool, written at OUT. -/
def poolTake (s : State) (p : Packet) : State × (Nat × Nat) :=
  let asid := p.asid17
  let die := p.at' 24 8 % 4
  let got := (poolOf s asid die).take (p.at' 40 8)
  match forumWrite s p.asid (p.at' 48 8) (got.flatMap (fun f => valBytes 8 (f * 2 ^ 14))) with
  | (s', .error _) => if got.isEmpty then (s, (0, 0)) else (s', (5, 0))
  | (s, .ok _) =>
    let s := { s with pools := tabPut s.pools (poolKey asid die) ((poolOf s asid die).drop (p.at' 40 8)) }
    (got.foldl (fun s f => s.modFrame f (fun x => { x with st := 0, rcount := 0 })) s, (0, min got.length 255))

/-- A range of frames becomes a controller's spill area. -/
def spillAdd (s : State) (g pa len : Nat) : State × MapAns :=
  let f := pa / 2 ^ 14
  let n := len / 2 ^ 14
  let total := ((s.ctl g).spill.map (fun r => r.2)).foldl (· + ·) 0
  if n = 0 then (s, .done)
  else if !inMemory pa || ctlOf pa != g || ctlOf (pa + len - 1) != g || !inMemory (pa + len - 1) || total + len > 2 ^ 30 then (s, .pool)
  else if anyFrame s f n (fun x => x.st != 0) then (s, .frameBusy)
  else
    let s := (List.range n).foldl (fun s k => ownFrame s (f + k)) s
    (s.modCtl g (fun c => { c with spill := c.spill ++ [(pa, n * 2 ^ 14)] }), .done)

/-- Entries taken from a cold queue, written at OUT. -/
def coldTake (s : State) (p : Packet) : State × (Nat × Nat) :=
  let g := p.at' 24 8 % 8
  let n := p.at' 40 8
  let got := (s.ctl g).cold.take n
  match forumWrite s p.asid (p.at' 48 8) (got.flatMap (fun x => valBytes 16 (Config.coldEntry x.1 x.2.1 x.2.2).toNat)) with
  | (s', .error _) => if got.isEmpty then (s, (0, 0)) else (s', (5, 0))
  | (s, .ok _) =>
    let s := got.foldl (fun s x => s.modFrame (x.1 / 2 ^ 14) (fun f => { f with q := false })) s
    (s.modCtl g (fun c => { c with cold := c.cold.drop n }), (0, min got.length 255))

/-! ### The packets (R415) -/

/-- A MAPOP packet of an operation. -/
def mapPacket (s : State) (id op : Nat) : Option Packet :=
  match packetOf s id 3 with
  | some p => if p.at' 16 1 = op then some p else none
  | none => none

/-- The page that a packet names is free of accesses on their way. -/
def mapIdle (s : State) (p : Packet) : Bool :=
  let va := p.at' 24 8
  let level := match leafAt s p.asid17 va with | some (_, l, _) => l | none => 3
  !pageBusy s (tagAsid p.asid17 va) (pageOf va level) (levelBits level)

def mapLeaf (p : Packet) : DWord := BitVec.ofNat 64 (p.at' 32 8)

/-- Completes a packet with an answer. -/
def mapFinish (id : Nat) (x : State × MapAns) : State := completePacket x.1 id x.2.code.1 x.2.code.2
def countFinish (id : Nat) (x : State × (Nat × Nat)) : State := completePacket x.1 id x.2.1 x.2.2

/-- A MAP that is not refused waits while the MTUs keep fewer frames than the tables that it needs: R360 gives no status for that
(DESIGN CHOICE, assumption 14). -/
def mapTry (pkt : Nat) (s : State) : Option State :=
  match mapPacket s pkt 1 with
  | none => none
  | some p =>
    let va := p.at' 24 8
    let r := mapPage s p.asid17 va (mapLeaf p)
    if !mapIdle s p || (r.2 == .done && decide (s.tableFrames.length < tablesNeeded s p.asid17 va (mapLeaf p))) then none
    else some (mapFinish pkt r)

def execMapopMap (pkt : Nat) (s : State) : Out := orSame s (mapTry pkt s)
def execMapopClear (pkt : Nat) (s : State) : Out :=
  orSame s ((mapPacket s pkt 2).bind (fun p => if mapIdle s p then some (mapFinish pkt (clearPage s p.asid17 (p.at' 24 8))) else none))
def execMapopUnmap (pkt : Nat) (s : State) : Out :=
  orSame s ((mapPacket s pkt 3).bind (fun p =>
    if mapIdle s p then some (mapFinish pkt (unmapPage s p.asid17 (p.at' 24 8) (p.at' 18 1 == 1))) else none))
def execMapopProtect (pkt : Nat) (s : State) : Out :=
  orSame s ((mapPacket s pkt 4).bind (fun p =>
    if mapIdle s p then some (mapFinish pkt (protectPage s p.asid17 (p.at' 24 8) (mapLeaf p))) else none))
def execMapopPooladd (pkt : Nat) (s : State) : Out :=
  orSame s ((mapPacket s pkt 5).map (fun p => mapFinish pkt (poolAdd s p.asid17 (p.at' 24 8 % 4) (p.at' 40 8))))
def execMapopPooltake (pkt : Nat) (s : State) : Out := orSame s ((mapPacket s pkt 6).map (fun p => countFinish pkt (poolTake s p)))
def execMapopSweep (pkt : Nat) (s : State) : Out :=
  orSame s ((mapPacket s pkt 7).map (fun p =>
    completePacket (s.modCtl (p.at' 24 8 % 8) (fun c =>
      { c with low := p.at' 40 2, high := p.at' 42 2, running := c.running && decide (c.cold.length < p.at' 42 2) })) pkt 0 0))
def execMapopSpill (pkt : Nat) (s : State) : Out :=
  orSame s ((mapPacket s pkt 8).map (fun p => mapFinish pkt (spillAdd s (p.at' 24 8 % 8) (p.at' 40 8) (p.at' 32 8))))
def execMapopCold (pkt : Nat) (s : State) : Out := orSame s ((mapPacket s pkt 9).map (fun p => countFinish pkt (coldTake s p)))

end Sys2Proof.Machine
end

