-- ==== Sys2Proof/Machine/Launch.lean ====
section
/-! DEFINITION. LAUNCH and PIPELINE packets: their checks, the placement of an allotment and the start of a root
(18 R378 to R384, R394, 19 R411 to R413). -/

namespace Sys2Proof.Machine

/-! ### Context descriptors (R411) -/

/-- The context that a descriptor describes. -/
def contextOf (b : List Byte) (desc asid : Nat) : Context :=
  { Context.start with
    root := BitVec.ofNat 64 (bytesAt b 0 8), desc := BitVec.ofNat 64 desc, descAsid := asid
    saveAddr := BitVec.ofNat 64 (bytesAt b 56 8 / 4096 * 4096), saveLen := bytesAt b 64 8, notify := BitVec.ofNat 64 (bytesAt b 72 8)
    regs := { CtxRegs.start with
      farena := BitVec.ofNat 64 (bytesAt b 8 8), falen := BitVec.ofNat 32 (bytesAt b 16 4 % 2 ^ 24)
      ifsize := BitVec.ofNat 32 (clampField (bytesAt b 20 4 % 4096) 1 4095), trapvec := BitVec.ofNat 64 (bytesAt b 24 8)
      trapbudget := BitVec.ofNat 32 (bytesAt b 32 4), frbase := BitVec.ofNat 64 (bytesAt b 40 8), seed := BitVec.ofNat 64 (bytesAt b 48 8) } }

/-- Packets that have been checked and wait for clusters. -/
def placing (s : State) (asid : Nat) : Bool := s.packets.any (fun p => p.2.ctx.isSome && p.2.asid33 == asid)

/-- A live or saved context holds an ASID. -/
def asidHeld (s : State) (asid : Nat) : Bool :=
  placing s asid || (match s.context? asid with | some c => c.st == .running || c.st == .saved || c.st == .halted | none => false)

/-- The refusal 0x12. -/
def rootBad (s : State) (asid root : Nat) : Bool :=
  match tabGet? s.roots asid with
  | some t => t != root / 2 ^ 14 * 2 ^ 14
  | none => !inMemory root || (s.frame (root / 2 ^ 14)).st != 0

/-- The arena holds the stack regions of an allotment. -/
def arenaHolds (c : Context) (clusters : Nat) : Bool := decide (137 * 12 * clusters * c.regs.ifsize.toNat ≤ c.regs.falen.toNat)

/-- The first refusal of R412 that applies. -/
def launchRefusal (s : State) (p : Packet) (c : Context) : Option Nat :=
  let asid := p.asid33
  if !p.priv && asid != p.asid then some 0x13
  else if asid = 0 || asidHeld s asid then some 0x10
  else if !arenaHolds c (p.at' 32 1) then some 0x11
  else if rootBad s asid c.root.toNat then some 0x12
  else none

/-- The descriptor of a packet's context. -/
def readContext (s : State) (p : Packet) : State × Option Context :=
  match forumRead s p.asid (p.at' 24 8) 128 with
  | (s, .ok (b, _)) => (s, some (contextOf b (p.at' 24 8) p.asid))
  | (s, .error _) => (s, none)

def launchTry (id : Nat) (s : State) : Option State :=
  match packetOf s id 7 with
  | none => none
  | some p =>
    if p.checked then none
    else
      match readContext s p with
      | (s, none) => some (completePacket s id 5 0)
      | (s, some c) =>
        match launchRefusal s p c with
        | some d => some (completePacket s id 3 d)
        | none => some (s.modPacket id (fun p => { p with checked := true, ctx := some c, root := p.at' 16 8 }))

def execLaunch (pkt : Nat) (s : State) : Out := orSame s (launchTry pkt s)

/-! ### Pipeline descriptors (R378, R379) -/

/-- Stage `j` of a descriptor. -/
def stageOf (b : List Byte) (j : Nat) : Stage :=
  let at' (off n : Nat) : Nat := bytesAt b (128 + 64 * j + off) n
  { entry := BitVec.ofNat 64 (at' 0 8), need := BitVec.ofNat 32 (at' 8 4), cap := 2 ^ (at' 12 4 % 32), from' := at' 16 4 % 2 ^ 17
    weight := at' 20 4 % 65536, min := at' 24 4 % 512, max := at' 24 4 / 65536 % 512, slots := [], waits := [], closed := []
    retired := false, nextSlot := 0 }

def stageBad (n : Nat) (x : Stage) : Bool :=
  let demand := (x.need.extractLsb' 0 6).toNat
  decide (demand = 0 ∨ demand > 32) || decide ((x.need.extractLsb' 16 12).toNat > 2016) || decide (x.cap < 64 ∨ x.cap > 65536) ||
  x.min == 0 || decide (x.max < x.min) || (List.range 16).any (fun k => x.from'.testBit k && decide (k ≥ n))

/-- Stages that are left when those that no remaining stage feeds are taken away, again and again. -/
def peel (stages : List Stage) (left : List Nat) (fuel : Nat) : List Nat :=
  match fuel with
  | 0 => left
  | fuel + 1 =>
    peel stages (left.filter (fun j => match stages[j]? with | some x => left.any (fun k => x.from'.testBit k) | none => false)) fuel

/-- The stage graph has a cycle. -/
def hasCycle (stages : List Stage) : Bool := !(peel stages (List.range stages.length) 16).isEmpty

/-- Ways that the Arcades take in every slice of the home die (R380). -/
def waysOf (stages : List Stage) : Nat := (sumOf (stages.map (fun x => 128 * x.cap)) + 6 * 2 ^ 20 - 1) / (6 * 2 ^ 20)

/-- The lowest pipeline slot that is free. -/
def freePipe (s : State) : Option Nat :=
  firstFree 8 (s.pipes.map (fun p => p.1) ++ s.packets.filterMap (fun p => p.2.pipe.map (fun x => x.1)))

/-- HOME of a descriptor: 4 stands for the root core's die. -/
def homeOf (b : List Byte) : Option Nat :=
  let h := bytesAt b 4 4 % 8
  if h < 4 then some h else if h = 7 then some 4 else none

/-- The pipeline of a descriptor before its placement. -/
def pipeOf (b : List Byte) (asid : Nat) : Pipe :=
  { asid := asid, home := (homeOf b).getD 0, hyst := bytesAt b 0 4 / 256 % 16, ways := 0, rootCore := 0, rootDone := false
    stages := (List.range (bytesAt b 0 4 % 32)).map (stageOf b), assigned := [], unassigned := [] }

/-- Reasons 1 to 4 and 6 of R379. -/
def pipeRefusal (s : State) (b : List Byte) (x : Pipe) (cores : Nat) : Option Nat :=
  let n := x.stages.length
  if n = 0 || n > 16 || (homeOf b).isNone || x.stages.any (stageBad n) then some 1
  else if hasCycle x.stages then some 2
  else if !x.stages.any (fun y => y.from'.testBit 16) then some 3
  else if sumOf (x.stages.map (fun y => y.min)) > cores - 1 then some 4
  else if (freePipe s).isNone then some 6
  else none

/-- The descriptor's header and stage entries; nothing is read of a misaligned one. -/
def readPipe (s : State) (asid va : Nat) : State × Option (List Byte) :=
  if va % 128 ≠ 0 then (s, some [])
  else
    match forumRead s asid va 128 with
    | (s, .error _) => (s, none)
    | (s, .ok (h, _)) =>
      match forumRead s asid (va + 128) (64 * (min (bytesAt h 0 4 % 32) 16)) with
      | (s, .error _) => if bytesAt h 0 4 % 32 = 0 then (s, some h) else (s, none)
      | (s, .ok (b, _)) => (s, some (h ++ b))

/-- The checks of a PIPELINE packet once its descriptors are read. -/
def pipelineGo (s : State) (id : Nat) (p : Packet) (c : Context) (b : List Byte) : State :=
  let x := pipeOf b p.asid33
  match launchRefusal s p c with
  | some d => completePacket s id 3 d
  | none =>
    match pipeRefusal s b x (12 * p.at' 32 1), freePipe s with
    | none, some k =>
      s.modPacket id (fun p => { p with checked := true, ctx := some c, root := bytesAt b 8 8, pipe := some (k, { x with ways := waysOf x.stages }) })
    | some d, _ => completePacket s id 3 d
    | none, none => completePacket s id 3 6

def pipelineTry (id : Nat) (s : State) : Option State :=
  match packetOf s id 8 with
  | none => none
  | some p =>
    if p.checked then none
    else
      match readContext s p with
      | (s, none) => some (completePacket s id 5 0)
      | (s, some c) =>
        match readPipe s p.asid (p.at' 16 8) with
        | (s, none) => some (completePacket s id 5 0)
        | (s, some b) => some (pipelineGo s id p c b)

def execPipeline (pkt : Nat) (s : State) : Out := orSame s (pipelineTry pkt s)

/-! ### Placement (R412) -/

/-- ROOT is bound to an ASID without tables. -/
def bindRoot (s : State) (asid root : Nat) : State :=
  match tabGet? s.roots asid with
  | some _ => s
  | none =>
    let f := root / 2 ^ 14
    let s := zeroRange (ownFrame s f) (f * 2 ^ 14) (2 ^ 14)
    { s with roots := tabPut s.roots asid (f * 2 ^ 14) }

/-- The cores and clusters of an allotment as a context finds them. -/
def freshAllotment (s : State) (asid : Nat) (clusters : List Nat) : State :=
  let s := unstampLines s asid
  let s := (clusters.flatMap (fun k => (List.range 12).map (fun j => 12 * k + j))).foldl (fun (s : State) c =>
    s.modCore c (fun x => { x.cleared with domain := some none })) s
  let s := { s with host := { s.host with peerPorts := s.host.peerPorts.filter (fun x => x.1 / 4096 != asid) } }
  clusters.foldl (fun (s : State) k => s.modCluster k (fun _ => ClusterS.empty)) s

/-- The context holds its clusters. -/
def placeContext (s : State) (id asid : Nat) (c : Context) (clusters : List Nat) (pipe : Option Nat) : State :=
  let s := freshAllotment (bindRoot s asid c.root.toNat) asid clusters
  let s := { s with contexts := tabPut s.contexts asid { c with clusters := clusters, pkt := some id, pipe := pipe } }
  writeStatus (s.modPacket id (fun p => { p with started := true, ctx := none, pipe := none })) asid

/-- The pipeline's cores get their initial assignment (R394). -/
def placePipe (s : State) (slot : Nat) (x : Pipe) (clusters : List Nat) : State :=
  let cores := clusters.flatMap (fun k => (List.range 12).map (fun j => 12 * k + j))
  let root := cores.headD 0
  let pool := cores.filter (· != root)
  let (assigned, left) := assignCores (initialWants x.stages pool.length x.hyst) pool
  let s := trimSlices { s with pipes := tabPut s.pipes slot { x with rootCore := root, assigned := assigned, unassigned := left } } x.home
  let s := assigned.foldl (fun (s : State) a => s.modCore a.1 (fun c => { c with domain := some (some (slot, a.2)) })) s
  left.foldl (fun (s : State) a => s.modCore a (fun c => { c with domain := none })) s

/-- A root that never runs (R384, R413). -/
def rootless (s : State) (asid : Nat) : State := settleStages (rootDone s asid) asid

/-- A discarded root closure. -/
def discardRoot (s : State) (asid : Nat) (reason addr w24 : Nat) : State :=
  rootless ((closureRecord s asid reason 8 addr w24 0).modContext asid (fun c => { c with discarded := true })) asid

/-- The first address of a range that faults, once a read of the range has faulted. -/
def faultAddr (s : State) (asid addr n : Nat) : Nat :=
  match (forumRead s asid addr (min n (128 - addr % 128))).2 with | .error _ => addr | .ok _ => addr / 128 * 128 + 128

/-- The root closure is checked and started on the lowest-numbered core; none when it cannot be written at home now. `reason` is
1 for a LAUNCH and 3 for a packet of a qput (R375). An address that is no multiple of 128 is read as it stands (DESIGN CHOICE,
assumption 39: R173 gives no outcome). -/
def startRoot (s : State) (asid core addr reason : Nat) : Option State :=
  match forumRead s asid addr 128 with
  | (s, .error _) => some (discardRoot s asid (0x80 + reason) (faultAddr s asid addr 128) addr)
  | (s, .ok (b, _)) =>
    let c := closureOf b
    let ok := match s.context? asid with | some x => futureOk x.regs c.future | none => false
    if !ok then some (discardRoot s asid reason 0 c.future.toNat)
    else
      let s := s.modContext asid (fun x => { x with rootFuture := c.future })
      if !closureOk c then some (rootless (badClosure s core asid c 0) asid)
      else
        let (s, serial) := takeSerial s asid core
        match ordinaryPlace s core c.demand none c.scr with
        | none => none
        | some p => (startTask s core c serial 0 0x1FF true true p).map (fun s => settleStages s asid)

/-- Where a pipeline's Arcades will stand, and whether they fit there. -/
def pipeHome (x : Pipe) (clusters : List Nat) : Nat := if x.home < 4 then x.home else clusterDie (clusters.headD 0)
def pipeFits (s : State) (home : Nat) (x : Pipe) : Bool := reservedWays s home + x.ways ≤ 8

def placementTry (id : Nat) (s : State) : Option State :=
  match tabGet? s.packets id with
  | none => none
  | some p =>
    match p.ctx with
    | none => none
    | some c =>
      match chooseClusters s (p.at' 32 1) with
      | none => none
      | some cl =>
        let asid := p.asid33
        let reason := if (tabGet? s.queues p.queue).any (fun q => q.qp) then 3 else 1
        match p.pipe with
        | none => startRoot (placeContext s id asid c cl none) asid (12 * cl.headD 0) p.root reason
        | some (slot, x) =>
          let home := pipeHome x cl
          if !pipeFits s home x then some (completePacket s id 3 5)
          else
            let s := placeContext s id asid c cl (some slot)
            startRoot (placePipe s slot { x with home := home } cl) asid (12 * cl.headD 0) p.root reason

def execAllotmentPlacement (pkt : Nat) (s : State) : Out := orSame s (placementTry pkt s)

end Sys2Proof.Machine
end

