-- ==== Sys2Proof/Machine/Fabric.lean ====
section
/-! DEFINITION. The host, the peers, the boot ROM and the plant (22 R436 to R452, 15 R332, 17 R377). -/

namespace Sys2Proof.Machine

/-- The module has power and the ROM does not scrub. -/
def moduleOn (s : State) : Bool := !s.host.scrubbing && s.host.boot != .off

/-! ### Boot states (R442) -/

def bootCode (b : BootSt) : Nat :=
  match b with
  | .off => 0 | .selftest => 1 | .train0 => 2 | .load => 3 | .measure => 4 | .early => 5 | .run => 6 | .failed => 8

/-- K_BOOTSTAT (R452). -/
def bootStat (h : HostS) : Nat :=
  bootCode h.boot + (if h.err then 256 else 0) + (if h.drift then 512 else 0) + (if h.noman then 1024 else 0) +
    (if h.hot then 2048 else 0)

/-- A change of state, which sends MSI-X vector 0. -/
def enterBoot (s : State) (b : BootSt) : State := { s with host := { s.host with boot := b } }.msix 0

/-! ### Clocks (R444, R450, R451) -/

/-- The highest clock that a die may have now, in steps of 25 MHz. -/
def clockLimit (s : State) (d : Nat) : Nat := if (s.die d).hot || (d == 0 && s.host.boot == .early) then 48 else 96

def powerDownTry (d : Nat) (s : State) : Option State :=
  if s.host.boot != .off && d < 4 then some (s.modDie d (fun x => { x with clock := max 24 (x.clock - 1) })) else none

def execPowerCapClockDown (die : Nat) (s : State) : Out := orSame s (powerDownTry die s)

def powerUpTry (d : Nat) (s : State) : Option State :=
  if s.host.boot != .off && d < 4 then some (s.modDie d (fun x => { x with clock := min (clockLimit s d) (x.clock + 1) })) else none

def execPowerCapClockUp (die : Nat) (s : State) : Out := orSame s (powerUpTry die s)

def throttleTry (d : Nat) (s : State) : Option State :=
  if s.host.boot != .off && d < 4 then some (s.modDie d (fun x => { x with hot := true, clock := min 48 x.clock })) else none

def execThermalThrottle (die : Nat) (s : State) : Out := orSame s (throttleTry die s)

def coolTry (d : Nat) (s : State) : Option State :=
  if d < 4 && (s.die d).hot then some (s.modDie d (fun x => { x with hot := false })) else none

def execCoolBelow90 (die : Nat) (s : State) : Out := orSame s (coolTry die s)

/-! ### Stopping the module (R446, R449, R451) -/

/-- A die whose domains are down and whose copies are gone. -/
def DieS.stopped (d : DieS) : DieS :=
  { d with
    copies := [], coreUp := false, memUp := false, clock := if d.hot then 48 else 96, good := false, phys := [], spares := []
    badLanes := [], trained := false, memGood := false }

/-- The watchdog stops the Forum, the cores and the engines and discards the firmware; memory stays, and so do the measurements of
the ROM and the manifest (R443). Accesses from outside that wait for room are dropped (DESIGN CHOICE, assumption 42). -/
def stopModule (s : State) : State :=
  { s with
    groups := [], requests := [], cores := tabMap s.cores (fun c => { c.cleared with gens := [] }), clusters := [], dies := s.dies.map DieS.stopped
    watchers := [], contexts := [], pipes := [], queues := [], packets := [], waitItems := [], ringWaits := [], rebases := []
    host := { s.host with
      fw := [], err := false, drift := false, noman := false, hot := false, domctl := 0xFF, meas2 := 0
      idkey := 0, peerPorts := [], waits := [] } }

/-- Every storage element is cleared, the waiting accesses among them; the ROM goes on to read it back (R446). -/
def startScrub (s : State) : State :=
  let s := stopModule s
  { s with
    cores := [], slices := [], floors := [], hbm := [], hbmPoison := [], hbmMarked := [], frames := [], tableFrames := keptFrames, roots := [], badPtes := []
    pools := [], held := [], ctls := [], host := { s.host with scrubbing := true } }

/-- K_RECOVER (R448, R449): the watchdog serves it in every state. A scrub that is under way goes on (DESIGN CHOICE, assumption 42). -/
def recoveryTry (value : Word) (s : State) : Option State :=
  if s.host.boot = .off ∨ value.extractLsb' 0 16 ≠ 0xA5C then none
  else if value.getLsbD 16 then some (startScrub s)
  else some (enterBoot (stopModule s) .selftest)

def execRecovery (value : Word) (s : State) : Out := orSame s (recoveryTry value s)

def scrubTry (s : State) : Option State := if s.host.boot != .off then some (startScrub s) else none

def execScrub (s : State) : Out := orSame s (scrubTry s)

/-- At 110 °C the module stops as for recovery and stays FAILED, with the scrub that was under way (DESIGN CHOICE, assumption 42). -/
def tripTry (d : Nat) (s : State) : Option State :=
  if s.host.boot != .off && d < 4 then
    let s := stopModule s
    some (enterBoot { s with host := { s.host with hot := true, scrubbing := false } } .failed)
  else none

def execThermalTrip (die : Nat) (s : State) : Out := orSame s (tripTry die s)

/-- What remains when the power goes: the model's own fields, and the messages that were sent. -/
def execPowerLoss (s : State) : Out :=
  .next { State.reset with
    host := { HostS.reset with boot := .off, msix := s.host.msix, boots := s.host.boots }
    agenda := s.agenda, cur := s.cur, nextId := s.nextId, ticks := s.ticks, turns := s.turns }

def powerOnTry (s : State) : Option State := if s.host.boot = .off then some (enterBoot s .selftest) else none

def execPowerOn (s : State) : Out := orSame s (powerOnTry s)

/-! ### The ROM (R442 to R444) -/

/-- The units that the manifest names; one whose signature fails is ignored. -/
def manifestUnits (r : SelfTestReport) : List RepairUnit := if r.manifestGood then r.named else []
/-- The units that are repaired around: those that fail and those that the manifest names. -/
def repairUnits (r : SelfTestReport) : List RepairUnit := r.bad ++ manifestUnits r

/-- The good physical cores of a die in rising number, and the bad lanes of its enabled cores. -/
def goodCores (r : SelfTestReport) (d : Nat) : List Nat := (List.range 112).filter (fun k => !(repairUnits r).contains (.core d k))
def laneFaults (r : SelfTestReport) (d : Nat) (on : List Nat) : List (Nat × Nat × Nat) :=
  ((repairUnits r).filterMap (fun u => match u with
    | .lane d' k p l => if d' = d ∧ on.contains k then some (k, p, l) else none
    | .core .. => none)).eraseDups

/-- A die after its self-test: the 108 lowest good cores are enabled, and the others are its spares (R4, R443). A pipe of an
enabled core with more than two bad lanes keeps the core domain down. -/
def DieS.tested (x : DieS) (r : SelfTestReport) (d : Nat) : DieS :=
  let on := (goodCores r d).take 108
  let bad := laneFaults r d on
  { x with
    phys := on, spares := (List.range 112).filter (fun k => !on.contains k), badLanes := bad
    good := on.length == 108 && bad.all (fun a => (bad.filter (fun b => b.1 == a.1 && b.2.1 == a.2.1)).length ≤ 2) }

/-- The physical lane of a pipe that serves its logical lane: the good ones in rising number (DESIGN CHOICE, assumption 42). -/
def DieS.lane (x : DieS) (core pipe lane : Nat) : Option Nat :=
  ((List.range 34).filter (fun l => !x.badLanes.contains (x.phys.getD core 112, pipe, l)))[lane]?

/-- SELFTEST: each die chooses its cores and lanes, and the measurements and the identity key are taken. -/
def selftestTry (r : SelfTestReport) (s : State) : Option State :=
  if s.host.boot ≠ .selftest ∨ s.host.scrubbing then none
  else
    let s := (List.range 4).foldl (fun (s : State) d => s.modDie d (fun x => x.tested r d)) s
    let drift := r.otherDrift || r.bad.any (fun u => !(manifestUnits r).contains u)
    let s := { s with host := { s.host with
      drift := drift, noman := !r.manifestGood, meas0 := Config.romHash, meas1 := if r.manifestGood then r.manifestHash else 0
      idkey := Config.idKey s.host.boots, boots := s.host.boots + 1 } }
    if r.dieZeroGood then some (enterBoot s .train0) else some (enterBoot s .failed)

def execSelftest (report : SelfTestReport) (s : State) : Out := orSame s (selftestTry report s)

/-- TRAIN0 raises the memory domain of die 0. -/
def train0Try (good : Bool) (s : State) : Option State :=
  if s.host.boot ≠ .train0 ∨ s.host.scrubbing then none
  else if good then some (enterBoot (s.modDie 0 (fun x => { x with trained := true, memGood := true, memUp := true })) .load)
  else some (enterBoot s .failed)

def execTrain0 (good : Bool) (s : State) : Out := orSame s (train0Try good s)

/-- K_BOOTCMD: MEASURE hashes the image and starts it on the Forum; die 0 serves alone at 1.2 GHz. -/
def bootTry (s : State) : Option State :=
  if s.host.boot ≠ .load ∨ s.host.scrubbing then none
  else
    let n := s.host.fwlen.toNat
    if n = 0 ∨ n > 2 ^ 24 then some { s with host := { s.host with err := true } }
    else
      let s := enterBoot { s with host := { s.host with meas2 := sha384 (cellReads s.host.fw 0 n) } } .measure
      some ((enterBoot s .early).modDie 0 (fun x => { x with coreUp := x.good, clock := min 48 x.clock }))

def execBootStart (s : State) : Out := orSame s (bootTry s)

/-- The training of a die ends; after the third one every domain that passed is up and the state is RUN. -/
def earlyTry (d : Nat) (good : Bool) (s : State) : Option State :=
  if s.host.boot ≠ .early ∨ s.host.scrubbing ∨ d = 0 ∨ d ≥ 4 ∨ (s.die d).trained then none
  else
    let s := s.modDie d (fun x => { x with trained := true, memGood := good, memUp := good, coreUp := x.good && good })
    if (List.range 4).all (fun k => (s.die k).trained) then
      let s := enterBoot s .run
      some (s.modDie 0 (fun x => { x with clock := clockLimit s 0 }))
    else some s

def execEarly (die : Nat) (good : Bool) (s : State) : Out := orSame s (earlyTry die good s)

/-! ### Custody (R445 to R447) -/

/-- Bytes 0 to 191 of a record. -/
def recordBytes (h : HostS) (kind cover : Nat) (meas2 : BitVec 384) : List Byte :=
  valBytes 4 kind ++ valBytes 4 (bootStat h) ++ valBytes 32 h.nonce.toNat ++ valBytes 4 cover ++ valBytes 4 0 ++
    valBytes 48 h.meas0.toNat ++ valBytes 48 h.meas1.toNat ++ valBytes 48 meas2.toNat

/-- The signed record in K_RECORD. -/
def signRecord (s : State) (kind cover : Nat) (meas2 : BitVec 384) : State :=
  let b := recordBytes s.host kind cover meas2
  { s with host := { s.host with
    record := BitVec.ofNat 2304 (bytesVal (b ++ valBytes 96 (Config.sign s.host.boots b).toNat)) } }

def attestTry (s : State) : Option State := if s.host.boot != .off then some (signRecord s 1 0 s.host.meas2) else none

def execAttest (s : State) : Out := orSame s (attestTry s)

/-- The read-back is over: the record stands, and the ROM boots again. -/
def scrubDoneTry (cover : BitVec 11) (s : State) : Option State :=
  if s.host.scrubbing then
    let s := signRecord s 2 cover.toNat 0
    some (enterBoot { s with host := { s.host with scrubbing := false } } .selftest)
  else none

def execScrubComplete (cover : BitVec 11) (s : State) : Out := orSame s (scrubDoneTry cover s)

/-! ### The aperture and the firmware window (R436 to R438) -/

def hostProv : DWord := 0xFFFFFE
def hostProvOf (asid : Nat) : DWord := devProv asid hostProv.toNat

/-- The answer of a host or peer access: bytes, how it ended, and what became of each lane of an atomic. -/
def answerHost (s : State) (bs : List Byte) (code : Nat) (lanes : List Nat := []) : State :=
  { s with host := { s.host with answer := (bs, code), answerLanes := lanes } }

def inAperture (offset n : Nat) : Bool := decide (offset + n ≤ 2 ^ 36)

/-- A posted write: each line it touches is one write event. -/
def apertureWriteGo (s : State) (asid va : Nat) (bs : List Byte) : State :=
  match devWrite s 0 asid va bs 0 (hostProvOf asid) with
  | (s, .ok _) => s
  | (s, .error (cause, _)) => if cause = 5 ∨ cause = 6 then s.hostErr 1 else s

/-- A read that is not served answers bytes of 0xFF with Completer Abort. -/
def abortRead (s : State) (n : Nat) : State := answerHost s (List.replicate n 0xFF) 1

def apertureReadGo (s : State) (asid va n : Nat) : State :=
  match devRead s 0 asid va n 0 1 with
  | (s, .ok (b, _)) => answerHost s b 0
  | (s, .error (11, 3)) => answerHost s [] 2
  | (s, .error (cause, _)) =>
    let s := abortRead s n
    if cause = 5 ∨ cause = 6 then s.hostErr 1 else if cause = 7 then s.hostErr 0 else s

/-- Firmware memory is writable in LOAD only, and not while a scrub clears it; every other access completes with Completer Abort. -/
def firmwareGo (s : State) (offset : Nat) (bytes : Option (List Byte)) : State :=
  match bytes with
  | some bs =>
    if s.host.boot = .load ∧ s.host.scrubbing = false ∧ offset + bs.length ≤ 2 ^ 24 then
      { s with host := { s.host with fw := cellWrites s.host.fw offset bs } }
    else answerHost s [] 1
  | none => answerHost s [] 1

/-- A doorbell makes the Forum look at a queue again (R401, R438). -/
def doorbellGo (s : State) (queue : Nat) : State :=
  let q := queue % 4096
  if !forumRuns s then s
  else
    match tabGet? s.queues q with
    | some x => if x.mapped then (currentWrite s q x).1 else (loadQueue (s.modQueue q (fun y => { y with bad := false })) q).1
    | none => (loadQueue s q).1

/-! ### Peers that reach this module (R440, R441, R347) -/

/-- How an access that meets CAUSE and DETAIL ends. -/
def peerCode (cause detail : Nat) : Nat := if cause = 7 then 3 else if cause = 11 && detail = 3 then 2 else 1
def peerFail (s : State) (cause detail : Nat) : State := answerHost s [] (peerCode cause detail)

/-- What becomes of the lanes of an atomic of a peer: 0 performed, 4 deferred on an absent page, or refused with a code; `m` are the
bytes at hand. -/
def peerLanes (x : Performed) (size n : Nat) (m : BitVec 128) (cause detail : Nat) : List Nat :=
  (List.range n).map (fun k =>
    match x.un.find? (fun a => a.lane == k) with
    | none => 0
    | some a =>
      if byteMask (a.addr.toNat % 128) size &&& ~~~ m = 0 then 2 else if cause = 7 then 4 else peerCode cause detail)

/-- The lanes of an atomic of a peer that lie in one line, as one event at its home: those whose bytes are not at hand on an absent
page are deferred, and poison refuses its lanes; the others bring their old values back (R218, R226, R365, R441). -/
def peerAtomic (s : State) (asid va : Nat) (v : Nat) (t : Ty) (fadd : Bool) (lanes : List (Nat × DWord × DWord)) : State :=
  match mtuCheck s 0 asid va 27 with
  | (s, .error (c, d)) => peerFail s c d
  | (s, .ok r) =>
    match homeAccess s r asid va none with
    | (s, .error (c, d)) => peerFail s c d
    | (s, .ok (d, m, p, _, cause, detail)) =>
      let k : ReqKind := .atomic v fadd t false
      let slice := homeSlice r.place r.home va
      let x := performLanes k t.bytes (lanes.zipIdx.map (fun (a, n) => ⟨n, BitVec.ofNat 64 (va / 128 * 128 + a.1 % 128), a.2.1, a.2.2⟩)) d m p (cause, detail)
      let codes := peerLanes x t.bytes lanes.length m cause detail
      let answer (s : State) : State :=
        answerHost s (x.olds.flatMap (fun o => valBytes t.bytes o.2.toNat)) ((codes.find? (fun c => c != 0 && c != 4)).getD 0) codes
      let missed := x.un.filter (fun a => codes.getD a.lane 0 == 4)
      if x.mask = 0 && missed.isEmpty && !x.un.isEmpty then answer s
      else
        match homeWrite s slice (tagAsid asid va) (va / 128) 0 x.data x.mask 0 (hostProvOf asid) with
        | (s, none) => s
        | (s, some _) =>
          answer (missed.foldl (fun s a =>
            let r := deferOpAs s { Req.blank with asid := asid, kind := k, line := va / 128, size := t.bytes, slice := slice } a (hostProvOf asid) 0xFFFFFFFF
            if r.2 then r.1 else r.1.block) s)

/-- Size of an access and its alignment. -/
def peerSize (op : PeerOp) : Nat := match op with | .read n => n | .write bs => bs.length | .atomic _ t _ _ => t.bytes

def peerGo (s : State) (asid va : Nat) (op : PeerOp) : State :=
  if va % peerSize op ≠ 0 then answerHost s [] 1
  else
    match op with
    | .read n =>
      match devRead s 0 asid va n 0 1 with
      | (s, .ok (b, _)) => answerHost s b 0
      | (s, .error (c, d)) => peerFail s c d
    | .write bs =>
      match devWrite s 0 asid va bs 0 (hostProvOf asid) with
      | (s, .ok _) => answerHost s [] 0
      | (s, .error (c, d)) => peerFail s c d
    | .atomic v t fadd lanes => peerAtomic s asid va v.val t fadd lanes

/-! ### The order of accesses from outside (R369, R438) -/

def HostAccess.fromPeer (a : HostAccess) : Bool := a matches .peer ..

def hostGo (s : State) (a : HostAccess) : State :=
  match a with
  | .write asid va bs => apertureWriteGo s asid va bs
  | .read asid va n => apertureReadGo s asid va n
  | .firmware o bs => firmwareGo s o bs
  | .doorbell q => doorbellGo s q
  | .peer asid va op => peerGo s asid va op

/-- An access arrives. It goes behind those of its side that wait, and waits itself if it meets a set without room. -/
def offerHost (s : State) (a : HostAccess) : State :=
  let later (s : State) : State := { s with host := { s.host with waits := s.host.waits ++ [a] } }
  if s.host.waits.any (fun x => x.fromPeer == a.fromPeer) then later s
  else
    let t := hostGo s a
    if t.blocked then later { s with overflowed := t.overflowed } else t

/-- The first access of the host that waits, or else of the peers, if it meets room now. -/
def waitedTry (s : State) : Option State :=
  [false, true].findSome? (fun p =>
    match s.host.waits.zipIdx.find? (fun x => x.1.fromPeer == p) with
    | none => none
    | some (a, k) =>
      let t := hostGo { s with host := { s.host with waits := s.host.waits.eraseIdx k } } a
      if t.blocked then none else some t)

/-- The address of an aperture access: K_APBASE and K_APASID as they are when it arrives (R437, R438). -/
def apertureVa (s : State) (offset : Nat) : Nat := s.host.apbase.toNat + offset

/-- A posted write. An empty one lets an access that waits go on. -/
def apertureWriteTry (offset : Nat) (bs : List Byte) (s : State) : Option State :=
  if s.host.boot = .off ∨ inAperture offset bs.length = false then none
  else if bs.isEmpty then waitedTry s
  else some (offerHost s (.write (hostAsid s) (apertureVa s offset) bs))

def execApertureWrite (offset : Nat) (bytes : List Byte) (s : State) : Out := orSame s (apertureWriteTry offset bytes s)

def apertureReadTry (offset n : Nat) (s : State) : Option State :=
  if s.host.boot = .off ∨ inAperture offset n = false then none else some (offerHost s (.read (hostAsid s) (apertureVa s offset) n))

def execApertureRead (offset size : Nat) (s : State) : Out := orSame s (apertureReadTry offset size s)

def firmwareWindowTry (offset : Nat) (bytes : Option (List Byte)) (s : State) : Option State :=
  if s.host.boot = .off then none else some (offerHost s (.firmware offset bytes))

def execFirmwareWindowAccess (offset : Nat) (bytes : Option (List Byte)) (s : State) : Out :=
  orSame s (firmwareWindowTry offset bytes s)

def doorbellTry (queue : Nat) (s : State) : Option State :=
  if s.host.boot = .off then none else some (offerHost s (.doorbell queue))

def execDoorbell (queue : Nat) (s : State) : Out := orSame s (doorbellTry queue s)

def peerTry (asid va : Nat) (op : PeerOp) (s : State) : Option State :=
  if s.host.boot != .off && decide (asid < 256 ∧ peerSize op ∈ [1, 2, 4, 8, 16]) then some (offerHost s (.peer asid va op)) else none

def execPeerAccess (asid va : Nat) (op : PeerOp) (s : State) : Out := orSame s (peerTry asid va op s)

/-! ### Domains (R332, R452) -/

def setDomctl (s : State) (bit : Nat) (up : Bool) : State :=
  let m : Word := BitVec.ofNat 32 (2 ^ bit)
  { s with host := { s.host with domctl := if up then s.host.domctl ||| m else s.host.domctl &&& ~~~ m } }

/-- K_DOMCTL acts in RUN only, which a scrub does not leave before its end. -/
def domainsOpen (s : State) (d : Nat) : Bool := s.host.boot == .run && decide (d < 4)

/-- Contexts that hold a cluster on a die. -/
def contextsOn (s : State) (d : Nat) : List Nat :=
  (s.contexts.filter (fun c => c.2.clusters.any (fun k => clusterDie k == d))).map (fun c => c.1)

/-- Every context on the die is torn down, and the core domain falls. -/
def lowerCore (s : State) (d : Nat) : State :=
  let s := (contextsOn s d).foldl (fun s a => match s.context? a with | some c => (tearContext s a c).1 | none => s) s
  (setDomctl s d false).modDie d (fun x => { x with coreUp := false })

def raiseCore (s : State) (d : Nat) : State :=
  (setDomctl s d true).modDie d (fun x => { x with coreUp := x.good && x.memGood })

def lowerMem (s : State) (d : Nat) : State := (setDomctl s (4 + d) false).modDie d (fun x => { x with memUp := false })
def raiseMem (s : State) (d : Nat) : State := (setDomctl s (4 + d) true).modDie d (fun x => { x with memUp := x.memGood })

def domainTry (f : State → Nat → State) (d : Nat) (s : State) : Option State := if domainsOpen s d then some (f s d) else none

def execCoreDomainLower (die : Nat) (s : State) : Out := orSame s (domainTry lowerCore die s)
def execCoreDomainRaise (die : Nat) (s : State) : Out := orSame s (domainTry raiseCore die s)
def execMemoryDomainLower (die : Nat) (s : State) : Out := orSame s (domainTry lowerMem die s)
def execMemoryDomainRaise (die : Nat) (s : State) : Out := orSame s (domainTry raiseMem die s)

/-- A write of K_DOMCTL: every bit that changes lowers or raises its domain. -/
def writeDomctl (s : State) (v : Word) : State :=
  if !domainsOpen s 0 then s
  else
    (List.range 8).foldl (fun (s : State) k =>
      if v.getLsbD k == s.host.domctl.getLsbD k then s
      else if k < 4 then (if v.getLsbD k then raiseCore s k else lowerCore s k)
      else if v.getLsbD k then raiseMem s (k - 4) else lowerMem s (k - 4)) s

/-! ### The management window (R452) -/

/-- Replaces one half of a 64-bit register. -/
def setHalf (x : DWord) (high : Bool) (v : Word) : DWord :=
  if high then v ++ x.extractLsb' 0 32 else x.extractLsb' 32 32 ++ v

/-- A power cap in watts, limited to 150 to 700. -/
def capOf (v : Nat) : BitVec 16 := BitVec.ofNat 16 (max 150 (min 700 v))
def capPair (v : Word) : Word := capOf (v.toNat / 65536) ++ capOf (v.toNat % 65536)

/-- A host write of a register. Bits 17:0 of K_QTABLE, which R401 ignores, read back as written (DESIGN CHOICE, assumption 26: R452 has
the ignored bits of K_APBASE alone read as zero). -/
def hostWrite (s : State) (offset : Nat) (v : Word) : State :=
  let h := s.host
  let set (h : HostS) : State := { s with host := h }
  if offset = 0x04 then (if v = 1 then (bootTry s).getD s else s)
  else if offset = 0x08 then set { h with fwlen := v }
  else if offset = 0x10 then set { h with qtable := setHalf h.qtable false v }
  else if offset = 0x14 then set { h with qtable := setHalf h.qtable true v }
  else if offset = 0x18 then (doorbellTry (v.toNat % 4096) s).getD s
  else if offset = 0x24 then set { h with apbase := setHalf 0 true (v &&& 0xFFFFFFF0) }
  else if offset = 0x28 then set { h with apasid := v &&& 0xFF }
  else if offset = 0x2C then set { h with hosterr := h.hosterr &&& ~~~ v }
  else if offset = 0x30 then writeDomctl s v
  else if offset = 0x40 then set { h with pcap := setHalf h.pcap false (capPair v) }
  else if offset = 0x44 then set { h with pcap := setHalf h.pcap true (capPair v) }
  else if 0x100 ≤ offset ∧ offset < 0x120 ∧ offset % 4 = 0 then
    let m : BitVec 256 := BitVec.ofNat 256 (0xFFFFFFFF * 2 ^ (8 * (offset - 0x100)))
    set { h with nonce := (h.nonce &&& ~~~ m) ||| BitVec.ofNat 256 (v.toNat * 2 ^ (8 * (offset - 0x100))) }
  else if offset = 0x120 then
    (if v = 1 then (attestTry s).getD s else if v = 2 then (scrubTry s).getD s else s)
  else s

/-- What a host read of the management window returns at an offset (R452): the registers by offset, bytes and value. An offset
that no register has, and a register that is only written, read as zero. -/
def hostRegister (s : State) (offset : Nat) : Word :=
  let h := s.host
  let listed : List (Nat × Nat × Nat) :=
    [(0x00, 4, bootStat h), (0x08, 4, h.fwlen.toNat), (0x10, 8, h.qtable.toNat), (0x20, 8, h.apbase.toNat), (0x28, 4, h.apasid.toNat)
      , (0x2C, 4, h.hosterr.toNat), (0x30, 4, h.domctl.toNat), (0x40, 8, h.pcap.toNat)
      , (0x48, 4, (List.range 4).foldr (fun d v => (s.die d).clock % 256 + 256 * v) 0)
      , (0x50, 32, h.avstat.foldr (fun x v => x.toNat + 65536 * v) 0), (0x100, 32, h.nonce.toNat), (0x140, 48, h.meas0.toNat)
      , (0x170, 48, h.meas1.toNat), (0x1A0, 48, h.meas2.toNat), (0x1D0, 97, h.idkey.toNat), (0x400, 288, h.record.toNat)]
  match listed.find? (fun r => decide (r.1 ≤ offset ∧ offset < r.1 + r.2.1)) with
  | some r => BitVec.ofNat 32 (r.2.2 / 2 ^ (8 * (offset - r.1)))
  | none => 0

/-- The management window takes writes whenever there is power, a scrub or not. -/
def hostWriteTry (offset : Nat) (v : Word) (s : State) : Option State := if s.host.boot != .off then some (hostWrite s offset v) else none

def execHostRegisterWrite (offset : Nat) (value : Word) (s : State) : Out := orSame s (hostWriteTry offset value s)

/-! ### Links (R439, R441) -/

def setPort (s : State) (port : Nat) (v : BitVec 16) : State := { s with host := { s.host with avstat := s.host.avstat.set port v } }

/-- A link comes up and learns its partner's module number, a scrub or not. -/
def trainingTry (port module : Nat) (s : State) : Option State :=
  if s.host.boot != .off && port < 16 then some (setPort s port (BitVec.ofNat 16 (0x8000 + module % 4096))) else none

def execLinkTraining (port module : Nat) (s : State) : Out := orSame s (trainingTry port module s)

/-- A request that travels through a port: it has left, and its answer has not been taken. -/
def onPort (s : State) (port : Nat) (r : Req) : Bool :=
  match r.peer with
  | some e => r.phase != .queued && tabGet? s.host.peerPorts (portKey r.asid (peerModule e)) == some port
  | none => false

/-- The lanes that have not yet returned. -/
def Req.waiting (r : Req) : List LaneAcc :=
  match r.phase with
  | .ready vals un .. => r.lanes.filter (fun a => vals.any (fun v => v.1 % 96 == a.lane) || un.any (fun x => x.lane == a.lane))
  | _ => r.lanes

/-- A link goes down: what is in flight on it is refused, and its traffic looks for another port. -/
def linkDownTry (port : Nat) (s : State) : Option State :=
  if port < 16 && portUp s port then
    let s' := { s with requests := s.requests.map (fun r =>
      if onPort s port r then
        { r with phase := if r.isWrite then refuseWrite { r with lanes := r.waiting } (11, 4) else refuseAll r.waiting (11, 4) }
      else r) }
    let s' := { s' with host := { s'.host with peerPorts := s'.host.peerPorts.filter (fun x => x.2 != port) } }
    some (setPort s' port ((s.host.avstat.getD port 0) &&& 0x7FFF))
  else none

def execLinkDown (port : Nat) (s : State) : Out := orSame s (linkDownTry port s)

/-- A flit that fails its check is sent again: no flit is lost or reordered (R439). -/
def execFlitRetry (_port : Nat) (s : State) : Out := .next s

/-! ### Soft errors -/

def poisonLine (s : State) (slice asid line : Nat) (m : BitVec 128) : State :=
  s.setSlice slice ((s.slice slice).map (fun x =>
    if x.asid = asid ∧ x.line = line then { x with poison := x.poison ||| (m &&& knownBytes x) } else x))

/-- The contexts whose writes a held entry holds. -/
def heldOwners (h : Held) : List Nat :=
  match h.kind with
  | .data _ m _ =>
    (((List.range 4).filter (fun k => m &&& byteMask (32 * k) 32 != 0)).map (fun k => provAsid (provAt h.prov k))).eraseDups
  | .op .. => [provAsid (provAt h.prov 0)]

/-- An uncorrectable held entry keeps its place and replays its bytes as poisoned; it is reported with REASON 1 (R377). -/
def poisonHeld (s : State) (k : Nat) (h : Held) : State :=
  let (kind, addr) : HeldKind × Nat := match h.kind with
    | .data b m _ => (.data b m m, h.line * 128)
    | .op _ op t a _ _ =>
      let m := byteMask (a.toNat % 128) (opBytes op t)
      (.data 0 m m, a.toNat)
  let s := { s with held := s.held.set k { h with kind := kind } }
  (heldOwners h).foldl (fun s a => queueRec s a (recBody 8 a 1 7 0xFFFFFFFF addr 0 []) none (h.ctl / 2)) s

def softTry (e : SoftError) (s : State) : Option State :=
  if !moduleOn s then none
  else
    match e with
    | .corrected d => if d < 4 then some (s.modDie d (fun x => { x with errors := x.errors + 1 })) else none
    | .hbm k => if inMemory (32 * k) && !s.hbmPoison.contains k then some { s with hbmPoison := k :: s.hbmPoison } else none
    | .l2 slice asid line m => some (poisonLine s slice asid line m)
    | .l1 core asid line => some (l1Drop s core asid line)
    | .l1Corrected core => if core < 432 then some (s.modCore core (fun c => { c with errors := c.errors + 1 })) else none
    | .icache core asid line =>
      some (s.modCore core (fun c => { c with icache := c.icache.filter (fun x => !(x.asid == asid && x.line == line)) }))
    | .scratch core w =>
      if core < 432 ∧ w < 131072 then
        some (s.modCore core (fun c => { c with scratchPoison := if c.scratchPoison.contains w then c.scratchPoison else w :: c.scratchPoison }))
      else none
    | .tile core t =>
      if t < 16 then some (setTile s core t { tileOf s core t with poison := true }) else none
    | .register grp code =>
      (s.group? grp).map (fun g => s.setGroup grp (if g.poisonRegs.contains code then g else { g with poisonRegs := code :: g.poisonRegs }))
    | .held k => s.held[k]?.map (fun h => poisonHeld s k h)
    | .arcade p j num =>
      some (s.modPipe p (fun x => { x with stages := x.stages.mapIdx (fun i y =>
        if i = j then { y with slots := y.slots.map (fun z => if z.num = num then { z with poison := true } else z) } else y) }))
    | .pte pa => if s.badPtes.contains pa then none else some { s with badPtes := pa :: s.badPtes }

def execSoftError (e : SoftError) (s : State) : Out := orSame s (softTry e s)

end Sys2Proof.Machine
end

