-- ==== Sys2Proof/Machine/Arbiter.lean ====
section
/-! DEFINITION. Which turn comes next: the agenda's head, and with an empty agenda the turn that a fixed
arbiter picks (assumption 1). -/

namespace Sys2Proof.Machine

/-! ### The turns that may come next -/

/-- A turn with the state it leads to, if it is enabled in the state given. -/
abbrev Cand := Turn × (State → Option State)

def reqCands (s : State) : List Cand :=
  s.requests.flatMap (fun r =>
    [(.event (.renewal r.id), renewalTry r.id), (.event (.renewalReturn r.id), renewalReturnTry r.id),
     (.event (.loadReturn r.id allLanes), loadReturnTry r.id allLanes), (.event (.writeEvent r.id), writeEventTry r.id),
     (.event (.storeAck r.id), storeAckTry r.id), (.event (.atomicReturn r.id allLanes), atomicReturnTry r.id allLanes),
     (.event (.homeMissFill r.id), missTry r.id), (.event (.dsldTargetRead r.id), dsldTry r.id),
     (.event (.watchPoll r.grp), pollTry r.grp)])

def pendCands (g : Group) : List Cand :=
  g.pend.map (fun x =>
    (.event (match x.unit with
      | .sfu => .sfuResult x.id allLanes
      | .divide => .divideResult x.id allLanes
      | .cross => .crossLaneResult x.id allLanes
      | .join => .loadReturn x.id allLanes), fun s => deliverPend s x.id x.unit allLanes))

/-- A group's own turns; its next word is one of them whenever it may issue. -/
def groupCands (s : State) : List Cand :=
  s.groups.flatMap (fun p =>
    pendCands p.2 ++
    [(.event (.sleepExpiry p.1), sleepTry p.1), (.event (.icacheFill p.1), icacheTry p.1), (.event (.plbFill p.1), plbTry p.1),
     (.event (.driftRollover p.1), driftTry p.1), (.event (.schedulerDisplace p.1), displaceTry p.1),
     (.event (.migrateLand p.1), migrateLandTry p.1), (.issue p.1, fun s => if canRun s p.2 then some s else none)])

def coreCands (s : State) : List Cand :=
  s.cores.flatMap (fun p =>
    let k := p.1
    (p.2.deque ++ s.groups.filterMap (fun q => if q.2.core = k then q.2.running else none)).flatMap (fun e =>
      let n := e.serial.toNat
      [(.event (.entryTakeable k n), takeableTry k n), (.event (.stagingStart k n), stagingStartTry k n),
       (.event (.stagingFillComplete k n), stagingFillTry k n)]) ++
    (p.2.waiting.map (fun c => (.event (.commandAccept c.id), acceptTry c.id))) ++
    (p.2.epis.map (fun c => (.event (.epiComplete c.id), epiDone c.id))) ++
    [(.event (.mloopStart k), startTry k), (.event (.mloopStep k), stepTry k), (.event (.mzeroPerform k), mzeroTry k),
     (.event (.epiStart k), epiTry k), (.event (.groupStart k), groupStartTry k), (.event (.reserveStart k), reserveTry k),
     (.event (.recordTake k), recordTakeTry k), (.event (.drainSwitch k), drainTry k), (.event (.stealTransfer k true), transferTry k true),
     (.event (.stealAttempt k), stealTry k), (.event (.stealBackoffExpiry k), backoffTry k)] ++
    ((List.range 4).map (fun d => (.event (.tokenRefill k d), refillTry k d))))

def engineCands (s : State) : List Cand :=
  s.clusters.flatMap (fun p =>
    p.2.puts.flatMap (fun x => [(.event (.putStart x.id), putStartTry x.id), (.event (.putArrival x.id), putArrivalTry x.id)]) ++
    p.2.mcasts.flatMap (fun x =>
      [(.event (.mcastRead x.id), mcastReadTry x.id), (.event (.mcastGrant x.id), mcastGrantTry x.id)] ++
      x.left.map (fun k => (.event (.mcastDelivery x.id k), mcastDeliveryTry x.id k)))) ++
  (List.range 4).flatMap (fun d =>
    (s.die d).copies.flatMap (fun x =>
      [(.event (.copyStart x.id), copyStartTry x.id), (.event (.barrierArrival x.id), barrierArrivalTry x.id)] ++
      (match x.pieces.find? (fun k => !x.done.contains k) with
        | some k => [(.event (.copyPieceDone x.id k), copyPieceTry x.id k)]
        | none => [])))

def pipeCands (s : State) : List Cand :=
  s.pipes.flatMap (fun p =>
    p.2.stages.zipIdx.flatMap (fun (x, j) =>
      (.event (.enqWaitServed p.1 j), enqServeTry p.1 j) ::
      x.slots.map (fun y => (.event (.arcadeSlotVisible p.1 j y.num), slotVisibleTry p.1 j y.num))) ++
    [(.event (.roundaboutInterval p.1), intervalTry p.1)])

/-- A MAPOP packet that can be performed now. -/
def mapCand (s : State) (id : Nat) : List Cand :=
  match packetOf s id 3 with
  | none => []
  | some p =>
    let i : Option Instr := match p.at' 16 1 with
      | 1 => some (.mapopMap id) | 2 => some (.mapopClear id) | 3 => some (.mapopUnmap id) | 4 => some (.mapopProtect id)
      | 5 => some (.mapopPooladd id) | 6 => some (.mapopPooltake id) | 7 => some (.mapopSweep id) | 8 => some (.mapopSpill id)
      | 9 => some (.mapopCold id) | _ => none
    match i with
    | some i => [(.event i, fun s => if p.at' 16 1 = 1 then mapTry id s else if mapIdle s p then some s else none)]
    | none => []

def packetCands (s : State) : List Cand :=
  s.packets.flatMap (fun p =>
    let k := p.1
    mapCand s k ++
    [(.event (.barrierAnd k), barrierAndTry k), (.event (.signal k), signalTry k), (.event (.ctxopSave k), saveTry k),
     (.event (.ctxopRestore k), restoreTry k), (.event (.ctxopTeardown k), teardownTry k), (.event (.copyPacket k), copyPacketTry k),
     (.event (.launch k), launchTry k), (.event (.pipeline k), pipelineTry k), (.event (.allotmentPlacement k), placementTry k),
     (.event (.firmwarePacket k), firmwareTry k),
     (.event (.resumeSysret k), resumeTry k 1 true (fun s i => answerGroup s i resumeReturn)),
     (.event (.resumeFailTask k), resumeTry k 2 true (fun s i => answerGroup s i resumeFail)),
     (.event (.resumeReissue k), resumeTry k 3 false (fun s i => some (resumeItem s i))),
     (.event (.resumeFailItem k), resumeTry k 4 false (fun s i => some (failItem s i)))] ++
    (List.range 6).map (fun j => (.event (.barrierAndSettle k j), settleTry k j)))

def forumCands (s : State) : List Cand :=
  s.queues.flatMap (fun q =>
    [(.event (.queueMap q.1), queueMapTry q.1), (.event (.packetTake q.1), packetTakeTry q.1), (.event (.queueUnmap q.1), queueUnmapTry q.1)]) ++
  s.contexts.map (fun c => (.event (.contextEnd c.1), contextEndTry c.1)) ++
  (if s.host.waits.isEmpty then [] else [(.event (.apertureWrite 0 []), waitedTry)]) ++
  s.rebases.map (fun a => (.event (.rebase a), rebaseTry a)) ++
  s.ringWaits.map (fun x => (.event (.faultRingPoll x.id), ringTry x.id)) ++
  (List.range 8).map (fun g => (.event (.frameSweepAdvance g), sweepTry g))

def candidates (s : State) : List Cand :=
  reqCands s ++ groupCands s ++ coreCands s ++ engineCands s ++ pipeCands s ++ packetCands s ++ forumCands s

/-- The turn that the arbiter picks: the candidates in turn, from a place that moves on. -/
def arbiterTurn (s : State) : Option Turn :=
  let l := candidates s
  let k := s.turns % (l.length + 1)
  ((l.drop k ++ l.take k).find? (fun c => match c.2 s with | some t => !t.blocked || !t.overflowed.isEmpty | none => false)).map (fun c => c.1)

/-! ### The turn that is taken -/

/-- Takes the next turn. -/
def takeTurn (s : State) : State × Option Turn :=
  match s.agenda with
  | t :: r => ({ s with agenda := r }, some t)
  | [] => ({ s with turns := s.turns + 1 }, arbiterTurn s)

/-- A halted context that the Forum has still to save, once nothing of it has still to end (R168, R282, R417). -/
def toSave (s : State) : Option Nat :=
  (s.contexts.find? (fun c => c.2.st == .halted && !c.2.stopped && canStop s c.1)).map (fun c => c.1)

end Sys2Proof.Machine
end

