-- ==== Sys2Proof/Machine/Integer.lean ====
section
/-! DEFINITION. Integer, logic, shift, compare, select and move instructions (04 R97 to R103). -/

namespace Sys2Proof.Machine

/-- An exact integer result written under SAT or modulo 2^w (R97). -/
def intResult (t : Ty) (sat : Bool) (x : Int) : DWord × Flags :=
  if sat then let (y, c) := clampInt t x; (extendTo t (intBits t y), flagsOf c flagSAT)
  else (extendTo t (intBits t x), 0)

/-- A word of R97 from its exact result. -/
def integerOp (i : Instr) (w : W) (f : Int → Int → Int → Int) (s : State) : Out :=
  runCompute i w w.t.isWide none
    (fun _ _ x _ => intResult w.t w.sat (f (intVal w.t x.a.toNat) (intVal w.t x.b.toNat) (intVal w.t x.c.toNat))) s

def execAdd (w : W) (s : State) : Out := integerOp (.add w) w (fun a b _ => a + b) s
def execSub (w : W) (s : State) : Out := integerOp (.sub w) w (fun a b _ => a - b) s
def execMul (w : W) (s : State) : Out := integerOp (.mul w) w (fun a b _ => a * b) s
def execMulhi (w : W) (s : State) : Out := integerOp (.mulhi w) w (fun a b _ => (a * b) / (2 ^ w.t.bits : Nat)) s
def execMad (w : W) (s : State) : Out := integerOp (.mad w) w (fun a b c => a * b + c) s
def execAbs (w : W) (s : State) : Out := integerOp (.abs w) w (fun a _ _ => Int.ofNat a.natAbs) s
def execMin (w : W) (s : State) : Out := integerOp (.min w) w (fun a b _ => min a b) s
def execMax (w : W) (s : State) : Out := integerOp (.max w) w (fun a b _ => max a b) s

/-- A bitwise word: a result function of A, B and C that raises no flag (R98). The bits above a 32-bit
result are not written. -/
def bitOp (i : Instr) (w : W) (wide : Bool) (f : DWord → DWord → DWord → DWord) (s : State) : Out :=
  runCompute i w wide none (fun _ _ x _ => (f x.a x.b x.c, 0)) s

def execAnd (w : W) (s : State) : Out := bitOp (.and w) w w.t.isWide (fun a b _ => a &&& b) s
def execOr (w : W) (s : State) : Out := bitOp (.or w) w w.t.isWide (fun a b _ => a ||| b) s
def execXor (w : W) (s : State) : Out := bitOp (.xor w) w w.t.isWide (fun a b _ => a ^^^ b) s
def execNot (w : W) (s : State) : Out := bitOp (.not w) w w.t.isWide (fun a _ _ => ~~~ a) s

/-- The shifts of R99 on `w` bits by an unsigned amount. -/
def shiftLeft (w a n : Nat) : Nat := if n ≥ w then 0 else a * 2 ^ n % 2 ^ w
def shiftRight (w a n : Nat) : Nat := if n ≥ w then 0 else a / 2 ^ n
def shiftArith (w a n : Nat) : Nat :=
  let neg := a / 2 ^ (w - 1) % 2 = 1
  if n ≥ w then (if neg then 2 ^ w - 1 else 0)
  else a / 2 ^ n + (if neg then 2 ^ w - 2 ^ (w - n) else 0)
def rotateLeft (w a n : Nat) : Nat :=
  let k := n % w
  if k = 0 then a else a * 2 ^ k % 2 ^ w + a / 2 ^ (w - k)

/-- A shift word: B is a 32-bit operand for both types (R99). -/
def shiftOp (i : Instr) (w : W) (f : Nat → Nat → Nat → Nat) (s : State) : Out :=
  bitOp i w w.t.isWide (fun a b _ => BitVec.ofNat 64 (f w.t.bits a.toNat b.toNat)) s

def execShl (w : W) (s : State) : Out := shiftOp (.shl w) w shiftLeft s
def execShr (w : W) (s : State) : Out := shiftOp (.shr w) w shiftRight s
def execSar (w : W) (s : State) : Out := shiftOp (.sar w) w shiftArith s
def execRot (w : W) (s : State) : Out := shiftOp (.rot w) w rotateLeft s

/-- The counts of R100. -/
def countLeading (w a : Nat) : Nat := if a = 0 then w else w - 1 - Nat.log2 a
def countOnes (w a : Nat) : Nat := ((List.range w).filter (fun k => a.testBit k)).length
def reverseBits (w a : Nat) : Nat := (List.range w).foldl (fun r k => if a.testBit k then r + 2 ^ (w - 1 - k) else r) 0
def findLowest (w a : Nat) : Nat := ((List.range w).find? (fun k => a.testBit k)).getD 0xFFFFFFFF

def execClz (w : W) (s : State) : Out := bitOp (.clz w) w false (fun a _ _ => BitVec.ofNat 64 (countLeading w.t.bits a.toNat)) s
def execPopc (w : W) (s : State) : Out := bitOp (.popc w) w false (fun a _ _ => BitVec.ofNat 64 (countOnes w.t.bits a.toNat)) s
def execBrev (w : W) (s : State) : Out :=
  bitOp (.brev w) w w.t.isWide (fun a _ _ => BitVec.ofNat 64 (reverseBits w.t.bits a.toNat)) s
def execFfs (w : W) (s : State) : Out := bitOp (.ffs w) w false (fun a _ _ => BitVec.ofNat 64 (findLowest w.t.bits a.toNat)) s

/-- The relations of R101. -/
def intRel (v : Nat) (a b : Int) : Bool :=
  if v = 0 then a == b else if v = 1 then a != b else if v = 2 then decide (a < b) else if v = 3 then decide (a ≤ b)
  else if v = 4 then decide (a > b) else decide (a ≥ b)

/-- A comparison writes the bits of the lanes of em of a mask triple (R101, R106). -/
def compareOp (i : Instr) (w : W) (f : Group → Srcs → Bool × Flags) (s : State) : Out :=
  runWord i w false s fun s grp g =>
    let em := emOf g w
    let res := (maskLanes em).map (fun l => (l, f g (srcsAt g i w l)))
    let set := lanesMask ((res.filter (fun r => r.2.1)).map (fun r => r.1))
    match w.d with
    | .s n =>
      let g' := (g.setTriple n ((g.triple n &&& ~~~ em) ||| set)).unpoison [256 + n.val, 257 + n.val, 258 + n.val]
      .done (raiseFlags (s.setGroup grp g') grp (orFlags (res.map (fun r => r.2.2))) (logLane (res.map (fun r => (r.1, r.2.2)))) 63 g.pc)
    | _ => .done s

def execCmp (w : W) (s : State) : Out :=
  compareOp (.cmp w) w (fun _ x => (intRel w.v.val (intVal w.t x.a.toNat) (intVal w.t x.b.toNat), 0)) s

/-- sel (R102): the vector form reads a triple in C, the scalar form a 32-bit value. -/
def execSel (w : W) (s : State) : Out :=
  runCompute (.sel w) w w.t.isWide none
    (fun g vec x l =>
      let c : Bool := match vec, w.c with
        | true, .s n => (g.triple n).getLsbD l
        | _, _ => x.c != 0
      (if c then x.a else x.b, 0)) s

def execMov (w : W) (s : State) : Out := bitOp (.mov w) w w.t.isWide (fun a _ _ => a) s
def execMovi (w : W) (s : State) : Out := bitOp (.movi w) w w.t.isWide (fun _ _ _ => w.imm.zeroExtend 64) s
/-- movi.hi.b64 writes the odd register alone (R103). -/
def execMoviHi (w : W) (s : State) : Out :=
  runCompute (.moviHi w) { w with d := oddOf w.d } false none (fun _ _ _ _ => (w.imm.zeroExtend 64, 0)) s

end Sys2Proof.Machine
end

