-- ==== Sys2Proof/Machine/Floating.lean ====
section
/-! DEFINITION. Floating-point instructions (04 R104 to R109). -/

namespace Sys2Proof.Machine

/-- A value of a type as an operation reads it, a subnormal flushed under FTZ (R50). -/
def readF (t : Ty) (ftz : Bool) (x : DWord) : FVal :=
  let v := fdecode t (srcBits t x)
  if ftz then flushIn t v else v

/-- A floating-point word: `f` gets the mode, FTZ and the decoded A, B and C. -/
def floatOp (i : Instr) (w : W) (u : Option ResUnit) (f : Nat → Bool → FVal → FVal → FVal → Nat × Flags) (s : State) : Out :=
  runCompute i w w.t.isWide u
    (fun g vec x _ =>
      let z := ftzOf g w.t vec
      let r := f (rndMode g w.rnd) z (readF w.t z x.a) (readF w.t z x.b) (readF w.t z x.c)
      (BitVec.ofNat 64 r.1, r.2)) s

def execFadd (w : W) (s : State) : Out := floatOp (.fadd w) w none (fun m z a b _ => faddV w.t m z a b) s
/-- A − B: a NaN in B keeps its sign (R43). -/
def execFsub (w : W) (s : State) : Out := floatOp (.fsub w) w none (fun m z a b _ => faddV w.t m z a (fneg b)) s
def execFmul (w : W) (s : State) : Out := floatOp (.fmul w) w none (fun m z a b _ => fmulV w.t m z a b) s
def execFfma (w : W) (s : State) : Out := floatOp (.ffma w) w none (fun m z a b c => ffmaV w.t m z a b c) s
def execFdiv (w : W) (s : State) : Out := floatOp (.fdiv w) w (some .divide) (fun m z a b _ => fdivV w.t m z a b) s
def execFsqrt (w : W) (s : State) : Out := floatOp (.fsqrt w) w (some .divide) (fun m z a _ _ => fsqrtV w.t m z a) s
def execFrnd (w : W) (s : State) : Out := floatOp (.frnd w) w none (fun m _ a _ _ => frndV w.t m a) s

/-- fmin and fmax (R105). -/
def minmaxOp (i : Instr) (w : W) (wantMax : Bool) (s : State) : Out :=
  runCompute i w w.t.isWide none
    (fun g vec x _ =>
      let r := fminmax w.t (ftzOf g w.t vec) wantMax (srcBits w.t x.a) (srcBits w.t x.b)
      (BitVec.ofNat 64 r.1, r.2)) s

def execFmin (w : W) (s : State) : Out := minmaxOp (.fmin w) w false s
def execFmax (w : W) (s : State) : Out := minmaxOp (.fmax w) w true s

def execFcmp (w : W) (s : State) : Out :=
  compareOp (.fcmp w) w (fun g x => fcmpV w.t (ftzOf g w.t true) w.v.val (srcBits w.t x.a) (srcBits w.t x.b)) s

/-- fclass writes one 32-bit register, whatever the width of A (R107). -/
def execFclass (w : W) (s : State) : Out :=
  runCompute (.fclass w) w false none (fun _ _ x _ => (BitVec.ofNat 64 (fclassV w.t (srcBits w.t x.a)), 0)) s

end Sys2Proof.Machine
end

