-- ==== Sys2Proof/Machine/Convert.lean ====
section
/-! DEFINITION. Conversions, packing and bitfields (04 R110 to R116). -/

namespace Sys2Proof.Machine

/-- A stochastic rounding adds 1 to K_SRSEED once the word completes, when em is not empty (R49). -/
def bumpSeed (w : W) (rnd : Nat) (o : Out) (s0 : State) : Out :=
  match o with
  | .next s =>
    match s0.group? s0.cur, s.group? s0.cur with
    | some g0, some g =>
      if rnd = 5 ∧ emOf g0 w ≠ 0 ∧ g.issued ≠ g0.issued then .next (s.setGroup s0.cur { g with srseed := g.srseed + 1 }) else .next s
    | _, _ => .next s
  | o => o

/-- One value converted, with the element index of its place (R48). A scalar form uses lane 0. -/
def convLane (g : Group) (td ts : Ty) (rnd elem : Nat) (sat vec : Bool) (lane : Nat) (x : DWord) : Nat × Flags :=
  convert td ts (rndMode g rnd) (if rnd = 5 then srRandom g.srseed (if vec then lane else 0) elem else 0) sat (srcBits ts x)

def execCvt (w : W) (s : State) : Out :=
  bumpSeed w w.rnd (runCompute (.cvt w) w w.t.isWide none
    (fun g vec x l =>
      let r := convLane g w.t w.srcTy w.rnd 0 w.sat vec l x.a
      (if w.t.isFp then BitVec.ofNat 64 r.1 else extendTo w.t r.1, r.2)) s) s

/-- Value `p` of a packed element replaced (R41). -/
def packInto (t : Ty) (d : DWord) (p v : Nat) : DWord := setField d (t.bits * p) t.bits v

def execPk (w : W) (s : State) : Out :=
  bumpSeed w w.rnd (runCompute (.pk w) w false none
    (fun g vec x l =>
      let p := w.imm.toNat
      let r0 := convLane g w.t w.srcTy w.rnd p w.sat vec l x.a
      let r1 := convLane g w.t w.srcTy w.rnd (p + 1) w.sat vec l x.b
      (packInto w.t (packInto w.t x.d p r0.1) (p + 1) r1.1, r0.2 ||| r1.2)) s) s

/-- upk widens exactly (R112). -/
def execUpk (w : W) (s : State) : Out :=
  runCompute (.upk w) w false none
    (fun _ _ x _ =>
      let v := x.a.toNat / 2 ^ (w.t.bits * w.imm.toNat) % 2 ^ w.t.bits
      let r := convert w.srcTy w.t 0 0 false v
      (BitVec.ofNat 64 (r.1 % 2 ^ 32), r.2)) s

/-- mxs (R113): an exact scaling, then one conversion. -/
def execMxs (w : W) (s : State) : Out :=
  bumpSeed w w.rnd (runCompute (.mxs w) w false none
    (fun g vec x l =>
      let p := w.imm.toNat
      let sc := x.b.toNat % 256
      let a := fdecode .f32 (srcBits .f32 x.a)
      let nv := flagsOf (isSnan a) flagNV
      let y : FVal := match a with
        | .nan s _ fr => .nan s true (if fr ≥ 2 ^ 22 then fr else fr + 2 ^ 22)
        | .num s m e => if sc = 255 then .nan false true (2 ^ 22) else .num s m (e + 127 - Int.ofNat sc)
        | .inf s => if sc = 255 then .nan false true (2 ^ 22) else .inf s
      let rnd := if w.rnd = 5 then srRandom g.srseed (if vec then l else 0) p else 0
      let r := convFloat w.t .f32 (rndMode g w.rnd) rnd w.sat y
      (packInto w.t x.d p r.1, r.2 ||| nv)) s) s

/-- bfx (R114): bits of A extended without bound. -/
def bitExtract (signed : Bool) (a o c : Nat) : Nat :=
  let n := min c 32
  if n = 0 then 0
  else
    let e : Int := if signed ∧ a ≥ 2 ^ 31 then Int.ofNat a - (2 ^ 32 : Nat) else Int.ofNat a
    let f := ((if o ≥ 64 then (if e < 0 then -1 else 0) else e / (2 ^ o : Nat)) % (2 ^ n : Nat)).toNat
    if signed ∧ f ≥ 2 ^ (n - 1) then f + 2 ^ 32 - 2 ^ n else f

/-- bfi (R115). -/
def bitInsert (d a o c : Nat) : Nat :=
  let n := min c 32
  (List.range 32).foldl (fun r j =>
    if (if o ≤ j ∧ j < o + n then a.testBit (j - o) else d.testBit j) then r + 2 ^ j else r) 0

/-- fsh (R116). -/
def funnel (right : Bool) (a b c : Nat) : Nat :=
  let n := min c 32
  let t := a * 2 ^ 32 + b
  if right then t / 2 ^ n % 2 ^ 32 else t * 2 ^ n % 2 ^ 64 / 2 ^ 32

def execBfx (w : W) (s : State) : Out :=
  bitOp (.bfx w) w false (fun a b c => BitVec.ofNat 64 (bitExtract (w.v == 0) a.toNat b.toNat c.toNat)) s
def execBfi (w : W) (s : State) : Out :=
  runCompute (.bfi w) w false none (fun _ _ x _ => (BitVec.ofNat 64 (bitInsert x.d.toNat x.a.toNat x.b.toNat x.c.toNat), 0)) s
def execFsh (w : W) (s : State) : Out :=
  bitOp (.fsh w) w false (fun a b c => BitVec.ofNat 64 (funnel (w.v == 1) a.toNat b.toNat c.toNat)) s

/-! ### Paired words (R76 to R79) -/

/-- The result of a pipe A half in a lane. -/
def halfA (g : Group) (o : HopA) (rnd : Nat) (a b c : DWord) : DWord × Flags :=
  let t : Ty := match o with | .fadd16 | .fsub16 | .fmul16 | .ffma16 | .fmin16 | .fmax16 => .f16 | _ => .f32
  let z := ftzOf g t true
  let m := rndMode g rnd
  let va := readF t z a
  let vb := readF t z b
  let r : Nat × Flags := match o with
    | .fadd32 | .fadd16 => faddV t m z va vb
    | .fsub32 | .fsub16 => faddV t m z va (fneg vb)
    | .fmul32 | .fmul16 => fmulV t m z va vb
    | .ffma32 | .ffma16 => ffmaV t m z va vb (readF t z c)
    | .fmin32 | .fmin16 => fminmax t z false (srcBits t a) (srcBits t b)
    | .fmax32 | .fmax16 => fminmax t z true (srcBits t a) (srcBits t b)
  (BitVec.ofNat 64 r.1, r.2)

/-- The result of a pipe B half in a lane. -/
def halfB (o : HopB) (a b c d : DWord) : DWord :=
  let n (x : Nat) : DWord := BitVec.ofNat 64 x
  match o with
  | .addI => (intResult .i32 false (intVal .i32 a.toNat + intVal .i32 b.toNat)).1
  | .subI => (intResult .i32 false (intVal .i32 a.toNat - intVal .i32 b.toNat)).1
  | .andB => a &&& b | .orB => a ||| b | .xorB => a ^^^ b
  | .shlB => n (shiftLeft 32 a.toNat b.toNat)
  | .shrB => n (shiftRight 32 a.toNat b.toNat)
  | .sarB => n (shiftArith 32 a.toNat b.toNat)
  | .minI => (intResult .i32 false (min (intVal .i32 a.toNat) (intVal .i32 b.toNat))).1
  | .maxI => (intResult .i32 false (max (intVal .i32 a.toNat) (intVal .i32 b.toNat))).1
  | .minZ => n (min a.toNat b.toNat) | .maxZ => n (max a.toNat b.toNat)
  | .movB => a
  | .bfxI => n (bitExtract true a.toNat b.toNat c.toNat)
  | .bfxZ => n (bitExtract false a.toNat b.toNat c.toNat)
  | .bfi => n (bitInsert d.toNat a.toNat b.toNat c.toNat)
  | .fshL => n (funnel false a.toNat b.toNat c.toNat)
  | .fshR => n (funnel true a.toNat b.toNat c.toNat)
  | .popcB => n (countOnes 32 a.toNat) | .clzB => n (countLeading 32 a.toNat) | .notB => ~~~ a
  | .mulZ => n (a.toNat * b.toNat % 2 ^ 32)

/-- A lane of the register that a half field names. -/
def halfSrc (g : Group) (r : Fin 256) (lane : Nat) : DWord := (g.v r.val lane).zeroExtend 64

/-- A paired word (R79): both halves read before either writes, each under its own mask. -/
def execPairedWord (oa : HopA) (ha : Half) (ob : HopB) (hb : Half) (s : State) : Out :=
  let grp := s.cur
  match s.group? grp with
  | none => .next s
  | some _ =>
    let s := issueTick s grp
    match s.group? grp with
    | none => .next s
    | some g =>
      let ma := g.em ha.ms.val false
      let mb := g.em hb.ms.val false
      let ra := (maskLanes ma).map (fun l => (l, halfA g oa ha.rnd.val (halfSrc g ha.a l) (halfSrc g ha.b l) (halfSrc g ha.c l)))
      let fl := ra.map (fun r => (r.1, r.2.2))
      let fb (l : Nat) : DWord := halfB ob (halfSrc g hb.a l) (halfSrc g hb.b l) (halfSrc g hb.c l) (halfSrc g hb.d l)
      let g1 := writeDst g (.v ha.d) false ma (fun l => (tabGet ra l (0, 0)).1)
      let g2 := writeDst g1 (.v hb.d) false mb fb
      finishWord grp g (.done (raiseFlags (s.setGroup grp g2) grp (orFlags (fl.map (fun r => r.2))) (logLane fl) 63 g.pc))

end Sys2Proof.Machine
end

