-- ==== Sys2Proof/Machine/Lanes.lean ====
section
/-! DEFINITION. Lanes: shuffles, votes, match, reductions and scans (05 R120 to R129, 02 R55 to R57). -/

namespace Sys2Proof.Machine

/-- A vector result that is written at once (fixed latency) or returns later (R121). -/
def laneResult (i : Instr) (w : W) (wide fixed : Bool) (f : Group → Nat → DWord) (s : State) : Out :=
  runWord i w false s (fun s grp g =>
    let em := emOf g w
    if em = 0 then .done s
    else if fixed then .done (s.setGroup grp (writeDst g w.d wide em (f g)))
    else startUnit s grp g .cross (dstCells w.d wide (maskLanes em) (f g)) 0 0xFF)

/-- The position of the source lane of shfl, relative to its window, or none outside it (R124). -/
def shflPos (v : Nat) (bt : Bool) (p n : Nat) : Option Nat :=
  let size := if bt then 32 else 96
  let m := if bt then n % 32 else n
  let k : Int := match v with
    | 0 => Int.ofNat m
    | 1 => Int.ofNat p - Int.ofNat n
    | 2 => Int.ofNat p + Int.ofNat n
    | 3 => Int.ofNat (p ^^^ m)
    | _ => Int.ofNat ((p + n) % size)
  if 0 ≤ k ∧ k < Int.ofNat size then some k.toNat else none

def execShfl (w : W) (s : State) : Out :=
  laneResult (.shfl w) w w.t.isWide w.x
    (fun g l =>
      let base := if w.x then 32 * (l / 32) else 0
      let n := (srcsAt g (.shfl w) w l).b.toNat
      let j := match shflPos w.v.val w.x (l - base) n with | some k => base + k | none => l
      (srcsAt g (.shfl w) w j).a) s

def execBcast (w : W) (s : State) : Out :=
  laneResult (.bcast w) w w.t.isWide w.x
    (fun g l =>
      let n := (opd32 g w.imm w.b l).toNat
      let j := if w.x then 32 * (l / 32) + n % 32 else if n ≤ 95 then n else l
      (srcsAt g (.bcast w) w j).a) s

def execMatchLanes (w : W) (s : State) : Out :=
  laneResult (.matchLanes w) w false false
    (fun g l =>
      let a (j : Nat) := (srcsAt g (.matchLanes w) w j).a
      let x := a l
      BitVec.ofNat 64 (((maskLanes (emOf g w)).find? (fun j => a j == x)).getD l)) s

/-! ### vote (R126) -/

/-- The lanes whose predicate holds. -/
def votePred (g : Group) (a : Opd) : LaneMask :=
  match a with
  | .v n => lanesMask ((List.range 96).filter (fun i => g.v n i != 0))
  | .s n => g.triple n
  | _ => 0

def voteValue (v : Nat) (em pred : LaneMask) : Nat :=
  let hit := em &&& pred
  if v = 0 then (if hit = 0 then 0 else 1) else if v = 1 then (if hit = em then 1 else 0) else (maskLanes hit).length

def execVote (w : W) (s : State) : Out :=
  runWord (.vote w) w false s (fun s grp g =>
    let em := emOf g w
    let pred := votePred g w.a
    if w.v = 2 then
      .done (s.setGroup grp (match w.d with
        | .s n => (g.setTriple n (em &&& pred)).unpoison [256 + n.val, 257 + n.val, 258 + n.val]
        | _ => g))
    else .done (s.setGroup grp (writeDst g w.d false em (fun _ => BitVec.ofNat 64 (voteValue w.v.val em pred)))))

/-! ### The tree of R55 and the network of R56 -/

/-- A combination of two sides, either of which may be absent (R55). The flags are those so far. -/
def joinSides (f : Nat → Nat → Nat × Flags) (x y : Option Nat) (fl : Flags) : Option Nat × Flags :=
  match x, y with
  | some a, some b => let r := f a b; (some r.1, fl ||| r.2)
  | some a, none => (some a, fl)
  | none, y => (y, fl)

/-- One level of the tree. -/
def treeLevel (f : Nat → Nat → Nat × Flags) (l : List (Option Nat)) (fl : Flags) : List (Option Nat) × Flags :=
  match l with
  | x :: y :: r =>
    let (z, fl) := joinSides f x y fl
    let (rest, fl) := treeLevel f r fl
    (z :: rest, fl)
  | r => (r, fl)

def treeLevels (f : Nat → Nat → Nat × Flags) (n : Nat) (l : List (Option Nat)) (fl : Flags) : List (Option Nat) × Flags :=
  match n with
  | 0 => (l, fl)
  | n + 1 => let (l, fl) := treeLevel f l fl; treeLevels f n l fl

/-- The reduction of R55. -/
def reduceTree (f : Nat → Nat → Nat × Flags) (l : List (Option Nat)) : Option Nat × Flags :=
  match treeLevels f 5 l 0 with
  | ([a, b, c], fl) => let (ab, fl) := joinSides f a b fl; joinSides f ab c fl
  | (_, fl) => (none, fl)

/-- One distance of the network of R56 within the beats; each lane carries the flags of its combinations. -/
def scanStep (f : Nat → Nat → Nat × Flags) (dist : Nat) (l : List (Option Nat × Flags)) : List (Option Nat × Flags) :=
  (List.range l.length).map (fun i =>
    let x := l.getD i (none, 0)
    if i % 32 ≥ dist then joinSides f (l.getD (i - dist) (none, 0)).1 x.1 x.2 else x)

/-- The inclusive scan of R56: a value and the flags of the combinations formed at each lane. -/
def scanNetwork (f : Nat → Nat → Nat × Flags) (l : List (Option Nat)) : List (Option Nat × Flags) :=
  let r := [1, 2, 4, 8, 16].foldl (fun l d => scanStep f d l) (l.map (fun x => (x, 0)))
  let t0 := (r.getD 31 (none, 0)).1
  let b1 := (r.getD 63 (none, 0)).1
  let t1 := joinSides f t0 b1 0
  (List.range 96).map (fun i =>
    let x := r.getD i (none, 0)
    if i < 32 then x else if i < 64 then joinSides f t0 x.1 x.2 else joinSides f t1.1 x.1 x.2)

/-! ### Reductions and scans (R128, R129) -/

inductive RedOp where
  | sum | min | max | and | or
deriving DecidableEq, Repr

/-- The combination of two sides for a type. -/
def redNode (o : RedOp) (t : Ty) (mode : Nat) (ftz sat : Bool) (a b : Nat) : Nat × Flags :=
  match o with
  | .and => (a &&& b, 0)
  | .or => (a ||| b, 0)
  | .sum =>
    if t.isFp then
      let rd (x : Nat) := let v := fdecode t x; if ftz then flushIn t v else v
      faddV t mode ftz (rd a) (rd b)
    else
      let x := intVal t a + intVal t b
      if sat then let (y, c) := clampInt t x; (intBits t y, flagsOf c flagSAT) else (intBits t x, 0)
  | .min => if t.isFp then fminmax t ftz false a b else (intBits t (min (intVal t a) (intVal t b)), 0)
  | .max => if t.isFp then fminmax t ftz true a b else (intBits t (max (intVal t a) (intVal t b)), 0)

/-- The identity of R55 and R128. -/
def redIdentity (o : RedOp) (t : Ty) : Nat :=
  match o with
  | .sum | .or => 0
  | .and => 2 ^ t.bits - 1
  | .min => if t.isFp then (fmtOf t).infCode else intBits t (intMax t)
  | .max => if t.isFp then (fmtOf t).signBit true + (fmtOf t).infCode else intBits t (intMin t)

/-- A result as a register holds it. -/
def redExtend (t : Ty) (x : Nat) : DWord := if t.isInt then extendTo t x else BitVec.ofNat 64 x

/-- The source values of the lanes of em, a subnormal one read as a zero under FTZ (R50). -/
def redSources (g : Group) (i : Instr) (w : W) (em : LaneMask) : List (Option Nat) :=
  (List.range 96).map (fun l => if em.getLsbD l then some (flushBits w.t (ftzOf g w.t true) (srcBits w.t (srcsAt g i w l).a)) else none)

/-- A reduction in the group form (R120): a scalar D is written even when em is empty. -/
def reduceOp (i : Instr) (w : W) (o : RedOp) (s : State) : Out :=
  runWord i w false s (fun s grp g =>
    let em := emOf g w
    let r := reduceTree (redNode o w.t (rndMode g w.rnd) (ftzOf g w.t true) w.sat) (redSources g i w em)
    let val := redExtend w.t (r.1.getD (redIdentity o w.t))
    let isVec := match w.d with | .v _ => true | _ => false
    if em = 0 ∧ isVec = true then .done s
    else startUnit s grp g .cross (dstCells w.d w.t.isWide (maskLanes em) (fun _ => val)) r.2 0xFF)

def execRedsum (w : W) (s : State) : Out := reduceOp (.redsum w) w .sum s
def execRedmin (w : W) (s : State) : Out := reduceOp (.redmin w) w .min s
def execRedmax (w : W) (s : State) : Out := reduceOp (.redmax w) w .max s
def execRedand (w : W) (s : State) : Out := reduceOp (.redand w) w .and s
def execRedor (w : W) (s : State) : Out := reduceOp (.redor w) w .or s

/-- The combination that V of scan names. -/
def scanKind (v : Nat) : RedOp := if v = 0 then .sum else if v = 1 then .min else if v = 2 then .max else if v = 3 then .and else .or

/-- The scan of R129. A combination counts as raised by the lane at which the network forms it, be that lane in em or not
(DESIGN CHOICE, assumption 53: R141 says only that LANE is the lowest lane that raised the condition). -/
def execScan (w : W) (s : State) : Out :=
  runWord (.scan w) w false s (fun s grp g =>
    let em := emOf g w
    if em = 0 then .done s
    else
      let o := scanKind w.v.val
      let r := scanNetwork (redNode o w.t (rndMode g w.rnd) (ftzOf g w.t true) w.sat) (redSources g (.scan w) w em)
      let fl := r.map (fun x => x.2)
      let inc (l : Nat) : Nat := ((r.getD l (none, 0)).1).getD (redIdentity o w.t)
      let val (l : Nat) : Nat :=
        if w.x then
          match ((List.range l).filter (fun j => em.getLsbD j)).getLast? with
          | some j => inc j
          | none => redIdentity o w.t
        else inc l
      startUnit s grp g .cross (dstCells w.d w.t.isWide (maskLanes em) (fun l => redExtend w.t (val l)))
        (orFlags fl) (logLane ((List.range 96).map (fun l => (l, fl.getD l 0)))))

end Sys2Proof.Machine
end

