-- ==== Sys2Proof/Machine/Special.lean ====
section
/-! DEFINITION. The special functions of the SFU (04 R117 to R119): the exact and special cases of R118, and
outside them a free value that R119 bounds (assumption 10). Exact values are numbers with 256 fraction
bits, good to far below the bounds of R119. -/

namespace Sys2Proof.Machine

/-! ### Real functions on numbers with 256 fraction bits -/

/-- The factor 2^256. -/
def fix1 : Nat := 2 ^ 256
/-- ln 2 and pi. -/
def fixLn2 : Nat := 80260960185991308862233904206310070533990667611589946606122867505419956976171
def fixPi : Nat := 363771576891766324280234942777729862653393377328392429958772151117938894466185

/-- A finite value as a number with 256 fraction bits; exact for .f32 and .f16. -/
def fixOf (v : FVal) : Int :=
  match v with
  | .num s m e => let x : Int := Int.ofNat (m * pow2 (e + 256)); if s then -x else x
  | _ => 0

/-- x^1/1! + x^2/2! + …, with the terms from `k` on and the last one given. -/
def expTail (x term k fuel : Nat) : Nat :=
  match fuel with
  | 0 => 0
  | fuel + 1 => let t := term * x / fix1 / k; t + expTail x t (k + 1) fuel

/-- 2^x for x from 0 to below 1. -/
def fixExp2Frac (x : Nat) : Nat := fix1 + expTail (x * fixLn2 / fix1) fix1 1 70

/-- 2^x. -/
def fixExp2 (x : Int) : Nat :=
  let n := x / (fix1 : Int)
  let f := fixExp2Frac (x % (fix1 : Int)).toNat
  if n ≥ 0 then f * pow2 n else f / pow2 (-n)

/-- z^3/3 + z^5/5 + …, from the power `p` of z and the odd number `k`. -/
def atanhTail (z2 p k fuel : Nat) : Nat :=
  match fuel with
  | 0 => 0
  | fuel + 1 => let q := p * z2 / fix1; q / k + atanhTail z2 q (k + 2) fuel

/-- The binary logarithm of m × 2^e. -/
def fixLog2 (m : Nat) (e : Int) : Int :=
  let t := Nat.log2 m
  let x := m * fix1 / 2 ^ t
  let z := (x - fix1) * fix1 / (x + fix1)
  let a := z + atanhTail (z * z / fix1) z 3 90
  (e + Int.ofNat t) * (fix1 : Int) + Int.ofNat (2 * a * fix1 / fixLn2)

/-- x − x^3/3! + …, from the last term and the number k of its power. -/
def sinTail (x2 : Int) (term : Int) (k fuel : Nat) : Int :=
  match fuel with
  | 0 => 0
  | fuel + 1 =>
    let t := -(term * x2 / (fix1 : Int) / Int.ofNat ((k + 1) * (k + 2)))
    t + sinTail x2 t (k + 2) fuel

/-- sin(pi x) for any x. -/
def fixSinPi (x : Int) : Int :=
  let r := x % (2 * fix1 : Int)
  let neg := r ≥ (fix1 : Int)
  let r := if neg then r - fix1 else r
  let r := if 2 * r > (fix1 : Int) then fix1 - r else r
  let y := r * (fixPi : Int) / (fix1 : Int)
  let v := y + sinTail (y * y / (fix1 : Int)) y 1 60
  if neg then -v else v

def fixCosPi (x : Int) : Int := fixSinPi (x + (fix1 : Int) / 2)

/-- tanh x = (e^2x − 1) / (e^2x + 1). -/
def fixTanh (x : Int) : Int :=
  let e : Int := Int.ofNat (fixExp2 (2 * x * (fix1 : Int) / (fixLn2 : Int)))
  (e - fix1) * (fix1 : Int) / (e + fix1)

/-! ### The cases of R118 -/

/-- The operations of the SFU, numbered as `Config.sfuRaw` numbers them. -/
inductive Sfu where
  | rcp | rsq | exp2 | log2 | sinpi | cospi | tanh
deriving DecidableEq, Repr

def Sfu.num : Sfu → Nat
  | .rcp => 0 | .rsq => 1 | .exp2 => 2 | .log2 => 3 | .sinpi => 4 | .cospi => 5 | .tanh => 6

/-- The code of an integer or a power of two that the type holds exactly. -/
def exactCode (t : Ty) (s : Bool) (m : Nat) (e : Int) : Nat :=
  (fmtOf t).signBit s + (roundMag (fmtOf t) 0 0 s m e false).code
def fpOne (t : Ty) : Nat := exactCode t false 1 0
def fpInf (t : Ty) (s : Bool) : Nat := (fmtOf t).signBit s + (fmtOf t).infCode
def fpZero (t : Ty) (s : Bool) : Nat := (fmtOf t).signBit s

/-- A mantissa that is a power of two. -/
def isPow2 (m : Nat) : Bool := m == 2 ^ Nat.log2 m

/-- The special and exact cases of R118: the code and its flags. NX is set for every finite result outside the row of exact cases (R117),
so for the zeros of rcp, rsq and exp2 of an infinity and for every result of tanh. -/
def sfuSpecial (o : Sfu) (t : Ty) (a : FVal) : Option (Nat × Flags) :=
  let nan : Nat × Flags := (canonNan t, flagNV)
  let f16 := t == .f16
  match o, a with
  | _, .nan .. => some ((firstNan t [a]).getD 0, nanFlags [a])
  | .rcp, .inf s => some (fpZero t s, flagNX)
  | .rsq, .inf s => some (if s then nan else (0, flagNX))
  | .exp2, .inf s => some (if s then (0, flagNX) else (fpInf t false, 0))
  | .log2, .inf s => some (if s then nan else (fpInf t false, 0))
  | .sinpi, .inf _ => some nan
  | .cospi, .inf _ => some nan
  | .tanh, .inf s => some (exactCode t s 1 0, flagNX)
  | .rcp, .num s 0 _ => some (fpInf t s, flagDZ)
  | .rsq, .num s 0 _ => some (fpInf t s, flagDZ)
  | .exp2, .num _ 0 _ => some (fpOne t, 0)
  | .log2, .num _ 0 _ => some (fpInf t true, flagDZ)
  | .sinpi, .num s 0 _ => some (fpZero t s, 0)
  | .cospi, .num _ 0 _ => some (fpOne t, 0)
  | .tanh, .num s 0 _ => some (fpZero t s, flagNX)
  | .rcp, .num s m e =>
    let k := e + Int.ofNat (Nat.log2 m)
    let emax : Int := Int.ofNat (fmtOf t).bias
    if isPow2 m ∧ k ≤ emax - 1 ∧ -k ≤ emax then some (exactCode t s 1 (-k), 0)
    else
      -- 1 ÷ A above the largest finite value M of the type, that is 1 > M × A
      let mx := fdecode t (fmtOf t).maxCode
      if fixOf mx * (Int.ofNat (m * pow2 (e + 256))) < (fix1 : Int) * fix1 then some (fpInf t s, flagOF ||| flagNX) else none
  | .rsq, .num s m e =>
    let k := e + Int.ofNat (Nat.log2 m)
    if s then some nan
    else if isPow2 m ∧ k % 2 = 0 then some (exactCode t false 1 (-(k / 2)), 0)
    else none
  | .exp2, .num _ _ _ =>
    let x := fixOf a
    let n := x / (fix1 : Int)
    let low : Int := if f16 then -24 else -149
    let high : Int := if f16 then 15 else 127
    if x ≤ (low - 1) * fix1 then some (0, flagNX)
    else if x ≥ (high + 1) * fix1 then some (fpInf t false, flagOF ||| flagNX)
    else if x % (fix1 : Int) = 0 then some (exactCode t false 1 n, 0)
    else none
  | .log2, .num s m e =>
    let k := e + Int.ofNat (Nat.log2 m)
    if s then some nan
    else if isPow2 m then some (if k = 0 then 0 else exactCode t (decide (k < 0)) k.natAbs 0, 0)
    else none
  | .sinpi, .num s _ _ =>
    let x := fixOf a
    if x % (fix1 : Int) = 0 then some (fpZero t s, 0)
    else if 2 * x % (fix1 : Int) = 0 then some (exactCode t (decide (x / (fix1 : Int) % 2 = 1)) 1 0, 0)
    else none
  | .cospi, .num _ _ _ =>
    let x := fixOf a
    if x % (fix1 : Int) = 0 then some (exactCode t (decide (x / (fix1 : Int) % 2 = 1)) 1 0, 0)
    else if 2 * x % (fix1 : Int) = 0 then some (0, 0)
    else none
  | .tanh, .num s _ _ => if (fixOf a).natAbs ≥ 10 * fix1 then some (exactCode t s 1 0, flagNX) else none

/-! ### The bounded values of R119 -/

/-- The exact value of a function outside R118. -/
def sfuExact (o : Sfu) (a : FVal) : Int :=
  match o, a with
  | .rcp, .num s m e => let r : Int := Int.ofNat (fix1 * fix1 / (m * pow2 (e + 256))); if s then -r else r
  | .rsq, .num _ m e => Int.ofNat (isqrt (fix1 * fix1 * fix1 / (m * pow2 (e + 256))))
  | .exp2, a => Int.ofNat (fixExp2 (fixOf a))
  | .log2, .num _ m e => fixLog2 m e
  | .sinpi, a => fixSinPi (fixOf a)
  | .cospi, a => fixCosPi (fixOf a)
  | .tanh, a => fixTanh (fixOf a)
  | _, _ => 0

/-- The spacing of a type at a value (R119). -/
def ulpAt (t : Ty) (x : Int) : Int :=
  let f := fmtOf t
  let top : Int := if x = 0 then f.qmin else Int.ofNat (Nat.log2 x.natAbs) - 256
  Int.ofNat (pow2 (max (top - Int.ofNat f.fb) f.qmin + 256))

/-- The bound of R119 for an input and its exact result. -/
def sfuBound (o : Sfu) (t : Ty) (a : FVal) (x : Int) : Int :=
  let f16 := t == .f16
  let u := ulpAt t x
  let abs := (fix1 : Int) / (if f16 then 2 ^ 11 else 2 ^ 22 : Nat)
  let mag : Int := Int.ofNat (fixOf a).natAbs
  let two := if f16 then u else 2 * u
  match o with
  | .rcp => u
  | .rsq | .exp2 | .tanh => two
  | .log2 => if 2 * mag ≥ (fix1 : Int) ∧ mag ≤ 2 * fix1 then abs else two
  | .sinpi => if mag < (fix1 : Int) / (if f16 then 2 ^ 5 else 2 ^ 10 : Nat) then two else abs
  | .cospi => abs

/-- A result is in the range of its function: sinpi, cospi and tanh within −1.0 to 1.0, rcp of the sign of A, rsq
and exp2 not negative (R119). -/
def sfuInRange (o : Sfu) (a r : FVal) : Bool :=
  match o with
  | .rcp => vSign r == vSign a
  | .rsq | .exp2 => !vSign r
  | .log2 => true
  | _ => (fixOf r).natAbs ≤ fix1

/-- A finite result within the bound of R119. The exact value is good to 2^-200, which is finer than any distance between it and the
edge of the bound. -/
def sfuNear (o : Sfu) (t : Ty) (a r : FVal) : Bool :=
  let x := sfuExact o a
  decide ((fixOf r - x).natAbs ≤ (sfuBound o t a x).toNat + 2 ^ 56)

/-- tanh of |A| < 2^-32 lies between |A| − 2^-65 |A| and |A|: nearer to A than the spacing of the type, and on the side of zero.
In units of 2^-257 it is taken as 2|A| − 1, so that a result is compared with the bound on the right side. -/
def tanhNear (t : Ty) (a r : FVal) : Bool :=
  let below : Int := Int.ofNat (fixOf a).natAbs - 1
  let d : Int := (if vSign a then -1 else 1) * 2 * fixOf r - (2 * below + 1)
  decide (d.natAbs ≤ 2 * (sfuBound .tanh t a below).toNat)

def tanhTiny (o : Sfu) (a : FVal) : Bool := o == .tanh && decide ((fixOf a).natAbs < 2 ^ 224)

/-- A free value kept when it lies within the bound, and the nearest value of the type otherwise. -/
def sfuChoose (o : Sfu) (t : Ty) (a : FVal) (raw : Nat) : Nat :=
  let x := if tanhTiny o a then fixOf a else sfuExact o a
  let r := fdecode t raw
  let near := if tanhTiny o a then tanhNear t a r else sfuNear o t a r
  let ok := match r with | .num .. => near && sfuInRange o a r | _ => false
  if ok then raw else exactCode t (decide (x < 0)) x.natAbs (-256)

/-- The result of an SFU operation. -/
def sfuResult (o : Sfu) (t : Ty) (bits : Nat) : Nat × Flags :=
  let a := fdecode t bits
  match sfuSpecial o t a with
  | some r => r
  | none =>
    (sfuChoose o t a ((Config.sfuRaw o.num (t == .f16) (BitVec.ofNat 32 bits)).toNat % 2 ^ t.bits), flagNX)

/-- A special function: variable latency, the SFU, no FTZ (R117). -/
def sfuOp (i : Instr) (w : W) (o : Sfu) (s : State) : Out :=
  runCompute i w false (some .sfu)
    (fun _ _ x _ => let r := sfuResult o w.t (srcBits w.t x.a); (BitVec.ofNat 64 r.1, r.2)) s

def execRcp (w : W) (s : State) : Out := sfuOp (.rcp w) w .rcp s
def execRsq (w : W) (s : State) : Out := sfuOp (.rsq w) w .rsq s
def execExp2 (w : W) (s : State) : Out := sfuOp (.exp2 w) w .exp2 s
def execLog2 (w : W) (s : State) : Out := sfuOp (.log2 w) w .log2 s
def execSinpi (w : W) (s : State) : Out := sfuOp (.sinpi w) w .sinpi s
def execCospi (w : W) (s : State) : Out := sfuOp (.cospi w) w .cospi s
def execTanh (w : W) (s : State) : Out := sfuOp (.tanh w) w .tanh s

end Sys2Proof.Machine
end

