-- ==== Sys2Proof/Machine/Dispatch.lean ====
section
/-! DEFINITION. Which meaning each step has. -/

namespace Sys2Proof.Machine

def exec (i : Instr) (s : State) : Host.Outcome State Fault Refusal :=
  match i with
  | .nop w => Sys2Proof.Machine.execNop w s
  | .pairedWord oa ha ob hb => Sys2Proof.Machine.execPairedWord oa ha ob hb s
  | .bra w => Sys2Proof.Machine.execBra w s
  | .braNz w => Sys2Proof.Machine.execBraNz w s
  | .braZ w => Sys2Proof.Machine.execBraZ w s
  | .braEmpty w => Sys2Proof.Machine.execBraEmpty w s
  | .braFull w => Sys2Proof.Machine.execBraFull w s
  | .brx w => Sys2Proof.Machine.execBrx w s
  | .call w => Sys2Proof.Machine.execCall w s
  | .ret w => Sys2Proof.Machine.execRet w s
  | .loop w => Sys2Proof.Machine.execLoop w s
  | .waitc w => Sys2Proof.Machine.execWaitc w s
  | .sleep w => Sys2Proof.Machine.execSleep w s
  | .errst w => Sys2Proof.Machine.execErrst w s
  | .add w => Sys2Proof.Machine.execAdd w s
  | .sub w => Sys2Proof.Machine.execSub w s
  | .mul w => Sys2Proof.Machine.execMul w s
  | .mulhi w => Sys2Proof.Machine.execMulhi w s
  | .mad w => Sys2Proof.Machine.execMad w s
  | .abs w => Sys2Proof.Machine.execAbs w s
  | .min w => Sys2Proof.Machine.execMin w s
  | .max w => Sys2Proof.Machine.execMax w s
  | .and w => Sys2Proof.Machine.execAnd w s
  | .or w => Sys2Proof.Machine.execOr w s
  | .xor w => Sys2Proof.Machine.execXor w s
  | .not w => Sys2Proof.Machine.execNot w s
  | .shl w => Sys2Proof.Machine.execShl w s
  | .shr w => Sys2Proof.Machine.execShr w s
  | .sar w => Sys2Proof.Machine.execSar w s
  | .rot w => Sys2Proof.Machine.execRot w s
  | .clz w => Sys2Proof.Machine.execClz w s
  | .popc w => Sys2Proof.Machine.execPopc w s
  | .brev w => Sys2Proof.Machine.execBrev w s
  | .ffs w => Sys2Proof.Machine.execFfs w s
  | .cmp w => Sys2Proof.Machine.execCmp w s
  | .sel w => Sys2Proof.Machine.execSel w s
  | .mov w => Sys2Proof.Machine.execMov w s
  | .movi w => Sys2Proof.Machine.execMovi w s
  | .moviHi w => Sys2Proof.Machine.execMoviHi w s
  | .fadd w => Sys2Proof.Machine.execFadd w s
  | .fsub w => Sys2Proof.Machine.execFsub w s
  | .fmul w => Sys2Proof.Machine.execFmul w s
  | .ffma w => Sys2Proof.Machine.execFfma w s
  | .fmin w => Sys2Proof.Machine.execFmin w s
  | .fmax w => Sys2Proof.Machine.execFmax w s
  | .fcmp w => Sys2Proof.Machine.execFcmp w s
  | .fclass w => Sys2Proof.Machine.execFclass w s
  | .frnd w => Sys2Proof.Machine.execFrnd w s
  | .fdiv w => Sys2Proof.Machine.execFdiv w s
  | .fsqrt w => Sys2Proof.Machine.execFsqrt w s
  | .cvt w => Sys2Proof.Machine.execCvt w s
  | .pk w => Sys2Proof.Machine.execPk w s
  | .upk w => Sys2Proof.Machine.execUpk w s
  | .mxs w => Sys2Proof.Machine.execMxs w s
  | .bfx w => Sys2Proof.Machine.execBfx w s
  | .bfi w => Sys2Proof.Machine.execBfi w s
  | .fsh w => Sys2Proof.Machine.execFsh w s
  | .rcp w => Sys2Proof.Machine.execRcp w s
  | .rsq w => Sys2Proof.Machine.execRsq w s
  | .exp2 w => Sys2Proof.Machine.execExp2 w s
  | .log2 w => Sys2Proof.Machine.execLog2 w s
  | .sinpi w => Sys2Proof.Machine.execSinpi w s
  | .cospi w => Sys2Proof.Machine.execCospi w s
  | .tanh w => Sys2Proof.Machine.execTanh w s
  | .shfl w => Sys2Proof.Machine.execShfl w s
  | .bcast w => Sys2Proof.Machine.execBcast w s
  | .vote w => Sys2Proof.Machine.execVote w s
  | .matchLanes w => Sys2Proof.Machine.execMatchLanes w s
  | .redsum w => Sys2Proof.Machine.execRedsum w s
  | .redmin w => Sys2Proof.Machine.execRedmin w s
  | .redmax w => Sys2Proof.Machine.execRedmax w s
  | .redand w => Sys2Proof.Machine.execRedand w s
  | .redor w => Sys2Proof.Machine.execRedor w s
  | .scan w => Sys2Proof.Machine.execScan w s
  | .ld w => Sys2Proof.Machine.execLd w s
  | .ldx w => Sys2Proof.Machine.execLdx w s
  | .st w => Sys2Proof.Machine.execSt w s
  | .stx w => Sys2Proof.Machine.execStx w s
  | .ldS w => Sys2Proof.Machine.execLdS w s
  | .stS w => Sys2Proof.Machine.execStS w s
  | .ldd w => Sys2Proof.Machine.execLdd w s
  | .atom w => Sys2Proof.Machine.execAtom w s
  | .atomS w => Sys2Proof.Machine.execAtomS w s
  | .atomFadd w => Sys2Proof.Machine.execAtomFadd w s
  | .watch w => Sys2Proof.Machine.execWatch w s
  | .fence w => Sys2Proof.Machine.execFence w s
  | .mfk w => Sys2Proof.Machine.execMfk w s
  | .mtk w => Sys2Proof.Machine.execMtk w s
  | .sys w => Sys2Proof.Machine.execSys w s
  | .trap w => Sys2Proof.Machine.execTrap w s
  | .sysret w => Sys2Proof.Machine.execSysret w s
  | .mapft w => Sys2Proof.Machine.execMapft w s
  | .fltrd w => Sys2Proof.Machine.execFltrd w s
  | .spawn w => Sys2Proof.Machine.execSpawn w s
  | .spawnS w => Sys2Proof.Machine.execSpawnS w s
  | .spawnL w => Sys2Proof.Machine.execSpawnL w s
  | .spawnG w => Sys2Proof.Machine.execSpawnG w s
  | .join w => Sys2Proof.Machine.execJoin w s
  | .joinall w => Sys2Proof.Machine.execJoinall w s
  | .fprobe w => Sys2Proof.Machine.execFprobe w s
  | .fres w => Sys2Proof.Machine.execFres w s
  | .fresFail w => Sys2Proof.Machine.execFresFail w s
  | .yield w => Sys2Proof.Machine.execYield w s
  | .tret w => Sys2Proof.Machine.execTret w s
  | .tid w => Sys2Proof.Machine.execTid w s
  | .stage w => Sys2Proof.Machine.execStage w s
  | .bufget w => Sys2Proof.Machine.execBufget w s
  | .bufput w => Sys2Proof.Machine.execBufput w s
  | .bufwaitFull w => Sys2Proof.Machine.execBufwaitFull w s
  | .bufwaitFree w => Sys2Proof.Machine.execBufwaitFree w s
  | .enq w => Sys2Proof.Machine.execEnq w s
  | .enqEos w => Sys2Proof.Machine.execEnqEos w s
  | .arcq w => Sys2Proof.Machine.execArcq w s
  | .qput w => Sys2Proof.Machine.execQput w s
  | .mloop w => Sys2Proof.Machine.execMloop w s
  | .mfence w => Sys2Proof.Machine.execMfence w s
  | .mwait w => Sys2Proof.Machine.execMwait w s
  | .mzero w => Sys2Proof.Machine.execMzero w s
  | .epi w => Sys2Proof.Machine.execEpi w s
  | .mstat w => Sys2Proof.Machine.execMstat w s
  | .put w => Sys2Proof.Machine.execPut w s
  | .dsld w => Sys2Proof.Machine.execDsld w s
  | .mcast w => Sys2Proof.Machine.execMcast w s
  | .phregSig w => Sys2Proof.Machine.execPhregSig w s
  | .phregWait w => Sys2Proof.Machine.execPhregWait w s
  | .phregSw w => Sys2Proof.Machine.execPhregSw w s
  | .phdrop w => Sys2Proof.Machine.execPhdrop w s
  | .phsig w => Sys2Proof.Machine.execPhsig w s
  | .phwait w => Sys2Proof.Machine.execPhwait w s
  | .phsw w => Sys2Proof.Machine.execPhsw w s
  | .copy w => Sys2Proof.Machine.execCopy w s
  | .barInit w => Sys2Proof.Machine.execBarInit w s
  | .barExp w => Sys2Proof.Machine.execBarExp w s
  | .barArr w => Sys2Proof.Machine.execBarArr w s
  | .barWait w => Sys2Proof.Machine.execBarWait w s
  | .barTest w => Sys2Proof.Machine.execBarTest w s
  | .migrate w => Sys2Proof.Machine.execMigrate w s
  | .groupStart core => Sys2Proof.Machine.execGroupStart core s
  | .reserveStart core => Sys2Proof.Machine.execReserveStart core s
  | .schedulerDisplace grp => Sys2Proof.Machine.execSchedulerDisplace grp s
  | .sleepExpiry grp => Sys2Proof.Machine.execSleepExpiry grp s
  | .heldTrap grp => Sys2Proof.Machine.execHeldTrap grp s
  | .trapBudgetEscalate grp => Sys2Proof.Machine.execTrapBudgetEscalate grp s
  | .errorLogWindowClose grp => Sys2Proof.Machine.execErrorLogWindowClose grp s
  | .driftRollover grp => Sys2Proof.Machine.execDriftRollover grp s
  | .icacheFill grp => Sys2Proof.Machine.execIcacheFill grp s
  | .plbFill grp => Sys2Proof.Machine.execPlbFill grp s
  | .loadReturn id mask => Sys2Proof.Machine.execLoadReturn id mask s
  | .storeAck id => Sys2Proof.Machine.execStoreAck id s
  | .atomicReturn id mask => Sys2Proof.Machine.execAtomicReturn id mask s
  | .renewal id => Sys2Proof.Machine.execRenewal id s
  | .renewalReturn id => Sys2Proof.Machine.execRenewalReturn id s
  | .writeEvent id => Sys2Proof.Machine.execWriteEvent id s
  | .watchPoll grp => Sys2Proof.Machine.execWatchPoll grp s
  | .rebase asid => Sys2Proof.Machine.execRebase asid s
  | .sfuResult id mask => Sys2Proof.Machine.execSfuResult id mask s
  | .divideResult id mask => Sys2Proof.Machine.execDivideResult id mask s
  | .crossLaneResult id mask => Sys2Proof.Machine.execCrossLaneResult id mask s
  | .tokenRefill core die => Sys2Proof.Machine.execTokenRefill core die s
  | .homeMissFill id => Sys2Proof.Machine.execHomeMissFill id s
  | .faultRingPoll id => Sys2Proof.Machine.execFaultRingPoll id s
  | .patrolRead pa bad => Sys2Proof.Machine.execPatrolRead pa bad s
  | .frameSweepAdvance ctl => Sys2Proof.Machine.execFrameSweepAdvance ctl s
  | .entryTakeable core serial => Sys2Proof.Machine.execEntryTakeable core serial s
  | .stealAttempt core => Sys2Proof.Machine.execStealAttempt core s
  | .stealTransfer core intact => Sys2Proof.Machine.execStealTransfer core intact s
  | .stealBackoffExpiry core => Sys2Proof.Machine.execStealBackoffExpiry core s
  | .stagingStart core serial => Sys2Proof.Machine.execStagingStart core serial s
  | .stagingFillComplete core serial => Sys2Proof.Machine.execStagingFillComplete core serial s
  | .commandAccept id => Sys2Proof.Machine.execCommandAccept id s
  | .mloopStart core => Sys2Proof.Machine.execMloopStart core s
  | .mloopStep core => Sys2Proof.Machine.execMloopStep core s
  | .mzeroPerform core => Sys2Proof.Machine.execMzeroPerform core s
  | .epiStart core => Sys2Proof.Machine.execEpiStart core s
  | .epiComplete id => Sys2Proof.Machine.execEpiComplete id s
  | .putStart id => Sys2Proof.Machine.execPutStart id s
  | .putArrival id => Sys2Proof.Machine.execPutArrival id s
  | .dsldTargetRead id => Sys2Proof.Machine.execDsldTargetRead id s
  | .mcastRead id => Sys2Proof.Machine.execMcastRead id s
  | .mcastGrant id => Sys2Proof.Machine.execMcastGrant id s
  | .mcastDelivery id core => Sys2Proof.Machine.execMcastDelivery id core s
  | .networkWatchdog die => Sys2Proof.Machine.execNetworkWatchdog die s
  | .barrierArrival id => Sys2Proof.Machine.execBarrierArrival id s
  | .copyStart id => Sys2Proof.Machine.execCopyStart id s
  | .copyPieceDone id piece => Sys2Proof.Machine.execCopyPieceDone id piece s
  | .migrateLand grp => Sys2Proof.Machine.execMigrateLand grp s
  | .arcadeSlotVisible pipe stage slot => Sys2Proof.Machine.execArcadeSlotVisible pipe stage slot s
  | .enqWaitServed pipe stage => Sys2Proof.Machine.execEnqWaitServed pipe stage s
  | .recordTake core => Sys2Proof.Machine.execRecordTake core s
  | .roundaboutInterval pipe => Sys2Proof.Machine.execRoundaboutInterval pipe s
  | .drainSwitch core => Sys2Proof.Machine.execDrainSwitch core s
  | .packetTake queue => Sys2Proof.Machine.execPacketTake queue s
  | .queueMap queue => Sys2Proof.Machine.execQueueMap queue s
  | .queueUnmap queue => Sys2Proof.Machine.execQueueUnmap queue s
  | .barrierAnd pkt => Sys2Proof.Machine.execBarrierAnd pkt s
  | .barrierAndSettle pkt index => Sys2Proof.Machine.execBarrierAndSettle pkt index s
  | .signal pkt => Sys2Proof.Machine.execSignal pkt s
  | .mapopMap pkt => Sys2Proof.Machine.execMapopMap pkt s
  | .mapopClear pkt => Sys2Proof.Machine.execMapopClear pkt s
  | .mapopUnmap pkt => Sys2Proof.Machine.execMapopUnmap pkt s
  | .mapopProtect pkt => Sys2Proof.Machine.execMapopProtect pkt s
  | .mapopPooladd pkt => Sys2Proof.Machine.execMapopPooladd pkt s
  | .mapopPooltake pkt => Sys2Proof.Machine.execMapopPooltake pkt s
  | .mapopSweep pkt => Sys2Proof.Machine.execMapopSweep pkt s
  | .mapopSpill pkt => Sys2Proof.Machine.execMapopSpill pkt s
  | .mapopCold pkt => Sys2Proof.Machine.execMapopCold pkt s
  | .ctxopSave pkt => Sys2Proof.Machine.execCtxopSave pkt s
  | .ctxopRestore pkt => Sys2Proof.Machine.execCtxopRestore pkt s
  | .ctxopTeardown pkt => Sys2Proof.Machine.execCtxopTeardown pkt s
  | .resumeSysret pkt => Sys2Proof.Machine.execResumeSysret pkt s
  | .resumeFailTask pkt => Sys2Proof.Machine.execResumeFailTask pkt s
  | .resumeReissue pkt => Sys2Proof.Machine.execResumeReissue pkt s
  | .resumeFailItem pkt => Sys2Proof.Machine.execResumeFailItem pkt s
  | .copyPacket pkt => Sys2Proof.Machine.execCopyPacket pkt s
  | .launch pkt => Sys2Proof.Machine.execLaunch pkt s
  | .pipeline pkt => Sys2Proof.Machine.execPipeline pkt s
  | .allotmentPlacement pkt => Sys2Proof.Machine.execAllotmentPlacement pkt s
  | .contextEnd asid => Sys2Proof.Machine.execContextEnd asid s
  | .firmwarePacket pkt => Sys2Proof.Machine.execFirmwarePacket pkt s
  | .apertureWrite offset bytes => Sys2Proof.Machine.execApertureWrite offset bytes s
  | .apertureRead offset size => Sys2Proof.Machine.execApertureRead offset size s
  | .firmwareWindowAccess offset bytes => Sys2Proof.Machine.execFirmwareWindowAccess offset bytes s
  | .doorbell queue => Sys2Proof.Machine.execDoorbell queue s
  | .coreDomainLower die => Sys2Proof.Machine.execCoreDomainLower die s
  | .coreDomainRaise die => Sys2Proof.Machine.execCoreDomainRaise die s
  | .memoryDomainLower die => Sys2Proof.Machine.execMemoryDomainLower die s
  | .memoryDomainRaise die => Sys2Proof.Machine.execMemoryDomainRaise die s
  | .recovery value => Sys2Proof.Machine.execRecovery value s
  | .hostRegisterWrite offset value => Sys2Proof.Machine.execHostRegisterWrite offset value s
  | .peerAccess asid va op => Sys2Proof.Machine.execPeerAccess asid va op s
  | .linkTraining port module => Sys2Proof.Machine.execLinkTraining port module s
  | .linkDown port => Sys2Proof.Machine.execLinkDown port s
  | .flitRetry port => Sys2Proof.Machine.execFlitRetry port s
  | .selftest report => Sys2Proof.Machine.execSelftest report s
  | .train0 good => Sys2Proof.Machine.execTrain0 good s
  | .early die good => Sys2Proof.Machine.execEarly die good s
  | .powerCapClockDown die => Sys2Proof.Machine.execPowerCapClockDown die s
  | .powerCapClockUp die => Sys2Proof.Machine.execPowerCapClockUp die s
  | .thermalThrottle die => Sys2Proof.Machine.execThermalThrottle die s
  | .thermalTrip die => Sys2Proof.Machine.execThermalTrip die s
  | .illegalInstruction detail => Sys2Proof.Machine.execIllegalInstruction detail s
  | .softError e => Sys2Proof.Machine.execSoftError e s
  | .scrubComplete cover => Sys2Proof.Machine.execScrubComplete cover s
  | .coolBelow90 die => Sys2Proof.Machine.execCoolBelow90 die s
  | .firmwarePacketComplete pkt code detail => Sys2Proof.Machine.execFirmwarePacketComplete pkt code detail s
  | .bootStart => Sys2Proof.Machine.execBootStart s
  | .attest => Sys2Proof.Machine.execAttest s
  | .scrub => Sys2Proof.Machine.execScrub s
  | .powerOn => Sys2Proof.Machine.execPowerOn s
  | .powerLoss => Sys2Proof.Machine.execPowerLoss s

end Sys2Proof.Machine
end

