-- ==== Sys2Proof/Machine/Turns.lean ====
section
/-! DEFINITION. The scheduler of a partition before each turn (01 R33, R35), and what the turn performs. -/

namespace Sys2Proof.Machine

/-! ### Readiness (R32, R33) -/

/-- What the turn of a group performs: operations that a restore has left waiting are reissued before its next word (R170). -/
def planGroup (s : State) (grp : Nat) (g : Group) : State × Option Instr :=
  if g.ops.any (fun o => o.again) then (reissueLater s grp, none) else planActive s grp g

/-- A group's turn has got it somewhere: its word has issued, it has taken or escalated a trap, or it is gone. -/
def advanced (g : Group) (after : Option Group) : Bool :=
  match after with
  | none => true
  | some h => h.issued != g.issued || h.sup != g.sup || h.park == some .escalated

/-- The group is ready: a turn given to it now would get it somewhere. A window of the error log that is over keeps no word back. -/
def isReady (s : State) (k : Nat) (g : Group) : Bool :=
  let g := { g with window := if g.window = some 0 then none else g.window }
  let s := s.setGroup k g
  canRun s g &&
  match planGroup { s with cur := k } k g with
  | (t, none) => advanced g (t.group? k)
  | (t, some i) =>
    match exec i t with
    | .next u => !u.blocked && (advanced g (u.group? k) || (match u.group? k with | some h => h.park.isNone && (g.inWord.isSome || g.pc != h.pc) | none => true))
    | _ => true

/-- What a turn leaves. A turn that met a set without room has not happened: what it would have done waits. Contexts
without room for their held bytes are halted with OVERFLOW in either case (R369). -/
def finishTurn (s t : State) : State :=
  { t.overflowed.foldl (fun u a => haltContext u a 1) (if t.blocked then s else t) with blocked := false, overflowed := [] }

/-! ### The sets (R33) -/

/-- Nothing for the scheduler to do about a group. -/
def settled (g : Group) : Bool := g.active && (g.park.isNone || g.inTrap || g.seen == some g.issued)

/-- Pending groups that are ready keep their place in the order of readiness, or take the next. -/
def markReady (s : State) : State :=
  let n := 1 + s.groups.foldl (fun m p => max m (p.2.since.getD 0)) 0
  { s with
    groups := s.groups.map (fun p =>
      if p.2.active then p else (p.1, { p.2 with since := if isReady s p.1 p.2 then some (p.2.since.getD n) else none })) }

/-- An active group that has just parked gives its place to the pending group that became ready earliest; with none
ready it stays (R33). -/
def settlePark (s : State) (k : Nat) : State :=
  match s.group? k with
  | none => s
  | some g =>
    if !g.active || settled g then s
    else
      match earliestReady s g.core g.part with
      | some j => enterSet (leaveSet s k) j
      | none => s.modGroup k (fun g => { g with seen := some g.issued })

/-- A ready pending group fills a free place of the active set (DESIGN CHOICE, assumption 55). -/
def settleFree (s : State) (k : Nat) : State :=
  match s.group? k with
  | none => s
  | some g =>
    if g.active || (activeGroups s g.core g.part).length ≥ 8 then s
    else
      match earliestReady s g.core g.part with
      | some j => enterSet s j
      | none => s

/-- The sets of every partition as a turn finds them. -/
def settleSets (s : State) : State :=
  if s.groups.all (fun p => settled p.2) then s
  else
    let keys := s.groups.map (fun p => p.1)
    keys.foldl settleFree (keys.foldl settlePark (markReady s))

/-! ### The turn -/

/-- A ready handler of the partition issues first (R35). -/
def yields (s : State) (k : Nat) (g : Group) : Bool :=
  !g.inTrap &&
  s.groups.any (fun p => p.1 != k && p.2.core == g.core && p.2.part == g.part && p.2.inTrap && isReady s p.1 p.2)

/-- The instruction that a group's turn performs, if any, and the state it performs it in. A ready group of the
pending set waits for a place; one that is not ready looks again at what it waits for. -/
def planIssue (s : State) (grp : Nat) : State × Option Instr :=
  match s.group? grp with
  | none => (s, none)
  | some g =>
    let s := { s with cur := grp }
    if !canRun s g || yields s grp g || (!g.active && g.since.isSome) then (s, none)
    else planGroup s grp g

/-- The instruction that a turn performs, and the state it performs it in. -/
def planTurn (s : State) (t : Turn) : State × Option Instr :=
  match t with
  | .issue grp => planIssue s grp
  | .event i => if i.isWord then (s, none) else (s, some i)

/-- The next turn taken, the state it is performed in, and the instruction; a turn may be without one. -/
def planNext (s : State) : State × Option Instr :=
  match takeTurn s with
  | (s, some t) => planTurn s t
  | (s, none) => (s, none)

/-- The instruction that the machine performs next; a turn without one, and the saving of a halted context, is a step
of its own. -/
def planStep (s : State) : State × Option Instr :=
  let s := settleSets s
  match toSave s with
  | some a => let t := haltSave s a; if t.blocked then planNext s else (finishTurn s t, none)
  | none => planNext s

end Sys2Proof.Machine
end

