-- ==== Sys2Proof/Machine/Step.lean ====
section
/-! DEFINITION. One step: the next turn, and the instruction it performs. -/

namespace Sys2Proof.Machine

/-- One step of the machine. -/
def step (s : State) : Host.Outcome State Fault Refusal :=
  match planStep s with
  | (s, none) => .next s
  | (s, some i) =>
    match exec i s with
    | .next t => .next (finishTurn s t)
    | .fault f => .fault f
    | .refused r => .refused r

/-- The state whose very next step runs the instruction of a word of the opcode table (assumption 3). -/
def State.withFetchWord (s : State) (nbits w : Nat) : State := placeWord s (BitVec.ofNat 96 (w % 2 ^ nbits))

end Sys2Proof.Machine
end

