-- ==== Sys2Proof/Safety.lean ====
section
/-! DEFINITION. What a sound state is: the invariant that every step keeps. -/

namespace Sys2Proof.Machine

/-- Every scratchpad of some cores is in canonical form. -/
def coresWf (t : Tab CoreS) : Bool := t.all (fun c => cellsWf c.2.scratch)

/-- The scratchpads that a context holds while it is saved. -/
def contextWf (c : Context) : Bool := match c.saved with | some x => coresWf x.cores | none => true

/-- The scratchpads of a context that a packet waits to place. -/
def packetWf (p : Packet) : Bool := match p.ctx with | some c => contextWf c | none => true

/-- Every byte memory of the machine is in canonical form: addresses strictly rising, no listed zero. They are
HBM, the firmware window, the scratchpads, and those of saved contexts and of contexts that a packet waits to place. -/
def memoryWf (s : State) : Bool :=
  cellsWf s.hbm && cellsWf s.host.fw && coresWf s.cores && s.contexts.all (fun c => contextWf c.2) &&
    s.packets.all (fun p => packetWf p.2)

/-! ### A group that is about to issue a word -/

/-- The group `g` has the turn, is inside no word and has no register with an uncorrectable error. -/
structure Ready (s : State) (g : Group) : Prop where
  group  : s.group? s.cur = some g
  inWord : g.inWord = none
  poison : g.poisonRegs = []

/-- No switch marker holds the word back (R22). -/
def MarkerFree (g : Group) (w : W) : Prop := w.sw = false ∨ g.markerHeld = false

/-- The group after the bookkeeping of an issue: the trap budget in supervisor mode (R167), the error-log window
(R142) and the issue order (R33). -/
def tick (s : State) (g : Group) : Group :=
  { g with
    issued := g.issued + 1, lastIssue := s.ticks + 1, window := g.window.map (fun n => n - 1)
    trap := if g.sup then { g.trap with left := g.trap.left - 1 } else g.trap }

/-- The state in which a word that changed nothing but its group has completed: `g` is the group as the word left it. -/
def wordDone (s : State) (g : Group) : State := ({ s with ticks := s.ticks + 1 }).setGroup s.cur (g.goesOn (nextPc g.pc))

end Sys2Proof.Machine
end

