-- ==== Sys2Proof/Certificates/Slice0/Obligations.lean ====
section
/-! DEFINITION. What is claimed of the machine. Statements about an instruction word are about `exec` of the word in a state
whose group has the turn; `Issues` says that nothing holds the word back. Statements about the step of another agent say when it
happens and what it changes. -/

open Sys2Proof Sys2Proof.Machine

namespace Claims

/-! ### Words that issue -/

/-- The group `g` has the turn for the well-formed word of `i`: it is ready and no switch marker holds the word (R22). -/
structure Fits (s : State) (g : Group) (i : Instr) (w : W) : Prop where
  ready  : Ready s g
  marker : MarkerFree g w
  wf     : i.wf = true

/-- The group issues the word, and em has a lane (R16). -/
structure Issues (s : State) (g : Group) (i : Instr) (w : W) : Prop extends Fits s g i w where
  active : emOf g w ≠ 0

/-- The group's context keeps no error log, bit 31 of K_ELCTL is 0 (R140), and no record's window is open (R142). -/
def NoLog (s : State) (g : Group) : Prop := (∀ c, s.context? g.asid = some c → c.regs.elctl.getLsbD 31 = false) ∧ g.window = none

/-- The state after a word that wrote the lanes' values to D and raised flags. -/
def wrote (s : State) (g : Group) (w : W) (wide : Bool) (val : Nat → DWord) (fl : Flags) : State :=
  wordDone s { writeDst (tick s g) w.d wide (emOf g w) val with flags := g.flags ||| fl }

/-- The lanes that a word computes: those of em in the vector form, one in the scalar form (R70, R93). -/
def computed (g : Group) (i : Instr) (w : W) : List Nat := if isVector i w then maskLanes (emOf g w) else [0]

/-- The OR of the flags of the computed lanes (R45). -/
def flagsOver (g : Group) (i : Instr) (w : W) (f : Nat → Flags) : Flags := ((computed g i w).map f).foldl (· ||| ·) 0

/-- A source in a lane, as 64 bits or as 32. -/
def src (g : Group) (w : W) (wide : Bool) (o : Opd) (l : Nat) : DWord := opdVal g w.imm wide o l
def src32 (g : Group) (w : W) (o : Opd) (l : Nat) : Word := opd32 g w.imm o l

/-! ### Integer words (R97) -/

/-- The exact integer result of each integer word, from A, B and C read in its type (R97). -/
def integerWords : List ((W → Instr) × (W → Int → Int → Int → Int)) :=
  [(.add, fun _ a b _ => a + b), (.sub, fun _ a b _ => a - b), (.mul, fun _ a b _ => a * b),
   (.mulhi, fun w a b _ => a * b / 2 ^ w.t.bits), (.mad, fun _ a b c => a * b + c), (.abs, fun _ a _ _ => Int.ofNat a.natAbs),
   (.min, fun _ a b _ => min a b), (.max, fun _ a b _ => max a b)]

/-- The least and the greatest value of an integer type. -/
def lowest (t : Ty) : Int := if t.isSgn then -2 ^ (t.bits - 1) else 0
def greatest (t : Ty) : Int := if t.isSgn then 2 ^ (t.bits - 1) - 1 else 2 ^ t.bits - 1

/-- The value of an integer type that an exact result is written as: clamped under .sat, modulo 2^w otherwise (R97). -/
def written (t : Ty) (sat : Bool) (x : Int) : Int :=
  if sat then max (lowest t) (min (greatest t) x) else if t.isSgn then Int.bmod x (2 ^ t.bits) else x % 2 ^ t.bits

/-- A lane's source read as a value of the word's type. -/
def intSrc (g : Group) (w : W) (o : Opd) (l : Nat) : Int := intVal w.t (src g w w.t.isWide o l).toNat

/-! ### Bitwise words (R98, R99, R102, R103, R116) -/

/-- A shift or rotation of a 32-bit or a 64-bit value, by the type's width. -/
def shifted (w : W) (f : (n : Nat) → BitVec n → Nat → BitVec n) (a : DWord) (n : Nat) : DWord :=
  if w.t.isWide then f 64 a n else (f 32 (a.extractLsb' 0 32) n).zeroExtend 64

/-- A funnel shift of the concatenation of A and B (R116). -/
def funnelled (right : Bool) (a b : Word) (c : Nat) : Word :=
  if right then ((a ++ b) >>> min c 32).extractLsb' 0 32 else ((a ++ b) <<< min c 32).extractLsb' 32 32

/-- The condition of sel: bit i of the triple in the vector form, C ≠ 0 in the scalar form (R102). -/
def selects (g : Group) (w : W) (l : Nat) : Bool :=
  match isVector (.sel w) w, w.c with
  | true, .s n => (g.triple n).getLsbD l
  | _, _ => src32 g w w.c l != 0

/-- The words that write a value and raise no flag: the width of D, and the value of a lane. -/
def plainWords : List ((W → Instr) × (W → Bool) × (Group → W → Nat → DWord)) :=
  [(.and, fun w => w.t.isWide, fun g w l => src g w w.t.isWide w.a l &&& src g w w.t.isWide w.b l),
   (.or, fun w => w.t.isWide, fun g w l => src g w w.t.isWide w.a l ||| src g w w.t.isWide w.b l),
   (.xor, fun w => w.t.isWide, fun g w l => src g w w.t.isWide w.a l ^^^ src g w w.t.isWide w.b l),
   (.not, fun w => w.t.isWide, fun g w l => ~~~ src g w w.t.isWide w.a l),
   (.mov, fun w => w.t.isWide, fun g w l => src g w w.t.isWide w.a l),
   (.movi, fun w => w.t.isWide, fun _ w _ => w.imm.zeroExtend 64),
   (.sel, fun w => w.t.isWide, fun g w l => if selects g w l then src g w w.t.isWide w.a l else src g w w.t.isWide w.b l),
   (.shl, fun w => w.t.isWide, fun g w l => shifted w (fun _ a n => a <<< n) (src g w w.t.isWide w.a l) (src32 g w w.b l).toNat),
   (.shr, fun w => w.t.isWide, fun g w l => shifted w (fun _ a n => a >>> n) (src g w w.t.isWide w.a l) (src32 g w w.b l).toNat),
   (.sar, fun w => w.t.isWide, fun g w l => shifted w (fun _ a n => a.sshiftRight n) (src g w w.t.isWide w.a l) (src32 g w w.b l).toNat),
   (.rot, fun w => w.t.isWide, fun g w l => shifted w (fun _ a n => a.rotateLeft n) (src g w w.t.isWide w.a l) (src32 g w w.b l).toNat),
   (.fsh, fun _ => false, fun g w l => (funnelled (w.v == 1) (src32 g w w.a l) (src32 g w w.b l) (src32 g w w.c l).toNat).zeroExtend 64)]

/-! ### Words told bit by bit (R100, R114, R115) -/

/-- What the words of R100, R114 and R115 write, as a relation between the lane's sources and the written value. -/
def bitWords : List ((W → Instr) × (W → Bool) × (Group → W → Nat → DWord → Prop)) :=
  [(.clz, fun _ => false, fun g w l r =>
      let a (j : Nat) : Bool := (src g w w.t.isWide w.a l).getLsbD j
      r.toNat ≤ w.t.bits ∧ (∀ j, j < r.toNat → a (w.t.bits - 1 - j) = false) ∧ (r.toNat < w.t.bits → a (w.t.bits - 1 - r.toNat) = true)),
   (.popc, fun _ => false, fun g w l r => r.toNat = (List.range w.t.bits).countP (fun j => (src g w w.t.isWide w.a l).getLsbD j)),
   (.brev, fun w => w.t.isWide, fun g w l r =>
      ∀ j, j < w.t.bits → r.getLsbD j = (src g w w.t.isWide w.a l).getLsbD (w.t.bits - 1 - j)),
   (.ffs, fun _ => false, fun g w l r =>
      let a (j : Nat) : Bool := (src g w w.t.isWide w.a l).getLsbD j
      if src g w w.t.isWide w.a l = 0 then r = 0xFFFFFFFF else r.toNat < w.t.bits ∧ a r.toNat = true ∧ ∀ j, j < r.toNat → a j = false),
   (.bfx, fun _ => false, fun g w l r =>
      let o := (src32 g w w.b l).toNat
      let n := min (src32 g w w.c l).toNat 32
      let top : Bool := w.v == 0 && (src32 g w w.a l).getLsbD 31
      let e (k : Nat) : Bool := if k < 32 then (src32 g w w.a l).getLsbD k else top
      ∀ j, j < 32 → r.getLsbD j = if n = 0 then false else if j < n then e (o + j) else (w.v == 0 && e (o + n - 1))),
   (.bfi, fun _ => false, fun g w l r =>
      let o := (src32 g w w.b l).toNat
      let n := min (src32 g w w.c l).toNat 32
      ∀ j, j < 32 → r.getLsbD j = if o ≤ j ∧ j < o + n then (src32 g w w.a l).getLsbD (j - o) else (src32 g w w.d l).getLsbD j)]

/-! ### Comparisons (R101, R106) -/

/-- The relation of cmp that V names (R101). -/
def related (v : Nat) (a b : Int) : Prop :=
  if v = 0 then a = b else if v = 1 then a ≠ b else if v = 2 then a < b else if v = 3 then a ≤ b else if v = 4 then a > b else a ≥ b

/-- The state after a comparison that left the mask `m` in the triple D. -/
def compared (s : State) (g : Group) (w : W) (m : LaneMask) (fl : Flags) : State :=
  match w.d with
  | .s n => wordDone s { (tick s g).setTriple n m with flags := g.flags ||| fl }
  | _ => wordDone s (tick s g)

/-- The triple that D names. -/
def tripleOf (g : Group) (w : W) : LaneMask := match w.d with | .s n => g.triple n | _ => 0

/-! ### Floating-point words (R104 to R108) -/

/-- A source as a floating-point word reads it: its low bits decoded, a subnormal flushed where FTZ acts (R41, R50). -/
def fpSrc (g : Group) (i : Instr) (w : W) (o : Opd) (l : Nat) : FVal :=
  readF w.t (ftzOf g w.t (isVector i w)) (src g w w.t.isWide o l)

/-- The rounded result and the flags of each floating-point word of fixed latency, from the mode, FTZ and the values. -/
def floatWords : List ((W → Instr) × (Ty → Nat → Bool → FVal → FVal → FVal → Nat × Flags)) :=
  [(.fadd, fun t m z a b _ => faddV t m z a b), (.fsub, fun t m z a b _ => faddV t m z a (fneg b)),
   (.fmul, fun t m z a b _ => fmulV t m z a b), (.ffma, fun t m z a b c => ffmaV t m z a b c), (.frnd, fun t m _ a _ _ => frndV t m a)]

end Claims

/-! ## Integer and bitwise words -/

/-- R97, R20, R45: each integer word writes its exact result, clamped under .sat and modulo 2^w otherwise, to the lanes of em of D,
and raises SAT when a lane was clamped. Nothing else of the machine changes but the group's own bookkeeping (`wordDone`, `tick`). -/
def Obligations.IntegerWordsWriteTheExactResult : Prop :=
  ∀ p ∈ Claims.integerWords, ∀ (s : State) (g : Group) (w : W), Claims.Issues s g (p.1 w) w →
    let exact (l : Nat) : Int := p.2 w (Claims.intSrc g w w.a l) (Claims.intSrc g w w.b l) (Claims.intSrc g w w.c l)
    let sat : Bool := w.sat && (Claims.computed g (p.1 w) w).any (fun l => decide (exact l ≠ Claims.written w.t true (exact l)))
    exec (p.1 w) s = .next (Claims.wrote s g w w.t.isWide (fun l => BitVec.ofInt 64 (Claims.written w.t w.sat (exact l))) (if sat then 32 else 0))

/-- R98, R99, R102, R103, R116: logic, shifts, rotations, funnel shifts, select and moves write the stated value and raise no flag; movi.hi
writes the odd register of its pair alone. -/
def Obligations.LogicShiftAndMoveWordsWriteTheirValue : Prop :=
  (∀ p ∈ Claims.plainWords, ∀ (s : State) (g : Group) (w : W), Claims.Issues s g (p.1 w) w →
    exec (p.1 w) s = .next (Claims.wrote s g w (p.2.1 w) (p.2.2 g w) 0)) ∧
  (∀ (s : State) (g : Group) (w : W), Claims.Issues s g (.moviHi w) w →
    exec (.moviHi w) s = .next (Claims.wrote s g { w with d := oddOf w.d } false (fun _ => w.imm.zeroExtend 64) 0))

/-- R100, R114, R115: counts, bit reversal, bitfield extraction and insertion, told by the bits of sources and result. -/
def Obligations.CountAndBitfieldWordsWriteTheirBits : Prop :=
  ∀ p ∈ Claims.bitWords, ∀ (s : State) (g : Group) (w : W), Claims.Issues s g (p.1 w) w →
    ∃ val : Nat → DWord, (∀ l ∈ Claims.computed g (p.1 w) w, p.2.2 g w l (val l)) ∧
      exec (p.1 w) s = .next (Claims.wrote s g w (p.2.1 w) val 0)

/-- R101, R106: cmp and fcmp set or clear the bit of each lane of em in the triple D, and keep the other bits; fcmp raises NV as
R106 says, and cmp raises nothing. -/
def Claims.CmpAndFcmpWriteTheLanesOfEm : Prop :=
  ∀ (s : State) (g : Group) (w : W),
    (Claims.Fits s g (.cmp w) w → ∃ m : LaneMask,
      (∀ l, l < 96 → (m.getLsbD l = true ↔
        if (emOf g w).getLsbD l then Claims.related w.v.val (Claims.intSrc g w w.a l) (Claims.intSrc g w w.b l)
        else (Claims.tripleOf g w).getLsbD l = true)) ∧
      exec (.cmp w) s = .next (Claims.compared s g w m 0)) ∧
    (Claims.Fits s g (.fcmp w) w → Claims.NoLog s g →
      let r (l : Nat) : Bool × Flags := fcmpV w.t (ftzOf g w.t true) w.v.val (srcBits w.t (Claims.src g w w.t.isWide w.a l))
        (srcBits w.t (Claims.src g w w.t.isWide w.b l))
      ∃ m : LaneMask,
        (∀ l, l < 96 → m.getLsbD l = if (emOf g w).getLsbD l then (r l).1 else (Claims.tripleOf g w).getLsbD l) ∧
        exec (.fcmp w) s = .next (Claims.compared s g w m (((maskLanes (emOf g w)).map (fun l => (r l).2)).foldl (· ||| ·) 0)))

/-- R104, R108, R45: fadd, fsub, fmul, ffma and frnd write the rounded result of each lane and merge the lanes' flags, in a context
without an error log. -/
def Claims.FloatWordsWriteTheResult : Prop :=
  ∀ p ∈ Claims.floatWords, ∀ (s : State) (g : Group) (w : W), Claims.Issues s g (p.1 w) w → Claims.NoLog s g →
    let r (l : Nat) : Nat × Flags := p.2 w.t (rndMode g w.rnd) (ftzOf g w.t (isVector (p.1 w) w)) (Claims.fpSrc g (p.1 w) w w.a l)
      (Claims.fpSrc g (p.1 w) w w.b l) (Claims.fpSrc g (p.1 w) w w.c l)
    exec (p.1 w) s = .next (Claims.wrote s g w w.t.isWide (fun l => BitVec.ofNat 64 (r l).1)
      (Claims.flagsOver g (p.1 w) w (fun l => (r l).2)))

namespace Claims

/-- The log record of R141. -/
def logRecord (g : Group) (seq fl : Nat) (lane : Nat) (pc : DWord) : List Byte :=
  valBytes 8 pc.toNat ++ valBytes 4 g.gid.toNat ++ valBytes 4 seq ++ valBytes 4 g.task.serial.toNat ++ valBytes 1 (fl % 8) ++ valBytes 1 lane ++
    valBytes 2 g.dropped ++ valBytes 1 g.asid ++ List.replicate 7 0

/-- The log of the context `c` takes a record at `addr` with the sequence number `seq`: EN is set, and LOG2N and K_ELBASE name the place
(R140, R141). -/
structure LogPlace (c : Context) (seq addr : Nat) : Prop where
  enabled : c.regs.elctl.getLsbD 31 = true
  counter : seq = c.regs.elseq.toNat
  place   : addr = c.regs.elbase.toNat / 32 * 32 + 32 * (seq % 2 ^ (c.regs.elctl.toNat % 32))

end Claims

/-- R140, R141, R142 and log entry 19: the flags of an instruction merge into the sticky set. NV, DZ and OF inside an open window are counted
in DROPPED; else with EN = 1 they raise K_ELSEQ, clear DROPPED, write the record of 32 bytes and open the window of `left` words (63 after a word of
fixed latency, 64 at a return). A record that cannot be written is lost with a LOGLOST record of its cause. The model's choices of log
entry 19 are that EN = 0 opens no window and that a lost record opens one, and the CAUSE 7 of an absent page. -/
def Claims.FlagsAreLogged : Prop :=
  ∀ (s : State) (k : Nat) (g : Group) (c : Context) (fl : Flags) (lane left : Nat) (pc : DWord), s.group? k = some g →
    s.context? g.asid = some c → (left = 63 ∨ left = 64) →
    let inside : Prop := ∃ n, g.window = some n ∧ (n ≠ 0 ∨ left = 63)
    let kept : Group := { g with flags := g.flags ||| fl }
    ((fl &&& 7 = 0 ∨ (¬ inside ∧ c.regs.elctl.getLsbD 31 = false)) → raiseFlags s k fl lane left pc = s.setGroup k kept) ∧
    (fl &&& 7 ≠ 0 → inside → raiseFlags s k fl lane left pc = s.setGroup k { kept with dropped := min (g.dropped + 1) 65535 }) ∧
    (∀ seq addr, Claims.LogPlace c seq addr → fl &&& 7 ≠ 0 → ¬ inside →
      let s1 : State := { s with
        groups := tabPut s.groups k { kept with dropped := 0 }
        contexts := tabPut s.contexts g.asid { c with regs := { c.regs with elseq := c.regs.elseq + 1 } } }
      let prov := provOf g.asid g.task.serial g.task.entry pc
      let lost (u : State) (cause : Nat) : State :=
        (queueRec u g.asid (recBody 7 g.asid cause 0 g.gid addr seq []) none (coreDie g.core)).modGroup k (fun x => { x with window := some left })
      (∀ u, mtuWalk s1 (coreDie g.core) g.asid addr = (u, .invalid) → raiseFlags s k fl lane left pc = lost u 5) ∧
      (∀ u, mtuWalk s1 (coreDie g.core) g.asid addr = (u, .poison) → raiseFlags s k fl lane left pc = lost u 11) ∧
      (∀ u e level at_, mtuWalk s1 (coreDie g.core) g.asid addr = (u, .leaf e level at_) →
        (pteP e = false → pteRights e &&& 2 ≠ 0 → raiseFlags s k fl lane left pc = lost u 7) ∧
        ((pteP e = true ∨ pteRights e &&& 2 = 0) →
          (∀ v w, groupWrite u g.core g.asid addr (Claims.logRecord g seq fl.toNat lane pc) g.view prov = (v, .ok w) →
            raiseFlags s k fl lane left pc = v.modGroup k (fun x => { x with compl := max x.compl w, window := some left })) ∧
          (∀ v cause d, groupWrite u g.core g.asid addr (Claims.logRecord g seq fl.toNat lane pc) g.view prov = (v, .error (cause, d)) →
            raiseFlags s k fl lane left pc = lost v cause))))

/-- R45, R95, R141, R142: what fadd, fsub, fmul, ffma and frnd raise reaches the flags and the log of the group at the word itself, with the
lowest lane that raised NV, DZ or OF, or 0xFF in the scalar form. -/
def Claims.FloatWordsRaiseTheirFlags : Prop :=
  ∀ p ∈ Claims.floatWords, ∀ (s : State) (g : Group) (w : W), Claims.Issues s g (p.1 w) w →
    let r (l : Nat) : Nat × Flags := p.2 w.t (rndMode g w.rnd) (ftzOf g w.t (isVector (p.1 w) w)) (Claims.fpSrc g (p.1 w) w w.a l)
      (Claims.fpSrc g (p.1 w) w w.b l) (Claims.fpSrc g (p.1 w) w w.c l)
    let u : State := ({ s with ticks := s.ticks + 1 }).setGroup s.cur
      (writeDst (tick s g) w.d w.t.isWide (emOf g w) (fun l => BitVec.ofNat 64 (r l).1))
    let lane := if isVector (p.1 w) w then ((maskLanes (emOf g w)).find? (fun l => (r l).2 &&& 7 != 0)).getD 0xFF else 0xFF
    exec (p.1 w) s = .next (goOn (raiseFlags u s.cur (Claims.flagsOver g (p.1 w) w (fun l => (r l).2)) lane 63 g.pc) s.cur (nextPc g.pc))

namespace Claims

/-- The class of a value, by bit number (R107). -/
def classOf (t : Ty) (v : FVal) : Nat :=
  match v with
  | .nan _ quiet _ => if quiet then 1 else 0
  | .inf neg => if neg then 2 else 9
  | .num neg m e =>
    if m = 0 then (if neg then 5 else 6)
    else if m < 2 ^ (fmtOf t).fb ∧ e = (fmtOf t).qmin then (if neg then 4 else 7)
    else if neg then 3 else 8

/-- A source's value as a conversion of lane `l` reads it, and the random bits of .sr: a scalar form uses lane 0, the element index is
the value's position (R48). -/
def random (g : Group) (i : Instr) (w : W) (l elem : Nat) : Nat :=
  if w.rnd = 5 then srRandom g.srseed (if isVector i w then l else 0) elem else 0

/-- One value converted from type `ts` to type `td` by the word (R110). -/
def converted (g : Group) (i : Instr) (w : W) (td ts : Ty) (l elem : Nat) (x : DWord) : Nat × Flags :=
  convert td ts (rndMode g w.rnd) (random g i w l elem) w.sat (x.toNat % 2 ^ ts.bits)

/-- The state after a conversion word: as `wrote`, and K_SRSEED has risen by 1 if it rounds stochastically (R49). -/
def wroteSeeded (s : State) (g : Group) (w : W) (wide : Bool) (val : Nat → DWord) (fl : Flags) : State :=
  wordDone s { writeDst (tick s g) w.d wide (emOf g w) val with
    flags := g.flags ||| fl, srseed := if w.rnd = 5 then g.srseed + 1 else g.srseed }

/-- A packed element with its value at a position replaced (R41). -/
def packed (t : Ty) (d : DWord) (p v : Nat) : DWord :=
  BitVec.ofNat 64 (d.toNat % 2 ^ (t.bits * p) + v % 2 ^ t.bits * 2 ^ (t.bits * p) + d.toNat / 2 ^ (t.bits * (p + 1)) * 2 ^ (t.bits * (p + 1)))

/-- x of R113: A scaled by 2^(127 − s), with the NaNs of a signalling A and of s = 0xFF. -/
def scaled (a b : Word) : FVal :=
  match fdecode .f32 a.toNat with
  | .nan neg _ fr => .nan neg true (if fr ≥ 2 ^ 22 then fr else fr + 2 ^ 22)
  | .inf neg => if b.toNat % 256 = 255 then .nan false true (2 ^ 22) else .inf neg
  | .num neg m e => if b.toNat % 256 = 255 then .nan false true (2 ^ 22) else .num neg m (e + 127 - Int.ofNat (b.toNat % 256))

/-! ### Results of variable latency (R94, R121) -/

/-- The state after a word whose result a unit returns later: an outstanding result with the cells that it will write and the flags
that it will merge, and a key of its own. -/
def started (s : State) (g : Group) (u : ResUnit) (cells : List WrCell) (fl : Flags) (lane : Nat) : State :=
  ({ s with ticks := s.ticks + 1, nextId := s.nextId + 1 }).setGroup s.cur
    (({ tick s g with pend := g.pend ++ [Pend.mk s.nextId u cells fl lane g.pc none] }).goesOn (nextPc g.pc))

/-- The divide unit's words and the SFU's, with the result of a lane from its source bits or values. -/
def unitWords : List ((W → Instr) × ResUnit × (Group → W → Instr → Nat → Nat × Flags)) :=
  [(.fdiv, .divide, fun g w i l => fdivV w.t (rndMode g w.rnd) (ftzOf g w.t (isVector i w)) (fpSrc g i w w.a l) (fpSrc g i w w.b l)),
   (.fsqrt, .divide, fun g w i l => fsqrtV w.t (rndMode g w.rnd) (ftzOf g w.t (isVector i w)) (fpSrc g i w w.a l)),
   (.rcp, .sfu, fun g w _ l => sfuResult .rcp w.t (srcBits w.t (src g w false w.a l))),
   (.rsq, .sfu, fun g w _ l => sfuResult .rsq w.t (srcBits w.t (src g w false w.a l))),
   (.exp2, .sfu, fun g w _ l => sfuResult .exp2 w.t (srcBits w.t (src g w false w.a l))),
   (.log2, .sfu, fun g w _ l => sfuResult .log2 w.t (srcBits w.t (src g w false w.a l))),
   (.sinpi, .sfu, fun g w _ l => sfuResult .sinpi w.t (srcBits w.t (src g w false w.a l))),
   (.cospi, .sfu, fun g w _ l => sfuResult .cospi w.t (srcBits w.t (src g w false w.a l))),
   (.tanh, .sfu, fun g w _ l => sfuResult .tanh w.t (srcBits w.t (src g w false w.a l)))]

/-! ### Lanes (R124 to R129) -/

/-- The source lane of shfl (R124). -/
def shflLane (v : Nat) (bt : Bool) (i n : Nat) : Nat :=
  let base : Nat := if bt then 32 * (i / 32) else 0
  let size : Nat := if bt then 32 else 96
  let p : Nat := i - base
  let k : Int :=
    if v = 0 then (if bt then n % 32 else n) else if v = 1 then p - n else if v = 2 then p + n
    else if v = 3 then Nat.xor p (if bt then n % 32 else n) else (p + n) % size
  if 0 ≤ k ∧ k < size then base + k.toNat else i

/-- The source lane of bcast (R125). -/
def bcastLane (bt : Bool) (i j : Nat) : Nat := if bt then 32 * (i / 32) + j % 32 else if j ≤ 95 then j else i

/-- The lane that match names: the lowest lane of em with the same bits (R127). -/
def matchLane (g : Group) (w : W) (i : Nat) : Nat :=
  ((List.range 96).find? (fun j => (emOf g w).getLsbD j && src g w w.t.isWide w.a j == src g w w.t.isWide w.a i)).getD i

/-- The words of the vector form over lanes: the width of D, whether the result is written at once, and the value of a lane. -/
def laneWords : List ((W → Instr) × (W → Bool) × (W → Bool) × (Group → W → Nat → DWord)) :=
  [(.shfl, fun w => w.t.isWide, fun w => w.x, fun g w l => src g w w.t.isWide w.a (shflLane w.v.val w.x l (src32 g w w.b l).toNat)),
   (.bcast, fun w => w.t.isWide, fun w => w.x, fun g w l => src g w w.t.isWide w.a (bcastLane w.x l (src32 g w w.b l).toNat)),
   (.matchLanes, fun _ => false, fun _ => false, fun g w l => BitVec.ofNat 64 (matchLane g w l))]

/-- The predicate of vote in a lane (R126). -/
def predicate (g : Group) (w : W) (l : Nat) : Bool :=
  match w.a with
  | .v n => g.v n l != 0
  | .s n => (g.triple n).getLsbD l
  | _ => false

/-- The result of vote.any, vote.all and vote.count (R126). -/
def voted (g : Group) (w : W) : Nat :=
  if w.v.val = 0 then (if (maskLanes (emOf g w)).any (predicate g w) then 1 else 0)
  else if w.v.val = 1 then (if (maskLanes (emOf g w)).all (predicate g w) then 1 else 0)
  else ((maskLanes (emOf g w)).filter (predicate g w)).length

/-- The reductions. -/
def reductions : List ((W → Instr) × RedOp) := [(.redsum, .sum), (.redmin, .min), (.redmax, .max), (.redand, .and), (.redor, .or)]

/-- A code with a subnormal one read as the zero of its sign, where FTZ acts (R50). -/
def flushed (t : Ty) (z : Bool) (x : Nat) : Nat :=
  if z = true ∧ x % 2 ^ (t.bits - 1) < 2 ^ (fmtOf t).fb then x / 2 ^ (t.bits - 1) * 2 ^ (t.bits - 1) else x

/-- The sources of a reduction or a scan: absent outside em, and every subnormal one read as a zero under FTZ (R50, R55). -/
def present (g : Group) (w : W) : List (Option Nat) :=
  (List.range 96).map (fun l =>
    if (emOf g w).getLsbD l then some (flushed w.t (ftzOf g w.t true) ((src g w w.t.isWide w.a l).toNat % 2 ^ w.t.bits)) else none)

/-- The combination of two sides of a reduction or a scan (R128). -/
def node (g : Group) (w : W) (o : RedOp) : Nat → Nat → Nat × Flags := redNode o w.t (rndMode g w.rnd) (ftzOf g w.t true) w.sat

/-- The value of a lane of scan: the inclusive result, or for .ex that of the nearest lower lane of em (R56, R129). -/
def scanned (g : Group) (w : W) (o : RedOp) (l : Nat) : Nat :=
  let inclusive (j : Nat) : Nat := (((scanNetwork (node g w o) (present g w)).getD j (none, 0)).1).getD (redIdentity o w.t)
  if w.x then
    match ((List.range l).filter (fun j => (emOf g w).getLsbD j)).getLast? with
    | some j => inclusive j
    | none => redIdentity o w.t
  else inclusive l

/-- The combination that V of scan names (R129). -/
def scanOp (v : Nat) : RedOp := if v = 0 then .sum else if v = 1 then .min else if v = 2 then .max else if v = 3 then .and else .or

/-! ### Half-operations (R77) -/

/-- The pipe A half-operations, each with the full instruction and the type that R77 names. -/
def halvesA : List (HopA × (W → Instr) × Ty) :=
  [(.fadd32, .fadd, .f32), (.fsub32, .fsub, .f32), (.fmul32, .fmul, .f32), (.ffma32, .ffma, .f32), (.fmin32, .fmin, .f32), (.fmax32, .fmax, .f32),
   (.fadd16, .fadd, .f16), (.fsub16, .fsub, .f16), (.fmul16, .fmul, .f16), (.ffma16, .ffma, .f16), (.fmin16, .fmin, .f16), (.fmax16, .fmax, .f16)]

/-- The pipe B half-operations: the full instruction, its type (none: it has none) and its variant. -/
def halvesB : List (HopB × (W → Instr) × Option Ty × Fin 8) :=
  [(.addI, .add, some .i32, 0), (.subI, .sub, some .i32, 0), (.andB, .and, some .b32, 0), (.orB, .or, some .b32, 0), (.xorB, .xor, some .b32, 0),
   (.shlB, .shl, some .b32, 0), (.shrB, .shr, some .b32, 0), (.sarB, .sar, some .b32, 0), (.minI, .min, some .i32, 0), (.maxI, .max, some .i32, 0),
   (.minZ, .min, some .z32, 0), (.maxZ, .max, some .z32, 0), (.movB, .mov, some .b32, 0), (.bfxI, .bfx, none, 0), (.bfxZ, .bfx, none, 1),
   (.bfi, .bfi, none, 0), (.fshL, .fsh, none, 0), (.fshR, .fsh, none, 1), (.popcB, .popc, some .b32, 0), (.clzB, .clz, some .b32, 0),
   (.notB, .not, some .b32, 0), (.mulZ, .mul, some .z32, 0)]

/-- An element of the vector register that an operand names; 0 where the field is not used. -/
def element (g : Group) (o : Opd) (l : Nat) : DWord := match o with | .v n => (g.v n l).zeroExtend 64 | _ => 0

/-- A full word as a half-operation has it: every field that it uses names a vector register. -/
def vectors (w : W) : Prop := (∃ n, w.d = .v n) ∧ ∀ o ∈ [w.a, w.b, w.c], o = .zero ∨ ∃ n, o = .v n

/-! ### The words that write registers and nothing else -/

/-- Every word of R93 and R124 to R127 with one D, and the width of D: they do nothing when em is empty. -/
def registerWords : List ((W → Instr) × (W → Bool)) :=
  integerWords.map (fun p => (p.1, fun w => w.t.isWide)) ++ plainWords.map (fun p => (p.1, p.2.1)) ++ [(.moviHi, fun _ => true)] ++ bitWords.map (fun p => (p.1, p.2.1)) ++
  floatWords.map (fun p => (p.1, fun w => w.t.isWide)) ++ unitWords.map (fun p => (p.1, fun w => w.t.isWide)) ++
  laneWords.map (fun p => (p.1, p.2.1)) ++
  [(.fmin, fun w => w.t.isWide), (.fmax, fun w => w.t.isWide), (.fclass, fun _ => false), (.cvt, fun w => w.t.isWide),
   (.pk, fun _ => false), (.upk, fun _ => false), (.mxs, fun _ => false), (.scan, fun w => w.t.isWide)]

/-- A scalar register that D names. -/
def isDstS (w : W) (wide : Bool) (n : Nat) : Prop := ∃ m : Fin 64, w.d = .s m ∧ (n = m.val ∨ wide = true ∧ n = m.val + 1)
/-- An element of a vector register that D names. -/
def isDstV (g : Group) (w : W) (wide : Bool) (n l : Nat) : Prop :=
  (emOf g w).getLsbD l = true ∧ ∃ m : Fin 256, w.d = .v m ∧ (n = m.val ∨ wide = true ∧ n = m.val + 1)

end Claims

/-! ## Floating-point choice, class, conversions -/

/-- R105, R107: fmin and fmax choose an operand or the canonical NaN; fclass writes the one bit that names the class, and no flag. -/
def Claims.FloatChoiceAndClassWords : Prop :=
  ∀ (s : State) (g : Group) (w : W),
    (∀ p ∈ ([(.fmin, false), (.fmax, true)] : List ((W → Instr) × Bool)), Claims.Issues s g (p.1 w) w → Claims.NoLog s g →
      let r (l : Nat) : Nat × Flags := fminmax w.t (ftzOf g w.t (isVector (p.1 w) w)) p.2 (srcBits w.t (Claims.src g w w.t.isWide w.a l))
        (srcBits w.t (Claims.src g w w.t.isWide w.b l))
      exec (p.1 w) s = .next (Claims.wrote s g w w.t.isWide (fun l => BitVec.ofNat 64 (r l).1)
        (Claims.flagsOver g (p.1 w) w (fun l => (r l).2)))) ∧
    (Claims.Issues s g (.fclass w) w →
      exec (.fclass w) s = .next (Claims.wrote s g w false
        (fun l => BitVec.ofNat 64 (2 ^ Claims.classOf w.t (fdecode w.t (srcBits w.t (Claims.src g w w.t.isWide w.a l))))) 0))

/-- R105: what fmin and fmax choose. A NaN gives way to a number, two NaNs give the canonical NaN, and a signalling NaN sets NV;
otherwise the result is an operand, and no other operand lies beyond it in the order that puts −0 below +0. -/
def Claims.MinMaxChoosesAnOperand : Prop :=
  ∀ (t : Ty) (most : Bool) (a b : Nat), t.isFlt = true → a < 2 ^ t.bits → b < 2 ^ t.bits →
    let r := fminmax t false most a b
    let nan (x : Nat) : Bool := isNan (fdecode t x)
    (nan a = true → nan b = true → r.1 = canonNan t) ∧
    (nan a = true → nan b = false → r.1 = b) ∧ (nan a = false → nan b = true → r.1 = a) ∧
    (nan a = false → nan b = false → (r.1 = a ∨ r.1 = b) ∧
      (if most then orderKey t a ≤ orderKey t r.1 ∧ orderKey t b ≤ orderKey t r.1
       else orderKey t r.1 ≤ orderKey t a ∧ orderKey t r.1 ≤ orderKey t b)) ∧
    r.2 = if isSnan (fdecode t a) || isSnan (fdecode t b) then 1 else 0

/-- R105, R107: the floating-point words that choose or classify, and what minimum and maximum choose. -/
def Obligations.FloatChoiceWords : Prop := Claims.FloatChoiceAndClassWords ∧ Claims.MinMaxChoosesAnOperand

/-- R42, R43, R44, R109: invalid operations give the canonical NaN and NV, a finite non-zero value divided by zero an infinity and DZ;
a NaN of the sources is returned quieted, and a quiet one sets no flag. -/
def Obligations.FloatSpecialCases : Prop :=
  ∀ (t : Ty) (mode : Nat) (z : Bool), t.isFlt = true →
    (∀ n, faddV t mode z (.inf n) (.inf (!n)) = (canonNan t, 1)) ∧
    (∀ n k e, fmulV t mode z (.num n 0 e) (.inf k) = (canonNan t, 1) ∧ fmulV t mode z (.inf k) (.num n 0 e) = (canonNan t, 1)) ∧
    (∀ n k e e', fdivV t mode z (.num n 0 e) (.num k 0 e') = (canonNan t, 1)) ∧
    (∀ n k, fdivV t mode z (.inf n) (.inf k) = (canonNan t, 1)) ∧
    (∀ n k m e e', m ≠ 0 → fdivV t mode z (.num n m e) (.num k 0 e') = ((fmtOf t).signBit (xor n k) + (fmtOf t).infCode, 2)) ∧
    (∀ m e, m ≠ 0 → fsqrtV t mode z (.num true m e) = (canonNan t, 1)) ∧ fsqrtV t mode z (.inf true) = (canonNan t, 1) ∧
    (∀ n q fr v, isNan v = false → fr < 2 ^ (fmtOf t).fb → (q = true ↔ (fmtOf t).quietBit ≤ fr) →
      let quieted := (fmtOf t).signBit n + (fmtOf t).infCode + (if q then fr else fr + (fmtOf t).quietBit)
      faddV t mode z (.nan n q fr) v = (quieted, if q then 0 else 1) ∧ fmulV t mode z v (.nan n q fr) = (quieted, if q then 0 else 1))

/-- R110 to R113, R49: cvt, pk, upk and mxs write the converted values, keep the other bits of a packed element, merge the flags, and
add 1 to K_SRSEED when they round stochastically. -/
def Claims.ConversionWordsWriteTheConvertedValues : Prop :=
  ∀ (s : State) (g : Group) (w : W), Claims.NoLog s g →
    (Claims.Issues s g (.cvt w) w →
      let r (l : Nat) : Nat × Flags := Claims.converted g (.cvt w) w w.t w.srcTy l 0 (Claims.src g w w.srcTy.isWide w.a l)
      exec (.cvt w) s = .next (Claims.wroteSeeded s g w w.t.isWide
        (fun l => if w.t.isFp then BitVec.ofNat 64 (r l).1 else BitVec.ofInt 64 (intVal w.t (r l).1)) (Claims.flagsOver g (.cvt w) w (fun l => (r l).2)))) ∧
    (Claims.Issues s g (.pk w) w →
      let p := w.imm.toNat
      let r0 (l : Nat) : Nat × Flags := Claims.converted g (.pk w) w w.t w.srcTy l p (Claims.src g w false w.a l)
      let r1 (l : Nat) : Nat × Flags := Claims.converted g (.pk w) w w.t w.srcTy l (p + 1) (Claims.src g w false w.b l)
      exec (.pk w) s = .next (Claims.wroteSeeded s g w false
        (fun l => Claims.packed w.t (Claims.packed w.t (Claims.src g w false w.d l) p (r0 l).1) (p + 1) (r1 l).1)
        (Claims.flagsOver g (.pk w) w (fun l => (r0 l).2 ||| (r1 l).2)))) ∧
    (Claims.Issues s g (.upk w) w →
      let r (l : Nat) : Nat × Flags := convert w.srcTy w.t 0 0 false
        ((Claims.src g w false w.a l).toNat / 2 ^ (w.t.bits * w.imm.toNat) % 2 ^ w.t.bits)
      exec (.upk w) s = .next (Claims.wrote s g w false (fun l => BitVec.ofNat 64 (r l).1) (Claims.flagsOver g (.upk w) w (fun l => (r l).2)))) ∧
    (Claims.Issues s g (.mxs w) w →
      let x (l : Nat) : FVal := Claims.scaled (Claims.src32 g w w.a l) (Claims.src32 g w w.b l)
      let r (l : Nat) : Nat × Flags := convFloat w.t .f32 (rndMode g w.rnd) (Claims.random g (.mxs w) w l w.imm.toNat) w.sat (x l)
      exec (.mxs w) s = .next (Claims.wroteSeeded s g w false
        (fun l => Claims.packed w.t (Claims.src g w false w.d l) w.imm.toNat (r l).1)
        (Claims.flagsOver g (.mxs w) w (fun l => (r l).2 ||| (if isSnan (fdecode .f32 (Claims.src32 g w w.a l).toNat) then 1 else 0)))))

/-- R54: a conversion between integer types gives the value clamped under .sat, with SAT, and modulo 2^w otherwise, without a flag. -/
def Claims.IntegerConversionKeepsTheValue : Prop :=
  ∀ (td ts : Ty) (mode r x : Nat) (sat : Bool), td.isInt = true → ts.isInt = true → x < 2 ^ ts.bits →
    let y := convert td ts mode r sat x
    intVal td y.1 = Claims.written td sat (intVal ts x) ∧
    y.2 = if sat && decide (intVal ts x ≠ Claims.written td true (intVal ts x)) then 32 else 0

/-! ## Results of variable latency, and lanes -/

/-- R109, R117, R94: fdiv, fsqrt and the special functions start in their unit when it has room; the destination is not written yet. -/
def Claims.UnitWordsStartTheirResult : Prop :=
  ∀ p ∈ Claims.unitWords, ∀ (s : State) (g : Group) (w : W), Claims.Issues s g (p.1 w) w → unitLoad s g p.2.1 < 4 →
    let r (l : Nat) : Nat × Flags := p.2.2 g w (p.1 w) l
    ∃ lane, exec (p.1 w) s = .next (Claims.started s g p.2.1
      (dstCells w.d w.t.isWide (Claims.computed g (p.1 w) w) (fun l => BitVec.ofNat 64 (r l).1)) (Claims.flagsOver g (p.1 w) w (fun l => (r l).2)) lane)

/-- R124, R125, R127, R121: shfl, bcast and match give each lane of em the element of its source lane, read before any is written; with
.bt the result is written at once, otherwise it returns later. -/
def Claims.LaneWordsReadTheSourceLane : Prop :=
  ∀ p ∈ Claims.laneWords, ∀ (s : State) (g : Group) (w : W), Claims.Issues s g (p.1 w) w →
    exec (p.1 w) s = .next (if p.2.2.1 w then Claims.wrote s g w (p.2.1 w) (p.2.2.2 g w) 0
      else Claims.started s g .cross (dstCells w.d (p.2.1 w) (maskLanes (emOf g w)) (p.2.2.2 g w)) 0 0xFF)

/-- R126, R120: vote writes its result to every lane of em of a vector D or once to a scalar D, also when em is empty; vote.ballot writes
all 96 bits of the triple. -/
def Claims.VoteWritesTheResultOfTheLanes : Prop :=
  ∀ (s : State) (g : Group) (w : W), Claims.Fits s g (.vote w) w →
    (w.v.val ≠ 2 → exec (.vote w) s = .next (Claims.wrote s g w false (fun _ => BitVec.ofNat 64 (Claims.voted g w)) 0)) ∧
    (w.v.val = 2 → ∃ m : LaneMask, (∀ l, l < 96 → m.getLsbD l = ((emOf g w).getLsbD l && Claims.predicate g w l)) ∧
      exec (.vote w) s = .next (Claims.compared s g w m 0))

/-- R124, R125, R127, R121, R126, R120: the words that move values between lanes and the votes over the lanes complete. -/
def Obligations.LaneWordsAndVotes : Prop := Claims.LaneWordsReadTheSourceLane ∧ Claims.VoteWritesTheResultOfTheLanes

/-- R128, R120, R55: a reduction starts with the result of the tree over the lanes of em, or with its identity when em is empty; only a
vector D with an empty em writes nothing. -/
def Claims.ReductionsStartTheTreeResult : Prop :=
  ∀ p ∈ Claims.reductions, ∀ (s : State) (g : Group) (w : W), Claims.Fits s g (p.1 w) w →
    let r := reduceTree (Claims.node g w p.2) (Claims.present g w)
    let val : DWord := redExtend w.t (r.1.getD (redIdentity p.2 w.t))
    exec (p.1 w) s = .next (if emOf g w = 0 ∧ (∃ n, w.d = .v n) then wordDone s (tick s g)
      else Claims.started s g .cross (dstCells w.d w.t.isWide (maskLanes (emOf g w)) (fun _ => val)) r.2 0xFF)

/-- R128: over an integer type the tree gives the wrapped sum, the least and the greatest value, and over bits the AND and the OR of
the lanes that are present. -/
def Claims.IntegerReductionsFoldTheLanes : Prop :=
  ∀ (t : Ty) (mode : Nat) (z : Bool) (l : List (Option Nat)), l.length = 96 → (∀ x, some x ∈ l → x < 2 ^ t.bits) →
    let xs : List Nat := l.filterMap id
    let tree (o : RedOp) : Option Nat := (reduceTree (redNode o t mode z false) l).1
    (xs = [] → ∀ o, tree o = none) ∧
    (xs ≠ [] → (t = .b32 ∨ t = .b64) → tree .and = some (xs.foldr Nat.land (2 ^ t.bits - 1)) ∧ tree .or = some (xs.foldr Nat.lor 0)) ∧
    (xs ≠ [] → t.isInt = true → (∃ r, tree .sum = some r ∧ r < 2 ^ t.bits ∧ (r : Int) % 2 ^ t.bits = (xs.map (intVal t)).sum % 2 ^ t.bits) ∧
      (∃ r ∈ xs, tree .min = some r ∧ ∀ x ∈ xs, intVal t r ≤ intVal t x) ∧ (∃ r ∈ xs, tree .max = some r ∧ ∀ x ∈ xs, intVal t x ≤ intVal t r))

/-- R129, R56: scan starts with the value of each lane of em, inclusive or exclusive, and with the flags of every combination. -/
def Claims.ScanStartsTheNetworkResult : Prop :=
  ∀ (s : State) (g : Group) (w : W), Claims.Issues s g (.scan w) w →
    let o := Claims.scanOp w.v.val
    let fl : Flags := ((scanNetwork (Claims.node g w o) (Claims.present g w)).map (fun x => x.2)).foldl (· ||| ·) 0
    ∃ lane, exec (.scan w) s = .next (Claims.started s g .cross
      (dstCells w.d w.t.isWide (maskLanes (emOf g w)) (fun l => redExtend w.t (Claims.scanned g w o l))) fl lane)

/-- R128, R120, R55, R129, R56: reductions and scans complete and start the result of their network. -/
def Obligations.ReductionsAndScansStartTheirResult : Prop := Claims.ReductionsStartTheTreeResult ∧ Claims.ScanStartsTheNetworkResult

/-- R128, R50: a node over a floating-point type is fadd, or fmin or fmax, on its two sides, with their subnormal values read as zeros
under FTZ. -/
def Claims.FloatNodesAddAndChoose : Prop :=
  ∀ (t : Ty) (mode a b : Nat) (z sat : Bool), t.isFlt = true → a < 2 ^ t.bits → b < 2 ^ t.bits →
    let x := Claims.flushed t z a
    let y := Claims.flushed t z b
    redNode .sum t mode z sat a b = faddV t mode z (fdecode t x) (fdecode t y) ∧
    redNode .min t mode z sat a b = fminmax t false false x y ∧ redNode .max t mode z sat a b = fminmax t false true x y

/-- R56: the value that the inclusive scan forms at lane 95 equals the reduction, bit for bit. -/
def Claims.ScanAtLane95IsTheReduction : Prop :=
  ∀ (f : Nat → Nat → Nat × Flags) (l : List (Option Nat)), l.length = 96 → ((scanNetwork f l).getD 95 (none, 0)).1 = (reduceTree f l).1

/-- R128, R50, R56: an integer reduction is the fold over the lanes that are present, a floating-point node is fadd, fmin or fmax,
and lane 95 of an inclusive scan holds the reduction. -/
def Obligations.ReductionAndScanValues : Prop := Claims.IntegerReductionsFoldTheLanes ∧ Claims.FloatNodesAddAndChoose ∧ Claims.ScanAtLane95IsTheReduction

/-! ## Paired words, empty masks, and what these words leave alone -/

/-- R76, R79: both halves of a paired word read before either writes, each under its own mask; pipe A writes first. -/
def Claims.BothHalvesReadAndWrite : Prop :=
  ∀ (s : State) (g : Group) (oa : HopA) (ha : Half) (ob : HopB) (hb : Half),
    Ready s g → (Instr.pairedWord oa ha ob hb).wf = true → Claims.NoLog s g →
    let reg (r : Fin 256) (l : Nat) : DWord := (g.v r.val l).zeroExtend 64
    let ra (l : Nat) : DWord × Flags := halfA g oa ha.rnd.val (reg ha.a l) (reg ha.b l) (reg ha.c l)
    let rb (l : Nat) : DWord := halfB ob (reg hb.a l) (reg hb.b l) (reg hb.c l) (reg hb.d l)
    let ma := g.em ha.ms.val false
    exec (.pairedWord oa ha ob hb) s = .next (wordDone s
      { writeDst (writeDst (tick s g) (.v ha.d) false ma (fun l => (ra l).1)) (.v hb.d) false (g.em hb.ms.val false) rb with
        flags := g.flags ||| ((maskLanes ma).map (fun l => (ra l).2)).foldl (· ||| ·) 0 })

/-- R77: each half gives, with its flags, what the full instruction that R77 names gives for the same registers. -/
def Claims.HalvesAreFullInstructions : Prop :=
  (∀ p ∈ Claims.halvesA, ∀ (s : State) (g : Group) (w : W), Claims.Issues s g (p.2.1 w) w → Claims.NoLog s g → w.t = p.2.2 → Claims.vectors w →
    let r (l : Nat) : DWord × Flags := halfA g p.1 w.rnd (Claims.element g w.a l) (Claims.element g w.b l) (Claims.element g w.c l)
    exec (p.2.1 w) s = .next (Claims.wrote s g w false (fun l => (r l).1) (Claims.flagsOver g (p.2.1 w) w (fun l => (r l).2)))) ∧
  (∀ p ∈ Claims.halvesB, ∀ (s : State) (g : Group) (w : W), Claims.Issues s g (p.2.1 w) w → w.sat = false → (∀ t, p.2.2.1 = some t → w.t = t) →
    (p.2.2.1 = none → w.v = p.2.2.2) → Claims.vectors w →
    exec (p.2.1 w) s = .next (Claims.wrote s g w false (fun l => halfB p.1 (Claims.element g w.a l) (Claims.element g w.b l)
      (Claims.element g w.c l) (Claims.element g w.d l)) 0))

/-- R76, R79, R77: both halves of a paired word read before either writes, and each is the full instruction that its opcode names. -/
def Obligations.PairedWordRunsBothHalves : Prop := Claims.BothHalvesReadAndWrite ∧ Claims.HalvesAreFullInstructions

/-- R16, R20: with an empty em these words write nothing, set no flag and start nothing; the group goes on. -/
def Claims.EmptyMaskDoesNothing : Prop :=
  ∀ p ∈ Claims.registerWords, ∀ (s : State) (g : Group) (w : W), Claims.Fits s g (p.1 w) w → emOf g w = 0 →
    exec (p.1 w) s = .next (wordDone s (tick s g))

/-- R20, R13: what these words leave alone, in a context without an error log: every other group, every byte of memory and all other
state; of their own group, every scalar register and vector element that is not of D, the control and trap registers, the operations. -/
def Claims.RegisterWordsFrame : Prop :=
  ∀ p ∈ Claims.registerWords, ∀ (s t : State) (g : Group) (w : W), Claims.Fits s g (p.1 w) w → Claims.NoLog s g → exec (p.1 w) s = .next t →
    t = { s with groups := t.groups, ticks := t.ticks, nextId := t.nextId } ∧
    (∀ k, k ≠ s.cur → t.group? k = s.group? k) ∧ (∀ a, cellRead t.hbm a = cellRead s.hbm a) ∧
    (∀ c a, cellRead (t.core c).scratch a = cellRead (s.core c).scratch a) ∧
    ∃ g', t.group? s.cur = some g' ∧ (∀ n, n < 64 → ¬ Claims.isDstS w (p.2 w) n → g'.s n = g.s n) ∧
      (∀ n l, l < 96 → ¬ Claims.isDstV g w (p.2 w) n l → g'.v n l = g.v n l) ∧ g'.gmode = g.gmode ∧ g'.view = g.view ∧ g'.ops = g.ops ∧
      g'.sup = g.sup ∧ { g'.trap with left := g.trap.left } = g.trap ∧ g.flags &&& g'.flags = g.flags

/-- R16, R20, R13: with an empty mask a word does nothing, and a register word changes its destination and flags only. -/
def Obligations.EmptyMaskAndFrame : Prop := Claims.EmptyMaskDoesNothing ∧ Claims.RegisterWordsFrame

namespace Claims

/-! ### Rounding (R46 to R48) -/

/-- A magnitude m × 2^e in units of 2^q, for q at most e. -/
def units (q : Int) (x : Nat × Int) : Nat := x.1 * 2 ^ (x.2 - q).toNat

/-- The magnitude of a code of `fb` fraction bits whose least place is 2^qmin; codes past the largest finite one go on as if the exponent
were unbounded. -/
def codeVal (fb : Nat) (qmin : Int) (c : Nat) : Nat × Int :=
  if c < 2 ^ fb then (c, qmin) else (2 ^ fb + c % 2 ^ fb, Int.ofNat (c / 2 ^ fb) - 1 + qmin)

/-- `c` is the value of a rising sequence that the magnitude `x` rounds to: 0 nearest, a tie to the even one, 1 toward zero, 2 toward plus
infinity, 3 toward minus infinity, 5 with the random number `r` (R46, R48). -/
def Rounds (val : Nat → Nat × Int) (mode r : Nat) (sign : Bool) (x : Nat × Int) (c : Nat) : Prop :=
  let q := min x.2 (min (val (c - 1)).2 (min (val c).2 (val (c + 1)).2))
  let X := units q x
  let lo := units q (val (c - 1))
  let mid := units q (val c)
  let hi := units q (val (c + 1))
  if mode = 0 then (c = 0 ∨ lo + mid < 2 * X ∨ lo + mid = 2 * X ∧ c % 2 = 0) ∧ (2 * X < mid + hi ∨ 2 * X = mid + hi ∧ c % 2 = 0)
  else if mode = 5 then (mid ≤ X ∧ X < hi ∧ (X - mid) * 2 ^ 32 / (hi - mid) + r < 2 ^ 32) ∨
    (c ≠ 0 ∧ lo ≤ X ∧ X < mid ∧ 2 ^ 32 ≤ (X - lo) * 2 ^ 32 / (mid - lo) + r)
  else if mode = 1 ∨ (mode = 2 ∧ sign = true) ∨ (mode = 3 ∧ sign = false) then mid ≤ X ∧ X < hi
  else X ≤ mid ∧ (c = 0 ∨ lo < X)

/-- The codes of a format's magnitudes. -/
def magnitudes (t : Ty) : Nat → Nat × Int := codeVal (fmtOf t).fb (fmtOf t).qmin

/-- A sequence of magnitudes with each multiplied by `y`: `x` rounds in it to the place to which x ÷ y rounds in the sequence. -/
def times (y : Nat × Int) (val : Nat → Nat × Int) (c : Nat) : Nat × Int := ((val c).1 * y.1, (val c).2 + y.2)

/-- With the exponent taken as unbounded the rounded magnitude x ÷ y lies below the smallest normal of the format (R45). -/
def TinyRounded (t : Ty) (mode r : Nat) (sign : Bool) (x : Nat × Int) (y : Nat × Int := (1, 0)) : Prop :=
  let q := min (fmtOf t).qmin (x.2 + Int.ofNat (Nat.log2 x.1) - y.2 - Int.ofNat (Nat.log2 y.1) - 1 - Int.ofNat (fmtOf t).fb)
  ∃ c, Rounds (times y (codeVal (fmtOf t).fb q)) mode r sign x c ∧ units q (codeVal (fmtOf t).fb q c) < 2 ^ ((fmtOf t).qmin + Int.ofNat (fmtOf t).fb - q).toNat

/-- The value that an overflow gives (R47). -/
def overflowed (t : Ty) (mode : Nat) (sign : Bool) : Nat :=
  (fmtOf t).signBit sign + (if mode = 1 ∨ (mode = 2 ∧ sign = true) ∨ (mode = 3 ∧ sign = false) then (fmtOf t).maxCode else (fmtOf t).infCode)

/-- A rounded code in range, with NX when it is not the exact value, and UF when it is tiny besides (R45). -/
def InRange (t : Ty) (mode r : Nat) (sign : Bool) (x : Nat × Int) (c : Nat) (res : Nat × Flags) (y : Nat × Int := (1, 0)) : Prop :=
  let q := min x.2 (times y (magnitudes t) c).2
  ∃ nx uf : Bool, (nx = true ↔ units q x ≠ units q (times y (magnitudes t) c)) ∧ (uf = true ↔ nx = true ∧ TinyRounded t mode r sign x y) ∧
    res = ((fmtOf t).signBit sign + c, (if nx then 16 else 0) ||| (if uf then 8 else 0))

/-- An exact result of a sign and a magnitude x ÷ y that is not zero, rounded once into a format of the arithmetic words (R45, R47, R50). -/
def RoundedOnce (t : Ty) (mode : Nat) (ftz sign : Bool) (x : Nat × Int) (res : Nat × Flags) (y : Nat × Int := (1, 0)) : Prop :=
  ∃ c, Rounds (times y (magnitudes t)) mode 0 sign x c ∧
    if c > (fmtOf t).maxCode then res = (overflowed t mode sign, 4 ||| 16)
    else if ftz = true ∧ c ≠ 0 ∧ c < 2 ^ (fmtOf t).fb then res = ((fmtOf t).signBit sign, 8 ||| 16)
    else InRange t mode 0 sign x c res y

/-- The exact sum of two signed magnitudes: its sign, or none for zero, and its magnitude. -/
def exactSum (s1 : Bool) (x : Nat × Int) (s2 : Bool) (y : Nat × Int) : Int × Int :=
  let q := min x.2 y.2
  ((if s1 then -(units q x : Int) else units q x) + (if s2 then -(units q y : Int) else units q y), q)

/-- A result of a sum: rounded once, or a zero with the sign of R44. -/
def Summed (t : Ty) (mode : Nat) (ftz s1 : Bool) (x : Nat × Int) (s2 : Bool) (y : Nat × Int) (res : Nat × Flags) : Prop :=
  let z := exactSum s1 x s2 y
  if z.1 = 0 then
    res = ((fmtOf t).signBit (if x.1 = 0 ∧ y.1 = 0 ∧ s1 = s2 then s1 else decide (mode = 3)), 0)
  else RoundedOnce t mode ftz (decide (z.1 < 0)) (z.1.natAbs, z.2) res

/-! ### The order of values, and conversions (R51 to R53, R106) -/

/-- A value is at most another; the zeros are equal and no NaN is asked for. -/
def atMost (a b : FVal) : Bool :=
  match a, b with
  | .inf true, _ | _, .inf false => true
  | .inf false, _ | _, .inf true => false
  | .num s1 m1 e1, .num s2 m2 e2 =>
    let q := min e1 e2
    let v (s : Bool) (x : Nat × Int) : Int := if s then -(units q x : Int) else units q x
    decide (v s1 (m1, e1) ≤ v s2 (m2, e2))
  | _, _ => false

/-- The table of fcmp: the relation of an ordered pair (R106). -/
def fcmpRelation (v : Nat) (a b : FVal) : Bool :=
  if v = 0 then atMost a b && atMost b a else if v = 1 then !(atMost a b && atMost b a) else if v = 2 then !atMost b a
  else if v = 3 then atMost a b else if v = 4 then !atMost a b else if v = 5 then atMost b a else v == 7

/-- What an overflow into a format gives, with SAT where the value is clamped (R51). -/
def convOverflowed (td : Ty) (mode : Nat) (sat sign : Bool) : Nat × Flags :=
  let clamped : Nat × Flags := ((fmtOf td).signBit sign + (fmtOf td).maxCode, 32)
  match td with
  | .e2m1 => clamped
  | .e4m3 => if sat then clamped else (0x7F, 0)
  | .e5m2 => if sat then clamped else (overflowed td mode sign, 0)
  | _ => (overflowed td mode sign, 0)

/-- A number that is not zero converted to a floating-point format: rounded once, with the overflows of R51; a stochastic rounding
overflows as under .rn (R48). -/
def ConvertedNumber (td : Ty) (mode r : Nat) (sat sign : Bool) (x : Nat × Int) (res : Nat × Flags) : Prop :=
  ∃ c, Rounds (magnitudes td) mode r sign x c ∧
    if c > (fmtOf td).maxCode then
      let o := convOverflowed td (if mode = 5 then 0 else mode) sat sign
      res = (o.1, o.2 ||| (4 ||| 16))
    else InRange td mode r sign x c res

end Claims

/-- R106, R50: what fcmp finds: the relation of its table for an ordered pair, for an unordered one set under ne and uo alone; NV for a
signalling NaN, and for a quiet one under lt, le, gt and ge. -/
def Claims.FcmpFollowsItsTable : Prop :=
  ∀ (t : Ty) (z : Bool) (v a b : Nat), t.isFlt = true → v < 8 → a < 2 ^ t.bits → b < 2 ^ t.bits →
    let x := if z then flushIn t (fdecode t a) else fdecode t a
    let y := if z then flushIn t (fdecode t b) else fdecode t b
    let unordered := isNan x || isNan y
    (fcmpV t z v a b).1 = (if unordered then decide (v = 1 ∨ v = 6) else Claims.fcmpRelation v x y) ∧
    (fcmpV t z v a b).2 = if isSnan x || isSnan y || (unordered && decide (2 ≤ v ∧ v ≤ 5)) then 1 else 0

/-- R101, R106, R50: cmp and fcmp write the lanes of em by the tables of their variants. -/
def Obligations.ComparisonsWriteTheLanesOfEm : Prop := Claims.CmpAndFcmpWriteTheLanesOfEm ∧ Claims.FcmpFollowsItsTable

/-- R46, R47, R104, R108: what the result of fadd, fsub, fmul, ffma and frnd is on numbers: the exact sum or product rounded once in each
mode, with the overflow of R47, the flags NX, UF and OF of R45, the flush of R50 and the signs of R44; frnd gives the integral value that
its mode names, and no flag. -/
def Claims.ArithmeticRoundsOnce : Prop :=
  ∀ (t : Ty) (mode : Nat) (z : Bool), t.isFlt = true → mode < 4 →
    (∀ s1 m1 e1 s2 m2 e2, Claims.Summed t mode z s1 (m1, e1) s2 (m2, e2) (faddV t mode z (.num s1 m1 e1) (.num s2 m2 e2)) ∧
      Claims.Summed t mode z s1 (m1, e1) (!s2) (m2, e2) (faddV t mode z (.num s1 m1 e1) (fneg (.num s2 m2 e2)))) ∧
    (∀ s1 m1 e1 s2 m2 e2, if m1 * m2 = 0 then fmulV t mode z (.num s1 m1 e1) (.num s2 m2 e2) = ((fmtOf t).signBit (xor s1 s2), 0)
      else Claims.RoundedOnce t mode z (xor s1 s2) (m1 * m2, e1 + e2) (fmulV t mode z (.num s1 m1 e1) (.num s2 m2 e2))) ∧
    (∀ s1 m1 e1 s2 m2 e2 s3 m3 e3, Claims.Summed t mode z (xor s1 s2) (m1 * m2, e1 + e2) s3 (m3, e3)
      (ffmaV t mode z (.num s1 m1 e1) (.num s2 m2 e2) (.num s3 m3 e3))) ∧
    (∀ b s m e, fdecode t b = .num s m e → m ≠ 0 → ∃ n c, Claims.Rounds (fun k => (k, 0)) mode 0 s (m, e) n ∧
      Claims.units (min 0 (Claims.magnitudes t c).2) (Claims.magnitudes t c) = Claims.units (min 0 (Claims.magnitudes t c).2) (n, 0) ∧
      c ≤ (fmtOf t).maxCode ∧ frndV t mode (.num s m e) = ((fmtOf t).signBit s + c, 0))

/-- R104, R108, R45, R46, R47, R140, R141, R142, R95: the arithmetic words write their result, rounded once, and raise their flags,
which the error log records. -/
def Obligations.FloatWordsWriteTheRoundedResult : Prop := Claims.FloatWordsWriteTheResult ∧ Claims.ArithmeticRoundsOnce ∧ Claims.FlagsAreLogged ∧ Claims.FloatWordsRaiseTheirFlags

namespace Claims

/-- The code `c` to which the square root of the magnitude `x` rounds in a rising sequence: 0 nearest, a tie to the even one, 1 and 3 down,
2 up (R46). -/
def RoundsRoot (val : Nat → Nat × Int) (mode : Nat) (x : Nat × Int) (c : Nat) : Prop :=
  let q := min ((x.2 - 1) / 2) (min (val (c - 1)).2 (min (val c).2 (val (c + 1)).2))
  let X := units (2 * q) x
  let lo := units q (val (c - 1))
  let mid := units q (val c)
  let hi := units q (val (c + 1))
  if mode = 0 then (c = 0 ∨ (lo + mid) ^ 2 < 4 * X ∨ (lo + mid) ^ 2 = 4 * X ∧ c % 2 = 0) ∧ (4 * X < (mid + hi) ^ 2 ∨ 4 * X = (mid + hi) ^ 2 ∧ c % 2 = 0)
  else if mode = 2 then X ≤ mid ^ 2 ∧ (c = 0 ∨ lo ^ 2 < X)
  else mid ^ 2 ≤ X ∧ X < hi ^ 2

/-- Two magnitudes are equal. -/
def same (x y : Nat × Int) : Prop := units (min x.2 y.2) x = units (min x.2 y.2) y

/-- A magnitude is at most another. -/
def upTo (x y : Nat × Int) : Prop := units (min x.2 y.2) x ≤ units (min x.2 y.2) y

/-- The value of a code is n × 2^k; a zero is +0. -/
def codes (t : Ty) (c : Nat) (n k : Int) : Prop := ∃ m e, fdecode t c = .num (decide (n < 0)) m e ∧ same (m, e) (n.natAbs, k)

/-- −1 to the power n. -/
def parity (n : Int) : Int := if n % 2 = 0 then 1 else -1

end Claims

/-- R109, R46, R47: what fdiv and fsqrt give on numbers: the exact quotient or root rounded once in each mode, with the flags of R45, the
overflow of R47 and the flush of R50; a zero divided is a zero, and the root of a zero is that zero. -/
def Claims.QuotientsAndRootsRoundOnce : Prop :=
  ∀ (t : Ty) (mode : Nat) (z : Bool), t.isFlt = true → mode < 4 →
    (∀ s1 m1 e1 s2 m2 e2, m1 ≠ 0 → m2 ≠ 0 →
      Claims.RoundedOnce t mode z (xor s1 s2) (m1, e1) (fdivV t mode z (.num s1 m1 e1) (.num s2 m2 e2)) (m2, e2)) ∧
    (∀ s1 e1 s2 m2 e2, m2 ≠ 0 → fdivV t mode z (.num s1 0 e1) (.num s2 m2 e2) = ((fmtOf t).signBit (xor s1 s2), 0)) ∧
    (∀ s1 s2 m e, fdivV t mode z (.num s1 m e) (.inf s2) = ((fmtOf t).signBit (xor s1 s2), 0) ∧
      fdivV t mode z (.inf s2) (.num s1 m e) = ((fmtOf t).signBit (xor s1 s2) + (fmtOf t).infCode, 0)) ∧
    (∀ b m e, fdecode t b = .num false m e → m ≠ 0 → ∃ c, Claims.RoundsRoot (Claims.magnitudes t) mode (m, e) c ∧ c ≤ (fmtOf t).maxCode ∧
      ∃ nx : Bool, (nx = true ↔ ∀ k n, Claims.magnitudes t c = (k, n) → ¬ Claims.same (m, e) (k * k, 2 * n)) ∧
        fsqrtV t mode z (.num false m e) = (c, if nx then 16 else 0)) ∧
    (∀ s e, fsqrtV t mode z (.num s 0 e) = ((fmtOf t).signBit s, 0)) ∧ fsqrtV t mode z (.inf false) = ((fmtOf t).infCode, 0)

/-- R118, R117: the special and exact cases of the special functions, in .f32 and .f16: zeros, infinities, NaNs and negative arguments, powers of
two, integers and halves, overflow and underflow, with their flags; any other result is inexact and raises NX alone. -/
def Claims.SpecialFunctionsFollowTheirTable : Prop :=
  ∀ (t : Ty) (x : Nat), t = .f32 ∨ t = .f16 → x < 2 ^ t.bits →
    let f (o : Sfu) : Nat × Flags := sfuResult o t x
    let inf (s : Bool) : Nat := (fmtOf t).signBit s + (fmtOf t).infCode
    let nan : Nat × Flags := (canonNan t, 1)
    let gives (o : Sfu) (n k : Int) (fl : Flags) : Prop := ∃ c, f o = (c, fl) ∧ Claims.codes t c n k
    let top : Int := Int.ofNat (2 ^ ((fmtOf t).eb - 1))
    let bottom : Int := (fmtOf t).qmin
    (∀ s q fr, fdecode t x = .nan s q fr → ∀ o,
      f o = ((fmtOf t).signBit s + (fmtOf t).infCode + (if q then fr else fr + (fmtOf t).quietBit), if q then 0 else 1)) ∧
    (∀ s e, fdecode t x = .num s 0 e → f .rcp = (inf s, 2) ∧ f .rsq = (inf s, 2) ∧ gives .exp2 1 0 0 ∧ f .log2 = (inf true, 2) ∧
      f .sinpi = ((fmtOf t).signBit s, 0) ∧ gives .cospi 1 0 0 ∧ f .tanh = ((fmtOf t).signBit s, 16)) ∧
    (∀ s, fdecode t x = .inf s → f .rcp = ((fmtOf t).signBit s, 16) ∧ f .rsq = (if s then nan else (0, 16)) ∧
      f .exp2 = (if s then (0, 16) else (inf false, 0)) ∧ f .log2 = (if s then nan else (inf false, 0)) ∧ f .sinpi = nan ∧ f .cospi = nan ∧
      gives .tanh (if s then -1 else 1) 0 16) ∧
    (∀ m e, fdecode t x = .num true m e → m ≠ 0 → f .rsq = nan ∧ f .log2 = nan) ∧
    (∀ n k, n = 1 ∨ n = -1 → Claims.codes t x n k → 2 - top ≤ -k → -k ≤ top - 1 → gives .rcp n (-k) 0) ∧
    (∀ s m e k n, fdecode t x = .num s m e → m ≠ 0 → Claims.magnitudes t (fmtOf t).maxCode = (k, n) → 0 ≤ -(n + e) → k * m < 2 ^ (-(n + e)).toNat →
      f .rcp = (inf s, 4 ||| 16)) ∧
    (∀ k, Claims.codes t x 1 (2 * k) → gives .rsq 1 (-k) 0) ∧
    (∀ n, Claims.codes t x n 0 → bottom ≤ n → n ≤ top - 1 → gives .exp2 1 n 0) ∧
    (∀ m e, fdecode t x = .num false m e → Claims.upTo (1, Int.ofNat ((fmtOf t).eb - 1)) (m, e) → f .exp2 = (inf false, 4 ||| 16)) ∧
    (∀ m e, fdecode t x = .num true m e → Claims.upTo ((1 - bottom).toNat, 0) (m, e) → f .exp2 = (0, 16)) ∧
    (∀ k, Claims.codes t x 1 k → gives .log2 k 0 0) ∧
    (∀ n, Claims.codes t x n 0 → n ≠ 0 → f .sinpi = ((fmtOf t).signBit (decide (n < 0)), 0) ∧ gives .cospi (Claims.parity n) 0 0) ∧
    (∀ n, Claims.codes t x (2 * n + 1) (-1) → gives .sinpi (Claims.parity n) 0 0 ∧ f .cospi = (0, 0)) ∧
    (∀ s m e, fdecode t x = .num s m e → Claims.upTo (10, 0) (m, e) → gives .tanh (if s then -1 else 1) 0 16) ∧
    (∀ s m e, fdecode t x = .num s m e → m ≠ 0 → (f .tanh).2 = 16 ∧
      ((∀ h : Int, ¬ Claims.codes t x h (-1)) → (f .sinpi).2 = 16 ∧ (f .cospi).2 = 16) ∧
      (s = false → (∀ k, ¬ Claims.codes t x 1 k) → (f .rsq).2 = 16 ∧ (f .log2).2 = 16))

/-- R109, R117, R94, R46, R47, R118: the words of the divide unit and the SFU start their result: the exact quotient or root rounded
once, and the special and exact cases of the functions. -/
def Obligations.UnitWordsGiveTheirResult : Prop := Claims.UnitWordsStartTheirResult ∧ Claims.QuotientsAndRootsRoundOnce ∧ Claims.SpecialFunctionsFollowTheirTable

/-- R51, R52, R53, R54: a conversion to a floating-point format rounds a number once, keeps a zero, and follows the table of R51 for an
overflow, an infinity and a NaN, whose sign and leading fraction bits R52 keeps; a conversion of a float to an integer is the rounded
value, clamped with NV, 0 for a NaN with NV, and otherwise NX when it is inexact. -/
def Claims.FloatConversionsFollowTheirTables : Prop :=
  ∀ (td ts : Ty) (mode r : Nat) (sat : Bool), ts.isFp = true → (mode < 4 ∨ mode = 5) → r < 2 ^ 32 →
    (td.isFp = true →
      (∀ s e, convFloat td ts mode r sat (.num s 0 e) = ((fmtOf td).signBit s, 0)) ∧
      (∀ s m e, m ≠ 0 → Claims.ConvertedNumber td mode r sat s (m, e) (convFloat td ts mode r sat (.num s m e))) ∧
      (∀ s, convFloat td ts mode r sat (.inf s) =
        if td = .e2m1 ∨ ((td = .e4m3 ∨ td = .e5m2) ∧ sat = true) then ((fmtOf td).signBit s + (fmtOf td).maxCode, 32)
        else if td = .e4m3 then (0x7F, 1) else ((fmtOf td).signBit s + (fmtOf td).infCode, 0)) ∧
      (∀ s q fr, (td = .e5m2 → convFloat td ts mode r sat (.nan s q fr) = (0x7E, if q then 0 else 1)) ∧
        (td = .e4m3 → convFloat td ts mode r sat (.nan s q fr) = (0x7F, if q then 0 else 1)) ∧
        (td = .e2m1 → convFloat td ts mode r sat (.nan s q fr) = (0, 1)) ∧
        (td.isFlt = true → ts.isFlt = true → fr < 2 ^ (fmtOf ts).fb → ∃ fr', fr' < 2 ^ (fmtOf td).fb ∧ fr'.testBit ((fmtOf td).fb - 1) = true ∧
          (∀ j, j + 1 < (fmtOf td).fb → fr'.testBit j = (decide ((fmtOf td).fb ≤ j + (fmtOf ts).fb) && fr.testBit (j + (fmtOf ts).fb - (fmtOf td).fb))) ∧
          convFloat td ts mode r sat (.nan s q fr) = ((fmtOf td).signBit s + (fmtOf td).infCode + fr', if q then 0 else 1))) ∧
      (∀ ti x, ti.isInt = true → x < 2 ^ ti.bits → intVal ti x ≠ 0 →
        Claims.ConvertedNumber td mode r sat (decide (intVal ti x < 0)) ((intVal ti x).natAbs, 0) (convert td ti mode r sat x))) ∧
    (td.isInt = true → mode < 4 →
      (∀ s q fr, convToInt td mode (.nan s q fr) = (0, 1)) ∧
      (∀ s, intVal td (convToInt td mode (.inf s)).1 = (if s then Claims.lowest td else Claims.greatest td) ∧ (convToInt td mode (.inf s)).2 = 1) ∧
      (∀ s e, convToInt td mode (.num s 0 e) = (0, 0)) ∧
      (∀ s m e, m ≠ 0 → ∃ n, Claims.Rounds (fun k => (k, 0)) mode 0 s (m, e) n ∧
        let x : Int := if s then -(n : Int) else n
        let y := max (Claims.lowest td) (min (Claims.greatest td) x)
        let q := min e 0
        intVal td (convToInt td mode (.num s m e)).1 = y ∧
        (convToInt td mode (.num s m e)).2 = if y ≠ x then 1 else if Claims.units q (m, e) ≠ Claims.units q (n, 0) then 16 else 0))

/-- R110 to R113, R49, R54, R51, R52, R53: conversions write the converted values: rounded once, clamped or wrapped, and by the
tables for special values. -/
def Obligations.ConversionWords : Prop := Claims.ConversionWordsWriteTheConvertedValues ∧ Claims.IntegerConversionKeepsTheValue ∧ Claims.FloatConversionsFollowTheirTables

/-! ## The step, and how words reach it -/

namespace Claims

/-- The group may issue the word at its PC now: its context runs, it is active, no ready handler of its partition issues first (R35), it is
inside no word, no held operation, reissue, window or budget comes first, the line of its PC is cached, checked and free of reserved bits, and an arrival to be checked finds an entry (R33, R61, R65, R135, R166, R167). -/
structure FetchReady (s : State) (k : Nat) (g : Group) (l : ILine) : Prop where
  group   : s.group? k = some g
  active  : g.active = true
  runs    : canRun s g = true
  first   : yields s k g = false
  due     : dueHeld g = none
  outside : waitsOutside s k g = false
  task    : (g.task.failing && !g.sup) = false
  window  : (g.inWord.isNone && g.window == some 0) = false
  outer   : insideWord g = none
  whole   : g.ops.any (fun o => o.again) = false
  budget  : (g.inWord.isNone && g.sup && g.trap.left == 0) = false
  low     : highBits g.pc = false
  line    : findILine s g.core g.asid g.pc = some l
  arrival : g.arrival.isSome = true → wordAddress g.pc = true ∧ lineTgt l.data (pcSlot g.pc) = true
  good    : l.failed = false
  plain   : lineReserved l.data = false

/-- The machine between two steps: no access has met a set without room, and no context one for its held bytes (R369). -/
def Between (s : State) : Prop := s.blocked = false ∧ s.overflowed = []

/-- The state in which the turn of group `k` is performed: the sets of its partition are settled (R33), and the turn is taken. -/
def turnOf (s : State) (k : Nat) (r : List Turn) : State := { settleSets s with agenda := r, cur := k }

/-- What taking a trap does to a user-mode group `g` (R164): the saved registers, am, the mode, the budget and the PC; nothing else of
the group and of the machine changes but the issue count. -/
structure TrapTaken (s t : State) (k : Nat) (g : Group) (cause detail lane : Nat) (addr resume : DWord) (pend : LaneMask) (rd : Bool) : Prop where
  frame  : t = { s with groups := t.groups, ticks := t.ticks }
  others : ∀ j, j ≠ k → t.group? j = s.group? j
  enters : ∃ g', t.group? k = some g' ∧ g'.trap.am = g.am ∧ g'.trap.pend = pend ∧ g'.trap.pc = resume ∧ g'.trap.addr = addr ∧
    g'.trap.cause = BitVec.ofNat 32 ((if rd then 2 ^ 31 else 0) + detail % 256 * 2 ^ 16 + lane % 256 * 2 ^ 8 + cause % 256) ∧
    g'.trap.left = g.trap.budget ∧ g'.am = (if pend = 0 then allLanes else pend) ∧ g'.sup = true ∧ g'.pc = g.trap.vec ∧
    g'.trap.vec = g.trap.vec ∧ g'.trap.budget = g.trap.budget ∧ g'.trap.scr = g.trap.scr ∧
    (∀ n, n < 61 → g'.s n = g.s n) ∧ g'.vregs = g.vregs ∧ g'.flags = g.flags ∧ g'.view = g.view ∧ g'.ops.length = g.ops.length ∧
    g'.pend = g.pend ∧ g'.gmode = g.gmode ∧ g'.inWord = none

/-- What escalation does (R167): the group stops with its trap state, and an ESCALATE record with the reason waits for its ring. -/
structure Escalated (s t : State) (k : Nat) (g : Group) (reason : Nat) : Prop where
  stops  : ∃ g', t.group? k = some g' ∧ g'.park = some .escalated ∧ g'.escal.map (fun e => e.2) = some reason ∧ g'.pc = g.pc ∧
    g'.sup = g.sup ∧ g'.trap = g.trap ∧ g'.sregs = g.sregs ∧ g'.vregs = g.vregs ∧ g'.flags = g.flags
  others : ∀ j, j ≠ k → t.group? j = s.group? j
  record : s.context? g.asid ≠ none → ∃ x, t.ringWaits = s.ringWaits ++ [x] ∧ x.asid = g.asid ∧ x.item = some (.group k) ∧
    x.bytes.take 3 = [5, BitVec.ofNat 8 g.asid, BitVec.ofNat 8 reason]
  memory : t.hbm = s.hbm ∧ t.cores = s.cores

end Claims

/-- R61, R64, R83: when the head of the agenda gives a group the turn and the word at its PC decodes, the step runs that instruction in the
state of the turn, with the arrival settled; a group inside a word goes on with that word; an event of the agenda is performed as it stands. A
turn that met a set without room changes nothing (`finishTurn`, R369). -/
def Obligations.StepRunsTheDecodedInstruction : Prop :=
  (∀ (s : State) (k : Nat) (r : List Turn) (g : Group) (l : ILine) (i : Instr), toSave (settleSets s) = none → s.agenda = .issue k :: r →
    Claims.FetchReady (Claims.turnOf s k r) k g l → decodeFor g.demand (linePair l.data (pcSlot g.pc)) (lineSlot l.data (pcSlot g.pc)) = .ok i →
    let u := (Claims.turnOf s k r).setGroup k { g with arrival := none }
    ∃ t, exec i u = .next t ∧ step s = .next (finishTurn u t)) ∧
  (∀ (s : State) (k : Nat) (r : List Turn) (g : Group) (i : Instr), toSave (settleSets s) = none → s.agenda = .issue k :: r →
    let u := Claims.turnOf s k r
    u.group? k = some g → canRun u g = true → g.active = true → yields u k g = false → dueHeld g = none → waitsOutside u k g = false →
    g.task.failing = false → g.ops.any (fun o => o.again) = false → insideWord g = some i → ∃ t, exec i u = .next t ∧ step s = .next (finishTurn u t)) ∧
  (∀ (s : State) (i : Instr) (r : List Turn), toSave (settleSets s) = none → s.agenda = .event i :: r → i.isWord = false →
    let u : State := { settleSets s with agenda := r }
    ∃ t, exec i u = .next t ∧ step s = .next (finishTurn u t)) ∧
  (∀ u t : State, t.overflowed = [] → t.blocked = false → finishTurn u t = t)

/-- R83, R161, R164: when the word at the PC of a user-mode group stands for no instruction, the step takes the illegal-instruction trap
with the detail code of the decoder, at that word. -/
def Claims.IllegalWordTakesTheTrap : Prop :=
  ∀ (s : State) (k : Nat) (r : List Turn) (g : Group) (l : ILine) (d : Nat), toSave (settleSets s) = none → s.agenda = .issue k :: r →
    Claims.Between s → Claims.FetchReady (Claims.turnOf s k r) k g l → g.sup = false → g.inWord = none →
    decodeFor g.demand (linePair l.data (pcSlot g.pc)) (lineSlot l.data (pcSlot g.pc)) = .error d →
    ∃ t, step s = .next t ∧ Claims.TrapTaken (Claims.turnOf s k r) t k g 1 d 0xFF g.pc g.pc 0 false ∧
      exec (.illegalInstruction d) (Claims.turnOf s k r) = .next t

/-- No step of this machine stops: every instruction word and every event, in every state, gives a next state (the spec describes no
stop; `Fault` has no reason and `Refusal` only that of an instruction without a meaning). -/
def Obligations.EveryStepGivesANextState : Prop :=
  (∀ (i : Instr) (s : State), ∃ t, exec i s = .next t) ∧ (∀ s : State, ∃ t, step s = .next t)

/-! ## Traps, escalation and return -/

/-- R164, R162: taking a trap in user mode. -/
def Claims.UserTrapEntry : Prop :=
  ∀ (s : State) (k : Nat) (g : Group) (t : TrapInfo), s.group? k = some g → g.sup = false →
    Claims.TrapTaken s (takeTrap s k t) k g t.cause t.detail t.lane t.addr t.resume t.pend t.rd

/-- R167: a trap cause in supervisor mode stops the group and is escalated to firmware with reason 2. -/
def Claims.SupervisorTrapEscalates : Prop :=
  ∀ (s : State) (k : Nat) (g : Group) (t : TrapInfo), s.group? k = some g → g.sup = true →
    Claims.Escalated s (takeTrap s k t) k g 2

/-- R164, R162, R167: a trap cause takes the trap in user mode and escalates in supervisor mode. -/
def Obligations.TrapEntryAndEscalation : Prop := Claims.UserTrapEntry ∧ Claims.SupervisorTrapEscalates

/-- R236: a word of sys (MAJ 0xF2) or trap (MAJ 0xF4) has zero operand fields and n in IMM bits 7:0. With an empty em it does nothing; in
user mode it takes the trap of R164 with CAUSE 0x0C or 0x0D, DETAIL n, no unfinished lanes and K_TRAPPC at the word that follows; in
supervisor mode it escalates. The last line is the worked encoding of sys 0x12. -/
def Obligations.SysAndTrapTakeTheirTrap : Prop :=
  (∀ p ∈ ([(.sys, 12, 0xF2), (.trap, 13, 0xF4)] : List ((W → Instr) × Nat × Nat)), ∀ w : W,
    ((p.1 w).wf = true → w.d.code = 0 ∧ w.a.code = 0 ∧ w.b.code = 0 ∧ w.c.code = 0 ∧ w.imm.toNat < 256 ∧
      ((encode (p.1 w)).extractLsb' 88 8).toNat = p.2.2) ∧
    ∀ (s : State) (g : Group), Claims.Fits s g (p.1 w) w →
      (emOf g w = 0 → exec (p.1 w) s = .next (wordDone s (tick s g))) ∧
      (emOf g w ≠ 0 → g.sup = false → ∃ t, exec (p.1 w) s = .next t ∧
        Claims.TrapTaken s t s.cur g p.2.1 w.imm.toNat 0xFF g.pc (nextPc g.pc) 0 false) ∧
      (emOf g w ≠ 0 → g.sup = true → ∃ t, exec (p.1 w) s = .next t ∧ Claims.Escalated s t s.cur g 2)) ∧
  ∃ w : W, decodeWord false 0xF200_0000_0000_0000_0000_0012 = .ok (.sys w) ∧ w.imm = 0x12 ∧ w.ms = 0

/-- R161, R235, R237, R238, R239: in user mode sysret always, and mapft, fltrd and a write to a register of supervisor mode when em is not
empty, take the privilege trap at their own word and have no other effect. -/
def Claims.SupervisorWordsTrapInUserMode : Prop :=
  ∀ (s : State) (g : Group) (w : W), g.sup = false →
    (Claims.Fits s g (.sysret w) w → ∃ t, exec (.sysret w) s = .next t ∧ Claims.TrapTaken s t s.cur g 4 0 0xFF g.pc g.pc 0 false) ∧
    (∀ p ∈ ([.mapft, .fltrd] : List (W → Instr)), Claims.Issues s g (p w) w → g.acquireHeld = false →
      ∃ t, exec (p w) s = .next t ∧ Claims.TrapTaken s t s.cur g 4 0 0xFF g.pc g.pc 0 false) ∧
    (Claims.Issues s g (.mtk w) w → s.context? g.asid ≠ none → (∀ r, kSel w = some r → r.1.userWrite = false) →
      ∃ t, exec (.mtk w) s = .next t ∧ Claims.TrapTaken s t s.cur g 4 0 0xFF g.pc g.pc 0 false)

/-- R188, R329, R385, R167: in supervisor mode spawn, join, joinall, yield, migrate and the pipeline words, when em is not empty, and
tret always, raise the privilege trap, which escalates. -/
def Claims.UserWordsEscalateInSupervisorMode : Prop :=
  ∀ (s : State) (g : Group) (w : W), g.sup = true → g.acquireHeld = false →
    (∀ p ∈ ([.spawn, .spawnS, .spawnL, .spawnG, .join, .joinall, .yield, .migrate, .enq, .enqEos] : List (W → Instr)),
      Claims.Issues s g (p w) w → ∃ t, exec (p w) s = .next t ∧ Claims.Escalated s t s.cur g 2) ∧
    (Claims.Fits s g (.tret w) w → ∃ t, exec (.tret w) s = .next t ∧ Claims.Escalated s t s.cur g 2)

/-- R161, R235, R237, R238, R239, R188, R329, R385, R167: a word of the other mode raises the privilege trap, which user mode takes
and supervisor mode escalates. -/
def Obligations.PrivilegedWordsTrapInUserMode : Prop := Claims.SupervisorWordsTrapInUserMode ∧ Claims.UserWordsEscalateInSupervisorMode

/-- R165: sysret in supervisor mode restores am, leaves supervisor mode and resumes at K_TRAPPC; with RD = 0 and unfinished lanes the word
there is replayed for them; with RD = 1 the requests that it reissues must fit (R148). A K_TRAPPC that is no word address, or has high bits, escalates with reason 5. -/
def Obligations.SysretReturnsFromTheHandler : Prop :=
  ∀ (s : State) (g : Group) (w : W), Claims.Fits s g (.sysret w) w → g.sup = true →
    (wordAddress g.trap.pc = true → highBits g.trap.pc = false → heldLack s g = false →
      ∃ t g', exec (.sysret w) s = .next t ∧ t.group? s.cur = some g' ∧ g'.am = g.trap.am ∧ g'.sup = false ∧ g'.pc = g.trap.pc ∧
        (∀ n, n < 61 → g'.s n = g.s n) ∧ g'.vregs = g.vregs ∧ g'.flags = g.flags ∧ g'.inWord = none ∧
        (g.trap.cause.getLsbD 31 = false →
          t = ({ s with ticks := s.ticks + 1 }).setGroup s.cur g' ∧ g'.ops = g.ops ∧ g'.trap = { g.trap with left := g.trap.left - 1 } ∧
          g'.replay = if g.trap.pend = 0 then none else some g.trap.pend)) ∧
    (¬ (wordAddress g.trap.pc = true ∧ highBits g.trap.pc = false) →
      ∃ t, exec (.sysret w) s = .next t ∧ Claims.Escalated s t s.cur g 5)

/-! ## Control flow -/

namespace Claims

/-- The word at `pc` can be reached by a transfer: a word address without high bits, whose line is cached and whose slot is an entry
(R65, R75). -/
def Reachable (s : State) (g : Group) (pc : DWord) : Prop :=
  highBits pc = false ∧ wordAddress pc = true ∧ ∃ l, findILine s g.core g.asid pc = some l ∧ lineTgt l.data (pcSlot pc) = true

/-- The state after a word that changed its group to `g'` and transferred control (R135). -/
def jumped (s : State) (g' : Group) (pc : DWord) : State := ({ s with ticks := s.ticks + 1 }).setGroup s.cur (g'.goesOn pc)

/-- The direct target of IMM: the line address of the word, 64 bytes for each line of the displacement and 12 for each slot (R75). -/
def target (g : Group) (w : W) : DWord :=
  BitVec.ofInt 64 ((g.pc.toNat / 64 * 64 : Nat) + 64 * (w.imm.toInt / 8) + 12 * (w.imm.toNat % 8 : Nat))

/-- The word acts: with MS = 0 always, otherwise when em has a lane (R130). -/
def acts (g : Group) (w : W) : Prop := w.ms = 0 ∨ emOf g w ≠ 0

/-- The triple that A names. -/
def tripleA (g : Group) (w : W) : LaneMask := match w.a with | .s n => g.triple n | _ => 0

/-- The branches and their conditions (R131). -/
def branches : List ((W → Instr) × (Group → W → Prop)) :=
  [(.bra, fun g w => acts g w), (.braNz, fun g w => acts g w ∧ src32 g w w.a 0 ≠ 0), (.braZ, fun g w => acts g w ∧ src32 g w w.a 0 = 0),
   (.braEmpty, fun g w => tripleA g w &&& emOf g w = 0), (.braFull, fun g w => tripleA g w &&& emOf g w = emOf g w)]

end Claims

/-- R131, R130, R75, R64: a branch whose condition holds goes to its direct target and writes nothing; otherwise the next word follows. -/
def Claims.BranchesGoToTheirTarget : Prop :=
  ∀ p ∈ Claims.branches, ∀ (s : State) (g : Group) (w : W), Claims.Fits s g (p.1 w) w →
    (p.2 g w → Claims.Reachable s g (Claims.target g w) → exec (p.1 w) s = .next (Claims.jumped s (tick s g) (Claims.target g w))) ∧
    (¬ p.2 g w → exec (p.1 w) s = .next (wordDone s (tick s g)))

/-- R132, R133, R134: brx and ret go to the address in A; call writes the address of the next word to D and goes to its target; loop
counts D down and goes to its target unless D has become 0. A word that does not act writes nothing. -/
def Claims.CallReturnAndLoop : Prop :=
  ∀ (s : State) (g : Group) (w : W),
    (∀ p ∈ ([.brx, .ret] : List (W → Instr)), Claims.Fits s g (p w) w →
      (Claims.acts g w → Claims.Reachable s g (Claims.src g w true w.a 0) →
        exec (p w) s = .next (Claims.jumped s (tick s g) (Claims.src g w true w.a 0))) ∧
      (¬ Claims.acts g w → exec (p w) s = .next (wordDone s (tick s g)))) ∧
    (Claims.Fits s g (.call w) w →
      (Claims.acts g w → Claims.Reachable s g (Claims.target g w) →
        exec (.call w) s = .next (Claims.jumped s (writeDst (tick s g) w.d true allLanes (fun _ => nextPc g.pc)) (Claims.target g w))) ∧
      (¬ Claims.acts g w → exec (.call w) s = .next (wordDone s (tick s g)))) ∧
    (Claims.Fits s g (.loop w) w →
      let n : Word := Claims.src32 g w w.d 0 - 1
      let g' := writeDst (tick s g) w.d false allLanes (fun _ => n.zeroExtend 64)
      (Claims.acts g w → n = 0 → exec (.loop w) s = .next (wordDone s g')) ∧
      (Claims.acts g w → n ≠ 0 → Claims.Reachable s g (Claims.target g w) →
        exec (.loop w) s = .next (Claims.jumped s g' (Claims.target g w))) ∧
      (¬ Claims.acts g w → exec (.loop w) s = .next (wordDone s (tick s g))))

/-- R131, R130, R75, R64, R132, R133, R134: branches, calls, returns and loops go to their target. -/
def Obligations.ControlTransferWords : Prop := Claims.BranchesGoToTheirTarget ∧ Claims.CallReturnAndLoop

namespace Claims

/-- Every word that transfers control, with what makes it do so, and its target (R65). -/
def transfers : List ((W → Instr) × (Group → W → Prop) × (Group → W → DWord)) :=
  branches.map (fun p => (p.1, p.2, target)) ++
  [(.call, acts, target), (.loop, fun g w => acts g w ∧ src32 g w w.d 0 ≠ 1, target), (.brx, acts, fun g w => src g w true w.a 0),
   (.ret, acts, fun g w => src g w true w.a 0)]

end Claims

/-- R65, R75, R132, R161: a transfer to an address that is no word address, or to a cached word that is no entry, takes the illegal-target
trap at the transferring word in user mode, and one to an address with any of bits 63:58 set the unmapped trap; the target is the fault
address, and the word writes nothing. -/
def Claims.IllegalTargetTakesTheTrap : Prop :=
  ∀ p ∈ Claims.transfers, ∀ (s : State) (g : Group) (w : W), Claims.Fits s g (p.1 w) w → g.sup = false → p.2.1 g w →
    let pc := p.2.2 g w
    (highBits pc = false → (wordAddress pc = false ∨ ∃ l, findILine s g.core g.asid pc = some l ∧ lineTgt l.data (pcSlot pc) = false) →
      ∃ t, exec (p.1 w) s = .next t ∧ Claims.TrapTaken s t s.cur g 2 0 0xFF pc g.pc 0 false) ∧
    (highBits pc = true → ∃ t, exec (p.1 w) s = .next t ∧ Claims.TrapTaken s t s.cur g 5 0 0xFF pc g.pc 0 false)

/-- R83, R161, R164, R65, R75, R132: a word that stands for no instruction and an illegal target take their trap. -/
def Obligations.IllegalWordsAndTargets : Prop := Claims.IllegalWordTakesTheTrap ∧ Claims.IllegalTargetTakesTheTrap

/-- R138: a word whose fields are all zero other than S, MS and MN is a nop, and a nop has no effect: the group goes on at the next word.
(MN without MS is an illegal word under R19.) -/
def Obligations.NopHasNoEffect : Prop :=
  (∀ (sw mn : Bool) (ms : Fin 8), (ms = 0 → mn = false) →
    decodeWord false (BitVec.ofNat 96 ((if sw then 2 ^ 79 else 0) + ms.val * 2 ^ 76 + (if mn then 2 ^ 75 else 0))) =
      .ok (.nop { sw := sw, ms := ms, mn := mn, v := 0, t := .i8, d := .v 0, a := .v 0, b := .v 0, c := .v 0, mod := 0, imm := 0 })) ∧
  ∀ (s : State) (g : Group) (w : W), Claims.Fits s g (.nop w) w → exec (.nop w) s = .next (wordDone s (tick s g))

/-- R136, R137, R139: waitc goes on when the counter is at or below A, and otherwise parks without issuing; sleep
parks for A cycles at the next word, and for 0 goes on when no pending group of its partition is ready; errst reads the flags and clears those that IMM names. -/
def Obligations.WaitingWordsAndErrst : Prop :=
  ∀ (s : State) (g : Group) (w : W),
    (Claims.Fits s g (.waitc w) w →
      (g.count w.imm.toNat ≤ (Claims.src32 g w w.a 0).toNat → exec (.waitc w) s = .next (wordDone s (tick s g))) ∧
      (g.count w.imm.toNat > (Claims.src32 g w w.a 0).toNat → g.sup = false →
        exec (.waitc w) s = .next (({ s with ticks := s.ticks + 1 }).setGroup s.cur { g with park := some .counter }))) ∧
    (Claims.Fits s g (.sleep w) w →
      let n := (Claims.src32 g w w.a 0).toNat
      (n ≠ 0 → exec (.sleep w) s = .next (({ s with ticks := s.ticks + 1 }).setGroup s.cur
        { (tick s g).goesOn (nextPc g.pc) with park := some .sleep, sleepLeft := n })) ∧
      (n = 0 → (∀ k x, (k, x) ∈ s.groups → x.core = g.core → x.part = g.part → x.active = true ∨ x.since = none) →
        g.active = true → exec (.sleep w) s = .next (wordDone s (tick s g)))) ∧
    (Claims.Fits s g (.errst w) w →
      exec (.errst w) s = .next (wordDone s { writeDst (tick s g) w.d false allLanes (fun _ => g.flags.zeroExtend 64) with
        flags := g.flags &&& ~~~ w.imm.extractLsb' 0 6 }))

/-! ## Control registers -/

namespace Claims

/-- The 32-bit value at each selector, from the state, the group and its context's registers (R26, R140, R157, R160, R177, R232, R264,
R331, R332, R334, R370, R371, R372, R398, R440). -/
def control : List (Nat × (State → Group → CtxRegs → Word)) :=
  let lo (x : DWord) : Word := x.extractLsb' 0 32
  let hi (x : DWord) : Word := x.extractLsb' 32 32
  let n (x : Nat) : Word := BitVec.ofNat 32 x
  [(0x000, fun _ g _ => g.gid), (0x001, fun _ g _ => g.gmode), (0x002, fun _ g _ => n g.demand),
   (0x003, fun _ g _ => n (g.count 0 + 2 ^ 8 * g.count 1 + 2 ^ 16 * g.count 2 + 2 ^ 24 * g.count 3)),
   (0x004, fun _ g _ => n (g.count 4 + 2 ^ 8 * g.count 5 + 2 ^ 16 * g.count 6 + 2 ^ 24 * g.count 7)),
   (0x006, fun _ g _ => lo g.srseed), (0x007, fun _ g _ => hi g.srseed), (0x008, fun _ g _ => n g.view), (0x009, fun _ g _ => n (g.view / 2 ^ 32)),
   (0x00A, fun _ g _ => lo g.ifp), (0x00B, fun _ g _ => hi g.ifp), (0x010, fun _ g _ => lo g.trap.vec), (0x011, fun _ g _ => hi g.trap.vec),
   (0x012, fun _ g _ => g.trap.budget), (0x013, fun _ g _ => g.trap.cause), (0x014, fun _ g _ => lo g.trap.pc), (0x015, fun _ g _ => hi g.trap.pc),
   (0x016, fun _ g _ => lo g.trap.addr), (0x017, fun _ g _ => hi g.trap.addr), (0x018, fun _ g _ => g.trap.am.extractLsb' 0 32),
   (0x019, fun _ g _ => g.trap.am.extractLsb' 32 32), (0x01A, fun _ g _ => g.trap.am.extractLsb' 64 32), (0x01B, fun _ g _ => g.trap.pend.extractLsb' 0 32),
   (0x01C, fun _ g _ => g.trap.pend.extractLsb' 32 32), (0x01D, fun _ g _ => g.trap.pend.extractLsb' 64 32), (0x01E, fun _ g _ => g.trap.left),
   (0x01F, fun _ g _ => if g.sup then 1 else 0), (0x020, fun _ g _ => g.trap.scr[0]), (0x021, fun _ g _ => g.trap.scr[1]),
   (0x022, fun _ g _ => g.trap.scr[2]), (0x023, fun _ g _ => g.trap.scr[3]), (0x030, fun _ _ c => lo c.elbase), (0x031, fun _ _ c => hi c.elbase),
   (0x032, fun _ _ c => c.elctl), (0x033, fun _ _ c => c.elseq),
   (0x040, fun s g _ => n ((teamOf s g.core g.team).base + 65536 * (teamOf s g.core g.team).size)), (0x050, fun _ _ c => lo c.farena), (0x051, fun _ _ c => hi c.farena),
   (0x052, fun _ _ c => c.falen), (0x053, fun _ _ c => c.ifsize), (0x054, fun _ _ c => c.stageahead), (0x060, fun _ _ c => c.watchpoll),
   (0x070, fun _ _ c => c.stealxd), (0x080, fun _ _ c => c.tbucket),
   (0x081, fun s _ _ => n ((List.range 4).map (fun d => (if (s.die d).coreUp then 2 ^ d else 0) + (if (s.die d).memUp then 2 ^ (4 + d) else 0))).sum),
   (0x090, fun _ _ c => c.lease), (0x0A0, fun _ _ c => lo c.frbase), (0x0A1, fun _ _ c => hi c.frbase), (0x0A2, fun _ _ c => c.frctl),
   (0x0A3, fun _ g _ => n g.asid), (0x0A4, fun s g _ => n ((poolOf s g.asid 0).length + 65536 * (poolOf s g.asid 1).length)),
   (0x0A5, fun s g _ => n ((poolOf s g.asid 2).length + 65536 * (poolOf s g.asid 3).length)),
   (0x0A6, fun s g _ => n (min (s.held.countP (fun h => h.asid == g.asid)) 0xFFFFFFFF)),
   (0x0B0, fun _ _ c => c.rbinterval), (0x0C0, fun _ _ c => lo c.peertab), (0x0C1, fun _ _ c => hi c.peertab)]

/-- A field of a written value kept within bounds. -/
def clamped (v lo hi : Nat) : Nat := max lo (min v hi)

/-- What a 32-bit write does at each selector of group scope (R26, R28, R160). -/
def groupWrites : List (Nat × (Group → Word → Group)) :=
  let lo (x : DWord) (v : Word) : DWord := x.extractLsb' 32 32 ++ v
  let hi (x : DWord) (v : Word) : DWord := v ++ x.extractLsb' 0 32
  [(0x001, fun g v => { g with gmode := v &&& 7 }), (0x006, fun g v => { g with srseed := lo g.srseed v }),
   (0x007, fun g v => { g with srseed := hi g.srseed v }), (0x00A, fun g v => { g with ifp := lo g.ifp v &&& ~~~ 15 }),
   (0x00B, fun g v => { g with ifp := hi g.ifp v &&& ~~~ 15 }), (0x010, fun g v => { g with trap := { g.trap with vec := lo g.trap.vec v } }),
   (0x011, fun g v => { g with trap := { g.trap with vec := hi g.trap.vec v } }), (0x012, fun g v => { g with trap := { g.trap with budget := v } }),
   (0x014, fun g v => { g with trap := { g.trap with pc := lo g.trap.pc v }, replay := none }), (0x015, fun g v => { g with trap := { g.trap with pc := hi g.trap.pc v }, replay := none }),
   (0x018, fun g v => { g with trap := { g.trap with am := g.trap.am.extractLsb' 32 64 ++ v } }),
   (0x019, fun g v => { g with trap := { g.trap with am := g.trap.am.extractLsb' 64 32 ++ (v ++ g.trap.am.extractLsb' 0 32) } }),
   (0x01A, fun g v => { g with trap := { g.trap with am := v ++ g.trap.am.extractLsb' 0 64 } }),
   (0x01B, fun g v => { g with trap := { g.trap with pend := g.trap.pend.extractLsb' 32 64 ++ v } }),
   (0x01C, fun g v => { g with trap := { g.trap with pend := g.trap.pend.extractLsb' 64 32 ++ (v ++ g.trap.pend.extractLsb' 0 32) } }),
   (0x01D, fun g v => { g with trap := { g.trap with pend := v ++ g.trap.pend.extractLsb' 0 64 } }),
   (0x020, fun g v => { g with trap := { g.trap with scr := g.trap.scr.set 0 v } }), (0x021, fun g v => { g with trap := { g.trap with scr := g.trap.scr.set 1 v } }),
   (0x022, fun g v => { g with trap := { g.trap with scr := g.trap.scr.set 2 v } }), (0x023, fun g v => { g with trap := { g.trap with scr := g.trap.scr.set 3 v } })]

/-- What a 32-bit write does at each selector of context scope, K_PEERTAB apart (R9, R140, R177, R232, R264, R331, R334, R372, R398). -/
def contextWrites : List (Nat × (CtxRegs → Word → CtxRegs)) :=
  let lo (x : DWord) (v : Word) : DWord := x.extractLsb' 32 32 ++ v
  let hi (x : DWord) (v : Word) : DWord := v ++ x.extractLsb' 0 32
  let n (x : Nat) : Word := BitVec.ofNat 32 x
  [(0x030, fun c v => { c with elbase := lo c.elbase v }), (0x031, fun c v => { c with elbase := hi c.elbase v }),
   (0x032, fun c v => { c with elctl := n (v.toNat / 2 ^ 31 * 2 ^ 31 + clamped (v.toNat % 32) 4 20) }), (0x033, fun c v => { c with elseq := v }),
   (0x050, fun c v => { c with farena := lo c.farena v }), (0x051, fun c v => { c with farena := hi c.farena v }),
   (0x052, fun c v => { c with falen := n (v.toNat % 2 ^ 24) }), (0x053, fun c v => { c with ifsize := n (clamped (v.toNat % 2 ^ 12) 1 4095) }),
   (0x054, fun c v => { c with stageahead := n (min (v.toNat % 32) 16) }), (0x060, fun c v => { c with watchpoll := n (clamped (v.toNat % 2 ^ 20) 64 1048575) }),
   (0x070, fun c v => { c with stealxd := n (v.toNat / 2 ^ 31 * 2 ^ 31 + 256 * clamped (v.toNat / 256 % 1024) 1 512 + v.toNat % 256) }),
   (0x080, fun c v => { c with tbucket := n (65536 * clamped (v.toNat / 65536) 1 65535 + v.toNat % 65536) }),
   (0x090, fun c v => { c with lease := n (clamped (v.toNat % 4096) 1 4095) }), (0x0A0, fun c v => { c with frbase := lo c.frbase v }),
   (0x0A1, fun c v => { c with frbase := hi c.frbase v }), (0x0A2, fun c v => { c with frctl := n (clamped (v.toNat % 32) 4 16) }),
   (0x0B0, fun c v => { c with rbinterval := n (clamped (v.toNat % 2 ^ 24) 1024 16777215) })]

/-- The selector and the W bit in IMM (R234). -/
def sel (w : W) : Nat := (w.imm.extractLsb' 0 12).toNat
def wide (w : W) : Bool := w.imm.getLsbD 12

end Claims

/-- R233, R234: mfk writes the 32-bit value at its selector to the scalar D, or with W the 64-bit register to the pair D. -/
def Obligations.MfkReadsTheRegister : Prop :=
  ∀ p ∈ Claims.control, ∀ (s : State) (g : Group) (w : W) (c : Context), Claims.Issues s g (.mfk w) w → s.context? g.asid = some c →
    (Claims.sel w = p.1 → Claims.wide w = false →
      exec (.mfk w) s = .next (wordDone s (writeDst (tick s g) w.d false allLanes (fun _ => (p.2 s (tick s g) c.regs).zeroExtend 64)))) ∧
    (∀ q ∈ Claims.control, q.1 = p.1 + 1 → Claims.sel w = p.1 → Claims.wide w = true →
      exec (.mfk w) s = .next (wordDone s (writeDst (tick s g) w.d true allLanes (fun _ => q.2 s (tick s g) c.regs ++ p.2 s (tick s g) c.regs))))

/-- R235, R9 and log entries 26 and 56: mtk writes the value to the register at its selector, reserved bits apart, when the mode may write
it: K_GMODE and K_SRSEED in either mode, the others in supervisor mode; with W it writes both halves. Three clauses are the model's choice:
bits 3:0 of K_IFP are cleared and the ignored low bits of K_ELBASE, K_FARENA, K_FRBASE and K_PEERTAB are kept (log entry 26), and a write of
K_TRAPPC drops a replay that is due (log entry 56). -/
def Obligations.MtkWritesTheRegister : Prop :=
  ∀ (s : State) (g : Group) (w : W) (c : Context), Claims.Issues s g (.mtk w) w → s.context? g.asid = some c →
    (∀ p ∈ Claims.groupWrites, Claims.sel w = p.1 → (g.sup = true ∨ p.1 = 1 ∨ p.1 = 6 ∨ p.1 = 7) →
      (Claims.wide w = false → exec (.mtk w) s = .next (wordDone s (p.2 (tick s g) (Claims.src32 g w w.a 0)))) ∧
      (∀ q ∈ Claims.groupWrites, q.1 = p.1 + 1 → Claims.wide w = true →
        exec (.mtk w) s = .next (wordDone s (q.2 (p.2 (tick s g) ((Claims.src g w true w.a 0).extractLsb' 0 32)) ((Claims.src g w true w.a 0).extractLsb' 32 32))))) ∧
    (∀ p ∈ Claims.contextWrites, Claims.sel w = p.1 → g.sup = true →
      let after (r : CtxRegs) : State := { s with contexts := tabPut s.contexts g.asid { c with regs := r } }
      (Claims.wide w = false → exec (.mtk w) s = .next (wordDone (after (p.2 c.regs (Claims.src32 g w w.a 0))) (tick s g))) ∧
      (∀ q ∈ Claims.contextWrites, q.1 = p.1 + 1 → Claims.wide w = true →
        exec (.mtk w) s = .next (wordDone (after (q.2 (p.2 c.regs ((Claims.src g w true w.a 0).extractLsb' 0 32)) ((Claims.src g w true w.a 0).extractLsb' 32 32))) (tick s g)))) ∧
    ((Claims.sel w = 0x0C0 ∨ Claims.sel w = 0x0C1) → g.sup = true →
      let new : DWord :=
        if Claims.wide w then Claims.src g w true w.a 0
        else if Claims.sel w = 0x0C0 then c.regs.peertab.extractLsb' 32 32 ++ Claims.src32 g w w.a 0
        else Claims.src32 g w w.a 0 ++ c.regs.peertab.extractLsb' 0 32
      exec (.mtk w) s = .next (goOn (loadPeers ({ s with
        ticks := s.ticks + 1, groups := tabPut s.groups s.cur (tick s g)
        contexts := tabPut s.contexts g.asid { c with regs := { c.regs with peertab := new } } } : State) g.core g.asid) s.cur (nextPc g.pc)))

/-! ## Memory words -/

namespace Claims

/-- The address of a lane: A + B × 2^SCL + IMM modulo 2^64, B and IMM signed (R212). -/
def address (g : Group) (w : W) (l : Nat) : DWord :=
  BitVec.ofInt 64 ((src g w true w.a l).toNat + (src32 g w w.b l).toInt * 2 ^ w.scl + w.imm.toInt)

/-- The scratch offset of a lane: A + B × 2^SCL + IMM modulo 2^32 (R212). -/
def offset (g : Group) (w : W) (l : Nat) : Nat :=
  ((src g w false w.a l).toNat + (src32 g w w.b l).toNat * 2 ^ w.scl + w.imm.toNat) % 2 ^ 32

/-- A global lane passes the checks of R214: aligned, no high bits, and the PLB holds a record of its page that grants the rights. -/
def passes (s : State) (g : Group) (size : Nat) (grants : PlbRec → Bool) (a : DWord) : Prop :=
  a.toNat % size = 0 ∧ highBits a = false ∧ ∃ r, plbFind s g.core g.asid a.toNat = some r ∧ grants r = true

/-- A scratch lane passes the checks of R214: aligned, not in the barrier region unless it is a load, in the team's window or the barrier
region, and in no uncorrectable word. -/
def passesScratch (s : State) (g : Group) (off size : Nat) (load : Bool) : Prop :=
  let t := teamOf s g.core g.team
  off % size = 0 ∧ (off < 0x2000 → load = true) ∧ (0x2000 ≤ off → 256 * t.base ≤ off ∧ off + size ≤ 256 * (t.base + t.size)) ∧
    ∀ k ∈ (s.core g.core).scratchPoison, ¬ (off / 4 ≤ k ∧ 4 * k < off + size)

/-- A word of the global memory pipe: what it does at the home, its path, the rights that R159 asks for, the data and the comparison value
of a lane, and whether it has a release or an acquire (R217, R224). -/
structure MemWord where
  ctor   : W → Instr
  kind   : W → ReqKind
  path   : W → Nat
  grants : PlbRec → Bool
  data   : Group → W → Nat → DWord
  cmp    : Group → W → Nat → DWord
  load   : Bool

def loads : List MemWord :=
  ([.ld, .ldx] : List (W → Instr)).map (fun mk => ⟨mk, fun _ => .load, fun _ => 0, fun r => r.rights.getLsbD 0, fun _ _ _ => 0, fun _ _ _ => 0, true⟩)

def stores : List MemWord :=
  ([.st, .stx] : List (W → Instr)).map (fun mk =>
    ⟨mk, fun _ => .store, fun _ => 3, fun r => r.rights.getLsbD 1 && !r.b, fun g w l => src g w w.t.isWide w.c l, fun _ _ _ => 0, false⟩)

/-- An atomic has a return unless D is 321; it then counts on path A, otherwise on path W (R224, R226). -/
def atomics : List MemWord :=
  ([(.atom, false), (.atomFadd, true)] : List ((W → Instr) × Bool)).map (fun p =>
    ⟨p.1, fun w => .atomic w.v.val p.2 w.t (w.d != .zero), fun w => if w.d = .zero then 3 else 4,
      fun r => r.rights.getLsbD 0 && r.rights.getLsbD 1 && r.rights.getLsbD 3 && !r.b,
      fun g w l => src g w w.t.isWide w.c l, fun g w l => src g w w.t.isWide w.d l, false⟩)

/-- The group as the operation leaves it: a release raises the view stamp (R228), a load counts towards the drift (R335). -/
def memGroup (s : State) (g : Group) (w : W) (m : MemWord) : Group :=
  let g := tick s g
  let g := if !m.load && w.ord == 2 && decide (w.scope ≥ 2) then { g with view := max g.view g.compl } else g
  if m.load then { g with drift := if g.drift = 257 then 0 else g.drift + 1 } else g

/-- The state `t` after a word that made an operation: the operation stands last in the group and is counted on its path; its requests,
queued behind those there were, cover its lanes, one request for each beat and line (R148, R215); nothing else changes. `fin` is what
becomes of the group. -/
structure Sent (s t : State) (g' : Group) (fin : Group → Group) (op : Op) : Prop where
  group  : t.group? s.cur = some (fin { g' with ops := g'.ops ++ [op] })
  id     : op.id = s.nextId
  fresh  : op.done = false ∧ op.held = [] ∧ op.heldTaken = false ∧ op.sup = g'.sup ∧
    op.stamp = (match op.kind with | .fres _ _ _ => max g'.view g'.compl | _ => g'.view)
  others : ∀ k, k ≠ s.cur → t.group? k = s.group? k
  frame  : t = { s with groups := t.groups, requests := t.requests, ticks := s.ticks + 1, nextId := t.nextId }

/-- The requests of an operation. -/
def Queued (s t : State) (g : Group) (op : Op) (split : Bool) : Prop :=
  ∃ rs : List Req, t.requests = s.requests ++ rs ∧
    (∀ r ∈ rs, r.op = op.id ∧ r.grp = s.cur ∧ r.core = g.core ∧ r.asid = g.asid ∧ r.kind = op.kind ∧ r.size = op.size ∧ r.phase = .queued ∧
      r.lanes ≠ [] ∧ ∀ a ∈ r.lanes, a ∈ op.lanes ∧ (split = true → a.lane / 32 = r.beat ∧ a.addr.toNat / 128 = r.line)) ∧
    (∀ a ∈ op.lanes, ∃ r ∈ rs, a ∈ r.lanes) ∧ (rs.map (fun r => (r.beat, r.line))).Nodup

/-- There is room for one more operation: its counter is below 255 (R25) and the core has request slots for its requests, one for each
beat and line of its lanes (R148). -/
def Room (s : State) (g : Group) (path : Nat) (ls : List Nat) (addr : Nat → DWord) : Prop :=
  g.count path < 255 ∧ slotsUsed s g.core + ((ls.map (fun l => (l / 32, (addr l).toNat / 128))).eraseDups).length ≤ 4096

/-- The group waits inside a word that has issued (R166). -/
def inside (i : Instr) (p : Park) (x : InWord) (g : Group) : Group := { g with park := some p, inWord := some x, current := some i }

/-- An operation on path W that has returned as it issues (R24, R25): the group `g'` goes on and counts it while earlier operations of the
path are outstanding; beside the group and scratchpads nothing changes. -/
structure Returned (s t : State) (g' : Group) : Prop where
  group  : pruneOps g'.ops [] = g'.ops → ∃ op, op.path = some 3 ∧ op.done = true ∧
    t.group? s.cur = some ({ g' with ops := if g'.count 3 = 0 then g'.ops else g'.ops ++ [op] }.goesOn (nextPc g'.pc))
  others : ∀ k, k ≠ s.cur → t.group? k = s.group? k
  frame  : t = { s with cores := t.cores, groups := t.groups, ticks := s.ticks + 1, nextId := s.nextId + 1 }

/-- The last lane of a list whose `n` bytes at its offset hold a byte. -/
def lastLane (ls : List Nat) (off : Nat → Nat) (n a : Nat) : Option Nat := (ls.filter (fun l => decide (off l ≤ a ∧ a < off l + n))).getLast?

/-- The number in `n` bytes, little-endian. -/
def getBytes (m : Nat → Byte) (off n : Nat) : Nat := ((List.range n).map (fun k => (m (off + k)).toNat * 256 ^ k)).sum

/-- The bytes after a number is written into `n` of them, little-endian. -/
def putBytes (m : Nat → Byte) (off n v : Nat) : Nat → Byte :=
  fun a => if off ≤ a ∧ a < off + n then BitVec.ofNat 8 (v / 256 ^ (a - off)) else m a

/-- The bytes after the lanes of a list have been performed one after the other: each reads the `n` bytes at its offset and writes their new
value (R225, R226). -/
def performed {α : Type} (off : α → Nat) (n : Nat) (new : α → Nat → Nat) (m : Nat → Byte) (ls : List α) : Nat → Byte :=
  ls.foldl (fun m l => putBytes m (off l) n (new l (getBytes m (off l) n))) m

/-- The value that a lane reads when the lanes before it have been performed. -/
def oldValue {α : Type} [BEq α] (off : α → Nat) (n : Nat) (new : α → Nat → Nat) (m : Nat → Byte) (ls : List α) (l : α) : Nat :=
  getBytes (performed off n new m (ls.takeWhile (fun x => !(x == l)))) (off l) n

/-- A value of `n` bytes in a scratchpad, little-endian. -/
def scratchValue (s : State) (core off n : Nat) : Nat := getBytes (cellRead (s.core core).scratch) off n

/-- The value that a lane of an atomic writes for the old one, from C and, for cas, D (R225). -/
def atomValue (g : Group) (w : W) (l old : Nat) : Nat :=
  atomNew w.v.val false w.t old ((src g w w.t.isWide w.c l).toNat % 2 ^ w.t.bits) ((src g w w.t.isWide w.d l).toNat % 2 ^ w.t.bits)

end Claims

/-- R212, R217, R224, R226, R24: a global load, store or atomic whose lanes all pass their checks makes one operation with the lanes of em (or
one, in the scalar form) at their addresses, with their data, counted once on its path, and queues its requests. It writes no register
and no memory yet. An acquire holds the group's next memory word (R229); a release has waited and raised the view stamp (R228). -/
def Claims.GlobalWordsSendTheirRequests : Prop :=
  ∀ m ∈ Claims.loads ++ Claims.stores ++ Claims.atomics, ∀ (s : State) (g : Group) (w : W), Claims.Issues s g (m.ctor w) w →
    g.acquireHeld = false → Claims.Room s g (m.path w) (Claims.computed g (m.ctor w) w) (Claims.address g w) →
    (∀ l ∈ Claims.computed g (m.ctor w) w, Claims.passes s g w.t.bytes m.grants (Claims.address g w l)) →
    (w.ord = 2 → releaseWaits s s.cur g w.scope = false) → (m.load = true → g.drift ≠ 255 ∧ g.drift ≠ 256) →
    ∃ t op, exec (m.ctor w) s = .next t ∧ Claims.Sent s t (Claims.memGroup s g w m) (fun g => g.goesOn (nextPc g.pc)) op ∧
      Claims.Queued s t g op true ∧ op.path = some (m.path w) ∧ op.kind = m.kind w ∧ op.size = w.t.bytes ∧ op.instr = m.ctor w ∧
      op.scalar = !isVector (m.ctor w) w ∧ op.acq = (if w.ord = 1 then some w.scope else none) ∧
      op.lanes = (Claims.computed g (m.ctor w) w).map (fun l => ⟨l, Claims.address g w l, m.data g w l, m.cmp g w l⟩)

/-- R163, R161, R214: a global load, store or atomic of a user-mode group none of whose addresses is aligned performs nothing and traps at
its own word: in the vector form with the lowest lane and all lanes of em unfinished, in the scalar form as a whole. -/
def Claims.MisalignedLanesTrap : Prop :=
  ∀ m ∈ Claims.loads ++ Claims.stores ++ Claims.atomics, ∀ (s : State) (g : Group) (w : W), Claims.Issues s g (m.ctor w) w →
    g.acquireHeld = false → g.sup = false → (∀ l ∈ Claims.computed g (m.ctor w) w, (Claims.address g w l).toNat % w.t.bytes ≠ 0) →
    ∃ t, exec (m.ctor w) s = .next t ∧
      (if isVector (m.ctor w) w then
        Claims.TrapTaken s t s.cur g 10 0 (lowestLane (emOf g w)) (Claims.address g w (lowestLane (emOf g w))) g.pc (emOf g w) false
      else Claims.TrapTaken s t s.cur g 10 0 0xFF (Claims.address g w 0) g.pc 0 false)

/-- R212, R217, R224, R226, R24, R163, R161, R214: the words on global memory send their requests, and misaligned lanes trap. -/
def Obligations.GlobalWordsAndAlignment : Prop := Claims.GlobalWordsSendTheirRequests ∧ Claims.MisalignedLanesTrap

/-- R220, R221: st.s writes the low bytes of C of its lanes to the scratchpad at issue, a later lane over an earlier one; every other byte
of every memory is unchanged, and no operation is counted. -/
def Claims.ScratchStoreWritesItsBytes : Prop :=
  ∀ (s : State) (g : Group) (w : W), Claims.Issues s g (.stS w) w → g.acquireHeld = false → memoryWf s = true →
    (∀ l ∈ Claims.computed g (.stS w) w, Claims.passesScratch s g (Claims.offset g w l) w.t.bytes false) →
    ∃ t, exec (.stS w) s = .next t ∧ t = { wordDone s (tick s g) with cores := t.cores } ∧
      ∀ c a, cellRead (t.core c).scratch a =
        match (if c = g.core then Claims.lastLane (Claims.computed g (.stS w) w) (Claims.offset g w) w.t.bytes a else none) with
        | some l => (Claims.src g w w.t.isWide w.c l).extractLsb' (8 * (a - Claims.offset g w l)) 8
        | none => cellRead (s.core c).scratch a

/-- R220, R221, R24: ld.s reads its lanes' values at issue, counts once on path S, and its requests carry the values that return later; no
memory changes. -/
def Claims.ScratchLoadReadsAtIssue : Prop :=
  ∀ (s : State) (g : Group) (w : W), Claims.Issues s g (.ldS w) w → g.acquireHeld = false → g.count 1 < 255 → (∀ r ∈ s.requests, r.op ≠ s.nextId) →
    (∀ l ∈ Claims.computed g (.ldS w) w, Claims.passesScratch s g (Claims.offset g w l) w.t.bytes true) →
    ∃ t op rs, exec (.ldS w) s = .next t ∧ Claims.Sent s t (tick s g) (fun g => g.goesOn (nextPc g.pc)) op ∧ op.path = some 1 ∧
      t.requests = s.requests ++ rs ∧
      ∀ l ∈ Claims.computed g (.ldS w) w, ∃ r ∈ rs, r.op = op.id ∧ ∃ vals, r.phase = .ready vals [] 0 0 0 ∧
        (l, BitVec.ofNat 64 (Claims.scratchValue s g.core (Claims.offset g w l) w.t.bytes)) ∈ vals

/-- R221, R225, R24, R25: atom.s performs its lanes in ascending order, each reading its word and writing the new value in one step, so that
a lane reads what the lanes before it wrote; with D = 321 it has returned as it issues, and counts on path W while earlier operations of the
path are outstanding; otherwise it is one operation on path A whose requests carry the old values. No byte outside its words changes. -/
def Claims.ScratchAtomicPerformsItsLanes : Prop :=
  ∀ (s : State) (g : Group) (w : W), Claims.Issues s g (.atomS w) w → g.acquireHeld = false → memoryWf s = true → (∀ r ∈ s.requests, r.op ≠ s.nextId) →
    g.count (if w.d = .zero then 3 else 4) < 255 →
    let ls := Claims.computed g (.atomS w) w
    let bytes := cellRead (s.core g.core).scratch
    (∀ l ∈ ls, Claims.passesScratch s g (Claims.offset g w l) w.t.bytes false) →
    ∃ t, exec (.atomS w) s = .next t ∧
      (w.d = .zero → Claims.Returned s t (tick s g)) ∧
      (w.d ≠ .zero → ∃ op, op.path = some 4 ∧ t.group? s.cur = some ({ tick s g with ops := g.ops ++ [op] }.goesOn (nextPc g.pc)) ∧
        ∀ l ∈ ls, ∃ r ∈ t.requests, r.op = op.id ∧ ∃ vals, r.phase = .ready vals [] 0 0 0 ∧
          (l, BitVec.ofNat 64 (Claims.oldValue (Claims.offset g w) w.t.bytes (Claims.atomValue g w) bytes ls l)) ∈ vals) ∧
      ∀ c a, cellRead (t.core c).scratch a =
        if c = g.core then Claims.performed (Claims.offset g w) w.t.bytes (Claims.atomValue g w) bytes ls a else cellRead (s.core c).scratch a

/-- R220, R221, R24, R225, R25: the stores, loads and atomics of the scratchpad act at issue. -/
def Obligations.ScratchWords : Prop := Claims.ScratchStoreWritesItsBytes ∧ Claims.ScratchLoadReadsAtIssue ∧ Claims.ScratchAtomicPerformsItsLanes

/-- R225: the new value of each variant: integer, bitwise, and the sum that atom.fadd rounds to nearest-even with subnormals kept. -/
def Obligations.AtomicNewValues : Prop :=
  ∀ (t : Ty) (old c d : Nat), old < 2 ^ t.bits → c < 2 ^ t.bits → d < 2 ^ t.bits →
    ((t = .i32 ∨ t = .i64 ∨ t = .z32 ∨ t = .z64) →
      atomNew 0 false t old c d % 2 ^ t.bits = (old + c) % 2 ^ t.bits ∧
      atomNew 1 false t old c d = (if intVal t c < intVal t old then c else old) ∧
      atomNew 2 false t old c d = (if intVal t old < intVal t c then c else old)) ∧
    ((t = .b32 ∨ t = .b64) →
      atomNew 3 false t old c d = Nat.land old c ∧ atomNew 4 false t old c d = Nat.lor old c ∧ atomNew 5 false t old c d = Nat.xor old c ∧
      atomNew 6 false t old c d = c ∧ atomNew 7 false t old c d = if old = d then c else old) ∧
    (∀ v, (t = .f32 ∨ t = .f64) → atomNew v true t old c d = (faddV t 0 false (fdecode t old) (fdecode t c)).1)

/-- R222, R214: an ldd whose lanes pass their checks on both sides completes: exec answers the next state, in which the group is at the next
word and requests for the global bytes are queued, whose data name the scratch offsets they go to; it counts on path D. -/
def Obligations.DirectLoadSendsItsRequests : Prop :=
  ∀ (s : State) (g : Group) (w : W), Claims.Issues s g (.ldd w) w → g.acquireHeld = false →
    let ls := Claims.computed g (.ldd w) w
    let size := 4 * 2 ^ w.ord
    Claims.Room s g 2 ls (Claims.address g w) →
    (∀ l ∈ ls, Claims.passes s g size (fun r => r.rights.getLsbD 0) (Claims.address g w l) ∧
      Claims.passesScratch s g (Claims.src32 g w w.c l).toNat size false) →
    ∃ t op, exec (.ldd w) s = .next t ∧ Claims.Sent s t (tick s g) (fun g => g.goesOn (nextPc g.pc)) op ∧ Claims.Queued s t g op true ∧
      op.path = some 2 ∧ op.kind = .direct ∧ op.size = size ∧
      op.lanes = ls.map (fun l => ⟨l, Claims.address g w l, (Claims.src32 g w w.c l).zeroExtend 64, 0⟩)

/-- R230, R228: a fence that need not wait raises the view stamp at .clu scope and above: a release to the largest completion stamp, an
acquire to the observed stamp; a fence whose release must wait parks without issuing. -/
def Claims.FenceRaisesTheViewStamp : Prop :=
  ∀ (s : State) (g : Group) (w : W), Claims.Fits s g (.fence w) w → g.acquireHeld = false →
    let kind := w.imm.toNat
    let released := if kind ≠ 1 ∧ w.scope ≥ 2 then max g.view g.compl else g.view
    let view := if kind ≠ 2 ∧ w.scope ≥ 2 then max released g.observed else released
    ((kind = 1 ∨ releaseWaits s s.cur g w.scope = false) → exec (.fence w) s = .next (wordDone s { tick s g with view := view })) ∧
    (kind ≠ 1 → releaseWaits s s.cur g w.scope = true →
      exec (.fence w) s = .next (({ s with ticks := s.ticks + 1 }).setGroup s.cur { g with park := some .release }))

/-- R231: a watch asks for the doubleword at its address and waits inside the word; the value it compares with is C. -/
def Claims.WatchWaitsInsideTheWord : Prop :=
  ∀ (s : State) (g : Group) (w : W), Claims.Issues s g (.watch w) w → g.acquireHeld = false → slotsUsed s g.core + 1 ≤ 4096 →
    Claims.passes s g 8 (fun r => r.rights.getLsbD 0) (Claims.address g w 0) →
    ∃ t op, exec (.watch w) s = .next t ∧
      Claims.Sent s t (tick s g) (Claims.inside (.watch w) .watch (.op op.id)) op ∧ Claims.Queued s t g op true ∧
      op.path = none ∧ op.kind = .watch ∧ op.acq = some w.scope ∧ op.lanes = [⟨0, Claims.address g w 0, 0, Claims.src g w true w.c 0⟩]

/-- R230, R228, R231: a fence raises the view stamp and a watch waits inside its word. -/
def Obligations.FenceAndWatch : Prop := Claims.FenceRaisesTheViewStamp ∧ Claims.WatchWaitsInsideTheWord

/-- R238, R239: in supervisor mode mapft and fltrd send their lanes to the MTU in one request and count on path A; there is no check at
issue. -/
def Claims.RepairWordsAreSent : Prop :=
  ∀ p ∈ ([(.mapft, .mapft, fun g w l => Claims.src g w true w.a l), (.fltrd, .fltrd, Claims.address)] :
      List ((W → Instr) × ReqKind × (Group → W → Nat → DWord))),
    ∀ (s : State) (g : Group) (w : W), Claims.Issues s g (p.1 w) w → g.sup = true → g.acquireHeld = false →
    g.count 4 < 255 →
    ∃ t op, exec (p.1 w) s = .next t ∧ Claims.Sent s t (tick s g) (fun g => g.goesOn (nextPc g.pc)) op ∧ Claims.Queued s t g op false ∧
      op.path = some 4 ∧ op.kind = p.2.1 ∧ op.lanes = (Claims.computed g (p.1 w) w).map (fun l => ⟨l, p.2.2 g w l, 0, 0⟩) ∧
      t.requests.length = s.requests.length + 1

namespace Claims

/-- The status of mapft for a page whose leaf entry the MTU has found at a level (R238, R363): bit 1 is P and bit 2 FT, and FT on a larger
page counts as 0. -/
def mapftStatus (e : DWord) (level : Nat) (pool : List Nat) : Nat :=
  if e.getLsbD 1 then 1 else if e.getLsbD 2 = false ∨ level ≠ 3 then 2 else if pool = [] then 3 else 0

/-- The word of fltrd for a leaf entry at a level, as R239 places its fields, from the fields of R352. -/
def fltrdFields (e : DWord) (level : Nat) (v : Word) : Prop :=
  v.getLsbD 0 = true ∧ v.getLsbD 1 = e.getLsbD 1 ∧ v.getLsbD 2 = (e.getLsbD 2 && level == 3) ∧ v.extractLsb' 3 2 = 0 ∧
    v.extractLsb' 5 4 = pteRights e ∧ v.getLsbD 9 = pteB e ∧ v.extractLsb' 10 2 = BitVec.ofNat 2 (levelSize level) ∧
    v.extractLsb' 12 2 = BitVec.ofNat 2 (ptePlace e) ∧ v.extractLsb' 14 18 = 0

/-- A request for the MTU waits in its queue and may be served. -/
def AtMtu (s : State) (r : Req) (g : Group) (kind : ReqKind) : Prop :=
  s.req? r.id = some r ∧ s.group? r.grp = some g ∧ r.kind = kind ∧ r.phase = .queued ∧ inFlight s r = true ∧ mayLeave s r = true

/-- A mapft would map the page of `a`, to which accesses are under way: the wait of the map operation (R361 step 3) comes first. -/
def MapftWaits (s : State) (r : Req) (a : DWord) : Prop :=
  highBits a = false ∧ pageBusy s (tagAsid r.asid a.toNat) (a.toNat / 2 ^ 14) 14 = true ∧
    ∃ e level pte, walk s r.asid a.toNat = .leaf e level pte ∧ mapftStatus e level (poolOf s r.asid (coreDie r.core)) = 0

end Claims

/-- R238, R239, R363: what the MTU of the core's die answers, lane by lane in ascending order. mapft answers 4 for an address with any of
bits 63:58 set or a page that is not valid, 1 for a page that is present, 2 for one that is not first-touch, 3 for an empty pool, and
changes nothing then; otherwise 0, and the page is mapped to the frame on top of the die's pool, its entry has P = 1 and FT = 0, and the
frame's STATE is 2 if the leaf grants W and 1 if it does not (for memory in its canonical form); that waits until no access to the page is under way
(R361). fltrd answers the fields of the entry, or 0. D takes the answers. -/
def Claims.TheMtuAnswersRepairWords : Prop :=
  (∀ (s s1 : State) (asid die : Nat) (a : DWord), (highBits a = true → mapftPage s asid die a = (s, some 4) ∧ fltrdPage s asid die a = (s, some 0)) ∧
    (highBits a = false →
      (mtuWalk s die asid a.toNat = (s1, .invalid) → mapftPage s asid die a = (s1, some 4) ∧ fltrdPage s asid die a = (s1, some 0)) ∧
      (∀ e level pte, mtuWalk s die asid a.toNat = (s1, .leaf e level pte) →
        (∃ v : Word, fltrdPage s asid die a = (s1, some v.toNat) ∧ Claims.fltrdFields e level v) ∧
        (Claims.mapftStatus e level (poolOf s1 asid die) ≠ 0 → mapftPage s asid die a = (s1, some (Claims.mapftStatus e level (poolOf s1 asid die)))) ∧
        (∀ f rest, memoryWf s1 = true → Claims.mapftStatus e level (poolOf s1 asid die) = 0 → poolOf s1 asid die = f :: rest →
          ∃ t, mapftPage s asid die a = (t, some 0) ∧ poolOf t asid die = rest ∧ (t.frame f).st = (if e.getLsbD 6 then 2 else 1) ∧
            (t.frame f).asid = tagAsid asid a.toNat ∧ (t.frame f).va = a.toNat / 2 ^ 14 * 2 ^ 14 ∧ (readPte t pte).getLsbD 1 = true ∧
            (readPte t pte).getLsbD 2 = false ∧ (readPte t pte).extractLsb' 22 38 = BitVec.ofNat 38 f ∧
            ∀ k, k ≠ 1 → k ≠ 2 → (k < 22 ∨ 60 ≤ k) → (readPte t pte).getLsbD k = e.getLsbD k)))) ∧
  (∀ (s : State) (r : Req) (g : Group) (o : Op) (w : W) (n : Nat) (h : n < 256) (a : LaneAcc) (mask : LaneMask) (kind : ReqKind),
    Claims.AtMtu s r g kind → (kind = .mapft ∨ kind = .fltrd) → r.lanes = [a] → a.lane < 96 → mask.getLsbD a.lane = true →
    g.ops.find? (fun o => o.id == r.op) = some o → o.instr.word = some w → Fld.isWide (shapeOf o.instr).d = false → w.d = .v ⟨n, h⟩ →
    (kind = .mapft → Claims.MapftWaits s r a.addr → exec (.atomicReturn r.id mask) s = .next s) ∧
    ∀ (s1 : State) (v : Nat), (kind = .mapft → ¬ Claims.MapftWaits s r a.addr) → (if kind = .mapft then mapftPage s r.asid (r.core / 108) a.addr else fltrdPage s r.asid (r.core / 108) a.addr) = (s1, some v) →
      s1.groups = s.groups → s1.requests = s.requests →
      ∃ t g', exec (.atomicReturn r.id mask) s = .next t ∧ t.req? r.id = none ∧ t.group? r.grp = some g' ∧ g'.v n a.lane = BitVec.ofNat 32 v ∧
        (∀ l, l ≠ a.lane → g'.v n l = g.v n l) ∧ (∀ m, m ≠ n → g'.vreg m = g.vreg m) ∧ g'.sregs = g.sregs)

/-- R238, R239, R363: the repair words send their lanes to the MTU, and what the MTU answers. -/
def Obligations.RepairWordsAskTheMtu : Prop := Claims.RepairWordsAreSent ∧ Claims.TheMtuAnswersRepairWords

/-! ## Encodings, reset and the invariant -/

/-- R67 to R83: decoding the word of a well-formed instruction gives the instruction back, full word and paired word alike, with every
operand and field at every value that its encoding admits. -/
def Claims.DecodeOfEncode : Prop :=
  ∀ i : Instr, i.isWord = true → i.wf = true → decodeWord i.isPaired (encode i) = .ok i

/-- R67 to R83: a word that decodes stands for one well-formed instruction word, whose encoding is that word: no bit is ignored. -/
def Claims.EncodeOfDecode : Prop :=
  ∀ (pair : Bool) (x : InstrWord) (i : Instr), decodeWord pair x = .ok i →
    i.isWord = true ∧ i.wf = true ∧ i.isPaired = pair ∧ encode i = x

/-- R67 to R83: decoding and encoding are inverse to each other on well-formed instruction words. -/
def Obligations.DecodeAndEncodeAgree : Prop := Claims.DecodeOfEncode ∧ Claims.EncodeOfDecode

namespace Claims

/-- A full word without switch marker and mask, with operands, modifier and immediate. -/
def word (v : Fin 8) (t : Ty) (d a b c : Opd) (mod : BitVec 7) (imm : Word) : W := ⟨false, 0, false, v, t, d, a, b, c, mod, imm⟩

/-- Words written out from the encodings of R67 to R81 and the instructions that they stand for. -/
def specWords : List (InstrWord × Instr) :=
  [(0xC000_0452_1100_0000_0000_0021, .spawn (word 0 .i8 (.s 20) (.s 8) (.s 0) (.v 0) 0 0x21)),
   (0xC100_047A_2800_0000_0000_0000, .join (word 0 .i8 (.s 30) (.s 20) (.v 0) (.v 0) 0 0)),
   (0x430B_0028_0202_0180_0000_0000, .ffma (word 0 .f32 (.v 10) (.v 1) (.v 2) (.v 3) 0 0)),
   (0xA008_001A_0942_0040_0000_0040, .ld (word 0 .b32 (.v 6) (.s 4) .lane (.v 0) 0x40 0x40)),
   (0x0103_0002_5C00_0000_0000_0011, .braEmpty (word 0 .i8 (.v 0) (.s 46) (.v 0) (.v 0) 0 0x11)),
   (0xF000_0450_0000_0000_0000_1008, .mfk (word 0 .i8 (.s 20) (.v 0) (.v 0) (.v 0) 0 0x1008)),
   (0xF200_0000_0000_0000_0000_0012, .sys (word 0 .i8 (.v 0) (.v 0) (.v 0) (.v 0) 0 0x12)),
   (0xAB00_0000_0000_0004_0000_0002, .fence (word 0 .i8 (.v 0) (.v 0) (.v 0) (.v 0) 4 2)),
   (0x700E_0008_0200_0588_0000_0000, .cvt (word 0 .e4m3 (.v 2) (.v 1) (.v 0) (.v 11) 8 0)),
   (0x8902_100C_0400_0010_0000_0000, .scan { word 0 .i32 (.v 3) (.v 2) (.v 0) (.v 0) 0x10 0 with ms := 1 }),
   (0x9020_001C_0304_8280_0000_0000, .bfx (word 1 .i8 (.v 7) (.v 1) (.s 4) (.s 5) 0 0)),
   (0xA806_0026_1541_0400_0000_0000, .atom (word 0 .z32 (.v 9) (.s 10) .zero (.v 8) 0 0)),
   (0xA108_0002_0941_8594_0000_0080, .st (word 0 .b32 (.v 0) (.s 4) .zero (.s 11) 0x14 0x80)),
   (0xAA00_0432_0D41_8704_0000_0080, .watch (word 0 .i8 (.s 12) (.s 6) .zero (.s 14) 4 0x80)),
   (0xCC00_0452_090A_8600_0000_0003, .enq (word 0 .i8 (.s 20) (.s 4) (.s 10) (.s 12) 0 3)),
   (0xCC01_0452_0800_0000_0000_0000, .enqEos (word 0 .i8 (.s 20) (.s 4) (.v 0) (.v 0) 0 0)),
   (0xCD00_0456_0800_0000_0000_0000, .arcq (word 0 .i8 (.s 21) (.s 4) (.v 0) (.v 0) 0 0))]

end Claims

/-- R67 to R83: the words of `Claims.specWords`, written from the encoding tables, decode to the instructions that they stand for. -/
def Obligations.SpecWordsDecode : Prop := ∀ p ∈ Claims.specWords, decodeWord false p.1 = .ok p.2

/-- R442, R452: after power-on the boot ROM is in SELFTEST with no error bit, the registers of the management window hold the values that
their table gives for reset, and there is no group, context, queue, packet or request. K_PCAP is 600 in each byte pair. -/
def Claims.ResetRegisterValues : Prop :=
  let h := State.reset.host
  bootStat h = 1 ∧ h.fwlen = 0 ∧ h.qtable = 0 ∧ h.apbase = 0 ∧ h.apasid = 0 ∧ h.hosterr = 0 ∧ h.domctl = 0xFF ∧ h.nonce = 0 ∧
    h.record = 0 ∧ (∀ d, d < 4 → ((h.pcap >>> (16 * d)).setWidth 16).toNat = 600) ∧
    State.reset.groups = [] ∧ State.reset.contexts = [] ∧ State.reset.queues = [] ∧ State.reset.packets = [] ∧
    State.reset.requests = []

/-- The empty memory, firmware window, scratchpads and packets of the reset state are in canonical form. -/
def Claims.MemoryFormAtReset : Prop := memoryWf State.reset = true

/-- R140, R177, R232, R264, R331, R334, R372, R398, R440: the context-scope registers at context start. -/
def Claims.ContextRegisterStart : Prop :=
  CtxRegs.start.elctl = 4 ∧ CtxRegs.start.ifsize = 1 ∧ CtxRegs.start.stageahead = 4 ∧ CtxRegs.start.watchpoll = 0x1000 ∧
    CtxRegs.start.stealxd = 0x820 ∧ CtxRegs.start.tbucket = 0x400000 ∧ CtxRegs.start.lease = 0x20 ∧ CtxRegs.start.frctl = 8 ∧
    CtxRegs.start.rbinterval = 0x10000

/-- R442, R452: the machine after power-on has the register values of the management window's table, holds no group, context, queue,
packet or request, and has every byte list in canonical form. A context
starts with the values of its registers that the rules give. -/
def Obligations.ResetState : Prop := Claims.ResetRegisterValues ∧ Claims.MemoryFormAtReset ∧ Claims.ContextRegisterStart

/-- R306, R307 and log entry 6 (an unlisted byte reads as zero): whatever the step is, of a word or of any other agent, it keeps memory, the firmware window, the
scratchpads, the saved contexts and the packets in canonical form, so that equal contents are equal data. -/
def Obligations.EveryStepKeepsTheMemoryForm : Prop :=
  ∀ s t : State, memoryWf s = true → step s = .next t → memoryWf t = true

/-! ## Tasks -/

namespace Claims

/-- The state in which a word that has issued acts: the issue is counted. -/
def issued (s : State) (g : Group) : State := ({ s with ticks := s.ticks + 1 }).setGroup s.cur (tick s g)

/-- The state after a word that changes nothing but its scalar D. -/
def answered (s : State) (g : Group) (w : W) (v : Word) : State := wordDone s (writeScalar (tick s g) w.d v)

/-- The state after a word that has changed the machine to `s` and leaves an outstanding result (R198) for D, which the group takes
once it returns; `upd` is what the word does to its group at once. -/
def later (s : State) (k : Nat) (pc : DWord) (d : Opd) (vals : List Word) (upd : Group → Group) : State :=
  match d with
  | .s n => ({ s with nextId := s.nextId + 1 }).modGroup k (fun x =>
      ({ upd x with pend := x.pend ++ [Pend.mk s.nextId .join ((List.range vals.length).map (fun j => ⟨256 + n.val + j, 0, vals.getD j 0⟩)) 0 0xFF pc none] }).goesOn
        (nextPc pc))
  | _ => s.modGroup k (fun x => (upd x).goesOn (nextPc pc))

/-- A record that the group may read now (R190): its page is readable and no write of the core to its line is under way. -/
def readable (s : State) (g : Group) (a : DWord) : Prop :=
  passes s g 32 (fun r => r.rights.getLsbD 0) a ∧ lineBusy (issued s g) g.core g.asid a.toNat = false

/-- An acquire at .dev scope that met the write stamp `ws` (R228, R335). -/
def acquired (ws : Stamp) (x : Group) : Group := { x with view := max x.view ws, observed := max x.observed ws }

/-- The four words of VALUE, and STATE and SERIAL, of a record's bytes (R176). -/
def field (b : List Byte) (k : Nat) : Word := BitVec.ofNat 32 (bytesAt b (4 * k) 4)

/-- The block of `n` scalar registers at an operand; zeros for 321. -/
def block (g : Group) (o : Opd) (n : Nat) : List Word :=
  (List.range n).map (fun j => match o with | .s k => g.s (k.val + j) | _ => 0)

/-- The bytes of a future record that spawn writes (R189). -/
def freshRecord (serial : Word) : List Byte := List.replicate 20 0 ++ valBytes 4 serial.toNat ++ List.replicate 8 0

/-- The entry that a spawn pushes (R173, R189): the closure's fields from the word, the release that it carries, and what it waits for. -/
structure Spawned (s : State) (g : Group) (w : W) (form : Nat) (serial : Word) (e : Entry) : Prop where
  entry  : e.clo.entry = src g w true w.a 0
  future : e.clo.future = g.ifp
  demand : e.clo.demand = (w.imm.extractLsb' 5 6).toNat
  scr    : e.clo.scr = (w.imm.extractLsb' 11 12).toNat
  nstage : e.clo.nstage = if form = 1 then (w.imm.extractLsb' 23 2).toNat else 0
  pin    : e.clo.pin = decide (form = 2 ∨ form = 3)
  gate   : e.clo.gate = decide (form = 3)
  batch  : form = 3 → e.clo.batch = (src32 g w w.c 0).toNat % 65536
  args   : ∀ j, j < 18 → e.clo.args.getD j 0 = if j < (w.imm.extractLsb' 0 5).toNat then (block g w.b 18).getD j 0 else 0
  stage  : ∀ j, j < 8 → e.clo.stage.getD j 0 = if form = 1 ∧ j < 4 * (w.imm.extractLsb' 23 2).toNat then (block g w.c 8).getD j 0 else 0
  serial : e.serial = serial
  stamp  : e.stamp = max g.view g.compl
  waits  : e.waits = g.unreturned ∧ e.takeable = decide (g.unreturned = [])
  gateOpen : form ≠ 3 → e.gateOpen = true
  origin : e.origin = g.core ∧ e.spawnGrp = s.cur ∧ e.spawner = g.gid ∧ e.team = g.team ∧ e.isRoot = false

/-- The group `y` that `x` becomes as it enters the task of the entry `e` inline (R199, R200); `ret` is the D that a yield writes when it has
run. -/
structure Entered (e : Entry) (ret : Option Opd) (x y : Group) : Prop where
  pc     : y.pc = e.clo.entry ∧ y.inWord = none ∧ y.running = none
  args   : ∀ j, j < 18 → y.s j = e.clo.args.getD j 0
  masks  : y.am = allLanes ∧ y.flags = 0 ∧ y.gmode = 0 ∧ y.demand = e.clo.demand
  low    : ∀ k l, k < 8 * e.clo.demand → y.v k l = 0
  high   : ∀ k, 8 * e.clo.demand ≤ k → y.vreg k = x.vreg k
  view   : y.view = max x.view e.stamp
  depth  : ∃ t, y.tasks = x.tasks ++ [t] ∧ t.future = e.clo.future ∧ t.serial = e.serial ∧ t.onReturn = ret ∧ t.link = x.task.hdr ∧
    t.hdr = x.ifp.toNat + saveBytes e.clo.demand
  ifp    : y.ifp = BitVec.ofNat 64 (x.ifp.toNat + saveBytes e.clo.demand + 32)

/-- An inline run that may start now (R200): `g` has no path counter above zero, no outstanding result and a known header, the gate of `e` is open
and its staging over. -/
def MayEnter (g : Group) (e : Entry) : Prop := (∀ o ∈ g.ops, o.path = none) ∧ g.pend = [] ∧ g.rewalk = false ∧ e.gateOpen = true ∧ e.staged = true

/-- The group `g` of the state `s` pushes the save area and a header for the entry `e`, with the resume address `pc`; then the state is `t` (R179,
R200). -/
def Pushes (s : State) (g : Group) (e : Entry) (pc : DWord) (t : State) : Prop :=
  ∃ s1 w1 w2, groupWrite s g.core g.asid g.ifp.toNat (saveArea g e.clo.demand pc) g.view g.prov = (s1, .ok w1) ∧
    groupWrite s1 g.core g.asid (g.ifp.toNat + saveBytes e.clo.demand) (headerBytes e.clo.future g.task.hdr e.serial) g.view g.prov = (t, .ok w2)

/-- The word `i` enters the entry `e` inline and leaves the group in it, in the state `t` but for the group itself (R200). -/
def Enters (s t : State) (i : Instr) (e : Entry) (ret : Option Opd) : Prop :=
  ∃ upd : Group → Group, exec i s = .next (t.modGroup s.cur upd) ∧ ∀ x, Entered e ret x (upd x)

end Claims

/-- R189, R183, R188, R199, R200: a spawn of a user-mode group whose stack has room writes a pending record with the core's next serial at K_IFP,
moves K_IFP 32 bytes up, writes the record's address to D and pushes the closure at the hot end of the deque; without room D is 0 and nothing
else happens. With the deque full the task runs inline, resuming after the spawn, once the group has drained, the gate is open and the staging over;
where the conditions of R199 fail, the future fails with NOROOM. -/
def Claims.SpawnPushesItsClosure : Prop :=
  ∀ p ∈ ([(.spawn, 0), (.spawnS, 1), (.spawnL, 2), (.spawnG, 3)] : List ((W → Instr) × Nat)), ∀ (s : State) (g : Group) (w : W),
    Claims.Issues s g (p.1 w) w → g.sup = false → g.acquireHeld = false →
    (g.ifp.toNat + 32 > g.stackEnd → exec (p.1 w) s = .next (wordDone s (writePair (tick s g) w.d 0))) ∧
    (g.ifp.toNat + 32 ≤ g.stackEnd → Claims.passes s g 32 (fun r => r.rights.getLsbD 1 && !r.b) g.ifp →
      lineBusy (Claims.issued s g) g.core g.asid g.ifp.toNat = false →
      ∀ (s1 s2 : State) (serial : Word) (ws : Stamp), takeSerial (Claims.issued s g) g.asid g.core = (s1, serial) →
        groupWrite s1 g.core g.asid g.ifp.toNat (Claims.freshRecord serial) g.view g.prov = (s2, .ok ws) →
        let g1 : Group := { writePair (tick s g) w.d g.ifp with ifp := g.ifp + 32, compl := max g.compl ws }
        let v := s2.setGroup s.cur g1
        ∃ e, Claims.Spawned s g w p.2 serial e ∧
          (dequeFull s2 g.core = false →
            exec (p.1 w) s = .next ((pushEntry s2 g.core e).setGroup s.cur (g1.goesOn (nextPc g.pc)))) ∧
          (dequeFull s2 g.core = true → inlineOk v g1 e true = false →
            exec (p.1 w) s = .next (goOn (failFuture v g.core g.asid g.ifp 2 serial 0 0 (max g.view g1.compl) g.prov) s.cur (nextPc g.pc))) ∧
          (dequeFull s2 g.core = true → inlineOk v g1 e true = true →
            (((∃ o ∈ g.ops, o.path ≠ none) ∨ g.pend ≠ [] ∨ e.gateOpen = false ∨ e.staged = false) →
              exec (p.1 w) s = .next (s2.setGroup s.cur (Claims.inside (p.1 w) .drain (.inlineRun serial.toNat) { g1 with running := some e }))) ∧
            (Claims.MayEnter g e → ∀ t, Claims.Pushes (s2.setGroup s.cur { g1 with running := some e }) { g1 with running := some e } e (nextPc g.pc) t →
              Claims.Enters s t (p.1 w) e none)))

/-- R190, R192, R31, R32, R199, R200: join and fprobe of a resolved record acquire its write stamp and answer with its contents later; fprobe of a pending
record answers 0 without an acquire, and one whose line its core is still writing goes on and sends its read of STATE (log entry 69); a join on a pending record whose
entry of the deque it may run inline takes the entry and enters its task, after which it issues again (R199, R200); without such an entry, and with an
empty open batch, it parks inside the word. -/
def Claims.JoinAndFprobeReadTheRecord : Prop :=
  (∀ (s : State) (g : Group) (w : W), g.acquireHeld = false → Claims.Issues s g (.fprobe w) w →
    Claims.passes s g 32 (fun r => r.rights.getLsbD 0) (Claims.src g w true w.a 0) →
    lineBusy (Claims.issued s g) g.core g.asid (Claims.src g w true w.a 0).toNat = true → slotsUsed s g.core + 1 ≤ 4096 →
    ∃ t op, exec (.fprobe w) s = .next t ∧ Claims.Sent s t (tick s g) (fun g => g.goesOn (nextPc g.pc)) op ∧ Claims.Queued s t g op true ∧
      op.path = none ∧ op.kind = .probe ∧ op.acq = some 4 ∧ op.size = 4 ∧ op.lanes = [⟨0, Claims.src g w true w.a 0 + 16, 0, 0⟩]) ∧
  (∀ (s s1 : State) (g : Group) (w : W) (b : List Byte) (ws : Stamp), g.acquireHeld = false →
    Claims.readable s g (Claims.src g w true w.a 0) → groupRead (Claims.issued s g) g (Claims.src g w true w.a 0).toNat 32 = (s1, .ok (b, ws)) →
    (Claims.Issues s g (.join w) w → g.sup = false →
      (Claims.field b 4 ≠ 0 → exec (.join w) s =
        .next (Claims.later s1 s.cur g.pc w.d ((List.range 5).map (Claims.field b)) (Claims.acquired ws))) ∧
      (Claims.field b 4 = 0 → (∀ e ∈ (s1.core g.core).deque, e.serial = Claims.field b 5 → runnable s1 g.core e = false ∨ inlineOk s1 (tick s g) e false = false) →
        (batchesOf s1 g.core s.cur).openUsed = false →
        exec (.join w) s = .next (s1.modGroup s.cur (Claims.inside (.join w) .join (.parked (Claims.src g w true w.a 0).toNat)))) ∧
      (∀ e t, Claims.field b 4 = 0 → (s1.core g.core).deque.find? (fun e => e.serial == Claims.field b 5) = some e → runnable s1 g.core e = true →
        inlineOk s1 (tick s g) e false = true → Claims.MayEnter g e →
        Claims.Pushes ((dropEntry s1 g.core e.serial).setGroup s.cur { tick s g with running := some e }) { tick s g with running := some e } e g.pc t →
        Claims.Enters s t (.join w) e none)) ∧
    (Claims.Issues s g (.fprobe w) w →
      exec (.fprobe w) s = .next (Claims.later s1 s.cur g.pc w.d [Claims.field b 4] (if Claims.field b 4 = 0 then id else Claims.acquired ws))))

/-- R191: joinall of a frame all of whose children are over answers with the number of children whose STATE is not 1, later; without
children that is 0 at once. The header of its frame is known (`rewalk`, R179). -/
def Claims.JoinallCountsTheFailures : Prop :=
  ∀ (s : State) (g : Group) (w : W), Claims.Issues s g (.joinall w) w → g.sup = false → g.acquireHeld = false → g.rewalk = false →
    (∀ (s1 : State) (n : Nat), joinChildren (Claims.issued s g) s.cur (childAddrs g) 0 = .all s1 n →
      exec (.joinall w) s = .next (Claims.later s1 s.cur g.pc w.d [BitVec.ofNat 32 n] id)) ∧
    (g.ifp.toNat < g.task.hdr + 64 → joinChildren (Claims.issued s g) s.cur (childAddrs g) 0 = .all (Claims.issued s g) 0) ∧
    (∀ (s1 s2 : State) (k : Nat) (g1 : Group) (a bad : Nat) (l : List Nat) (b : List Byte) (ws : Stamp), s1.group? k = some g1 →
      readRecord s1 k g1 (BitVec.ofNat 64 a) = .seen s2 b ws → bytesAt b 16 4 ≠ 0 →
      joinChildren s1 k (a :: l) bad =
        joinChildren (s2.modGroup k (Claims.acquired ws)) k l (if bytesAt b 16 4 = 1 then bad else bad + 1))

/-- R190, R192, R31, R32, R199, R200, R191: join, fprobe and joinall read the records of their futures. -/
def Obligations.JoinsReadTheRecord : Prop := Claims.JoinAndFprobeReadTheRecord ∧ Claims.JoinallCountsTheFailures

/-- R193: fres and fres.fail send one operation on path W that waits for the group's earlier accesses and carries the value; at its home it
resolves a pending record to STATE 1 or 2, keeps SERIAL, and does nothing to another. -/
def Claims.FresResolvesAPendingRecord : Prop :=
  (∀ p ∈ ([(.fres, false), (.fresFail, true)] : List ((W → Instr) × Bool)), ∀ (s : State) (g : Group) (w : W), Claims.Issues s g (p.1 w) w →
    g.acquireHeld = false → Claims.Room s g 3 [0] (fun _ => Claims.src g w true w.a 0) →
    Claims.passes s g 32 (fun r => r.rights.getLsbD 0 && r.rights.getLsbD 1 && r.rights.getLsbD 3 && !r.b) (Claims.src g w true w.a 0) →
    ∃ t op value, exec (p.1 w) s = .next t ∧ Claims.Sent s t (tick s g) (fun g => g.goesOn (nextPc g.pc)) op ∧ Claims.Queued s t g op false ∧
      op.path = some 3 ∧ op.kind = .fres p.2 value g.unreturned ∧ op.size = 32 ∧ op.lanes.map (fun a => a.addr) = [Claims.src g w true w.a 0] ∧
      ∀ j, j < 4 → value.extractLsb' (32 * j) 32 = (Claims.block g w.b 4).getD j 0) ∧
  (∀ (fail : Bool) (value : BitVec 128) (old : BitVec 256),
    let new : BitVec 256 := BitVec.ofNat 256 (recordNew fail value old.toNat)
    if old.extractLsb' 128 32 = 0 then
      new.extractLsb' 0 128 = value ∧ new.extractLsb' 128 32 = (if fail then 2 else 1 : Word) ∧ new.extractLsb' 160 96 = old.extractLsb' 160 96
    else new = old)

/-- R189, R183, R188, R199, R200, R193: spawn pushes its closure with a pending record, and fres resolves a pending record. -/
def Obligations.SpawnAndResolve : Prop := Claims.SpawnPushesItsClosure ∧ Claims.FresResolvesAPendingRecord

/-- R194, R31, R32, R201, R181: a tret without children and path counts releases and resolves its future with A; the future of a failing task
fails with code 6, its serial and the trap's cause. An outermost task's group retires: it is gone from the machine. The group of an inline
task takes the registers, mode and seed of the save area back, keeps the flags of both, has the demand, the frame and the pc of the parent,
and a yield that ran the task writes 1 to D. With path counts tret waits inside the word. The header of its frame is known (`rewalk`, R179). -/
def Claims.TretResolvesAndRetires : Prop :=
  ∀ (s : State) (g : Group) (w : W), Claims.Fits s g (.tret w) w → g.sup = false → g.acquireHeld = false →
    (g.task.failing = false → (∃ o ∈ g.ops, o.path ≠ none) →
      exec (.tret w) s = .next ((Claims.issued s g).setGroup s.cur (Claims.inside (.tret w) .drain .again (tick s g)))) ∧
    ((∀ o ∈ g.ops, o.path = none ∧ o.held = []) → pruneOps g.ops [] = g.ops → g.rewalk = false → g.ifp.toNat < g.task.hdr + 64 →
      ∀ (s1 : State), s1 = (Claims.issued s g).setGroup s.cur { tick s g with view := max g.view g.compl } →
      (∀ (s2 : State) (value : BitVec 128) (r : RecWrite),
        (∀ j, j < 4 → value.extractLsb' (32 * j) 32 =
          if g.task.failing then ([6, g.task.serial, g.trap.cause, 0] : List Word).getD j 0 else (Claims.block g w.a 4).getD j 0) →
        recordWrite s1 g.core g.asid g.task.future.toNat g.task.failing value (max g.view g.compl) g.prov g.gid = (s2, r) →
        (g.task.failing = true ∨ (Claims.passes s g 32 (fun r => r.rights.getLsbD 1 && !r.b) g.task.future ∧ (r = .late ∨ ∃ ws, r = .done ws))) →
        (g.task.link = 0 → (batchesOf s g.core s.cur).openUsed = false →
          ∃ t, exec (.tret w) s = .next t ∧ t.group? s.cur = none ∧
            t = retireGroup (s2.modGroup s.cur (fun x => { x with ifp := BitVec.ofNat 64 g.task.hdr })) s.cur) ∧
        (g.task.link ≠ 0 → ∀ (g2 : Group) (s3 : State) (b : List Byte) (ws : Stamp) (par : TaskInfo) (pre : List TaskInfo),
          s2.group? s.cur = some g2 → g2.tasks = pre ++ [par, g.task] → g2.flags = g.flags → g2.core = g.core → g2.asid = g.asid → g2.view = max g.view g.compl →
          let d := g.task.demand
          let base := g.task.hdr - saveBytes d
          let top := 256 + 3072 * d
          groupRead (s2.setGroup s.cur { g2 with ifp := BitVec.ofNat 64 g.task.hdr }) { g2 with ifp := BitVec.ofNat 64 g.task.hdr } base (saveBytes d) =
            (s3, .ok (b, ws)) →
          ∃ x, exec (.tret w) s = .next (s3.setGroup s.cur x) ∧
            (∀ j, j < 64 → (∀ n, g.task.onReturn = some (.s n) → n.val ≠ j) → x.s j = BitVec.ofNat 32 (bytesAt b (4 * j) 4)) ∧
            (∀ n, g.task.onReturn = some (.s n) → x.s n.val = 1) ∧
            (∀ k l, k < 8 * d → l < 96 → x.v k l = BitVec.ofNat 32 (bytesAt b (256 + 384 * k + 4 * l) 4)) ∧
            (∀ k, 8 * d ≤ k → k < 256 → x.vreg k = g2.vreg k) ∧
            x.pc = BitVec.ofNat 64 (bytesAt b top 8) ∧ x.flags = g.flags ||| BitVec.ofNat 6 (bytesAt b (top + 8) 4) ∧
            x.gmode = BitVec.ofNat 32 (bytesAt b (top + 12) 4 % 8) ∧ x.srseed = BitVec.ofNat 64 (bytesAt b (top + 24) 8) ∧
            x.demand = par.demand ∧ x.ifp = BitVec.ofNat 64 base ∧ x.tasks = pre ++ [par] ∧ x.view = max g.view g.compl ∧ x.inWord = none)))

/-- R195, R199, R200, R196, R197: yield without an entry that it may run answers 0, and with one, once nothing of the group is outstanding, it
saves the group and enters the entry's task, at whose return D becomes 1; tid and stage answer with the item of their table. -/
def Claims.YieldTidAndStage : Prop :=
  ∀ (s : State) (g : Group) (w : W), g.acquireHeld = false →
    (Claims.Issues s g (.yield w) w → g.sup = false →
      (((s.core g.core).deque.all (fun e => !(runnable s g.core e && inlineOk s g e false))) = true →
        exec (.yield w) s = .next (Claims.answered s g w 0)) ∧
      (∀ (e : Entry) (t : State), (s.core g.core).deque.find? (fun e => runnable s g.core e && inlineOk s g e false) = some e →
        Claims.MayEnter g e →
        Claims.Pushes ((dropEntry (Claims.issued s g) g.core e.serial).setGroup s.cur { tick s g with running := some e }) { tick s g with running := some e }
          e (nextPc g.pc) t →
        Claims.Enters s t (.yield w) e (some w.d))) ∧
    (Claims.Fits s g (.tid w) w → exec (.tid w) s = .next (Claims.answered s g w
      (if w.imm = 0 then g.task.serial else if w.imm = 1 then g.task.future.extractLsb' 0 32 else if w.imm = 2 then g.task.future.extractLsb' 32 32
       else if w.imm = 3 then BitVec.ofNat 32 (s.core g.core).deque.length
       else BitVec.ofNat 32 (if g.task.origin = 0x1FF ∨ g.task.origin = g.core then g.task.origin else g.task.origin + 2 ^ 31)))) ∧
    (Claims.Fits s g (.stage w) w → exec (.stage w) s = .next (Claims.answered s g w
      (match (s.core g.core).domain with | some (some (slot, j)) => BitVec.ofNat 32 (16 * slot + j) | _ => 0x80000000)))

/-- R194, R31, R32, R201, R181, R195, R199, R200, R196, R197: tret resolves and retires, and yield, tid and stage answer. -/
def Obligations.TaskReturnYieldAndStage : Prop := Claims.TretResolvesAndRetires ∧ Claims.YieldTidAndStage

namespace Claims

/-- The state after a word that has changed the machine to `s` without its group `g`, which becomes `g'` and goes on. -/
def moved (s : State) (k : Nat) (g : Group) (g' : Group) : State := s.setGroup k (g'.goesOn (nextPc g.pc))

/-- What bufput makes of a handle (R204): none in a wrong state, otherwise the handle it leaves bound, if any. -/
def putBack (x : Handle) (u : Bool) : Option (Option Handle) :=
  match x.st, u with
  | .full, u => if x.reads > 0 then some (some { x with st := .draining, unbind := u }) else some (if u then none else some { x with st := .free, full := [], bad := [] })
  | .free, true => some none
  | _, _ => none

/-- A group that waits in bufwait for the state that a handle now has, full or free, resumes with status 0, after a full one with its
acquire (R204, R206). -/
def turned (core h : Nat) (x : Handle) (g : Group) : Group :=
  if g.core = core ∧ g.inWord = some (.handle h) ∧
      (match g.current with | some (.bufwaitFull _) => x.st == .full | some (.bufwaitFree _) => x.st == .free | _ => false) = true then
    { g with view := if x.st = .full then max g.view x.stamp else g.view, inWord := some (.answered 0) }
  else g

/-- A core's handle `h` bound as `x`, or unbound. -/
def withHandle (s : State) (core h : Nat) (x : Option Handle) : State :=
  match x with
  | some x => { s.modCore core (fun c => { c with handles := tabPut c.handles h x }) with groups := tabMap s.groups (turned core h x) }
  | none => s.modCore core (fun c => { c with handles := tabDel c.handles h })

/-- A handle unbound: a group of the core that waits for it resumes with status 2 (R206). -/
def freed (s : State) (core h : Nat) : State :=
  { withHandle s core h none with
    groups := tabMap s.groups (fun x => if x.core = core ∧ x.inWord = some (.handle h) then { x with inWord := some (.answered 2) } else x) }

/-- The pipeline, the producer's identity and the stage that a word of a pipeline names (R383, R386). -/
def Target (s : State) (g : Group) (a p k : Nat) (x : Stage) : Prop := producerOf s g.core = some (p, k) ∧ stage? s p a = some x ∧ a < 16

/-- FUTURE is 32-byte aligned and inside the arena of the context, if it has one (R386). -/
def inArena (s : State) (g : Group) (f : DWord) : Prop :=
  ∀ c, s.context? g.asid = some c → f.toNat % 32 = 0 ∧ arenaBase c.regs ≤ f.toNat ∧ f.toNat + 32 ≤ arenaEnd c.regs

end Claims

/-- R205, R206, R204, R296: bufget leaves an outstanding result; when it returns, its range is checked, the lowest unbound handle is bound
and D takes its number, or D takes the status; bufput and bufwait answer with their
status, bufput changes its handle as R204 says, a group that waits for a handle which it unbinds resumes with status 2, and bufwait on a bound
handle in another state parks inside the word for that handle; when the handle turns to the state that it waits for, its status is 0, whatever
becomes of the handle before it goes on. -/
def Claims.BufferHandleWords : Prop :=
  ∀ (s : State) (g : Group) (w : W), g.acquireHeld = false →
    let a := (Claims.src32 g w w.a 0).toNat
    let t := teamOf s g.core g.team
    (Claims.Issues s g (.bufget w) w →
      let cells : List WrCell := match w.d with | .s n => [⟨256 + n.val, 0, 0⟩] | _ => []
      exec (.bufget w) s = .next ({ Claims.issued s g with nextId := s.nextId + 1 }.modGroup s.cur (fun x =>
        { x with pend := x.pend ++ [Pend.mk s.nextId .join cells 0 0xFF g.pc (some (a, (Claims.src32 g w w.b 0).toNat))] }.goesOn (nextPc g.pc)))) ∧
    (∀ b : Nat,
      let good : Prop := a % 256 = 0 ∧ b % 256 = 0 ∧ b ≠ 0 ∧ 256 * t.base ≤ a ∧ a + b ≤ 256 * (t.base + t.size)
      (¬ good → bufgetTry s g a b = (s, 0xFFFFFFFE)) ∧
      (good → (∀ h, h < 64 → handle? s g.core h ≠ none) → bufgetTry s g a b = (s, 0xFFFFFFFF)) ∧
      (good → ∀ h, h < 64 → handle? s g.core h = none → (∀ j, j < h → handle? s g.core j ≠ none) →
        bufgetTry s g a b = (Claims.withHandle s g.core h (some ⟨a, b, .free, 0, false, 0, [], []⟩), BitVec.ofNat 32 h))) ∧
    (∀ (k id n b : Nat) (x : Pend) (mask : LaneMask), s.group? k = some g → s.req? id = none → findPend s id = some (k, x) → x.id = id →
      x.unit = .join → n < 64 → x.cells = [⟨256 + n, 0, 0⟩] → x.bind = some (a, b) → x.flags = 0 → mask.getLsbD 0 = true →
      ∃ t g', exec (.loadReturn id mask) s = .next t ∧ t = { (bufgetTry s g a b).1 with groups := t.groups } ∧ t.group? k = some g' ∧
        g'.s n = (bufgetTry s g a b).2 ∧ g'.pend = g.pend.filter (fun y => y.id != id) ∧ g'.pc = g.pc ∧ g'.vregs = g.vregs) ∧
    (Claims.Issues s g (.bufput w) w →
      (a ≥ 64 → exec (.bufput w) s = .next (Claims.answered s g w 1)) ∧
      (a < 64 → handle? s g.core a = none → exec (.bufput w) s = .next (Claims.answered s g w 2)) ∧
      (∀ x, a < 64 → handle? s g.core a = some x →
        match Claims.putBack x (w.imm == 1) with
        | none => exec (.bufput w) s = .next (Claims.answered s g w 3)
        | some none => exec (.bufput w) s =
            .next (Claims.moved (Claims.freed (Claims.issued s g) g.core a) s.cur g (writeScalar (tick s g) w.d 0))
        | some (some y) => exec (.bufput w) s =
            .next (Claims.moved (Claims.withHandle (Claims.issued s g) g.core a (some y)) s.cur g (writeScalar (tick s g) w.d 0)))) ∧
    (∀ p ∈ ([(.bufwaitFull, .full), (.bufwaitFree, .free)] : List ((W → Instr) × HandleSt)), Claims.Issues s g (p.1 w) w →
      (a ≥ 64 → exec (p.1 w) s = .next (Claims.answered s g w 1)) ∧
      (a < 64 → handle? s g.core a = none → exec (p.1 w) s = .next (Claims.answered s g w 2)) ∧
      (∀ x, a < 64 → handle? s g.core a = some x →
        (x.st = p.2 → exec (p.1 w) s =
          .next (wordDone s { writeScalar (tick s g) w.d 0 with view := if p.2 = .full then max g.view x.stamp else g.view })) ∧
        (x.st ≠ p.2 → exec (p.1 w) s = .next (({ s with ticks := s.ticks + 1 }).setGroup s.cur
          (Claims.inside (p.1 w) .handle (.handle a) (tick s g)))))) ∧
    (∀ (core h : Nat) (x : Handle), setHandle s core h x = Claims.withHandle s core h (some x)) ∧
    (∀ p ∈ ([.bufwaitFull, .bufwaitFree] : List (W → Instr)), ∀ st : Nat, s.group? s.cur = some g → g.inWord = some (.answered st) →
      exec (p w) s = .next (s.setGroup s.cur ((writeScalar g w.d (BitVec.ofNat 32 st)).goesOn (nextPc g.pc))))

/-- R386, R387, R388, R410: enq answers the first status that applies, or reserves the last slot of its Arcade for its record, or waits inside
the word at the tail of the wait list; enq.eos closes its producer's stream; arcq reads the stage; qput answers its status, and a packet
that its queue takes is written after the queue's last one, WRITE rises by 1 and the group's accesses are noted. -/
def Claims.QueueWords : Prop :=
  ∀ (s : State) (g : Group) (w : W), g.acquireHeld = false →
    let a := (Claims.src32 g w w.a 0).toNat
    let f := Claims.src g w true w.c 0
    (∀ p ∈ ([.enq, .enqEos] : List (W → Instr)), Claims.Issues s g (p w) w → g.sup = false →
      ((∀ q k x, ¬ Claims.Target s g a q k x) → exec (p w) s = .next (Claims.answered s g w 1)) ∧
      (∀ q k x, Claims.Target s g a q k x → x.from'.testBit k = false → exec (p w) s = .next (Claims.answered s g w 2))) ∧
    (Claims.Issues s g (.enq w) w → g.sup = false → ∀ q k x, Claims.Target s g a q k x → x.from'.testBit k = true →
      (¬ Claims.inArena s g f → exec (.enq w) s = .next (Claims.answered s g w 3)) ∧
      (Claims.inArena s g f → k ∈ x.closed → exec (.enq w) s = .next (Claims.answered s g w 4)) ∧
      (Claims.inArena s g f → k ∉ x.closed → ∃ y : Slot,
        (y.grp = s.cur ∧ y.clo.entry = x.entry ∧ y.clo.need = x.need ∧ y.clo.future = f ∧ y.clo.flags = 0 ∧ y.stamp = max g.view g.compl ∧
          y.waits = g.unreturned ∧ y.visible = decide (g.unreturned = []) ∧
          ∀ j, j < 18 → y.clo.args.getD j 0 = if j < w.imm.toNat then (Claims.block g w.b 18).getD j 0 else 0) ∧
        (x.slots.length < x.cap → x.waits = [] → arcadeUp s q = true → exec (.enq w) s =
          .next (Claims.moved ((Claims.issued s g).modStage q a (fun x =>
            { x with slots := x.slots ++ [{ y with num := x.nextSlot }], nextSlot := x.nextSlot + 1 })) s.cur g (writeScalar (tick s g) w.d 0))) ∧
        (¬ (x.slots.length < x.cap ∧ x.waits = [] ∧ arcadeUp s q = true) → exec (.enq w) s =
          .next (((Claims.issued s g).modStage q a (fun x => { x with waits := x.waits ++ [(s.cur, y)] })).setGroup s.cur
            (Claims.inside (.enq w) .arcade .again (tick s g)))))) ∧
    (Claims.Issues s g (.enqEos w) w → g.sup = false → ∀ q k x, Claims.Target s g a q k x → x.from'.testBit k = true →
      (k ∈ x.closed → exec (.enqEos w) s = .next (Claims.answered s g w 4)) ∧
      (k ∉ x.closed → exec (.enqEos w) s = .next (goOn (settleStages (closeStream ((Claims.issued s g).setGroup s.cur
        (writeScalar (tick s g) w.d 0)) q a k) g.asid) s.cur (nextPc g.pc)))) ∧
    (Claims.Issues s g (.arcq w) w →
      ((∀ q k x, ¬ Claims.Target s g a q k x) → exec (.arcq w) s = .next (Claims.answered s g w 0xFFFFFFFF)) ∧
      (∀ q k x p, Claims.Target s g a q k x → tabGet? s.pipes q = some p → exec (.arcq w) s = .next (Claims.answered s g w
        (if w.imm = 1 then BitVec.ofNat 32 x.cap
         else BitVec.ofNat 32 (x.slots.length + 2 ^ 17 * p.assigned.countP (fun c => c.2 == a) + (if x.cap ≤ x.slots.length then 2 ^ 29 else 0) +
           (if (∀ j, j < 17 → x.from'.testBit j = true → j ∈ x.closed) then 2 ^ 30 else 0) + (if x.retired then 2 ^ 31 else 0)))))) ∧
    (Claims.Issues s g (.qput w) w →
      let bytes := (Claims.block g w.b 16).flatMap (fun v => valBytes 4 v.toNat)
      let n (x : Queue) : Nat := (x.write + 1) % 2 ^ 64
      (a ≥ 4096 → exec (.qput w) s = .next (Claims.answered s g w 2)) ∧
      (∀ x, a < 4096 → tabGet? s.queues a = some x → x.mapped = true →
        (¬ (x.qp = true ∧ x.asid = g.asid) → exec (.qput w) s = .next (Claims.answered s g w 2)) ∧
        (x.qp = true → x.asid = g.asid → bytes.getD 0 0 = 0 → exec (.qput w) s = .next (Claims.answered s g w 3)) ∧
        (x.qp = true → x.asid = g.asid → bytes.getD 0 0 ≠ 0 → (x.write + 2 ^ 64 - x.read) % 2 ^ 64 ≥ 2 ^ x.log2n →
          exec (.qput w) s = .next (Claims.answered s g w 1)) ∧
        (x.qp = true → x.asid = g.asid → bytes.getD 0 0 ≠ 0 → (x.write + 2 ^ 64 - x.read) % 2 ^ 64 < 2 ^ x.log2n →
          ∀ (s1 s2 s3 : State) (w1 w2 w3 : Stamp),
            forumWrite (Claims.issued s g) x.asid (slotAddr x x.write + 4) (bytes.drop 4) = (s1, .ok w1) →
            forumWrite (s1.modQueue a (fun y => { y with write := n x, puts := y.puts ++ [(x.write, g.unreturned, s.cur)] })) x.asid
              (slotAddr x x.write) (bytes.take 4) = (s2, .ok w2) →
            forumWrite s2 (hostAsid s2) (qtAddr s2 a + 16) (valBytes 8 (n x)) = (s3, .ok w3) →
            exec (.qput w) s = .next (s3.modGroup s.cur (fun y => (writeScalar y w.d 0).goesOn (nextPc g.pc))))))

/-- R205, R206, R204, R296, R386, R387, R388, R410: the words of buffer handles and of queues. -/
def Obligations.BufferAndQueueWords : Prop := Claims.BufferHandleWords ∧ Claims.QueueWords

/-! ## Commands of the engines -/

namespace Claims

/-- The state `t` after a word that gave the engine of its partition a command: the command awaits acceptance behind the others, belongs to
the group's open batch, waits for the group's stores and atomics, and is counted on its path (R247, R253, R256, R24). -/
structure Commanded (s t : State) (g g' : Group) (i : Instr) (path : Nat) (c : MCmd) (op : Op) : Prop where
  counted : op.id = c.op ∧ op.path = some path ∧ op.kind = .engine ∧ op.outstanding = true ∧ op.acq = none
  cmd   : c.grp = s.cur ∧ c.gid = g.gid ∧ c.part = g.part ∧ c.asid = g.asid ∧ c.instr = i ∧ c.waits = g.unacked ∧ c.started = false ∧
    c.batch = (batchesOf s g.core s.cur).openNum ∧ c.stamp = max g.view g.compl
  state : t = (({ s with ticks := s.ticks + 1, nextId := s.nextId + 2 }).modCore g.core (fun k => { k with
      waiting := k.waiting ++ [c]
      batches := tabPut k.batches s.cur { batchesOf s g.core s.cur with openLeft := (batchesOf s g.core s.cur).openLeft + 1, openUsed := true } })).setGroup
    s.cur ({ g' with ops := g'.ops ++ [op] }.goesOn (nextPc g.pc))

/-- A batch number names a batch that has not retired: the open one, or one not below the oldest closed one (R258). -/
def unretired (b : Batches) (n : Nat) : Prop :=
  let oldest := match b.closed with | x :: _ => x.num | [] => b.openNum
  n = b.openNum ∨ (b.openNum + 65536 - n) % 65536 ≤ (b.openNum + 65536 - oldest) % 65536

end Claims

/-- R247, R253, R256, R259, R260, R257: mloop, mzero and epi give their command to the engine while it has room; mfence closes the open batch and
answers its number, or parks without issuing while 255 batches are closed; mwait answers at once or waits inside the word, and answers the
batch's outcome once it has retired; mstat answers with its item and clears it. -/
def Obligations.MatrixWords : Prop :=
  ∀ (s : State) (g : Group) (w : W),
    (g.acquireHeld = false →
      (∀ p ∈ ([(.mloop, 6), (.mzero, 6), (.epi, 7)] : List ((W → Instr) × Nat)), Claims.Issues s g (p.1 w) w →
        ((s.core g.core).waiting.countP (fun c => c.part == g.part)) < 4 → g.count p.2 < 255 →
        ∃ t c op, exec (p.1 w) s = .next t ∧ Claims.Commanded s t g
          { tick s g with srseed := if p.2 = 7 ∧ w.rnd = 5 then g.srseed + 1 else g.srseed } (p.1 w) p.2 c op) ∧
      (Claims.Issues s g (.mfence w) w →
        let b := batchesOf s g.core s.cur
        (b.closed.length < 255 → exec (.mfence w) s = .next ((closeBatch (Claims.issued s g) g.core s.cur).modGroup s.cur (fun x =>
          (writeScalar x w.d (BitVec.ofNat 32 b.openNum)).goesOn (nextPc g.pc)))) ∧
        (b.closed.length ≥ 255 → exec (.mfence w) s =
          .next (({ s with ticks := s.ticks + 1 }).setGroup s.cur { g with park := some .batch }))) ∧
      (Claims.Issues s g (.mwait w) w →
        let n := (Claims.src32 g w w.a 0).toNat
        let b := batchesOf s g.core s.cur
        (n ≥ 65536 → exec (.mwait w) s = .next (Claims.answered s g w 3)) ∧
        (n < 65536 → n = b.openNum → exec (.mwait w) s = .next (Claims.answered s g w 2)) ∧
        (n < 65536 → n ≠ b.openNum → ¬ Claims.unretired b n → exec (.mwait w) s = .next (Claims.answered s g w 0)) ∧
        (n < 65536 → n ≠ b.openNum → Claims.unretired b n → exec (.mwait w) s = .next (({ s with ticks := s.ticks + 1 }).setGroup s.cur
          (Claims.inside (.mwait w) .batch (.batch n) (tick s g))))) ∧
      (Claims.Issues s g (.mstat w) w →
        let b := batchesOf s g.core s.cur
        let sel := w.imm.toNat % 4
        let oldest := match b.closed with | x :: _ => x.num | [] => b.openNum
        (sel = 0 → exec (.mstat w) s = .next (Claims.answered s g w (BitVec.ofNat 32 (b.openNum + 65536 * oldest)))) ∧
        (∀ v : Word, (sel = 1 ∧ v = b.failWord) ∨ (sel = 2 ∧ v = b.epiFlags.zeroExtend 32) →
          (w.imm.getLsbD 8 = false → exec (.mstat w) s = .next (Claims.answered s g w v)) ∧
          (w.imm.getLsbD 8 = true → exec (.mstat w) s = .next (Claims.moved ((Claims.issued s g).modCore g.core (fun k => { k with
            batches := tabPut k.batches s.cur (if sel = 1 then { b with failWord := 0 } else { b with epiFlags := 0 }) })) s.cur g
            (writeScalar (tick s g) w.d v)))) ∧
        (sel = 3 → ∃ v : Word, exec (.mstat w) s = .next (Claims.answered s g w v) ∧ v.extractLsb' 16 16 = BitVec.ofNat 16 (s.core g.core).queue.length ∧
          ∀ k, k < 16 → v.getLsbD k = (tabGet (s.core g.core).tiles k ⟨false, false, []⟩).poison))) ∧
    (∀ failed : Bool, s.group? s.cur = some g → g.inWord = some (.batchDone failed) →
      exec (.mwait w) s = .next (s.setGroup s.cur ((writeScalar g w.d (if failed then 1 else 0)).goesOn (nextPc g.pc))))

namespace Claims

/-- A word of a block of registers, as a number. -/
def arg (g : Group) (w : W) (k : Nat) : Nat := ((block g w.a 9).getD k 0).toNat

/-- A scratch range of the group's own window. -/
def inWindow (s : State) (g : Group) (off n : Nat) : Prop :=
  256 * (teamOf s g.core g.team).base ≤ off ∧ off + n ≤ 256 * ((teamOf s g.core g.team).base + (teamOf s g.core g.team).size)

/-- The status of a put (R269): the first that applies. -/
def putAnswer (s : State) (g : Group) (w : W) (st : Nat) : Prop :=
  let n := arg g w 3
  if arg g w 0 > 11 then st = 1
  else if n < 16 ∨ n > 65536 ∨ n % 16 ≠ 0 ∨ arg g w 1 % 16 ≠ 0 ∨ arg g w 2 % 16 ≠ 0 then st = 2
  else if ¬ (256 * (teamOf s g.core g.team).base ≤ arg g w 2 ∧ arg g w 2 + n ≤ 256 * ((teamOf s g.core g.team).base + (teamOf s g.core g.team).size)) then st = 3
  else if arg g w 1 < 0x2000 ∨ arg g w 1 + n > 0x80000 then st = 4
  else if arg g w 4 ≠ 0xFFFFFFFF ∧ (arg g w 4 % 8 ≠ 0 ∨ arg g w 4 ≥ 0x2000) then st = 5
  else st = 0

/-- The status of an mcast (R269, R273): the first that applies; SRC and DST are bits 0 and 1 of IMM. -/
def mcastAnswer (s : State) (g : Group) (w : W) (st : Nat) : Prop :=
  let src := w.imm.getLsbD 0
  let dst := w.imm.getLsbD 1
  if arg g w 3 = 0 ∨ arg g w 3 ≥ 4096 then st = 1
  else if dst = false ∧ arg g w 4 % 16 ≠ 0 then st = 2
  else if src = true ∧ (arg g w 0 ≥ 64 ∨ (handle? s g.core (arg g w 0)).map (fun x => x.st) ≠ some .full) then st = 3
  else if (dst = false ∧ (arg g w 4 < 0x2000 ∨ arg g w 4 ≥ 0x80000)) ∨ (dst = true ∧ arg g w 4 ≥ 64) then st = 4
  else if arg g w 5 ≠ 0xFFFFFFFF ∧ (dst = true ∨ arg g w 5 % 8 ≠ 0 ∨ arg g w 5 ≥ 0x2000) then st = 5
  else st = 0

/-- A core that an S endpoint or a barrier of a copy names (R321): 0 to 11, or the issuing core. -/
abbrev namesCore (n : Nat) : Prop := n < 12 ∨ n = 0xFFFFFFFF

/-- An H endpoint that is not usable: the number is no handle's, or the handle is unbound or in another state. -/
abbrev badEndpoint (s : State) (g : Group) (n : Nat) (want : HandleSt) : Prop := n ≥ 64 ∨ (handle? s g.core n).map (fun x => x.st) ≠ some want

/-- An S endpoint that is not usable. -/
abbrev badScratch (off core : Nat) : Prop := ¬ namesCore core ∨ off % 16 ≠ 0 ∨ off < 0x2000 ∨ off ≥ 0x80000

/-- The status of a copy (R322): the first that applies. SK, DK and BK are bits 1:0, 3:2 and 5:4 of IMM, and kinds 0, 1 and 2 of an endpoint
are G, H and S. -/
def copyAnswer (s : State) (g : Group) (w : W) (st : Nat) : Prop :=
  let sk := w.imm.toNat % 4
  let dk := w.imm.toNat / 4 % 4
  let bk := w.imm.toNat / 16 % 4
  if sk ≠ 0 ∧ dk ≠ 0 then st = 1
  else if (sk = 1 ∧ badEndpoint s g (arg g w 0) .full) ∨ (dk = 1 ∧ badEndpoint s g (arg g w 2) .free) then st = 2
  else if (sk = 2 ∧ badScratch (arg g w 0) (arg g w 1)) ∨ (dk = 2 ∧ badScratch (arg g w 2) (arg g w 3)) then st = 3
  else if (bk = 1 ∧ (arg g w 6 % 8 ≠ 0 ∨ arg g w 6 ≥ 0x2000 ∨ ¬ namesCore (arg g w 7))) ∨ (bk = 2 ∧ arg g w 6 % 8 ≠ 0) ∨ (bk ≠ 0 ∧ dk = 1) then st = 4
  else if arg g w 8 % 128 ≠ 0 then st = 5
  else st = 0

/-- An operation of an engine on path C, and a group that has it counted (R24). -/
def onPathC (id : Nat) (op : Op) : Prop := op.id = id ∧ op.path = some 5 ∧ op.kind = .engine ∧ op.outstanding = true ∧ op.acq = none

/-- The group after a word of path C that was taken: D is 0 and the operation stands last. -/
def taken (s : State) (g : Group) (w : W) (op : Op) : Group :=
  { writeScalar (tick s g) w.d 0 with ops := g.ops ++ [op] }.goesOn (nextPc g.pc)

end Claims

/-- R269, R274, R322, R24: put, mcast and copy answer the first status that applies. A command with status 0 is queued with its block, the
group's stores and atomics to wait for, and a count on path C; with any other status only D is written. -/
def Claims.TransferWordsQueueTheirCommand : Prop :=
  ∀ (s : State) (g : Group) (w : W), g.acquireHeld = false → g.count 5 < 255 →
    (Claims.Issues s g (.put w) w → ∀ st, Claims.putAnswer s g w st →
      (st ≠ 0 → exec (.put w) s = .next (Claims.answered s g w (BitVec.ofNat 32 st))) ∧
      (st = 0 → ∃ (p : Put) (op : Op), Claims.onPathC p.op op ∧ p.grp = s.cur ∧ p.core = g.core ∧ p.asid = g.asid ∧ p.waits = g.unacked ∧
        p.stamp = max g.view g.compl ∧ p.started = false ∧ (∀ k, k < 5 → blk p.block k = Claims.arg g w k) ∧
        exec (.put w) s = .next ((({ s with ticks := s.ticks + 1, nextId := s.nextId + 2 }).modCluster (g.core / 12) (fun c =>
          { c with puts := c.puts ++ [p] })).setGroup s.cur (Claims.taken s g w op)))) ∧
    (Claims.Issues s g (.mcast w) w → ∀ st, Claims.mcastAnswer s g w st →
      (st ≠ 0 → exec (.mcast w) s = .next (Claims.answered s g w (BitVec.ofNat 32 st))) ∧
      (st = 0 → ∃ (m : Mcast) (op : Op), Claims.onPathC m.op op ∧ m.grp = s.cur ∧ m.core = g.core ∧ m.waits = g.unacked ∧
        m.stamp = max g.view g.compl ∧ m.buf = none ∧
        m.granted = false ∧ (∀ k, k < 6 → blk m.block k = Claims.arg g w k) ∧
        m.left = ((List.range 12).filter (fun j => (Claims.arg g w 3).testBit j)).map (fun j => 12 * (g.core / 12) + j) ∧
        exec (.mcast w) s = .next (((if w.imm.getLsbD 0 then beginRead ({ s with ticks := s.ticks + 1, nextId := s.nextId + 2 }) g.core (Claims.arg g w 0)
          else { s with ticks := s.ticks + 1, nextId := s.nextId + 2 }).modCluster (g.core / 12) (fun c =>
          { c with mcasts := c.mcasts ++ [m] })).setGroup s.cur (Claims.taken s g w op)))) ∧
    (Claims.Issues s g (.copy w) w → ∀ st, Claims.copyAnswer s g w st →
      (st ≠ 0 → exec (.copy w) s = .next (Claims.answered s g w (BitVec.ofNat 32 st))) ∧
      (st = 0 → (s.die (g.core / 108)).copies.countP (fun c => !c.engine) < 1024 → ∃ (c : Copy) (op : Op), Claims.onPathC c.op op ∧
        c.grp = some s.cur ∧ c.core = g.core ∧ c.waits = g.unacked ∧ c.stamp = max g.view g.compl ∧ c.started = false ∧ c.engine = false ∧ c.imm = w.imm ∧ (∀ k, k < 9 → blk c.block k = Claims.arg g w k) ∧
        exec (.copy w) s = .next ((acceptCopy { s with ticks := s.ticks + 1, nextId := s.nextId + 2 } (g.core / 108) c (copySk w) (copyDk w)).setGroup
          s.cur (Claims.taken s g w op))))

/-- R271, R272, R218: dsld counts once on path S; a request for the group's own core has its values at once, the bytes of that core's scratchpad at
its lanes' offsets. -/
def Claims.DsldReadsTheCluster : Prop :=
  ∀ (s : State) (g : Group) (w : W), Claims.Issues s g (.dsld w) w → g.acquireHeld = false → g.count 1 < 255 →
    (∀ r ∈ s.requests, r.id < s.nextId ∧ r.op < s.nextId) → (∀ r ∈ s.requests, r.grp = s.cur → r.kind = .dsld → r.phase ≠ .queued) →
    (∀ l ∈ Claims.computed g (.dsld w) w, Claims.offset g w l % w.t.bytes = 0 ∧ Claims.offset g w l < 0x80000 ∧ (Claims.src32 g w w.c l).toNat < 12) →
    ∃ t op rs, exec (.dsld w) s = .next t ∧ Claims.Sent s t (tick s g) (fun g => g.goesOn (nextPc g.pc)) op ∧ op.path = some 1 ∧ op.kind = .dsld ∧
      t.requests = s.requests ++ rs ∧
      ∀ l ∈ Claims.computed g (.dsld w) w, ∃ r ∈ rs, r.op = op.id ∧
        (∃ a ∈ r.lanes, a.lane = l ∧ dsldCore g.core a.addr = 12 * (g.core / 12) + (Claims.src32 g w w.c l).toNat ∧ dsldOff a.addr = Claims.offset g w l) ∧
        ((∀ j ∈ Claims.computed g (.dsld w) w, 12 * (g.core / 12) + (Claims.src32 g w w.c j).toNat = g.core) → (s.core g.core).scratchPoison = [] →
          ∃ vals, r.phase = .ready vals [] 0 0 0 ∧ (l, BitVec.ofNat 64 (Claims.scratchValue s g.core (Claims.offset g w l) w.t.bytes)) ∈ vals)

/-- R269, R274, R322, R24, R271, R272, R218: the transfer words queue their command, and dsld reads a scratchpad of the cluster. -/
def Obligations.TransferAndBlockRegisterWords : Prop := Claims.TransferWordsQueueTheirCommand ∧ Claims.DsldReadsTheCluster

namespace Claims

/-- The phaser that A names, of the group's cluster (R278). -/
def phaser (s : State) (g : Group) (p : Nat) : Phaser := phaserOf s (g.core / 12) p

/-- The member record of the issuing group on a phaser. -/
def member (s : State) (g : Group) (p : Nat) : Option Member := memberOf s (g.core / 12) p s.cur

/-- The state after a phaser word that answers `status` and has changed the machine to `s'`: D holds the status and the phase (R279). -/
def phaserDone (s s' : State) (g g' : Group) (w : W) (p status : Nat) : State :=
  s'.setGroup s.cur ((writeScalar g' w.d (BitVec.ofNat 32 (status * 2 ^ 28 + (phaserOf s' (g.core / 12) p).phase))).goesOn (nextPc g.pc))

/-- The phaser after a member has dropped its record (R280): a signaller no longer counts, nor does its arrival, and when every signaller left
has arrived the phase advances. -/
def dropped (x : Phaser) (m : Member) : Phaser :=
  if m.mode = 1 then x
  else
    let arr := if m.sig then x.arr - 1 else x.arr
    if arr = x.nsig - 1 then ⟨(x.phase + 1) % 2 ^ 28, x.nsig - 1, 0, 0, max x.cstamp x.stamp⟩ else ⟨x.phase, x.nsig - 1, arr, x.stamp, x.cstamp⟩

/-- The phaser after a signal that carries `stamp`: when every signaller has arrived the phase advances (R280). -/
def signalled (x : Phaser) (stamp : Stamp) : Phaser :=
  if x.arr + 1 = x.nsig then ⟨(x.phase + 1) % 2 ^ 28, x.nsig, 0, 0, max x.cstamp (max x.stamp stamp)⟩
  else ⟨x.phase, x.nsig, x.arr + 1, max x.stamp stamp, x.cstamp⟩

end Claims

/-- R279, R280, R278, R281: the phaser words. A number above 63 answers 6; phreg adds the group's record with its mode, and a signaller more, or
answers 4 or 5; phdrop removes the record, and a phase whose remaining signallers have all arrived ends; phdrop and the others answer 2 without a record and the latter 3 in a wrong mode; phsig signals once the group's accesses
have returned, and the last signal advances the phase; phwait goes on when its phase has been reached, as an acquire, and waits inside the
word otherwise; phsw signals and then waits. -/
def Claims.PhaserWords : Prop :=
  ∀ (s : State) (g : Group) (w : W), g.acquireHeld = false →
    let p := (Claims.src32 g w w.a 0).toNat
    let cl := g.core / 12
    let s0 := Claims.issued s g
    let members := (s.cluster cl).members
    let all : List (W → Instr) := [.phregSig, .phregWait, .phregSw, .phdrop, .phsig, .phwait, .phsw]
    (∀ i ∈ all, Claims.Issues s g (i w) w → g.unreturned = [] → p ≥ 64 →
      exec (i w) s = .next (Claims.phaserDone s s0 g (tick s g) w (p % 64) 6)) ∧
    (p < 64 →
      (∀ i ∈ ([(.phregSig, 0), (.phregWait, 1), (.phregSw, 2)] : List ((W → Instr) × Nat)), Claims.Issues s g (i.1 w) w →
        (Claims.member s g p ≠ none → exec (i.1 w) s = .next (Claims.phaserDone s s0 g (tick s g) w p 4)) ∧
        (Claims.member s g p = none → (members.length ≥ 1024 ∨ members.countP (fun m => m.grp == s.cur) ≥ 16) →
          exec (i.1 w) s = .next (Claims.phaserDone s s0 g (tick s g) w p 5)) ∧
        (Claims.member s g p = none → members.length < 1024 → members.countP (fun m => m.grp == s.cur) < 16 →
          ∃ s', exec (i.1 w) s = .next (Claims.phaserDone s s' g (tick s g) w p 0) ∧ s' = { s0 with clusters := s'.clusters } ∧
            (s'.cluster cl).members = members ++ [⟨p, s.cur, g.gid, i.2, false, ((Claims.phaser s g p).phase + 1) % 2 ^ 28⟩] ∧
            Claims.phaser s' g p = { Claims.phaser s g p with nsig := (Claims.phaser s g p).nsig + (if i.2 = 1 then 0 else 1) } ∧
            ∀ q, q ≠ p → Claims.phaser s' g q = Claims.phaser s g q)) ∧
      (∀ i ∈ ([.phdrop, .phsig, .phwait, .phsw] : List (W → Instr)), Claims.Issues s g (i w) w → g.unreturned = [] → Claims.member s g p = none →
        exec (i w) s = .next (Claims.phaserDone s s0 g (tick s g) w p 2)) ∧
      (∀ m, Claims.member s g p = some m →
        (Claims.Issues s g (.phdrop w) w → ∃ s', exec (.phdrop w) s = .next (Claims.phaserDone s s' g (tick s g) w p 0) ∧
          s' = { s0 with clusters := s'.clusters } ∧ Claims.member s' g p = none ∧ Claims.phaser s' g p = Claims.dropped (Claims.phaser s g p) m ∧
          (∀ q, q ≠ p → Claims.phaser s' g q = Claims.phaser s g q) ∧
          ∀ x ∈ members, ¬ (x.phaser = p ∧ x.grp = s.cur) → ∃ y ∈ (s'.cluster cl).members, y = { x with sig := y.sig }) ∧
        (∀ i ∈ ([(.phsig, 1), (.phwait, 0)] : List ((W → Instr) × Nat)), Claims.Issues s g (i.1 w) w → g.unreturned = [] → m.mode = i.2 →
          exec (i.1 w) s = .next (Claims.phaserDone s s0 g (tick s g) w p 3)) ∧
        (Claims.Issues s g (.phsw w) w → g.unreturned = [] → m.mode ≠ 2 →
          exec (.phsw w) s = .next (Claims.phaserDone s s0 g (tick s g) w p 3)) ∧
        (Claims.Issues s g (.phsig w) w → g.unreturned = [] → m.mode ≠ 1 → m.sig = false →
          ∃ s', exec (.phsig w) s = .next (Claims.phaserDone s s' g { tick s g with view := max g.view g.compl } w p 0) ∧
            s' = { s0 with groups := s'.groups, clusters := s'.clusters } ∧
            Claims.phaser s' g p = Claims.signalled (Claims.phaser s g p) (max g.view g.compl)) ∧
        (Claims.Issues s g (.phwait w) w → m.mode ≠ 0 →
          (reached (Claims.phaser s g p).phase m.next = true → exec (.phwait w) s = .next (Claims.phaserDone s
            (setMember s0 cl { m with next := (m.next + 1) % 2 ^ 28 }) g { tick s g with view := max g.view (Claims.phaser s g p).cstamp } w p 0)) ∧
          (reached (Claims.phaser s g p).phase m.next = false → (Claims.phaser s g p).nsig = 0 →
            exec (.phwait w) s = .next (Claims.phaserDone s s0 g (tick s g) w p 1)) ∧
          (reached (Claims.phaser s g p).phase m.next = false → (Claims.phaser s g p).nsig ≠ 0 →
            exec (.phwait w) s = .next (s0.setGroup s.cur (Claims.inside (.phwait w) .phaser .again (tick s g))))) ∧
        (Claims.Issues s g (.phsw w) w → g.unreturned = [] → m.mode = 2 → m.sig = false → (Claims.phaser s g p).arr + 1 < (Claims.phaser s g p).nsig →
          m.next = ((Claims.phaser s g p).phase + 1) % 2 ^ 28 →
          ∃ s', exec (.phsw w) s = .next (s'.setGroup s.cur (Claims.inside (.phsw w) .phaser .signalled { tick s g with view := max g.view g.compl })) ∧
            s' = { s0 with groups := s'.groups, clusters := s'.clusters } ∧
            Claims.phaser s' g p = Claims.signalled (Claims.phaser s g p) (max g.view g.compl)) ∧
        (s.group? s.cur = some g → g.inWord = some .signalled → reached (Claims.phaser s g p).phase m.next = true →
          exec (.phsw w) s = .next (Claims.phaserDone s (setMember s cl { m with next := (m.next + 1) % 2 ^ 28 }) g
            { g with view := max g.view (Claims.phaser s g p).cstamp } w p 0))))

namespace Claims

/-- The value of the barrier word at a scratch offset (R314). -/
def barValue (s : State) (core off : Nat) : DWord := BitVec.ofNat 64 (scratchValue s core off 8)

/-- The core of a scratch barrier: the issuing one, or one of its cluster (R315). -/
def barCore (g : Group) (w : W) (core : Nat) : Prop :=
  ((src32 g w w.c 0).toNat = 0xFFFFFFFF ∧ core = g.core) ∨ ((src32 g w w.c 0).toNat < 12 ∧ core = 12 * (g.core / 12) + (src32 g w w.c 0).toNat)

/-- A scratch barrier that a word may use: aligned, in the barrier region and without an uncorrectable word. -/
def barUsable (s : State) (core off : Nat) : Prop := off % 8 = 0 ∧ off < 0x2000 ∧ ∀ k ∈ (s.core core).scratchPoison, ¬ (off / 4 ≤ k ∧ 4 * k < off + 8)

/-- A live barrier word after an expectation or an arrival, by its fields (R317): an armed count of 0 completes the phase; a count that
leaves its range, or an armed one below 0, is an error. -/
def barLive (armed : Bool) (phase : Nat) (count : Int) : DWord :=
  if count ≥ 2 ^ 44 ∨ count < -2 ^ 44 ∨ (armed = true ∧ count < 0) then barWord 1 armed phase count
  else if armed = true ∧ count = 0 then barWord 0 false (phase + 1) 0 else barWord 0 armed phase count

/-- A barrier word after bar.init, bar.exp or bar.arr with B = n (R317). -/
def barAfter (op : Nat) (v : DWord) (n : Nat) : DWord :=
  if op = 0 then barWord 0 false n 0
  else if (v.extractLsb' 62 2) ≠ 0 then v
  else if op = 1 then barLive true (v.extractLsb' 45 16).toNat ((v.extractLsb' 0 45).toInt + n)
  else barLive (v.getLsbD 61) (v.extractLsb' 45 16).toNat ((v.extractLsb' 0 45).toInt - n)

end Claims

/-- R315, R316, R317, R318, R319: the barrier words. On a scratch word of the cluster bar.init, bar.exp and bar.arr write its new value at once,
bar.arr as a release with its stamp; on a global word they send one operation on path W; bar.wait answers by the phase and the status or
waits inside the word; bar.test reads the word. -/
def Claims.BarrierWords : Prop :=
  ∀ (s : State) (g : Group) (w : W), g.acquireHeld = false → memoryWf s = true →
    let off := (Claims.src32 g w w.a 0).toNat
    let n := (Claims.src32 g w w.b 0).toNat
    (∀ core, w.mod.getLsbD 0 = false → Claims.barCore g w core → Claims.barUsable s core off →
      (∀ p ∈ ([(.barInit, 0), (.barExp, 1), (.barArr, 2)] : List ((W → Instr) × Nat)), Claims.Issues s g (p.1 w) w → g.count 3 < 255 →
        (p.2 = 2 → g.unreturned = []) →
        ∃ t, exec (p.1 w) s = .next t ∧
          Claims.Returned s t { tick s g with view := if p.2 = 2 then max g.view g.compl else g.view } ∧
          Claims.barValue t core off = Claims.barAfter p.2 (Claims.barValue s core off) (if p.2 = 0 then n % 65536 else n) ∧
          (∀ c a, (c ≠ core ∨ a < off ∨ off + 8 ≤ a) → cellRead (t.core c).scratch a = cellRead (s.core c).scratch a) ∧
          arrStampOf t core off = (if p.2 = 0 then 0 else if p.2 = 2 ∧ (Claims.barValue s core off).extractLsb' 62 2 = 0
            then max (arrStampOf s core off) (max g.view g.compl) else arrStampOf s core off)) ∧
      (Claims.Issues s g (.barWait w) w →
        let v := Claims.barValue s core off
        let d := ((v.extractLsb' 45 16).toNat + 65536 - n) % 65536
        let wide := 1 ≤ d ∧ d ≤ 2 ^ 15
        let done (x : Word) : Prop := exec (.barWait w) s =
          .next (wordDone s { writeScalar (tick s g) w.d x with view := max g.view (arrStampOf s core off) })
        (n ≥ 65536 → exec (.barWait w) s = .next (Claims.answered s g w 3)) ∧
        (n < 65536 → wide → done 0) ∧ (n < 65536 → ¬ wide → v.extractLsb' 62 2 = 1 → done 1) ∧
        (n < 65536 → ¬ wide → v.extractLsb' 62 2 ≠ 0 → v.extractLsb' 62 2 ≠ 1 → done 2) ∧
        (n < 65536 → ¬ wide → v.extractLsb' 62 2 = 0 → exec (.barWait w) s =
          .next ((Claims.issued s g).setGroup s.cur (Claims.inside (.barWait w) .bar .again (tick s g))))) ∧
      (Claims.Issues s g (.barTest w) w → exec (.barTest w) s =
        .next (wordDone s { writePair (tick s g) w.d (Claims.barValue s core off) with view := max g.view (arrStampOf s core off) }))) ∧
    (∀ p ∈ ([(.barInit, 0), (.barExp, 1), (.barArr, 2)] : List ((W → Instr) × Nat)), Claims.Issues s g (p.1 w) w → w.mod.getLsbD 0 = true →
      Claims.Room s g 3 [0] (fun _ => Claims.src g w true w.a 0) → (p.2 = 2 → releaseWaits s s.cur g 4 = false) →
      Claims.passes s g 8 (fun r => r.rights.getLsbD 0 && r.rights.getLsbD 1 && r.b) (Claims.src g w true w.a 0) →
      ∃ t op, exec (p.1 w) s = .next t ∧ Claims.Sent s t { tick s g with view := if p.2 = 2 then max g.view g.compl else g.view }
          (fun g => g.goesOn (nextPc g.pc)) op ∧ Claims.Queued s t g op true ∧ op.path = some 3 ∧ op.kind = .bar p.2 ∧
        op.lanes = [⟨0, Claims.src g w true w.a 0, BitVec.ofNat 64 (if p.2 = 0 then n % 65536 else n), 0⟩])

/-- R279, R280, R278, R281, R315, R316, R317, R318, R319: the words of phasers and of barriers. -/
def Obligations.PhaserAndBarrierWords : Prop := Claims.PhaserWords ∧ Claims.BarrierWords

/-- R329, R330: migrate answers why it does not move the group, by the first of the statuses 1, 3, 4, 5 and 2 that applies (log entry 32); with a
landing place free, the group leaves its slot for it with D = 0 and waits to land. -/
def Obligations.MigrateLeavesForALandingPlace : Prop :=
  ∀ (s : State) (g : Group) (w : W) (r : PlbRec), Claims.Issues s g (.migrate w) w → g.sup = false → g.acquireHeld = false →
    let a := Claims.src g w true w.a 0
    highBits a = false → plbFind s g.core g.asid a.toNat = some r →
    let slice := homeSlice r.place r.home a.toNat
    let cores := landingCores s (slice / 48) slice g.asid (s.core g.core).domain
    let s0 := Claims.issued s g
    (slice / 48 = g.core / 108 → exec (.migrate w) s = .next (Claims.answered s g w 1)) ∧
    (slice / 48 ≠ g.core / 108 → g.blocks > 8 → exec (.migrate w) s = .next (Claims.answered s g w 3)) ∧
    (slice / 48 ≠ g.core / 108 → g.blocks ≤ 8 → migrateBusy s s.cur g = true → exec (.migrate w) s = .next (Claims.answered s g w 4)) ∧
    (slice / 48 ≠ g.core / 108 → g.blocks ≤ 8 → migrateBusy s s.cur g = false → cores = [] →
      exec (.migrate w) s = .next (Claims.answered s g w 5)) ∧
    (slice / 48 ≠ g.core / 108 → g.blocks ≤ 8 → migrateBusy s s.cur g = false → cores ≠ [] → landingPlace s0 cores g.blocks = none →
      exec (.migrate w) s = .next (Claims.answered s g w 2)) ∧
    (∀ x, slice / 48 ≠ g.core / 108 → g.blocks ≤ 8 → migrateBusy s s.cur g = false → landingPlace s0 cores g.blocks = some x →
      exec (.migrate w) s = .next (wordDone s (writeScalar (tick s g) w.d 0) |>.modGroup s.cur (fun y => { y with park := some .migrating, migTo := some x })))

/-! ## Steps of the core -/

namespace Claims

/-- A group that has just begun a task of the entry `e` at a place of a core (R29, R30, R178, R179). -/
structure Begun (t : State) (core : Nat) (e : Entry) (p : Place) (base : Nat) (g : Group) : Prop where
  place   : g.core = core ∧ g.part = p.part ∧ g.slot = p.slot ∧ g.demand = e.clo.demand
  starts  : g.pc = e.clo.entry ∧ g.sup = false ∧ g.am = allLanes ∧ g.flags = 0 ∧ g.gmode = 0 ∧ g.vregs = [] ∧ g.ops = [] ∧ g.pend = []
  args    : ∀ n, n < 18 → g.s n = e.clo.args.getD n 0
  zeros   : ∀ n, 18 ≤ n → n < 61 → g.s n = 0
  task    : g.task.future = e.clo.future ∧ g.task.serial = e.serial ∧ g.task.header = e.clo.entry ∧ g.task.hdr = base ∧ g.task.link = 0
  memory  : g.view = e.stamp ∧ g.ifp = BitVec.ofNat 64 (base + 32)
  present : ∃ k, t.group? k = some g

/-- The header of a task that the dispatcher starts can be written (R178): `base` is the start of its stack region. -/
def HeaderWritten (s : State) (core : Nat) (e : Entry) (base : Nat) : Prop :=
  ∃ c w, s.context? (coreAsid s core) = some c ∧ base = regionBase c.regs (freeRegion s (coreAsid s core)) ∧
    (groupWrite (dropEntry s core e.serial) core (coreAsid s core) base (headerBytes e.clo.future 0 e.serial) e.stamp
      (provOf (coreAsid s core) e.serial e.clo.entry e.clo.entry)).2 = .ok w

end Claims

/-- R29, R202, R33, R137, R166, R167, R142, R335, R62, R158: a task starts in a free slot, or in the reserve slot when every resident group
waits in a join; a ready pending group displaces the active group that issued least recently; a sleep ends; a held operation traps at the
group's word, or escalates inside a handler; an exhausted trap budget escalates; the error-log window closes; the drift count raises the
view stamp; fills of the instruction cache and of the PLB arrive. -/
def Obligations.CoreStepsTakePlace : Prop :=
  (∀ (s : State) (core base : Nat) (e : Entry) (p : Place), coreRuns s core = true → nextStart s core = some (e, p) →
    Claims.HeaderWritten s core e base → ∃ t g, exec (.groupStart core) s = .next t ∧ Claims.Begun t core e p base g) ∧
  (∀ (s : State) (core base : Nat) (e : Entry), coreRuns s core = true → allJoining s core = true →
    (∀ q ∈ residents s core 0, q.2.slot ≠ 16) → reserveEntry s core = some e → Claims.HeaderWritten s core e base →
    ∃ t g p, exec (.reserveStart core) s = .next t ∧ p.part = 0 ∧ p.slot = 16 ∧ Claims.Begun t core e p base g) ∧
  (∀ (s : State) (k j : Nat) (g x : Group), s.group? k = some g → s.group? j = some x → g.active = false → g.since.isSome = true → canRun s g = true →
    8 ≤ (activeGroups s g.core g.part).length → x.core = g.core → x.part = g.part → x.active = true → x.inTrap = false →
    (∀ q ∈ activeGroups s g.core g.part, q.1 ≠ j → q.2.inTrap = false → x.lastIssue < q.2.lastIssue) →
    exec (.schedulerDisplace k) s = .next ((s.setGroup j { x with active := false, since := none, seen := none }).setGroup k
      { g with active := true, since := none, seen := none })) ∧
  (∀ (s : State) (k : Nat) (g : Group), s.group? k = some g → g.park = some .sleep →
    exec (.sleepExpiry k) s = .next (s.setGroup k { g with park := none, sleepLeft := 0 })) ∧
  (∀ (s : State) (k : Nat) (g : Group) (o : Op) (a : LaneAcc) (r : List LaneAcc), s.group? k = some g → canRun s g = true →
    dueHeld g = some o → o.held = a :: r → pruneOps g.ops [] = g.ops →
    (g.sup = false → ∃ t, exec (.heldTrap k) s = .next t ∧
      Claims.TrapTaken s t k g o.heldCause.1 o.heldCause.2 (if o.scalar then 0xFF else a.lane)
        (match o.kind with | .dsld => BitVec.ofNat 64 (dsldOff a.addr) | .probe => a.addr - 16 | _ => a.addr) g.pc
        (if o.scalar then 0 else lanesMask (o.held.map (fun x => x.lane))) true) ∧
    (g.sup = true → ∃ t, exec (.heldTrap k) s = .next t ∧ Claims.Escalated s t k g 2)) ∧
  (∀ (s : State) (k : Nat) (g : Group), s.group? k = some g → canRun s g = true → g.sup = true → g.trap.left = 0 → g.inWord = none →
    ∃ t, exec (.trapBudgetEscalate k) s = .next t ∧ Claims.Escalated s t k g 1) ∧
  (∀ (s : State) (k : Nat) (g : Group), s.group? k = some g → g.window = some 0 →
    exec (.errorLogWindowClose k) s = .next (s.setGroup k { g with window := none })) ∧
  (∀ (s : State) (k : Nat) (g : Group), s.group? k = some g → g.drift = 256 →
    ∃ g', exec (.driftRollover k) s = .next (s.setGroup k g') ∧ g'.view = g.view + 1 ∧ { g' with view := g.view, drift := g.drift } = g) ∧
  (∀ (s s' : State) (k line : Nat) (g : Group) (d : BitVec 512), s.group? k = some g → mayFill s g = true →
    g.wanted.find? (fun x => decide (x ≥ 2 ^ 64)) = some (2 ^ 64 + line) → findILine s g.core g.asid (BitVec.ofNat 64 (64 * line)) = none →
    fetchLine s g.core g.asid (64 * line) = (s', .ok d) → lineGood d = true →
    ∃ t, exec (.icacheFill k) s = .next t ∧ (t.core g.core).icache.head? = some ⟨tagAsid g.asid (64 * line), line, d, false⟩) ∧
  (∀ (s s' : State) (k page level pte : Nat) (e : DWord) (g : Group), s.group? k = some g → mayFill s g = true →
    g.wanted.find? (fun x => decide (x < 2 ^ 64)) = some page → mtuWalk s (coreDie g.core) g.asid (page * 2 ^ 14) = (s', .leaf e level pte) →
    ∃ t, exec (.plbFill k) s = .next t ∧ (t.core g.core).plb.head? = some (leafRec g.asid (page * 2 ^ 14) e level))

/-! ## Steps of the memory system -/

namespace Claims

/-- The request `r` is the one that waits under its number, and its group is `g`. -/
structure Waits (s : State) (r : Req) (g : Group) : Prop where
  req   : s.req? r.id = some r
  group : s.group? r.grp = some g

/-- The value that a lane of an atomic, of a global barrier operation or of fres writes for the old one (R225, R317, R193; `recordNew` is
spelled out by `FresResolvesAPendingRecord`). -/
def homeNew (k : ReqKind) (a : LaneAcc) (old : Nat) : Nat :=
  match k with
  | .atomic v fadd ty _ => atomNew v fadd ty old (a.data.toNat % 2 ^ ty.bits) (a.cmp.toNat % 2 ^ ty.bits)
  | .bar op => (barAfter op (BitVec.ofNat 64 old) a.data.toNat).toNat
  | .fres fail value _ => recordNew fail value old
  | _ => old

/-- A write event whose turn has come at a home of the core's sector: `x` is the home line, all of whose bytes are known and intact. -/
structure AtHome (s : State) (r : Req) (x : L2Line) : Prop where
  turn  : r.isWrite = true ∧ r.peer = none ∧ leaving s r = true ∧ sameSector r.core r.slice = true ∧ sliceDie r.slice = coreDie r.core ∧
    memUp s (sliceDie r.slice) = true
  waits : ∀ f v ws, r.kind = .fres f v ws → allReturned s r.grp ws = true
  line  : findLine (s.slice r.slice) r.tag r.line true = some x ∧ knownBytes x = BitVec.allOnes 128 ∧ x.poison = 0
  time  : r.stamp < 2 ^ 48 ∧ x.ls + 1 < 2 ^ 48
  lanes : r.lanes ≠ [] ∧ 0 < r.size ∧ (∀ a ∈ r.lanes, a.addr.toNat % 128 + r.size ≤ 128) ∧ (r.lanes.map (fun a => a.lane)).Nodup

/-- The element that a vector result cell names in a group. -/
def cellAt (g : Group) (c : WrCell) : Word := g.v c.code c.lane

end Claims

/-- R218, R226, R94, R121, R142: what comes back to a group. The lanes of a load or of an atomic are written to D and the request is over;
the result of the SFU or of the divide unit, the oldest of its partition (R146), or of the cross-lane network is written, and its flags
are raised then, under its own PC, in a window of 64 words (`FlagsAreLogged`); an acknowledged store is counted no
more and raises the completion stamp, and the stamps of the closures that wait for it (R189). -/
def Obligations.ResultsReturnToTheGroup : Prop :=
  (∀ (s : State) (r : Req) (g : Group) (o : Op) (w : W) (n : Nat) (h : n < 256) (ty : Ty) (mask : LaneMask) (vals : List (Nat × DWord)) (stamp : Stamp),
    Claims.Waits s r g → inFlight s r = true → r.phase = .ready vals [] 0 0 stamp → g.ops.find? (fun o => o.id == r.op) = some o →
    o.instr.word = some w → Fld.isWide (shapeOf o.instr).d = false → w.d = .v ⟨n, h⟩ → (∀ v ∈ vals, v.1 < 96 ∧ mask.getLsbD v.1 = true) →
    (vals.map (fun v => v.1)).Nodup → ∀ i : Instr,
    ((i = .loadReturn r.id mask ∧ r.kind = .load ∧ ty = w.t) ∨ (i = .atomicReturn r.id mask ∧ ∃ v f, r.kind = .atomic v f ty true)) →
    ∃ t g', exec i s = .next t ∧ t.req? r.id = none ∧ t.group? r.grp = some g' ∧
      (∀ v ∈ vals, g'.v n v.1 = (loadValue ty v.2).extractLsb' 0 32) ∧
      (∀ l, (∀ v ∈ vals, v.1 ≠ l) → g'.v n l = g.v n l) ∧ (∀ m, m ≠ n → g'.vreg m = g.vreg m) ∧ g'.sregs = g.sregs) ∧
  (∀ (s : State) (k id : Nat) (g : Group) (x : Pend) (mask : LaneMask), s.group? k = some g → findPend s id = some (k, x) → x.id = id →
    (∀ c ∈ x.cells, c.code < 256 ∧ c.lane < 96 ∧ mask.getLsbD c.lane = true) →
    x.cells.Pairwise (fun a b => a.code ≠ b.code ∨ a.lane ≠ b.lane) → x.bind = none →
    (x.unit = .cross ∨ ∀ q ∈ s.groups, q.2.core = g.core → q.2.part = g.part → ∀ y ∈ q.2.pend, y.unit = x.unit → x.id ≤ y.id) → ∀ i : Instr,
    ((i = .sfuResult id mask ∧ x.unit = .sfu) ∨ (i = .divideResult id mask ∧ x.unit = .divide) ∨ (i = .crossLaneResult id mask ∧ x.unit = .cross)) →
    ∃ u g', exec i s = .next (raiseFlags u k x.flags x.lane 64 x.pc) ∧ u = { s with groups := u.groups } ∧ u.group? k = some g' ∧
      (∀ c ∈ x.cells, Claims.cellAt g' c = c.val) ∧ g'.flags = g.flags ∧ g'.window = g.window ∧ g'.dropped = g.dropped ∧
      g'.pend = g.pend.filter (fun y => y.id != id) ∧ g'.sregs = g.sregs ∧ g'.ops = g.ops ∧ g'.pc = g.pc ∧
      (Claims.NoLog s g → raiseFlags u k x.flags x.lane 64 x.pc = u.setGroup k { g' with flags := g.flags ||| x.flags })) ∧
  (∀ (s : State) (r : Req) (g : Group) (o : Op) (w : Stamp) (v : BitVec 4) (d : BitVec 1024) (c e : Nat), Claims.Waits s r g → inFlight s r = true →
    r.kind = .store → r.peer = none → r.phase = .acked w v d [] c e → g.ops.find? (fun o => o.id == r.op) = some o → o.held = [] →
    (∀ x ∈ s.requests, x.op = r.op → x.id = r.id) →
    ∃ t g', exec (.storeAck r.id) s = .next t ∧ t.req? r.id = none ∧ t.group? r.grp = some g' ∧ g'.compl = max g.compl w ∧
      (∀ c, ∀ x ∈ (s.core c).deque, r.op ∈ x.waits → { x with stamp := max x.stamp w } ∈ (t.core c).deque) ∧
      opReturned t r.grp r.op = true ∧ g'.sregs = g.sregs ∧ g'.vregs = g.vregs ∧
      (∀ x ∈ (s.core r.core).l1, x.asid = r.tag → x.line = r.line → x.ws ≤ w → { x with valid := v, data := d, ws := w, ls := w } ∈ (t.core r.core).l1))

/-- R336, R338, R337, R231, R367, R225, R226, R193, R317: a load whose home holds the line is answered with its sectors and stamps and extends the lease; the copy
that returns enters the L1, unless a write of the core has overtaken it, and serves the lanes; a store is performed at its home with a write stamp above the lease; the lanes of an atomic, of a
global barrier operation or of fres are performed there in order as one event, and an atomic with return is answered with the old values; a
watch that polls reads its doubleword again; a miss is answered once the line is filled. Stamps have 48 bits (R333). -/
def Obligations.HomesAnswerTheirRequests : Prop :=
  (∀ (s : State) (r : Req) (g : Group) (x : L2Line), Claims.Waits s r g → r.kind = .load → r.peer = none → leaving s r = true →
    l1Serves s r = none → sameSector r.core r.slice = true → sliceDie r.slice = coreDie r.core → memUp s (sliceDie r.slice) = true →
    wholeLine s r = some x → r.stamp + leaseOf s r.asid < 2 ^ 48 →
    ∃ t r' y, exec (.renewal r.id) s = .next t ∧ t.req? r.id = some r' ∧
      r'.phase = .replied x.valid x.data x.poison x.ws (max x.ls (r.stamp + leaseOf s r.asid)) ∧ wholeLine t r = some y ∧
      y = { x with ls := max x.ls (r.stamp + leaseOf s r.asid) }) ∧
  (∀ (s : State) (r : Req) (g : Group) (v : BitVec 4) (d : BitVec 1024) (ws ls : Stamp), Claims.Waits s r g → r.kind = .load → r.size ≤ 8 →
    inFlight s r = true → r.phase = .replied v d 0 ws ls → r.stale = false → sameSector r.core r.slice = true →
    (∀ y ∈ (s.core r.core).l1, y.asid = r.tag → y.line = r.line → y.ws ≤ ws) →
    (∀ a ∈ r.lanes, byteMask (a.addr.toNat % 128) r.size &&& ~~~ sectorBytes v = 0) →
    ∃ t r', exec (.renewalReturn r.id) s = .next t ∧ t.req? r.id = some r' ∧
      r'.phase = .ready (r.lanes.map (fun a => (a.lane, BitVec.ofNat 64 (lineVal d (a.addr.toNat % 128) r.size)))) [] 0 0 ws ∧
      (t.core r.core).l1.head? = some ⟨r.tag, r.line, v, d, ws, ls⟩) ∧
  (∀ (s : State) (r : Req) (g : Group) (x : L2Line), Claims.Waits s r g → r.kind = .store → r.peer = none → leaving s r = true →
    sameSector r.core r.slice = true → sliceDie r.slice = coreDie r.core → memUp s (sliceDie r.slice) = true →
    findLine (s.slice r.slice) r.tag r.line true = some x → r.stamp < 2 ^ 48 → x.ls + 1 < 2 ^ 48 →
    ∃ t r' y v d, exec (.writeEvent r.id) s = .next t ∧ t.req? r.id = some r' ∧ r'.phase = .acked (max r.stamp (x.ls + 1)) v d [] 0 0 ∧
      findLine (t.slice r.slice) r.tag r.line true = some y ∧ y.data = lineMerge x.data (storeLanes r.size r.lanes).1 (storeLanes r.size r.lanes).2 ∧
      y.dirty = x.dirty ||| (storeLanes r.size r.lanes).2 ∧ y.ws = max r.stamp (x.ls + 1) ∧ y.ls = max r.stamp (x.ls + 1)) ∧
  (∀ (s : State) (r : Req) (g : Group) (x : L2Line), Claims.Waits s r g → Claims.AtHome s r x → r.kind ≠ .store →
    (∀ op, r.kind = .bar op → op < 3) →
    let off (a : LaneAcc) : Nat := a.addr.toNat % 128
    let w := max r.stamp (x.ls + 1)
    ∃ t r' y, exec (.writeEvent r.id) s = .next t ∧ t.req? r.id = some r' ∧ findLine (t.slice r.slice) r.tag r.line true = some y ∧
      y.ws = w ∧ y.ls = w ∧
      (∀ j, j < 128 → lineByte y.data j = Claims.performed off r.size (Claims.homeNew r.kind) (lineByte x.data) r.lanes j) ∧
      ((∃ v f ty, r.kind = .atomic v f ty true) → r'.phase = .ready (r.lanes.map (fun a =>
        (a.lane, BitVec.ofNat 64 (Claims.oldValue off r.size (Claims.homeNew r.kind) (lineByte x.data) r.lanes a)))) [] 0 0 w) ∧
      ((∀ v f ty, r.kind ≠ .atomic v f ty true) → ∃ v d c e, r'.phase = .acked w v d [] c e)) ∧
  (∀ (s : State) (r : Req) (g : Group) (a : LaneAcc) (x : L2Line), Claims.Waits s r g →
    s.requests.find? (fun q => q.grp == r.grp && q.phase == .watching false) = some r → mayLeave s r = true → r.size = 8 → r.lanes = [a] →
    memUp s (sliceDie r.slice) = true → wholeLine s r = some x → x.poison = 0 →
    ∃ t r', exec (.watchPoll r.grp) s = .next t ∧ t.req? r.id = some r' ∧
      r'.phase = (if BitVec.ofNat 64 (lineVal x.data (a.addr.toNat % 128) 8) = a.cmp then .watching false
        else .ready [(a.lane, BitVec.ofNat 64 (lineVal x.data (a.addr.toNat % 128) 8))] [] 0 0 x.ws)) ∧
  (∀ (s s' : State) (r : Req) (g : Group) (x : L2Line), Claims.Waits s r g → r.kind = .load → r.phase = .missing → inFlight s r = true →
    memUp s (sliceDie r.slice) = true → homeMiss s r.slice r.tag r.line = (s', .full) → s'.req? r.id = some r → wholeLine s' r = some x → r.stamp + r.lease < 2 ^ 48 →
    ∃ t r', exec (.homeMissFill r.id) s = .next t ∧ t.req? r.id = some r' ∧
      r'.phase = .replied x.valid x.data x.poison x.ws (max x.ls (r.stamp + r.lease)))

/-- R331, R373, R377, R376, R349: a token bucket gains RATE tokens up to DEPTH; a claimed fault record is written when its ring has room
and waits otherwise; the patrol marks the sectors that it cannot correct; the frame sweeper clears an accessed frame or queues a cold one; a
rebase saves the running contexts concerned (log entry 70), sets the stamps of the ASID's lines and of every saved context to 0, and restores
those contexts onto their own clusters. -/
def Obligations.MemoryUpkeepTakesPlace : Prop :=
  (∀ (s : State) (core die : Nat) (c : Context), coreGoes s core = true → s.context? (coreAsid s core) = some c → die < 4 → die ≠ coreDie core →
    c.regs.tbucket.extractLsb' 0 16 ≠ 0 →
    ∃ t, exec (.tokenRefill core die) s = .next t ∧ (t.core core).tokens = (s.core core).tokens.set die
      (min (c.regs.tbucket.extractLsb' 16 16).toNat ((s.core core).tokens.getD die 0 + (c.regs.tbucket.extractLsb' 0 16).toNat))) ∧
  (∀ (s s1 s2 s3 : State) (id n k level pte : Nat) (e : DWord) (x : RingWait) (c : Context) (b : List Byte) (w w' : Stamp), s.ringWaits.find? (fun y => y.id == id) = some x →
    s.context? x.asid = some c → c.st = .running → x.seq = some k → x.item = none → c.notify = 0 → n = 2 ^ (c.regs.frctl.extractLsb' 0 5).toNat →
    devRead s x.die x.asid (ringBase c + 8) 8 0 = (s1, .ok (b, w)) →
    (n ≤ (k + 2 ^ 64 - bytesVal b) % 2 ^ 64 → exec (.faultRingPoll id) s = .next s1) ∧
    ((k + 2 ^ 64 - bytesVal b) % 2 ^ 64 < n →
      mtuWalk s1 x.die x.asid (ringBase c + 64 + 64 * (k % n)) = (s3, .leaf e level pte) → pteP e = true →
      devWrite s3 x.die x.asid (ringBase c + 64 + 64 * (k % n)) (valBytes 8 k ++ x.bytes) 0 (devProv x.asid 0xFFFFFD) 27 = (s2, .ok w') →
      exec (.faultRingPoll id) s = .next { s2 with ringWaits := s2.ringWaits.filter (fun y => y.id != x.id) })) ∧
  (∀ (s : State) (pa : Nat) (bad : BitVec 4), inMemory (pa / 128 * 128) = true → memUp s (paDie (pa / 128 * 128)) = true →
    ∃ t, exec (.patrolRead pa bad) s = .next t ∧ t.hbm = s.hbm ∧ (∀ k, k < 4 → bad.getLsbD k = true → pa / 128 * 4 + k ∈ t.hbmPoison) ∧
      (∀ k, k < 4 → (bad.getLsbD k = true ∨ pa / 128 * 4 + k ∈ s.hbmPoison) → pa / 128 * 4 + k ∈ t.hbmMarked) ∧
      (∀ x ∈ s.hbmPoison, x ∈ t.hbmPoison)) ∧
  (∀ (s : State) (ctl : Nat), ctl < 8 → memUp s (ctl / 2) = true → (s.ctl ctl).running = true ∨ (s.ctl ctl).cold.length < (s.ctl ctl).low →
    (s.ctl ctl).cold.length < min (s.ctl ctl).high 65536 →
    let k := ctl * 2 ^ 22 + (s.ctl ctl).hand % 2 ^ 22
    let f := s.frame k
    ∃ t, exec (.frameSweepAdvance ctl) s = .next t ∧ (t.ctl ctl).hand = ((s.ctl ctl).hand + 1) % 2 ^ 22 ∧
      ((f.st = 1 ∨ f.st = 2) → f.ac = true → t.frame k = { f with ac := false, q := false } ∧ (t.ctl ctl).cold = (s.ctl ctl).cold) ∧
      ((f.st = 1 ∨ f.st = 2) → f.ac = false → f.q = false → t.frame k = { f with q := true } ∧
        (t.ctl ctl).cold = (s.ctl ctl).cold ++ [(k * 2 ^ 14, f.asid, f.va)])) ∧
  (∀ (s v : State) (asid : Nat), asid ∈ s.rebases →
    (∀ a ∈ rebaseSet s asid, ctxStops s a = false ∧
      (ctxRuns s a = true → inHandler s a = false ∧ ∀ q ∈ s.groups, q.2.asid = a → q.2.inWord ≠ some .signalled)) →
    let live := (rebaseSet s asid).filter (ctxRuns s)
    live.foldl (fun u a => u.bind (fun u => saveStopped (stopContext u a) a (afterStop (stopContext u a) a))) (some s) = some v →
    ∃ u t, exec (.rebase asid) s = .next t ∧ t = { live.foldl rebaseRestore u with rebases := t.rebases } ∧ asid ∉ t.rebases ∧
      u.hbm = v.hbm ∧ (∀ k l x, tabGet? u.slices k = some l → x ∈ l → x.asid = asid → x.ws = 0 ∧ x.ls = 0) ∧
      (∀ f ∈ u.floors, f.1 % 256 ≠ asid) ∧
      (∀ a ∈ rebaseSet s asid, ∀ c sv, u.context? a = some c → c.saved = some sv → sv.rebased = true)) ∧
  (∀ (s s2 : State) (asid : Nat) (c x : Context) (sv : SavedCtx) (gs : List (Nat × Group)), s.context? asid = some c → c.st = .saved →
    c.saved = some sv → readSaved s asid c sv = (s2, some gs) → s2.context? asid = some x →
    ∃ v c', rebaseRestore s asid = writeStatus (resumeContext (rereadPeers v asid) asid) asid ∧ v.context? asid = some c' ∧ c'.st = .running ∧
      c'.saved = none ∧ c'.clusters = sv.clusters.map (fun p => p.1) ∧
      (sv.rebased = true → ∀ q ∈ v.groups, q ∉ s2.groups → q.2.view = 0 ∧ q.2.compl = 0 ∧ q.2.observed = 0))

/-! ## Steps of the deque, the Alley and the stager -/

/-- R189, R263, R265, R207: an entry becomes takeable once its spawner's accesses have returned; an idle core takes the entry that its victim offers, or
counts a failure; an intact closure arrives at the thief's hot end and a damaged one goes back to the victim's cold end; a thief that waited
starts again; the stager turns a handle filling and, with the tile's bytes, full. -/
def Obligations.TaskStepsTakePlace : Prop :=
  (∀ (s : State) (core serial : Nat) (e : Entry), (s.core core).deque.find? (fun e => e.serial == BitVec.ofNat 32 serial) = some e →
    e.takeable = false → coreRuns s core = true → allReturned s e.spawnGrp e.waits = true →
    ∃ t, exec (.entryTakeable core serial) s = .next t ∧
      { e with takeable := true } ∈ (t.core core).deque) ∧
  (∀ (s : State) (core : Nat) (v : Victim), mayStealNow s core = true → (s.core core).steal.flight = none → (s.core core).steal.backoff = false →
    (victims core)[(s.core core).steal.pos]? = some v → ((s.core core).steal.pos < 19 ∨ farOpen s core = true) →
    (∀ victim e, stealFrom s core v = some (victim, e) → ∃ t, exec (.stealAttempt core) s = .next t ∧
      (t.core core).steal.flight = some (e, victim) ∧ (∀ x ∈ (t.core victim).deque, x.serial ≠ e.serial)) ∧
    (stealFrom s core v = none → ∃ t, exec (.stealAttempt core) s = .next t ∧ (t.core core).deque = (s.core core).deque ∧
      (t.core core).steal.flight = none ∧
      (t.core core).steal.localFails = (s.core core).steal.localFails + (if (s.core core).steal.pos < 19 then 1 else 0))) ∧
  (∀ (s : State) (core victim : Nat) (e : Entry), (s.core core).steal.flight = some (e, victim) → coreRuns s core = true →
    (dequeFull s core = false → ∃ t, exec (.stealTransfer core true) s = .next t ∧ (t.core core).steal.flight = none ∧
      (t.core core).deque = (if e.staging = .notBegun then { e with staging := .begun [] [] } else e) :: (s.core core).deque) ∧
    (victim < 432 → ∃ t, exec (.stealTransfer core false) s = .next t ∧ (t.core core).steal.flight = none ∧
      (t.core victim).deque = (s.core victim).deque ++ [e] ∧ (t.die (coreDie victim)).errors = (s.die (coreDie victim)).errors + 1)) ∧
  (∀ (s : State) (core : Nat), (s.core core).steal.backoff = true → coreRuns s core = true →
    ∃ t, exec (.stealBackoffExpiry core) s = .next t ∧ (t.core core).steal = { (s.core core).steal with backoff := false, pos := 0 }) ∧
  (∀ (s s' : State) (core k h : Nat) (e : Entry) (r : List Entry) (d : Tensor) (x : Handle), coreGoes s core = true → stageOrder s core = e :: r →
    e.nextName = some (k, h) → stageReady s e = true → stageTensor s core e k = (s', .ok d) → handle? s' core h = some x →
    d.tileBytes ≤ x.size → x.st = .free →
    ∃ t, exec (.stagingStart core e.serial.toNat) s = .next t ∧ handle? t core h = some { x with st := .filling, full := [], bad := [] } ∧
      (∀ y ∈ (t.core core).deque, y.serial = e.serial → h ∈ y.staging.lists.1)) ∧
  (∀ (s s1 s2 : State) (core serial h : Nat) (a b : List Nat) (e : Entry) (d : Tensor) (bs : List Byte) (x : Handle), coreGoes s core = true →
    findEntry s core (BitVec.ofNat 32 serial) = some e → e.staging = .begun (h :: a) b → stageTensor s core e b.length = (s1, .ok d) →
    readTile s1 (coreDie core) (coreAsid s1 core) d (e.stageName b.length).2 e.stamp = (s2, .ok bs) →
    handle? s1 core h = some x → handle? s2 core h = some x → cellsWf (s2.core core).scratch = true →
    ∃ t bad, exec (.stagingFillComplete core serial) s = .next t ∧
      handle? t core h = some { x with st := .full, stamp := e.stamp, full := scratchRead t core x.off x.size, bad := bad } ∧
      scratchRead t core x.off bs.length = bs)

/-! ## Steps of the pipelines -/

/-- R386, R389, R394, R395, R397: an Arcade slot becomes visible once its producer's accesses have returned; the enq at the head of a full Arcade's wait list
takes a freed slot; a core of the stage starts the task of the head record; the Roundabout moves the lowest unassigned idle core of a pool of fewer
than 16 to the stage that lacks most cores, and moves none when no stage lacks one; a drained core switches to the stage that it was given. -/
def Obligations.PipelineStepsTakePlace : Prop :=
  (∀ (s : State) (pipe stage slot : Nat) (x : Stage) (y : Slot), stage? s pipe stage = some x → x.slots.find? (fun y => y.num == slot) = some y →
    y.visible = false → pipeRuns s pipe = true → allReturned s y.grp y.waits = true →
    ∃ t x', exec (.arcadeSlotVisible pipe stage slot) s = .next t ∧ stage? t pipe stage = some x' ∧
      x'.slots = x.slots.map (fun z => if z.num = slot then { z with visible := true } else z)) ∧
  (∀ (s : State) (pipe stage k : Nat) (x : Stage) (y : Slot) (r : List (Nat × Slot)) (g : Group), stage? s pipe stage = some x →
    x.waits = (k, y) :: r → x.slots.length < x.cap → pipeRuns s pipe = true → s.group? k = some g → g.inWord = some .again →
    ∃ t x' g', exec (.enqWaitServed pipe stage) s = .next t ∧ stage? t pipe stage = some x' ∧ x'.waits = r ∧
      x'.slots = x.slots ++ [{ y with num := x.nextSlot, visible := y.waits.isEmpty }] ∧
      t.group? k = some g' ∧ g'.inWord = some (.answered 0)) ∧
  (∀ (s s1 : State) (core pipe stage base : Nat) (x : Stage) (y : Slot) (r : List Slot) (p : Place) (c : Context) (n : Word) (w : Stamp),
    (s.core core).domain = some (some (pipe, stage)) → (s.core core).drainTo = none → coreRuns s core = true → pipeRuns s pipe = true →
    (∀ e ∈ (s.core core).deque, runnable s core e = false) → stage? s pipe stage = some x → x.slots = y :: r → y.visible = true →
    y.poison = false → closureOk y.clo = true → ordinaryPlace s core y.clo.demand none y.clo.scr = some p →
    s.context? (coreAsid s core) = some c → futureOk c.regs y.clo.future = true →
    takeSerial (s.modStage pipe stage (fun x => { x with slots := r })) (coreAsid s core) core = (s1, n) →
    base = regionBase c.regs (freeRegion s (coreAsid s core)) →
    (groupWrite s1 core (coreAsid s core) base (headerBytes y.clo.future 0 n) y.stamp (provOf (coreAsid s core) n y.clo.entry y.clo.entry)).2 = .ok w →
    ∃ t g, exec (.recordTake core) s = .next t ∧
      Claims.Begun t core ⟨y.clo, n, y.stamp, 0, 0, 0, true, [], .none, true, 0x1FF, false⟩ p base g) ∧
  (∀ (s : State) (pipe : Nat) (p : Pipe), tabGet? s.pipes pipe = some p → pipeRuns s pipe = true →
    let l := targets (poolSize s p) p.hyst (wants p)
    (largest (fun x => x.target - x.cores) l = none → exec (.roundaboutInterval pipe) s = .next s) ∧
    (∀ x c, poolSize s p < 16 → largest (fun x => x.target - x.cores) l = some x → listMin? p.unassigned = some c → coreIdle s c = true →
      ∃ t q, exec (.roundaboutInterval pipe) s = .next t ∧ (t.core c).domain = some (some (pipe, x.idx)) ∧ tabGet? t.pipes pipe = some q ∧
        tabGet? q.assigned c = some x.idx ∧ c ∉ q.unassigned)) ∧
  (∀ (s : State) (core pipe j : Nat) (x : Stage), (s.core core).drainTo = some (pipe, j) → coreRuns s core = true → coreIdle s core = true →
    stage? s pipe j = some x → x.retired = false →
    ∃ t, exec (.drainSwitch core) s = .next t ∧ (t.core core).drainTo = none ∧
      (x.slots ≠ [] → (t.core core).domain = some (some (pipe, j))))

/-! ## Steps of the matrix engine -/

namespace Claims

/-! ### Chunks (R58, R59) -/

/-- The product of two elements: exact, +0 when an element lies outside its tensor (R244), a NaN for a NaN or for 0 × ∞ (R59). -/
def product (a b : Elem) : FVal :=
  if a.2 = true ∨ b.2 = true then .num false 0 0
  else match a.1, b.1 with
  | .num s m e, .num s' m' e' => .num (xor s s') (m * m') (e + e')
  | x, y => if isNan x || isNan y || vZero x || vZero y then .nan false true 0 else .inf (xor (vSign x) (vSign y))

/-- A number in units of 2^q, and its exponent; 0 for the others. -/
def signedUnits (q : Int) (v : FVal) : Int := match v with | .num s m e => if s then -(units q (m, e) : Int) else units q (m, e) | _ => 0
def exponent (v : FVal) : Int := match v with | .num _ _ e => e | _ => 0

/-- The code in binary64 of the sum of a chunk's products: summed exactly and rounded once, with the special cases of R59. -/
structure Chunk (ps : List FVal) (c : Nat) : Prop where
  invalid : (∃ p ∈ ps, isNan p = true) ∨ (.inf false ∈ ps ∧ .inf true ∈ ps) → c = canonNan .f64
  infinite : (∀ p ∈ ps, isNan p = false) → ∀ s, .inf s ∈ ps → .inf (!s) ∉ ps → c = (fmtOf .f64).signBit s + (fmtOf .f64).infCode
  finite : (∀ p ∈ ps, ∃ s m e, p = .num s m e) →
    let q := (ps.map exponent).foldl min 0
    let z := (ps.map (signedUnits q)).sum
    if z = 0 then c = (fmtOf .f64).signBit (ps.all vSign) else ∃ fl, RoundedOnce .f64 0 false (decide (z < 0)) (z.natAbs, q) (c, fl)

/-- An accumulator plus a chunk, both codes of binary64: fadd to nearest, every NaN the canonical one (R58, R59). -/
def accumulated (a c : Nat) : Nat :=
  let y := (faddV .f64 0 false (fdecode .f64 a) (fdecode .f64 c)).1
  if isNan (fdecode .f64 y) then canonNan .f64 else y

/-- An element of an integer format; 0 outside its tensor. -/
def integer (x : Elem) : Int := if x.2 then 0 else signedUnits 0 x.1

/-- What a step makes of element `k` of a tile: the element's row of A and row of B, `n` chunks of 32 elements each, are multiplied, summed and
added, chunk by chunk (R58). -/
def StepAdds (x : Tile) (as bs : List (List Elem)) (n k : Nat) : Prop :=
  let a := as.getD (k / 32) []
  let b := bs.getD (k % 32) []
  let old := tabGet x.elems k 0
  let new := tabGet (stepTile x as bs).elems k 0
  (x.isInt = true → (∀ e ∈ a ++ b, ∃ s m, e.1 = .num s m 0) → new = old + BitVec.ofInt 64 ((List.zipWith (fun u v => integer u * integer v) a b).sum)) ∧
  (x.isInt = false → ∃ cs : List Nat, cs.length = n ∧
    (∀ h, h < n → Chunk (List.zipWith product ((a.drop (32 * h)).take 32) ((b.drop (32 * h)).take 32)) (cs.getD h 0)) ∧
    new.toNat = cs.foldl accumulated old.toNat)

/-! ### The epilogue (R254) -/

/-- y = x × sc + bi of R254 with its flag: the first NaN goes through quieted; ∞ × 0 and ∞ − ∞ are the canonical NaN; infinities; and otherwise
the exact value, a zero with the sign of R44 under the epi's mode. -/
structure EpiSum (mode : Nat) (x sc bi y : FVal) (fl : Flags) : Prop where
  nan : ∀ s q fr, [x, sc, bi].find? isNan = some (.nan s q fr) → y = .nan s true (if q then fr else fr + 2 ^ 51) ∧
    fl = if isSnan x || isSnan sc || isSnan bi || (vZero x && sc matches .inf _) || ((x matches .inf _) && vZero sc) then 1 else 0
  zeroInf : ∀ s n e, isNan bi = false → (x = .inf s ∧ sc = .num n 0 e) ∨ (sc = .inf s ∧ x = .num n 0 e) → y = .nan false true (2 ^ 51) ∧ fl = 1
  inf : isNan x = false → isNan sc = false → isNan bi = false → vZero x = false → vZero sc = false → ((x matches .inf _) || (sc matches .inf _)) = true →
    if bi = .inf (!(xor (vSign x) (vSign sc))) then y = .nan false true (2 ^ 51) ∧ fl = 1 else y = .inf (xor (vSign x) (vSign sc)) ∧ fl = 0
  bias : ∀ s m e s' m' e' n, x = .num s m e → sc = .num s' m' e' → bi = .inf n → y = .inf n ∧ fl = 0
  exact : ∀ s m e s' m' e' s3 m3 e3, x = .num s m e → sc = .num s' m' e' → bi = .num s3 m3 e3 →
    let z := exactSum (xor s s') (m * m', e + e') s3 (m3, e3)
    fl = 0 ∧ ∃ n u v, y = .num n u v ∧
      if z.1 = 0 then u = 0 ∧ n = (if m * m' = 0 ∧ m3 = 0 ∧ xor s s' = s3 then s3 else decide (mode = 3))
      else n = decide (z.1 < 0) ∧ same (u, v) (z.1.natAbs, z.2)

/-- The activations of R254; a NaN passes, and a NaN bound is ignored. -/
def activated (act slope : Nat) (lo hi y : FVal) : FVal :=
  let zero : FVal := .num false 0 0
  if isNan y then y
  else if act = 1 then (if atMost y zero then zero else y)
  else if act = 2 then (if !isNan lo && !atMost lo y then lo else if !isNan hi && !atMost y hi then hi else y)
  else if act = 3 then (if atMost zero y then y else match y with | .num s m e => .num s m (e - slope) | y => y)
  else y

/-- A binary64 vector of an epi in the scratchpad, or its constant (R254). -/
def epiVector (s : State) (core off k const : Nat) : FVal :=
  fdecode .f64 (if off = 0xFFFFFFFF then const else scratchValue s core (off + 8 * k) 8)

/-- The result of element `e` of an epi, row r and column c, with its flags (R254). -/
def EpiGives (s : State) (core : Nat) (c : MCmd) (w : W) (e : Nat) : Prop :=
  let row := e / (32 * epiN w)
  let col := e % (32 * epiN w)
  let tile := tileOf s core (epiAcc w + row / 32 * epiN w + col / 32)
  let v := tabGet tile.elems (row % 32 * 32 + col % 32) 0
  let x : FVal := if tile.isInt then .num (decide (v.toInt < 0)) v.toInt.natAbs 0 else fdecode .f64 v.toNat
  ∃ y fl, EpiSum c.rnd x (epiVector s core (c.reg 0) col 0x3FF0000000000000) (epiVector s core (c.reg 1) col 0) y fl ∧
    let z := activated (epiAct w) (epiSlope w) (fdecode .f64 (c.pair 2)) (fdecode .f64 (c.pair 4)) y
    let out := if (epiTy w).isFp then convFloat (epiTy w) .f64 c.rnd (srRandom c.seed (e % 96) (e / 96 % 256)) w.sat z
      else convToInt (epiTy w) c.rnd z
    (epiResults s core c).getD e (0, 0) = (out.1, fl ||| out.2)

end Claims

/-- R58, R59, R254: a step of an mloop adds to every element of a tile the chunks of its two rows, each summed exactly and rounded once, and an
integer tile adds exactly modulo 2^64; each result of an epi is x × sc + bi, exact, activated and converted once. -/
def Claims.EngineArithmetic : Prop :=
  (∀ (x : Tile) (as bs : List (List Elem)) (n k : Nat), k < 1024 → as.length = 32 → bs.length = 32 → (∀ r ∈ as ++ bs, r.length = 32 * n) →
    Claims.StepAdds x as bs n k ∧ (stepTile x as bs).isInt = x.isInt ∧ (stepTile x as bs).poison = x.poison) ∧
  (∀ (s : State) (core e : Nat) (c : MCmd) (w : W), c.instr = .epi w → e < 1024 * epiM w * epiN w → Claims.EpiGives s core c w e) ∧
  (∀ (s : State) (core : Nat) (c : MCmd) (w : W), c.instr = .epi w → (epiResults s core c).length = 1024 * epiM w * epiN w)

/-- R247, R248, R251, R254, R255: a command is accepted with what its acceptance reads; an mloop whose descriptors pass starts; a step adds its
chunks into every tile of the block and goes on, and the last one ends the command; an mzero clears the tiles that it names; an epi reads its tiles and, once
every element is written, turns its handle full. -/
def Claims.EngineStepsTakePlace : Prop :=
  (∀ (s : State) (id core : Nat) (c : MCmd) (g : Group), findWaiting s id = some (core, c) → coreGoes s core = true →
    (s.core core).queue.length < 32 → (∀ x ∈ (s.core core).waiting.takeWhile (fun x => x.id != id), x.grp ≠ c.grp) →
    allReturned s c.grp c.waits = true → s.group? c.grp = some g →
    (∀ w, c.instr = .mzero w → ∃ t, exec (.commandAccept id) s = .next t ∧ (t.core core).queue = (s.core core).queue ++ [c]) ∧
    (∀ w, c.instr = .mloop w → w.imm.getLsbD 25 = false → w.imm.getLsbD 26 = false → ∃ t, exec (.commandAccept id) s = .next t ∧
      (t.core core).queue = (s.core core).queue ++ [{ c with regs := blockRegs g w.a 10 }]) ∧
    (∀ w x, c.instr = .epi w → handle? s core (((blockRegs g w.a 7).getD 6 0).toNat % 64) = some x → x.st = .free → epiBytes w ≤ x.size →
      ∃ t, exec (.commandAccept id) s = .next t ∧ handle? t core (((blockRegs g w.a 7).getD 6 0).toNat % 64) = some { x with st := .filling, full := [], bad := [] } ∧
        (t.core core).queue = (s.core core).queue ++ [{ c with
          regs := blockRegs g w.a 7
          win := (256 * (teamOf s g.core g.team).base, 256 * ((teamOf s g.core g.team).base + (teamOf s g.core g.team).size)) }])) ∧
  (∀ (s s1 s2 : State) (core : Nat) (c : MCmd) (w : W) (ta tb : Option TensorRead), headCmd s core = some c → c.instr = .mloop w →
    c.started = false → c.held = false → srcTensor s core c (w.imm.getLsbD 25) (c.pair 0) = (s1, ta) → tensorFault ta = none →
    srcTensor s1 core c (w.imm.getLsbD 26) (c.pair 2) = (s2, tb) → tensorFault tb = none → startFail s2 core c ta tb = none →
    ∃ t, exec (.mloopStart core) s = .next t ∧ (∀ x ∈ (t.core core).queue, x.id = c.id → x.started = true) ∧ (t.core core).tiles = (s2.core core).tiles) ∧
  (∀ (s s1 s2 : State) (core : Nat) (c : MCmd) (w : W) (a b : GlobalSrc ⊕ Handle) (as bs : List (List Elem)), headCmd s core = some c →
    c.instr = .mloop w → c.started = true → c.held = false →
    (∀ k, k < mloopM w * mloopN w → (tileOf s core (mloopAcc w + k)).poison = false) →
    operandSrc s core c false = some a → operandSrc s core c true = some b →
    readRows (tileReader s core c.asid c.stamp) s core a (mloopFmt w) (32 * mloopM w) c.step (List.range (32 * mloopM w)) = (s1, .ok as) →
    readRows (tileReader s core c.asid c.stamp) s1 core b (mloopFmt w) (32 * mloopN w) c.step (List.range (32 * mloopN w)) = (s2, .ok bs) →
    ∃ t, exec (.mloopStep core) s = .next t ∧
      (∀ k, k < mloopM w * mloopN w → tileOf t core (mloopAcc w + k) = stepTile (tileOf s2 core (mloopAcc w + k))
        ((as.drop (32 * (k / mloopN w))).take 32) ((bs.drop (32 * (k % mloopN w))).take 32)) ∧
      (c.step + 1 ≠ mloopK w →
        (t.core core).queue = (s2.core core).queue.map (fun x => if x.id = c.id then { x with step := x.step + 1 } else x)) ∧
      (c.step + 1 = mloopK w → (t.core core).queue = (s2.core core).queue.filter (fun x => x.id != c.id))) ∧
  (∀ (s : State) (core : Nat) (c : MCmd) (w : W), headCmd s core = some c → c.instr = .mzero w → (batchesOf s core c.grp).closed = [] →
    ∃ t, exec (.mzeroPerform core) s = .next t ∧ (∀ k, k < 16 → w.imm.getLsbD k = true → tileOf t core k = ⟨w.imm.getLsbD 16, false, []⟩) ∧
      (∀ k, w.imm.getLsbD k = false → tileOf t core k = tileOf s core k) ∧ (∀ x ∈ (t.core core).queue, x.id ≠ c.id)) ∧
  (∀ (s : State) (core : Nat) (c : MCmd) (w : W), headCmd s core = some c → c.instr = .epi w → vectorOk c (c.reg 0) (epiN w) = true →
    vectorOk c (c.reg 1) (epiN w) = true → (∀ k, k < epiM w * epiN w → (tileOf s core (epiAcc w + k)).poison = false) →
    vectorBad s core (c.reg 0) (epiN w) = false → vectorBad s core (c.reg 1) (epiN w) = false →
    ∃ t x, exec (.epiStart core) s = .next t ∧ (t.core core).epis = (s.core core).epis ++ [x] ∧ x.id = c.id ∧ x.started = true ∧
      x.out = packResults (epiTy w) (epiResults s core c) ∧ (t.core core).tiles = (s.core core).tiles) ∧
  (∀ (s : State) (id core : Nat) (c : MCmd) (w : W) (x : Handle), findEpi s id = some (core, c) → coreGoes s core = true → c.instr = .epi w →
    handle? s core (c.reg 6 % 64) = some x → (batchesOf s core c.grp).closed = [] → cellsWf (s.core core).scratch = true →
    ∃ t bad, exec (.epiComplete id) s = .next t ∧
      handle? t core (c.reg 6 % 64) = some { x with st := .full, stamp := 0, full := scratchRead t core x.off x.size, bad := bad } ∧
      scratchRead t core x.off c.out.length = c.out)

/-- R58, R59, R254, R247, R248, R251, R255: the steps of the matrix engine and the arithmetic of its steps and its epilogue. -/
def Obligations.MatrixStepsTakePlace : Prop := Claims.EngineArithmetic ∧ Claims.EngineStepsTakePlace

/-! ## Steps of the cluster and of the copy engines -/

/-- R268, R272, R274, R275, R283: a put reads its source and its bytes land at the target, with the arrival at its barrier word; a dsld reads
its target; an mcast reads its tile, is granted its branches and is delivered at each; the network's watchdog counts. -/
def Obligations.ClusterStepsTakePlace : Prop :=
  (∀ (s : State) (id cl : Nat) (p : Put) (before : List Put), findPut s id = some (cl, p, before) → p ∈ (s.cluster cl).puts → p.started = false →
    coreGoes s p.core = true → allReturned s p.grp p.waits = true →
    ∃ t q, exec (.putStart id) s = .next t ∧ q ∈ (t.cluster cl).puts ∧ q.id = id ∧ q.started = true ∧ q.stamp = p.stamp ∧
      q.bytes = scratchRead s p.core (blk p.block 2) (blk p.block 3)) ∧
  (∀ (s : State) (id cl : Nat) (p : Put) (before : List Put), findPut s id = some (cl, p, before) → p.started = true → coreGoes s p.core = true →
    (∀ q ∈ before, ¬ (q.grp = p.grp ∧ blk q.block 0 = blk p.block 0)) → p.bad = [] → blk p.block 3 % 4 = 0 → p.bytes.length = blk p.block 3 →
    cellsWf (s.core (12 * cl + blk p.block 0)).scratch = true →
    (blk p.block 4 = 0xFFFFFFFF ∨ (blk p.block 4 + 8 ≤ blk p.block 1 ∧ scratchBad s (12 * cl + blk p.block 0) (blk p.block 4) 8 = false)) →
    ∃ t, exec (.putArrival id) s = .next t ∧ scratchRead t (12 * cl + blk p.block 0) (blk p.block 1) (blk p.block 3) = p.bytes ∧
      (blk p.block 4 ≠ 0xFFFFFFFF → barRead t (12 * cl + blk p.block 0) (blk p.block 4) =
        barApply 2 (barRead s (12 * cl + blk p.block 0) (blk p.block 4)) (blk p.block 3)) ∧
      (∀ q ∈ (t.cluster cl).puts, q.id ≠ id)) ∧
  (∀ (s : State) (r : Req), s.req? r.id = some r → r.kind = .dsld → r.phase = .queued → mayLeave s r = true →
    (∀ x ∈ s.requests.takeWhile (fun x => x.id != r.id), ¬ (x.grp = r.grp ∧ x.kind = .dsld ∧ x.phase = .queued ∧ dsldTarget x = dsldTarget r)) →
    (∀ a ∈ r.lanes, scratchBad s (dsldCore r.core a.addr) (dsldOff a.addr) r.size = false) →
    ∃ t r', exec (.dsldTargetRead r.id) s = .next t ∧ t.req? r.id = some r' ∧ r'.phase = .ready (r.lanes.map (fun a =>
      (a.lane, BitVec.ofNat 64 (bytesVal (scratchRead s (dsldCore r.core a.addr) (dsldOff a.addr) r.size))))) [] 0 0 0) ∧
  (∀ (s : State) (id cl : Nat) (m : Mcast), findMcast s id = some (cl, m) → m ∈ (s.cluster cl).mcasts → m.buf = none → m.held = false →
    coreGoes s m.core = true → allReturned s m.grp m.waits = true →
    (∀ x, m.fromHandle = true → handle? s m.core (blk m.block 0 % 64) = some x → mcastBad m x.size = none → bufferRoom s cl x.size = true →
      scratchBad s m.core x.off x.size = false → ∃ t q, exec (.mcastRead id) s = .next t ∧ q ∈ (t.cluster cl).mcasts ∧ q.id = id ∧
        q.buf = some (scratchRead s m.core x.off x.size) ∧ q.stamp = m.stamp) ∧
    (∀ s1 s2 d bs, m.fromHandle = false →
      readTensor s (coreDie m.core) m.asid (blk m.block 0 + 2 ^ 32 * blk m.block 1) m.stamp = (s1, .ok d) →
      d.inRange (blk m.block 2) = true → mcastBad m d.tileBytes = none → bufferRoom s1 cl d.tileBytes = true →
      readTile s1 (coreDie m.core) m.asid d (blk m.block 2) m.stamp = (s2, .ok bs) →
      ∃ t, exec (.mcastRead id) s = .next t ∧ (∀ x ∈ (t.cluster cl).mcasts, x.id = id → x.buf = some bs))) ∧
  (∀ (s : State) (id cl : Nat) (m : Mcast), findMcast s id = some (cl, m) → m ∈ (s.cluster cl).mcasts → coreRuns s m.core = true →
    grantable s cl m = true → (∀ q ∈ (s.cluster cl).mcasts.takeWhile (fun q => q.id != id), grantable s cl q = false) →
    (m.toHandle = true → ∀ k ∈ m.left, handleTakes s k (blk m.block 4 % 64) ((m.buf.map List.length).getD 0) = true) →
    ∃ t q, exec (.mcastGrant id) s = .next t ∧ q ∈ (t.cluster cl).mcasts ∧ q = { m with granted := true }) ∧
  (∀ (s : State) (id cl core : Nat) (m : Mcast) (bs : List Byte), findMcast s id = some (cl, m) → m.granted = true → core ∈ m.left →
    coreGoes s m.core = true → m.buf = some bs → m.toHandle = false → cellsWf (s.core core).scratch = true →
    (blk m.block 5 = 0xFFFFFFFF ∨ (blk m.block 5 + 8 ≤ blk m.block 4 ∧ scratchBad s core (blk m.block 5) 8 = false)) →
    ∃ t, exec (.mcastDelivery id core) s = .next t ∧ scratchRead t core (blk m.block 4) bs.length = bs ∧
      (blk m.block 5 ≠ 0xFFFFFFFF → barRead t core (blk m.block 5) = barApply 2 (barRead s core (blk m.block 5)) bs.length) ∧
      (∀ x ∈ (t.cluster cl).mcasts, x.id = id → core ∉ x.left)) ∧
  (∀ (s : State) (die : Nat), networkBusy s die = true → die < 4 →
    ∃ t, exec (.networkWatchdog die) s = .next t ∧ t = { s with dies := t.dies } ∧ (t.die die).errors = (s.die die).errors + 1)

/-- R323, R324, R317, R327, R330: an engine takes a copy whose descriptors pass; a piece is read at the source and written at the destination;
with every piece done the engine arrives at the scratch barrier with the bytes that it wrote; a migrated group resumes in the landing slot. -/
def Obligations.CopyStepsTakePlace : Prop :=
  (∀ (s s1 : State) (id die : Nat) (c c' : Copy) (descs : List Byte), findCopy s id = some (die, c) → copyReady s die c = true →
    enginesBusy s die < 64 → (∀ x ∈ (s.die die).copies.takeWhile (fun x => x.id != id), copyReady s die x = false) →
    c' = { c with engine := true, held := false, fault := none } → readDescs s die c' = (s1, .ok descs) → checkTile c' descs = none →
    checkMatch c' descs = true → checkRoom s1 c' descs = true → checkBarrier s1 die c' descs = 0 →
    ∃ t, exec (.copyStart id) s = .next t ∧ (∀ x ∈ (t.die die).copies, x.id = id → x.started = true ∧ x.engine = true ∧ x.descs = descs ∧ x.size = tileSize c' descs)) ∧
  (∀ (s s1 s2 : State) (id die k n w : Nat) (c : Copy) (bs : List Byte) (b : Nat), findCopy s id = some (die, c) → pieceDue c k = true →
    copyRuns s die c = true → c.fault = none → n = min 128 (c.size - 128 * k) → pieceRead s die c (128 * k) n = (s1, .ok bs) →
    pieceWrite s1 die c (128 * k) bs = (s2, .ok (w, b)) →
    exec (.copyPieceDone id k) s = .next (setCopy s2 die { c with done := k :: c.done, arrStamp := max c.arrStamp w, bytes := c.bytes + b })) ∧
  (∀ (s : State) (id die core : Nat) (c : Copy), findCopy s id = some (die, c) → c.started = true → c.held = false → c.fault = none →
    copyRuns s die c = true → (∀ k ∈ c.pieces, k ∈ c.done) → c.bk = 1 → c.pkt = none → core = c.coreOf (blk c.block 7) →
    blk c.block 6 ≠ 0xFFFFFFFF → scratchBad s core (blk c.block 6) 8 = false → cellsWf (s.core core).scratch = true →
    ∃ t, exec (.barrierArrival id) s = .next t ∧ barRead t core (blk c.block 6) = barApply 2 (barRead s core (blk c.block 6)) c.bytes ∧
      (∀ x ∈ (t.die die).copies, x.id ≠ id)) ∧
  (∀ (s : State) (k core part : Nat) (g : Group), s.group? k = some g → g.migTo = some (core, part) → sentReturned s k g = true →
    coreRuns s core = true →
    ∃ t g', exec (.migrateLand k) s = .next t ∧ t.group? k = some g' ∧ g'.core = core ∧ g'.part = part ∧ g'.slot = 17 ∧ g'.migTo = none ∧
      g'.sregs = g.sregs ∧ g'.vregs = g.vregs ∧ g'.pc = g.pc ∧ g'.flags = g.flags ∧ g'.view = max g.view g.observed)

/-! ## Steps of the Forum -/

namespace Claims

/-- No core holds a permission record of the page of an address (R361 step 2). -/
def NoRecord (s : State) (asid va : Nat) : Prop := ∀ core, ∀ r ∈ (s.core core).plb, recCovers r asid va = false

/-- The state in which a packet has been marked by `f`. -/
def Marked (t : State) (id : Nat) (f : Packet → Prop) : Prop := ∃ p, tabGet? t.packets id = some p ∧ f p

end Claims

/-- R405, R407, R409, R402, R403, R406, R408, R414, R400: a packet that completes is gone, and its STATUS word has bit 31, the code and the
detail; the Forum takes the head packet of a mapped queue, maps and unmaps queues, adds to signals, watches signals until they settle or one
reads negative, queues the copy of a COPY packet, and hands a firmware packet to the firmware until it reports it complete. -/
def Obligations.PacketStepsTakePlace : Prop :=
  (∀ (s s' : State) (id code detail : Nat) (p : Packet) (w : Stamp), tabGet? s.packets id = some p →
    p.sig = 0 → code = 0 → forumWrite { s with packets := tabDel s.packets id } p.asid (p.slot.toNat + 4)
      (valBytes 4 (2 ^ 31 + 256 * (detail % 256))) = (s', .ok w) → completePacket s id code detail = s') ∧
  (∀ (s s1 s2 : State) (q n : Nat) (x : Queue) (b : List Byte) (w : Stamp), tabGet? s.queues q = some x → x.mapped = true → forumRuns s = true →
    queuePackets s q = [] → currentWrite s q x = (s1, some n) → x.read < n → slotReady s1 x = true →
    forumRead s1 x.asid (slotAddr x x.read) 64 = (s2, .ok (b, w)) → b.getD 0 0 ≠ 0 →
    (bytesAt b 0 4).testBit 8 = false → (bytesAt b 0 4).testBit 9 = false → (∀ p : Packet, p.bytes = b → packetOk p = true ∧ (p.privileged = true → x.priv = true)) →
    ∃ t id p, exec (.packetTake q) s = .next t ∧ (id, p) ∈ t.packets ∧ p.bytes = b ∧ p.queue = q ∧ p.asid = x.asid ∧ p.priv = x.priv ∧
      p.slot = BitVec.ofNat 64 (slotAddr x x.read) ∧ p.started = false) ∧
  (∀ (s s' : State) (q : Nat) (x y : Queue), forumRuns s = true → q < 4096 → (s.queues.filter (fun p => p.2.mapped)).length < 32 →
    tabGet? s.queues q = some x → x.mapped = false → x.bad = false → loadQueue s q = (s', some y) → y.hasWork = true →
    (∀ p ∈ s.queues, ∀ z, unmappedWork s p.1 = some z → y.since ≤ z.since) →
    ∃ t z, exec (.queueMap q) s = .next t ∧ tabGet? t.queues q = some z ∧ z = { y with mapped := true }) ∧
  (∀ (s : State) (q : Nat) (x : Queue), tabGet? s.queues q = some x → forumRuns s = true → x.mapped = true → someUnmapped s = true →
    ((currentWrite s q x).2 = some x.read ∨ queueWaiting s q x = true) →
    ∃ t z, exec (.queueUnmap q) s = .next t ∧ tabGet? t.queues q = some z ∧ z = { x with mapped := false, since := s.nextId }) ∧
  (∀ (s s' : State) (id old : Nat) (p : Packet), packetOf s id 2 = some p →
    devAdd s 0 p.asid (p.at' 16 8) (p.at' 24 8) false = (s', .ok old) → exec (.signal id) s = .next (completePacket s' id 0 0)) ∧
  (∀ (s : State) (id : Nat) (p : Packet), packetOf s id 1 = some p → p.checked = false →
    ((∀ k, k < 6 → signalAddr p k = 0) → exec (.barrierAnd id) s = .next (completePacket s id 0 0)) ∧
    ((∃ k, k < 6 ∧ signalAddr p k ≠ 0) → ∃ t, exec (.barrierAnd id) s = .next t ∧
      Claims.Marked t id (fun q => q.checked = true ∧ ∀ k, k < 6 → q.settled.getD k false = decide (signalAddr p k = 0)))) ∧
  (∀ (s s' : State) (id k : Nat) (p : Packet) (b : List Byte) (w : Stamp), packetOf s id 1 = some p → p.checked = true → k < 6 →
    p.settled.length = 6 → p.settled.getD k true = false → devRead s 0 p.asid (signalAddr p k) 8 0 17 = (s', .ok (b, w)) →
    tabGet? s'.packets id = some p →
    ((BitVec.ofNat 64 (bytesVal b)).toInt < 0 → exec (.barrierAndSettle id k) s = .next (completePacket s' id 1 0)) ∧
    ((BitVec.ofNat 64 (bytesVal b)).toInt = 0 → (∀ j, j < 6 → j ≠ k → p.settled.getD j false = true) →
      exec (.barrierAndSettle id k) s = .next (completePacket s' id 0 0)) ∧
    ((BitVec.ofNat 64 (bytesVal b)).toInt = 0 → (∃ j, j < 6 ∧ j ≠ k ∧ p.settled.getD j true = false) →
      ∃ t, exec (.barrierAndSettle id k) s = .next t ∧ Claims.Marked t id (fun q => q.settled = p.settled.set k true))) ∧
  (∀ (s : State) (id die : Nat) (p : Packet), packetOf s id 6 = some p → die = p.at' 56 1 → die < 4 →
    let imm : Word := BitVec.ofNat 32 (p.at' 52 4)
    let st := copyStatus s 432 (liveCore s p.asid) (imm.toNat % 4) (imm.toNat / 4 % 4) (imm.toNat / 16 % 4) (wordsOf p.bytes 16 9)
    (st ≠ 0 → exec (.copyPacket id) s = .next (completePacket s id 3 st)) ∧
    (st = 0 → copiesWaiting s die < 1024 → ∃ t c, exec (.copyPacket id) s = .next t ∧ (t.die die).copies = (s.die die).copies ++ [c] ∧
      c.grp = none ∧ c.pkt = some id ∧ c.asid = p.asid ∧ c.imm = imm ∧ c.block = wordsOf p.bytes 16 9 ∧ Claims.Marked t id (fun q => q.started = true))) ∧
  (∀ (s : State) (id : Nat) (p : Packet) (code detail : Byte), tabGet? s.packets id = some p → p.type ≥ 0x80 →
    (p.started = false → ∃ t, exec (.firmwarePacket id) s = .next t ∧ Claims.Marked t id (fun q => q = { p with started := true })) ∧
    (p.started = true → exec (.firmwarePacketComplete id code detail) s = .next (completePacket s id code.toNat detail.toNat)))

/-- R416: with ACT 1 an escalated group performs sysret from its trap state; with ACT 2 its running task ends with the next word; with ACT 3 a held
copy waits no longer and its pieces go on; with ACT 4 a held multicast fails. Each packet completes with code 0; one that names no waiting item is
refused with 0x21, and one whose item is of the other kind with 0x20. -/
def Obligations.ResumeStepsTakePlace : Prop :=
  (∀ (s : State) (id : Nat) (p : Packet), packetOf s id 5 = some p → ∀ q ∈ ([(.resumeSysret id, 1, true), (.resumeFailTask id, 2, true),
      (.resumeReissue id, 3, false), (.resumeFailItem id, 4, false)] : List (Instr × Nat × Bool)), p.at' 16 1 = q.2.1 →
    (waitingItem s p = none → exec q.1 s = .next (completePacket s id 3 0x21)) ∧
    (∀ i, waitingItem s p = some i → i.isGroup ≠ q.2.2 → exec q.1 s = .next (completePacket s id 3 0x20))) ∧
  (∀ (s : State) (id k n reason : Nat) (p : Packet) (c : Context) (g : Group), packetOf s id 5 = some p → waitingItem s p = some (.group k) →
    s.context? p.asid17 = some c → c.st = .running → s.group? k = some g → g.escal = some (n, reason) → reason ≠ 6 →
    (p.at' 16 1 = 1 → trapPcUsable g = true → g.trap.cause.getLsbD 31 = false →
      ∃ u g', exec (.resumeSysret id) s = .next (completePacket u id 0 0) ∧ u.group? k = some g' ∧ g'.sup = false ∧ g'.pc = g.trap.pc ∧
        g'.am = g.trap.am ∧ g'.park = none ∧ g'.escal = none) ∧
    (p.at' 16 1 = 2 → ∃ u g', exec (.resumeFailTask id) s = .next (completePacket u id 0 0) ∧ u.group? k = some g' ∧ g'.sup = false ∧
      g'.am = g.trap.am ∧ g'.park = none ∧ g'.task.failing = true ∧ g'.task.future = g.task.future)) ∧
  (∀ (s : State) (id die cid : Nat) (p : Packet) (x : Context) (c : Copy), packetOf s id 5 = some p →
    p.at' 16 1 = 3 → waitingItem s p = some (.copy die cid) → s.context? p.asid17 = some x → x.st = .running →
    (s.die die).copies.find? (fun c => c.id == cid) = some c →
    exec (.resumeReissue id) s = .next (completePacket (setCopy (dropItem s p) die { c with held := false, fault := none }) id 0 0)) ∧
  (∀ (s : State) (id cl mid : Nat) (p : Packet) (x : Context) (m : Mcast), packetOf s id 5 = some p → p.at' 16 1 = 4 →
    waitingItem s p = some (.mcast cl mid) → s.context? p.asid17 = some x → x.st = .running →
    (s.cluster cl).mcasts.find? (fun m => m.id == mid) = some m →
    ∃ u, exec (.resumeFailItem id) s = .next (completePacket u id 0 0) ∧ (∀ y ∈ (u.cluster cl).mcasts, y.id ≠ mid))

/-- R360, R361, R370, R363, R415, R376, R369: the operations of MAPOP packets on pages that have no access on its way. MAP writes the leaf at the
page's entry, CLEAR clears P, UNMAP clears V and P unless held entries must first be discarded (4), PROTECT writes the new rights and placement; each
leaves no permission record of the page; a page without a leaf is refused (3). POOLADD and POOLTAKE add and take frames of a pool, SWEEP sets the
watermarks and stops a hand whose queue is as long as the new HIGH, SPILL gives an area, and COLD takes entries. -/
def Obligations.MapOperationsTakePlace : Prop :=
  (∀ (s : State) (id va : Nat) (p : Packet), va = p.at' 24 8 → mapIdle s p = true →
    (∀ e level pte, leafAt s p.asid17 va = some (e, level, pte) →
      (mapPacket s id 1 = some p → pteLeaf (mapLeaf p) = true → pteMalformed (mapLeaf p) level = false →
        inMemory (pteFrame (mapLeaf p) * 2 ^ 14) = true →
        (pteP (mapLeaf p) = true → synonym (releaseLeaf s e level) (pteFrame (mapLeaf p)) (levelFrames level) (granW (mapLeaf p)) = false) →
        ∃ u, exec (.mapopMap id) s = .next (completePacket (writePte u pte (mapLeaf p)) id 0 0) ∧ Claims.NoRecord u p.asid17 va) ∧
      (mapPacket s id 2 = some p → ∃ u, exec (.mapopClear id) s = .next (completePacket (writePte u pte (setBit e 1 false)) id 0 0) ∧
        Claims.NoRecord u p.asid17 va) ∧
      (mapPacket s id 3 = some p →
        ∃ u, Claims.NoRecord u p.asid17 va ∧
          (p.at' 18 1 ≠ 1 → pageHeld u (tagAsid p.asid17 va) (pageOf va level) (levelBits level) ≠ [] →
            exec (.mapopUnmap id) s = .next (completePacket u id 3 4)) ∧
          (p.at' 18 1 = 1 ∨ pageHeld u (tagAsid p.asid17 va) (pageOf va level) (levelBits level) = [] →
            ∃ v, v.cores = u.cores ∧ pageHeld v (tagAsid p.asid17 va) (pageOf va level) (levelBits level) = [] ∧
              exec (.mapopUnmap id) s = .next (completePacket (writePte v pte (setBit (setBit e 0 false) 1 false)) id 0 0))) ∧
      (mapPacket s id 4 = some p → pteLeaf (mapLeaf p) = true → pteMalformed (setField (mapLeaf p) 22 38 (pteFrame e)) level = false →
        (pteP e = true → granW e = false → granW (protectLeaf e (mapLeaf p)) = true →
          synonym (releaseLeaf s e level) (pteFrame e) (levelFrames level) true = false) →
        ∃ u, exec (.mapopProtect id) s = .next (completePacket (writePte u pte (protectLeaf e (mapLeaf p))) id 0 0) ∧ Claims.NoRecord u p.asid17 va)) ∧
    (leafAt s p.asid17 va = none → ∀ q ∈ ([(.mapopClear id, 2), (.mapopUnmap id, 3), (.mapopProtect id, 4)] : List (Instr × Nat)),
      mapPacket s id q.2 = some p → exec q.1 s = .next (completePacket s id 3 3))) ∧
  (∀ (s : State) (id pa : Nat) (p : Packet), mapPacket s id 5 = some p → pa = p.at' 40 8 → inMemory pa = true → paDie pa = p.at' 24 8 % 4 →
    (s.frame (pa / 2 ^ 14)).st = 0 → (poolOf s p.asid17 (p.at' 24 8 % 4)).length < 65535 →
    ∃ u, exec (.mapopPooladd id) s = .next (completePacket u id 0 0) ∧
      poolOf u p.asid17 (p.at' 24 8 % 4) = pa / 2 ^ 14 :: poolOf s p.asid17 (p.at' 24 8 % 4) ∧ (u.frame (pa / 2 ^ 14)).st = 3) ∧
  (∀ (s s' : State) (id die : Nat) (p : Packet) (got : List Nat) (w : Stamp), mapPacket s id 6 = some p → die = p.at' 24 8 % 4 →
    got = (poolOf s p.asid17 die).take (p.at' 40 8) →
    forumWrite s p.asid (p.at' 48 8) (got.flatMap (fun f => valBytes 8 (f * 2 ^ 14))) = (s', .ok w) →
    ∃ u, exec (.mapopPooltake id) s = .next (completePacket u id 0 (min got.length 255)) ∧
      poolOf u p.asid17 die = (poolOf s' p.asid17 die).drop (p.at' 40 8) ∧ (∀ f ∈ got, (u.frame f).st = 0)) ∧
  (∀ (s : State) (id : Nat) (p : Packet), mapPacket s id 7 = some p →
    ∃ u, exec (.mapopSweep id) s = .next (completePacket u id 0 0) ∧
      u.ctl (p.at' 24 8 % 8) = { s.ctl (p.at' 24 8 % 8) with
        low := p.at' 40 2, high := p.at' 42 2
        running := (s.ctl (p.at' 24 8 % 8)).running && decide ((s.ctl (p.at' 24 8 % 8)).cold.length < p.at' 42 2) }) ∧
  (∀ (s : State) (id ctl pa len : Nat) (p : Packet), mapPacket s id 8 = some p → ctl = p.at' 24 8 % 8 → pa = p.at' 40 8 → len = p.at' 32 8 →
    2 ^ 14 ≤ len → inMemory pa = true → inMemory (pa + len - 1) = true → ctlOf pa = ctl → ctlOf (pa + len - 1) = ctl →
    ((s.ctl ctl).spill.map (fun r => r.2)).foldl (· + ·) 0 + len ≤ 2 ^ 30 → anyFrame s (pa / 2 ^ 14) (len / 2 ^ 14) (fun x => x.st != 0) = false →
    ∃ u, exec (.mapopSpill id) s = .next (completePacket u id 0 0) ∧ (u.ctl ctl).spill = (s.ctl ctl).spill ++ [(pa, len / 2 ^ 14 * 2 ^ 14)] ∧
      (∀ k, k < len / 2 ^ 14 → (u.frame (pa / 2 ^ 14 + k)).st = 3)) ∧
  (∀ (s s' : State) (id ctl : Nat) (p : Packet) (got : List (Nat × Nat × Nat)) (w : Stamp), mapPacket s id 9 = some p → ctl = p.at' 24 8 % 8 →
    got = (s.ctl ctl).cold.take (p.at' 40 8) →
    forumWrite s p.asid (p.at' 48 8) (got.flatMap (fun x => valBytes 16 (Config.coldEntry x.1 x.2.1 x.2.2).toNat)) = (s', .ok w) →
    ∃ u, exec (.mapopCold id) s = .next (completePacket u id 0 (min got.length 255)) ∧ (u.ctl ctl).cold = (s'.ctl ctl).cold.drop (p.at' 40 8))

/-- R418, R420, R413, R411, R412, R379, R384: a running context outside trap handlers is saved and gives up its clusters; a saved one is restored, has its
peer table read again and runs; a torn-down or ended context holds no cluster; STATUS is written each time and the packet completes. A LAUNCH or PIPELINE that passes its
checks waits for clusters; once they are free the context holds them and its root is started. -/
def Obligations.ContextStepsTakePlace : Prop :=
  (∀ (s u : State) (id : Nat) (p : Packet) (c : Context), packetOf s id 4 = some p → p.at' 16 1 = 1 → s.context? p.asid17 = some c →
    (c.st ≠ .running → exec (.ctxopSave id) s = .next (completePacket s id 3 0x32)) ∧
    (c.st = .running → inHandler s p.asid17 = false →
      (∀ q ∈ s.groups, q.2.asid = p.asid17 → q.2.inWord ≠ some .signalled) →
      saveStopped (stopContext s p.asid17) p.asid17 (afterStop (stopContext s p.asid17) p.asid17) = some u →
      ∃ v c', u = writeStatus v p.asid17 ∧ exec (.ctxopSave id) s = .next (completePacket u id 0 0) ∧ v.context? p.asid17 = some c' ∧
        c'.st = afterStop (stopContext s p.asid17) p.asid17 ∧ c'.clusters = [] ∧ c'.saved.isSome = true ∧
        (∀ g ∈ v.groups, g.2.asid ≠ p.asid17))) ∧
  (∀ (s s1 s2 : State) (id : Nat) (p : Packet) (c x : Context) (sv : SavedCtx) (b : List Byte) (w : Stamp) (gs : List (Nat × Group))
      (dies : List (Nat × Nat)), packetOf s id 4 = some p → p.at' 16 1 = 2 → forumRead s p.asid (p.at' 24 8 + 80) 8 = (s1, .ok (b, w)) →
    s1.context? p.asid17 = some c → c.saved = some sv → (bytesAt b 0 1 = 2 ∨ bytesAt b 0 1 = 3) →
    readSaved s1 p.asid17 c sv = (s2, some gs) → restoreDies s2 sv.shape = some dies → s2.context? p.asid17 = some x →
    waysFit s2 p.asid17 (remapOf s2 (sv.clusters.map (fun x => x.1)) dies) = true →
    copiesFit s2 sv (remapOf s2 (sv.clusters.map (fun x => x.1)) dies) = true →
    ∃ v c', exec (.ctxopRestore id) s =
        .next (completePacket (writeStatus (resumeContext (rereadPeers v p.asid17) p.asid17) p.asid17) id 0 0) ∧ v.context? p.asid17 = some c' ∧
      c'.st = .running ∧ c'.saved = none ∧
      c'.clusters = (remapOf s2 (sv.clusters.map (fun x => x.1)) dies).clusters.map (fun x => x.2)) ∧
  (∀ (s : State) (id : Nat) (p : Packet) (c : Context), packetOf s id 4 = some p → p.at' 16 1 = 3 → s.context? p.asid17 = some c →
    (c.st = .torn → exec (.ctxopTeardown id) s = .next (completePacket s id 3 0x32)) ∧
    (c.st ≠ .torn → c.pkt = none → ∃ v n, exec (.ctxopTeardown id) s = .next (completePacket (writeStatus v p.asid17) id 0 (min n 255)) ∧
      (∀ c', v.context? p.asid17 = some c' → c'.st = .torn ∧ c'.clusters = [] ∧ c'.saved = none) ∧
      (∀ h ∈ v.held, h.asid ≠ p.asid17) ∧ (∀ q ∈ v.pipes, q.2.asid ≠ p.asid17) ∧ p.asid17 ∉ v.rebases)) ∧
  (∀ (s s1 : State) (asid k : Nat) (c c1 : Context) (n : Nat), s.context? asid = some c → c.st = .running → ctxGroups s asid = [] →
    commandsLeft s asid c = false → (∀ q ∈ s.pipes, q.2.asid ≠ asid) → c.discarded = false → rootState s asid c = (s1, some n) → n ≠ 0 →
    s1.context? asid = some c1 → c.pkt = some k →
    ∃ v c', exec (.contextEnd asid) s = .next (completePacket (writeStatus v asid) k (if n = 1 then 0 else 1) 0) ∧ v.context? asid = some c' ∧
      c'.st = .ended ∧ c'.clusters = []) ∧
  (∀ (s s1 : State) (id : Nat) (p : Packet) (c : Context), packetOf s id 7 = some p → p.checked = false → readContext s p = (s1, some c) →
    (∀ d, launchRefusal s1 p c = some d → exec (.launch id) s = .next (completePacket s1 id 3 d)) ∧
    (launchRefusal s1 p c = none → tabGet? s1.packets id = some p → ∃ t, exec (.launch id) s = .next t ∧
      Claims.Marked t id (fun q => q.checked = true ∧ q.ctx = some c ∧ q.root = p.at' 16 8))) ∧
  (∀ (s s1 s2 : State) (id k : Nat) (p : Packet) (c : Context) (b : List Byte), packetOf s id 8 = some p → p.checked = false →
    readContext s p = (s1, some c) → readPipe s1 p.asid (p.at' 16 8) = (s2, some b) →
    (∀ d, launchRefusal s2 p c = some d → exec (.pipeline id) s = .next (completePacket s2 id 3 d)) ∧
    (launchRefusal s2 p c = none → pipeRefusal s2 b (pipeOf b p.asid33) (12 * p.at' 32 1) = none → freePipe s2 = some k →
      tabGet? s2.packets id = some p → ∃ t, exec (.pipeline id) s = .next t ∧
        Claims.Marked t id (fun q => q.checked = true ∧ q.ctx = some c ∧ q.root = bytesAt b 8 8 ∧
          q.pipe = some (k, { pipeOf b p.asid33 with ways := waysOf (pipeOf b p.asid33).stages })))) ∧
  (∀ (s s1 s2 v : State) (id asid : Nat) (p : Packet) (c x : Context) (cl : List Nat) (b : List Byte) (w : Stamp) (n : Word) (pl : Place),
    tabGet? s.packets id = some p → p.ctx = some c → p.pipe = none → asid = p.asid33 → chooseClusters s (p.at' 32 1) = some cl →
    forumRead (placeContext s id asid c cl none) asid p.root 128 = (s1, .ok (b, w)) → s1.context? asid = some x →
    futureOk x.regs (closureOf b).future = true → closureOk (closureOf b) = true →
    takeSerial (s1.modContext asid (fun x => { x with rootFuture := (closureOf b).future })) asid (12 * cl.headD 0) = (s2, n) →
    ordinaryPlace s2 (12 * cl.headD 0) (closureOf b).demand none (closureOf b).scr = some pl →
    startTask s2 (12 * cl.headD 0) (closureOf b) n 0 0x1FF true true pl = some v →
    exec (.allotmentPlacement id) s = .next (settleStages v asid) ∧
      ∃ u, placeContext s id asid c cl none = writeStatus u asid ∧
        u.context? asid = some { c with clusters := cl, pkt := some id, pipe := none } ∧ Claims.Marked u id (fun q => q.started = true))

/-! ## The host, the peers, the boot ROM and the plant -/

namespace Claims

/-- A write of the management register at an offset that has no behaviour of its own (R452). -/
def hostWrites : List (Nat × (HostS → Word → HostS)) :=
  let lo (x : DWord) (v : Word) : DWord := x.extractLsb' 32 32 ++ v
  let hi (x : DWord) (v : Word) : DWord := v ++ x.extractLsb' 0 32
  let cap (n : Nat) : BitVec 16 := BitVec.ofNat 16 (max 150 (min 700 n))
  let caps (v : Word) : Word := cap (v.toNat / 65536) ++ cap (v.toNat % 65536)
  [(0x08, fun h v => { h with fwlen := v }), (0x10, fun h v => { h with qtable := lo h.qtable v }), (0x14, fun h v => { h with qtable := hi h.qtable v }),
   (0x28, fun h v => { h with apasid := v &&& 0xFF }), (0x2C, fun h v => { h with hosterr := h.hosterr &&& ~~~ v }),
   (0x40, fun h v => { h with pcap := lo h.pcap (caps v) }), (0x44, fun h v => { h with pcap := hi h.pcap (caps v) })]

/-- The access that an event brings to the module: in the aperture, under K_APASID and at K_APBASE plus its offset as these registers are now
(R437), and a write of at least one byte; or to the firmware window, a doorbell, or a peer's access of a legal size. -/
def arrival (s : State) : Instr → Option HostAccess
  | .apertureWrite off bs =>
    if bs ≠ [] ∧ off + bs.length ≤ 2 ^ 36 then some (.write (hostAsid s) (s.host.apbase.toNat + off) bs) else none
  | .apertureRead off n => if off + n ≤ 2 ^ 36 then some (.read (hostAsid s) (s.host.apbase.toNat + off) n) else none
  | .firmwareWindowAccess off bs => some (.firmware off bs)
  | .doorbell q => some (.doorbell q)
  | .peerAccess asid va op => if asid < 256 ∧ peerSize op ∈ [1, 2, 4, 8, 16] then some (.peer asid va op) else none
  | _ => none

end Claims

/-- R437, R436, R438, R452, R440, R439, R441: accesses of the host through the aperture and to the firmware window, doorbells and management
registers, which read back what they hold; accesses of peers; links that train, fall and retry. An access behind one of its side that waits
for room (R369) waits too, and a waiting one goes on when it meets room. -/
def Obligations.HostAndLinkStepsTakePlace : Prop :=
  (∀ (s s' : State) (off : Nat) (bs : List Byte), s.host.boot ≠ .off → bs ≠ [] → off + bs.length ≤ 2 ^ 36 → s.host.waits = [] → s'.blocked = false →
    (∀ w, devWrite s 0 (hostAsid s) (s.host.apbase.toNat + off) bs 0 (hostProvOf (hostAsid s)) = (s', .ok w) →
      exec (.apertureWrite off bs) s = .next s') ∧
    (∀ d, devWrite s 0 (hostAsid s) (s.host.apbase.toNat + off) bs 0 (hostProvOf (hostAsid s)) = (s', .error (5, d)) →
      ∃ t, exec (.apertureWrite off bs) s = .next t ∧ t.host.hosterr.getLsbD 1 = true ∧ t.slices = s'.slices)) ∧
  (∀ (s s' : State) (off n : Nat), s.host.boot ≠ .off → off + n ≤ 2 ^ 36 → s.host.waits = [] → s'.blocked = false →
    (∀ b w, devRead s 0 (hostAsid s) (s.host.apbase.toNat + off) n 0 1 = (s', .ok (b, w)) →
      exec (.apertureRead off n) s = .next { s' with host := { s'.host with answer := (b, 0), answerLanes := [] } }) ∧
    (∀ d, devRead s 0 (hostAsid s) (s.host.apbase.toNat + off) n 0 1 = (s', .error (5, d)) →
      ∃ t, exec (.apertureRead off n) s = .next t ∧ t.host.answer = (List.replicate n 0xFF, 1) ∧ t.host.hosterr.getLsbD 1 = true)) ∧
  (∀ (s : State) (i : Instr) (a x : HostAccess), s.host.boot ≠ .off → Claims.arrival s i = some a → x ∈ s.host.waits → x.fromPeer = a.fromPeer →
    exec i s = .next { s with host := { s.host with waits := s.host.waits ++ [a] } }) ∧
  (∀ (s : State) (off : Nat) (a : HostAccess), s.host.boot ≠ .off → off ≤ 2 ^ 36 → s.host.waits = [a] →
    (hostGo { s with host := { s.host with waits := [] } } a).blocked = false →
    exec (.apertureWrite off []) s = .next (hostGo { s with host := { s.host with waits := [] } } a)) ∧
  (∀ (s : State) (off : Nat) (bs : List Byte), s.host.boot ≠ .off → s.blocked = false → (∀ x ∈ s.host.waits, x.fromPeer = true) →
    (s.host.boot = .load → s.host.scrubbing = false → off + bs.length ≤ 2 ^ 24 → cellsWf s.host.fw = true →
      ∃ t, exec (.firmwareWindowAccess off (some bs)) s = .next t ∧
        t = { s with host := { s.host with fw := t.host.fw } } ∧ cellReads t.host.fw off bs.length = bs) ∧
    ((s.host.boot ≠ .load ∨ s.host.scrubbing = true) →
      exec (.firmwareWindowAccess off (some bs)) s = .next { s with host := { s.host with answer := ([], 1), answerLanes := [] } }) ∧
    exec (.firmwareWindowAccess off none) s = .next { s with host := { s.host with answer := ([], 1), answerLanes := [] } }) ∧
  (∀ (s s' : State) (q : Nat) (x : Queue) (b : List Byte) (w : Stamp), forumRuns s = true → s.host.boot ≠ .off → s.host.waits = [] →
    s.blocked = false → s'.blocked = false → tabGet? s.queues (q % 4096) = some x → x.mapped = true →
    (x.qp = true → exec (.doorbell q) s = .next s) ∧
    (x.qp = false → forumRead s (hostAsid s) (qtAddr s (q % 4096) + 16) 8 = (s', .ok (b, w)) → tabGet? s'.queues (q % 4096) = some x →
      ∃ t y, exec (.doorbell q) s = .next t ∧ tabGet? t.queues (q % 4096) = some y ∧ y = { x with write := bytesVal b })) ∧
  (∀ (s : State) (v : Word), s.host.boot ≠ .off → ∀ p ∈ Claims.hostWrites,
    exec (.hostRegisterWrite p.1 v) s = .next { s with host := p.2 s.host v }) ∧
  (∀ (s : State) (v : Word), s.host.boot ≠ .off → ∀ k ∈ [0x08, 0x10, 0x14],
    ∃ t, exec (.hostRegisterWrite k v) s = .next t ∧ hostRegister t k = v) ∧
  (∀ (s s' : State) (asid va n : Nat) (bs : List Byte), s.host.boot ≠ .off → s.host.waits = [] → s'.blocked = false → asid < 256 → n ∈ [1, 2, 4, 8, 16] → va % n = 0 →
    (∀ b w, devRead s 0 asid va n 0 1 = (s', .ok (b, w)) →
      exec (.peerAccess asid va (.read n)) s = .next { s' with host := { s'.host with answer := (b, 0), answerLanes := [] } }) ∧
    (∀ w, bs.length = n → devWrite s 0 asid va bs 0 (hostProvOf asid) = (s', .ok w) →
      exec (.peerAccess asid va (.write bs)) s = .next { s' with host := { s'.host with answer := ([], 0), answerLanes := [] } })) ∧
  (∀ (s s' s'' : State) (asid va : Nat) (v : Fin 8) (t : Ty) (fadd : Bool) (lanes : List (Nat × DWord × DWord)) (r : PlbRec) (d : BitVec 1024)
    (m p : BitVec 128) (z : Nat) (c : Nat × Nat) (x : Performed) (w : Stamp) (h : State), s.host.boot ≠ .off → (∀ y ∈ s.host.waits, y.fromPeer = false) →
    asid < 256 → va % t.bytes = 0 → mtuCheck s 0 asid va 27 = (s', .ok r) → homeAccess s' r asid va none = (s'', .ok (d, m, p, z, c.1, c.2)) →
    x = performLanes (.atomic v.val fadd t false) t.bytes
      (lanes.zipIdx.map (fun (a, n) => ⟨n, BitVec.ofNat 64 (va / 128 * 128 + a.1 % 128), a.2.1, a.2.2⟩)) d m p c →
    (x.mask ≠ 0 ∨ x.un = []) → (∀ a ∈ x.un, byteMask (a.addr.toNat % 128) t.bytes &&& ~~~ m = 0) →
    homeWrite s'' (homeSlice r.place r.home va) (tagAsid asid va) (va / 128) 0 x.data x.mask 0 (hostProvOf asid) = (h, some w) → h.blocked = false →
    ∀ codes, codes = (List.range lanes.length).map (fun k => if x.un.any (fun a => a.lane == k) then 2 else 0) →
    exec (.peerAccess asid va (.atomic v t fadd lanes)) s = .next { h with host := { h.host with
      answer := (x.olds.flatMap (fun o => valBytes t.bytes o.2.toNat), if 2 ∈ codes then 2 else 0), answerLanes := codes } }) ∧
  (∀ (s : State) (port m : Nat), s.host.boot ≠ .off → port < 16 → s.host.avstat.length = 16 →
    ∃ t, exec (.linkTraining port m) s = .next t ∧ t.host.avstat.getD port 0 = BitVec.ofNat 16 (0x8000 + m % 4096) ∧
      (∀ k, k ≠ port → t.host.avstat.getD k 0 = s.host.avstat.getD k 0)) ∧
  (∀ (s : State) (port : Nat), port < 16 → (s.host.avstat.getD port 0).getLsbD 15 = true →
    ∃ t, exec (.linkDown port) s = .next t ∧ (t.host.avstat.getD port 0).getLsbD 15 = false ∧ (∀ x ∈ t.host.peerPorts, x.2 ≠ port) ∧
      (∀ r ∈ s.requests, onPort s port r = true → r.kind = .load → ∃ r' ∈ t.requests, r'.id = r.id ∧ r'.phase = .ready [] r.waiting 11 4 0) ∧
      (∀ r ∈ s.requests, onPort s port r = false → r ∈ t.requests)) ∧
  (∀ (s : State) (port : Nat), exec (.flitRetry port) s = .next s)

/-- R442 to R449, R332: the states of the boot, attestation, scrub and recovery, and the power domains. -/
def Obligations.BootStepsTakePlace : Prop :=
  (∀ s : State, s.host.boot = .off → ∃ t, exec .powerOn s = .next t ∧ t.host.boot = .selftest ∧ t.host.msix = s.host.msix ++ [0]) ∧
  (∀ s : State, ∃ t, exec .powerLoss s = .next t ∧ t.host.boot = .off ∧ t.host.record = 0 ∧ t.host.scrubbing = false ∧ t.groups = [] ∧
    t.contexts = [] ∧ t.hbm = [] ∧ t.cores = []) ∧
  (∀ (s : State) (r : SelfTestReport), s.host.boot = .selftest → s.host.scrubbing = false →
    ∃ t, exec (.selftest r) s = .next t ∧ t.host.boot = (if r.dieZeroGood then .train0 else .failed) ∧
      t.host.drift = (r.otherDrift || r.bad.any (fun u => !(manifestUnits r).contains u)) ∧ t.host.noman = !r.manifestGood ∧ t.host.meas0 = Config.romHash ∧ t.host.meas1 = (if r.manifestGood then r.manifestHash else 0) ∧
      (∀ d, d < 4 → (t.die d).phys = (goodCores r d).take 108 ∧ (t.die d).badLanes = laneFaults r d (t.die d).phys ∧
        (∀ k, k ∈ (t.die d).spares ↔ k < 112 ∧ k ∉ (t.die d).phys) ∧
        ((t.die d).good = true ↔ (t.die d).phys.length = 108 ∧
          ∀ a ∈ (t.die d).badLanes, ((t.die d).badLanes.filter (fun b => b.1 == a.1 && b.2.1 == a.2.1)).length ≤ 2))) ∧
  (∀ (s : State), s.host.boot = .train0 → s.host.scrubbing = false →
    (∃ t, exec (.train0 true) s = .next t ∧ t.host.boot = .load ∧ (t.die 0).memUp = true) ∧
    (∃ t, exec (.train0 false) s = .next t ∧ t.host.boot = .failed)) ∧
  (∀ (s : State), s.host.boot = .load → s.host.scrubbing = false →
    (s.host.fwlen.toNat ≠ 0 → s.host.fwlen.toNat ≤ 2 ^ 24 → ∃ t, exec .bootStart s = .next t ∧ t.host.boot = .early ∧
      t.host.meas2 = sha384 (cellReads s.host.fw 0 s.host.fwlen.toNat) ∧ (t.die 0).coreUp = (s.die 0).good ∧ (t.die 0).clock ≤ 48 ∧
      t.host.msix = s.host.msix ++ [0, 0]) ∧
    ((s.host.fwlen.toNat = 0 ∨ 2 ^ 24 < s.host.fwlen.toNat) → exec .bootStart s = .next { s with host := { s.host with err := true } })) ∧
  (∀ (s : State) (d : Nat) (good : Bool), s.host.boot = .early → s.host.scrubbing = false → 0 < d → d < 4 → (s.die d).trained = false →
    ∃ t, exec (.early d good) s = .next t ∧ (t.die d).trained = true ∧ (t.die d).memUp = good ∧ (t.die d).coreUp = ((s.die d).good && good) ∧
      ((∀ k, k < 4 → k ≠ d → (s.die k).trained = true) → t.host.boot = .run) ∧
      ((∃ k, k < 4 ∧ k ≠ d ∧ (s.die k).trained = false) → t.host.boot = .early)) ∧
  (∀ (s : State), s.host.boot ≠ .off → ∃ t b, exec .attest s = .next t ∧ t = { s with host := { s.host with record := t.host.record } } ∧
    b = valBytes 4 1 ++ valBytes 4 (bootStat s.host) ++ valBytes 32 s.host.nonce.toNat ++ valBytes 4 0 ++ valBytes 4 0 ++
      valBytes 48 s.host.meas0.toNat ++ valBytes 48 s.host.meas1.toNat ++ valBytes 48 s.host.meas2.toNat ∧
    valBytes 288 t.host.record.toNat = b ++ valBytes 96 (Config.sign s.host.boots b).toNat) ∧
  (∀ (s : State), s.host.boot ≠ .off → ∃ t, exec .scrub s = .next t ∧ t.host.scrubbing = true ∧ t.groups = [] ∧ t.contexts = [] ∧ t.cores = [] ∧
    t.slices = [] ∧ t.hbm = [] ∧ t.hbmPoison = [] ∧ t.hbmMarked = [] ∧ t.frames = [] ∧ t.roots = [] ∧ t.pools = [] ∧ t.held = [] ∧ t.host.fw = [] ∧
    (∀ d, d < 4 → (t.die d).coreUp = false ∧ (t.die d).memUp = false)) ∧
  (∀ (s : State) (cover : BitVec 11), s.host.scrubbing = true → ∃ t b, exec (.scrubComplete cover) s = .next t ∧ t.host.scrubbing = false ∧
    t.host.boot = .selftest ∧
    b = valBytes 4 2 ++ valBytes 4 (bootStat s.host) ++ valBytes 32 s.host.nonce.toNat ++ valBytes 4 cover.toNat ++ valBytes 4 0 ++
      valBytes 48 s.host.meas0.toNat ++ valBytes 48 s.host.meas1.toNat ++ valBytes 48 0 ∧
    valBytes 288 t.host.record.toNat = b ++ valBytes 96 (Config.sign s.host.boots b).toNat) ∧
  (∀ (s : State) (v : Word), s.host.boot ≠ .off → v.extractLsb' 0 16 = 0xA5C →
    (v.getLsbD 16 = true → exec (.recovery v) s = exec .scrub s) ∧
    (v.getLsbD 16 = false → ∃ t, exec (.recovery v) s = .next t ∧ t.host.boot = .selftest ∧ t.host.fw = [] ∧ t.groups = [] ∧ t.contexts = [] ∧
      t.queues = [] ∧ t.packets = [] ∧ t.hbm = s.hbm ∧ t.host.scrubbing = s.host.scrubbing)) ∧
  (∀ (s : State) (d : Nat), s.host.boot = .run → d < 4 →
    (∃ t, exec (.coreDomainLower d) s = .next t ∧ (t.die d).coreUp = false ∧ t.host.domctl.getLsbD d = false) ∧
    (∃ t, exec (.coreDomainRaise d) s = .next t ∧ (t.die d).coreUp = ((s.die d).good && (s.die d).memGood) ∧ t.host.domctl.getLsbD d = true) ∧
    (∃ t, exec (.memoryDomainLower d) s = .next t ∧ (t.die d).memUp = false ∧ t.host.domctl.getLsbD (4 + d) = false) ∧
    (∃ t, exec (.memoryDomainRaise d) s = .next t ∧ (t.die d).memUp = (s.die d).memGood ∧ t.host.domctl.getLsbD (4 + d) = true))

/-- R450, R451, R306, R377: the clock falls and rises by one step of 25 MHz within its limits, a hot die is held at 1.2 GHz until it cools, a die at
110 °C stops the module; a soft error is counted when corrected and otherwise leaves poison where it struck. -/
def Obligations.PlantStepsTakePlace : Prop :=
  (∀ (s : State) (d : Nat), s.host.boot ≠ .off → d < 4 →
    (∃ t, exec (.powerCapClockDown d) s = .next t ∧ t = { s with dies := t.dies } ∧ t.die d = { s.die d with clock := max 24 ((s.die d).clock - 1) }) ∧
    (∃ t, exec (.powerCapClockUp d) s = .next t ∧ t = { s with dies := t.dies } ∧
      t.die d = { s.die d with clock := min (clockLimit s d) ((s.die d).clock + 1) }) ∧
    (∃ t, exec (.thermalThrottle d) s = .next t ∧ t = { s with dies := t.dies } ∧ t.die d = { s.die d with hot := true, clock := min 48 (s.die d).clock })) ∧
  (∀ (s : State) (d : Nat), s.host.boot ≠ .off → d < 4 →
    ∃ t, exec (.thermalTrip d) s = .next t ∧ t.host.boot = .failed ∧ t.host.meas0 = s.host.meas0 ∧ t.host.hot = true ∧ t.host.scrubbing = false ∧
      t.groups = [] ∧ t.contexts = [] ∧ t.host.fw = []) ∧
  (∀ (s : State) (d : Nat), d < 4 → (s.die d).hot = true →
    ∃ t, exec (.coolBelow90 d) s = .next t ∧ t = { s with dies := t.dies } ∧ t.die d = { s.die d with hot := false }) ∧
  (∀ (s : State), moduleOn s = true →
    (∀ d, d < 4 → ∃ t, exec (.softError (.corrected d)) s = .next t ∧ (t.die d).errors = (s.die d).errors + 1) ∧
    (∀ k, inMemory (32 * k) = true → ∃ t, exec (.softError (.hbm k)) s = .next t ∧ k ∈ t.hbmPoison ∧ t.hbm = s.hbm) ∧
    (∀ core w, core < 432 → w < 131072 → ∃ t, exec (.softError (.scratch core w)) s = .next t ∧ w ∈ (t.core core).scratchPoison ∧
      (t.core core).scratch = (s.core core).scratch) ∧
    (∀ core tile, tile < 16 → ∃ t, exec (.softError (.tile core tile)) s = .next t ∧
      tileOf t core tile = { tileOf s core tile with poison := true }) ∧
    (∀ core, core < 432 → ∃ t, exec (.softError (.l1Corrected core)) s = .next t ∧ (t.core core).errors = (s.core core).errors + 1) ∧
    (∀ k g code, s.group? k = some g → ∃ t g', exec (.softError (.register k code)) s = .next t ∧ t.group? k = some g' ∧ code ∈ g'.poisonRegs ∧
      g'.sregs = g.sregs ∧ g'.vregs = g.vregs) ∧
    (∀ slice asid line m x, x ∈ s.slice slice → x.asid = asid → x.line = line → ∃ t, exec (.softError (.l2 slice asid line m)) s = .next t ∧
      { x with poison := x.poison ||| (m &&& knownBytes x) } ∈ t.slice slice))
end

