-- ==== Sys2Proof/Laws/State.lean ====
section
/-! SUPPORT. What each update of a part of the state leaves alone: one lemma per field and update. -/

namespace Sys2Proof.Machine

/-! ### setGroup -/

@[simp] theorem State.setGroup_requests (s : State) (g : Nat) (x : Group) : (s.setGroup g x).requests = s.requests := rfl
@[simp] theorem State.setGroup_cores (s : State) (g : Nat) (x : Group) : (s.setGroup g x).cores = s.cores := rfl
@[simp] theorem State.setGroup_clusters (s : State) (g : Nat) (x : Group) : (s.setGroup g x).clusters = s.clusters := rfl
@[simp] theorem State.setGroup_dies (s : State) (g : Nat) (x : Group) : (s.setGroup g x).dies = s.dies := rfl
@[simp] theorem State.setGroup_slices (s : State) (g : Nat) (x : Group) : (s.setGroup g x).slices = s.slices := rfl
@[simp] theorem State.setGroup_floors (s : State) (g : Nat) (x : Group) : (s.setGroup g x).floors = s.floors := rfl
@[simp] theorem State.setGroup_watchers (s : State) (g : Nat) (x : Group) : (s.setGroup g x).watchers = s.watchers := rfl
@[simp] theorem State.setGroup_hbm (s : State) (g : Nat) (x : Group) : (s.setGroup g x).hbm = s.hbm := rfl
@[simp] theorem State.setGroup_hbmPoison (s : State) (g : Nat) (x : Group) : (s.setGroup g x).hbmPoison = s.hbmPoison := rfl
@[simp] theorem State.setGroup_hbmMarked (s : State) (g : Nat) (x : Group) : (s.setGroup g x).hbmMarked = s.hbmMarked := rfl
@[simp] theorem State.setGroup_frames (s : State) (g : Nat) (x : Group) : (s.setGroup g x).frames = s.frames := rfl
@[simp] theorem State.setGroup_metaFrames (s : State) (g : Nat) (x : Group) : (s.setGroup g x).metaFrames = s.metaFrames := rfl
@[simp] theorem State.setGroup_tableFrames (s : State) (g : Nat) (x : Group) : (s.setGroup g x).tableFrames = s.tableFrames := rfl
@[simp] theorem State.setGroup_roots (s : State) (g : Nat) (x : Group) : (s.setGroup g x).roots = s.roots := rfl
@[simp] theorem State.setGroup_badPtes (s : State) (g : Nat) (x : Group) : (s.setGroup g x).badPtes = s.badPtes := rfl
@[simp] theorem State.setGroup_pools (s : State) (g : Nat) (x : Group) : (s.setGroup g x).pools = s.pools := rfl
@[simp] theorem State.setGroup_held (s : State) (g : Nat) (x : Group) : (s.setGroup g x).held = s.held := rfl
@[simp] theorem State.setGroup_ctls (s : State) (g : Nat) (x : Group) : (s.setGroup g x).ctls = s.ctls := rfl
@[simp] theorem State.setGroup_contexts (s : State) (g : Nat) (x : Group) : (s.setGroup g x).contexts = s.contexts := rfl
@[simp] theorem State.setGroup_pipes (s : State) (g : Nat) (x : Group) : (s.setGroup g x).pipes = s.pipes := rfl
@[simp] theorem State.setGroup_queues (s : State) (g : Nat) (x : Group) : (s.setGroup g x).queues = s.queues := rfl
@[simp] theorem State.setGroup_packets (s : State) (g : Nat) (x : Group) : (s.setGroup g x).packets = s.packets := rfl
@[simp] theorem State.setGroup_waitItems (s : State) (g : Nat) (x : Group) : (s.setGroup g x).waitItems = s.waitItems := rfl
@[simp] theorem State.setGroup_ringWaits (s : State) (g : Nat) (x : Group) : (s.setGroup g x).ringWaits = s.ringWaits := rfl
@[simp] theorem State.setGroup_rebases (s : State) (g : Nat) (x : Group) : (s.setGroup g x).rebases = s.rebases := rfl
@[simp] theorem State.setGroup_host (s : State) (g : Nat) (x : Group) : (s.setGroup g x).host = s.host := rfl
@[simp] theorem State.setGroup_agenda (s : State) (g : Nat) (x : Group) : (s.setGroup g x).agenda = s.agenda := rfl
@[simp] theorem State.setGroup_cur (s : State) (g : Nat) (x : Group) : (s.setGroup g x).cur = s.cur := rfl
@[simp] theorem State.setGroup_nextId (s : State) (g : Nat) (x : Group) : (s.setGroup g x).nextId = s.nextId := rfl
@[simp] theorem State.setGroup_ticks (s : State) (g : Nat) (x : Group) : (s.setGroup g x).ticks = s.ticks := rfl
@[simp] theorem State.setGroup_turns (s : State) (g : Nat) (x : Group) : (s.setGroup g x).turns = s.turns := rfl
@[simp] theorem State.setGroup_blocked (s : State) (g : Nat) (x : Group) : (s.setGroup g x).blocked = s.blocked := rfl
@[simp] theorem State.setGroup_overflowed (s : State) (g : Nat) (x : Group) : (s.setGroup g x).overflowed = s.overflowed := rfl
@[simp] theorem State.setGroup_ahead (s : State) (g : Nat) (x : Group) : (s.setGroup g x).ahead = s.ahead := rfl

/-! ### setCore -/

@[simp] theorem State.setCore_groups (s : State) (c : Nat) (x : CoreS) : (s.setCore c x).groups = s.groups := rfl
@[simp] theorem State.setCore_requests (s : State) (c : Nat) (x : CoreS) : (s.setCore c x).requests = s.requests := rfl
@[simp] theorem State.setCore_clusters (s : State) (c : Nat) (x : CoreS) : (s.setCore c x).clusters = s.clusters := rfl
@[simp] theorem State.setCore_dies (s : State) (c : Nat) (x : CoreS) : (s.setCore c x).dies = s.dies := rfl
@[simp] theorem State.setCore_slices (s : State) (c : Nat) (x : CoreS) : (s.setCore c x).slices = s.slices := rfl
@[simp] theorem State.setCore_floors (s : State) (c : Nat) (x : CoreS) : (s.setCore c x).floors = s.floors := rfl
@[simp] theorem State.setCore_watchers (s : State) (c : Nat) (x : CoreS) : (s.setCore c x).watchers = s.watchers := rfl
@[simp] theorem State.setCore_hbm (s : State) (c : Nat) (x : CoreS) : (s.setCore c x).hbm = s.hbm := rfl
@[simp] theorem State.setCore_hbmPoison (s : State) (c : Nat) (x : CoreS) : (s.setCore c x).hbmPoison = s.hbmPoison := rfl
@[simp] theorem State.setCore_hbmMarked (s : State) (c : Nat) (x : CoreS) : (s.setCore c x).hbmMarked = s.hbmMarked := rfl
@[simp] theorem State.setCore_frames (s : State) (c : Nat) (x : CoreS) : (s.setCore c x).frames = s.frames := rfl
@[simp] theorem State.setCore_metaFrames (s : State) (c : Nat) (x : CoreS) : (s.setCore c x).metaFrames = s.metaFrames := rfl
@[simp] theorem State.setCore_tableFrames (s : State) (c : Nat) (x : CoreS) : (s.setCore c x).tableFrames = s.tableFrames := rfl
@[simp] theorem State.setCore_roots (s : State) (c : Nat) (x : CoreS) : (s.setCore c x).roots = s.roots := rfl
@[simp] theorem State.setCore_badPtes (s : State) (c : Nat) (x : CoreS) : (s.setCore c x).badPtes = s.badPtes := rfl
@[simp] theorem State.setCore_pools (s : State) (c : Nat) (x : CoreS) : (s.setCore c x).pools = s.pools := rfl
@[simp] theorem State.setCore_held (s : State) (c : Nat) (x : CoreS) : (s.setCore c x).held = s.held := rfl
@[simp] theorem State.setCore_ctls (s : State) (c : Nat) (x : CoreS) : (s.setCore c x).ctls = s.ctls := rfl
@[simp] theorem State.setCore_contexts (s : State) (c : Nat) (x : CoreS) : (s.setCore c x).contexts = s.contexts := rfl
@[simp] theorem State.setCore_pipes (s : State) (c : Nat) (x : CoreS) : (s.setCore c x).pipes = s.pipes := rfl
@[simp] theorem State.setCore_queues (s : State) (c : Nat) (x : CoreS) : (s.setCore c x).queues = s.queues := rfl
@[simp] theorem State.setCore_packets (s : State) (c : Nat) (x : CoreS) : (s.setCore c x).packets = s.packets := rfl
@[simp] theorem State.setCore_waitItems (s : State) (c : Nat) (x : CoreS) : (s.setCore c x).waitItems = s.waitItems := rfl
@[simp] theorem State.setCore_ringWaits (s : State) (c : Nat) (x : CoreS) : (s.setCore c x).ringWaits = s.ringWaits := rfl
@[simp] theorem State.setCore_rebases (s : State) (c : Nat) (x : CoreS) : (s.setCore c x).rebases = s.rebases := rfl
@[simp] theorem State.setCore_host (s : State) (c : Nat) (x : CoreS) : (s.setCore c x).host = s.host := rfl
@[simp] theorem State.setCore_agenda (s : State) (c : Nat) (x : CoreS) : (s.setCore c x).agenda = s.agenda := rfl
@[simp] theorem State.setCore_cur (s : State) (c : Nat) (x : CoreS) : (s.setCore c x).cur = s.cur := rfl
@[simp] theorem State.setCore_nextId (s : State) (c : Nat) (x : CoreS) : (s.setCore c x).nextId = s.nextId := rfl
@[simp] theorem State.setCore_ticks (s : State) (c : Nat) (x : CoreS) : (s.setCore c x).ticks = s.ticks := rfl
@[simp] theorem State.setCore_turns (s : State) (c : Nat) (x : CoreS) : (s.setCore c x).turns = s.turns := rfl
@[simp] theorem State.setCore_blocked (s : State) (c : Nat) (x : CoreS) : (s.setCore c x).blocked = s.blocked := rfl
@[simp] theorem State.setCore_overflowed (s : State) (c : Nat) (x : CoreS) : (s.setCore c x).overflowed = s.overflowed := rfl
@[simp] theorem State.setCore_ahead (s : State) (c : Nat) (x : CoreS) : (s.setCore c x).ahead = s.ahead := rfl

/-! ### modCore -/

@[simp] theorem State.modCore_groups (s : State) (c : Nat) (f : CoreS → CoreS) : (s.modCore c f).groups = s.groups := rfl
@[simp] theorem State.modCore_requests (s : State) (c : Nat) (f : CoreS → CoreS) : (s.modCore c f).requests = s.requests := rfl
@[simp] theorem State.modCore_clusters (s : State) (c : Nat) (f : CoreS → CoreS) : (s.modCore c f).clusters = s.clusters := rfl
@[simp] theorem State.modCore_dies (s : State) (c : Nat) (f : CoreS → CoreS) : (s.modCore c f).dies = s.dies := rfl
@[simp] theorem State.modCore_slices (s : State) (c : Nat) (f : CoreS → CoreS) : (s.modCore c f).slices = s.slices := rfl
@[simp] theorem State.modCore_floors (s : State) (c : Nat) (f : CoreS → CoreS) : (s.modCore c f).floors = s.floors := rfl
@[simp] theorem State.modCore_watchers (s : State) (c : Nat) (f : CoreS → CoreS) : (s.modCore c f).watchers = s.watchers := rfl
@[simp] theorem State.modCore_hbm (s : State) (c : Nat) (f : CoreS → CoreS) : (s.modCore c f).hbm = s.hbm := rfl
@[simp] theorem State.modCore_hbmPoison (s : State) (c : Nat) (f : CoreS → CoreS) : (s.modCore c f).hbmPoison = s.hbmPoison := rfl
@[simp] theorem State.modCore_hbmMarked (s : State) (c : Nat) (f : CoreS → CoreS) : (s.modCore c f).hbmMarked = s.hbmMarked := rfl
@[simp] theorem State.modCore_frames (s : State) (c : Nat) (f : CoreS → CoreS) : (s.modCore c f).frames = s.frames := rfl
@[simp] theorem State.modCore_metaFrames (s : State) (c : Nat) (f : CoreS → CoreS) : (s.modCore c f).metaFrames = s.metaFrames := rfl
@[simp] theorem State.modCore_tableFrames (s : State) (c : Nat) (f : CoreS → CoreS) : (s.modCore c f).tableFrames = s.tableFrames := rfl
@[simp] theorem State.modCore_roots (s : State) (c : Nat) (f : CoreS → CoreS) : (s.modCore c f).roots = s.roots := rfl
@[simp] theorem State.modCore_badPtes (s : State) (c : Nat) (f : CoreS → CoreS) : (s.modCore c f).badPtes = s.badPtes := rfl
@[simp] theorem State.modCore_pools (s : State) (c : Nat) (f : CoreS → CoreS) : (s.modCore c f).pools = s.pools := rfl
@[simp] theorem State.modCore_held (s : State) (c : Nat) (f : CoreS → CoreS) : (s.modCore c f).held = s.held := rfl
@[simp] theorem State.modCore_ctls (s : State) (c : Nat) (f : CoreS → CoreS) : (s.modCore c f).ctls = s.ctls := rfl
@[simp] theorem State.modCore_contexts (s : State) (c : Nat) (f : CoreS → CoreS) : (s.modCore c f).contexts = s.contexts := rfl
@[simp] theorem State.modCore_pipes (s : State) (c : Nat) (f : CoreS → CoreS) : (s.modCore c f).pipes = s.pipes := rfl
@[simp] theorem State.modCore_queues (s : State) (c : Nat) (f : CoreS → CoreS) : (s.modCore c f).queues = s.queues := rfl
@[simp] theorem State.modCore_packets (s : State) (c : Nat) (f : CoreS → CoreS) : (s.modCore c f).packets = s.packets := rfl
@[simp] theorem State.modCore_waitItems (s : State) (c : Nat) (f : CoreS → CoreS) : (s.modCore c f).waitItems = s.waitItems := rfl
@[simp] theorem State.modCore_ringWaits (s : State) (c : Nat) (f : CoreS → CoreS) : (s.modCore c f).ringWaits = s.ringWaits := rfl
@[simp] theorem State.modCore_rebases (s : State) (c : Nat) (f : CoreS → CoreS) : (s.modCore c f).rebases = s.rebases := rfl
@[simp] theorem State.modCore_host (s : State) (c : Nat) (f : CoreS → CoreS) : (s.modCore c f).host = s.host := rfl
@[simp] theorem State.modCore_agenda (s : State) (c : Nat) (f : CoreS → CoreS) : (s.modCore c f).agenda = s.agenda := rfl
@[simp] theorem State.modCore_cur (s : State) (c : Nat) (f : CoreS → CoreS) : (s.modCore c f).cur = s.cur := rfl
@[simp] theorem State.modCore_nextId (s : State) (c : Nat) (f : CoreS → CoreS) : (s.modCore c f).nextId = s.nextId := rfl
@[simp] theorem State.modCore_ticks (s : State) (c : Nat) (f : CoreS → CoreS) : (s.modCore c f).ticks = s.ticks := rfl
@[simp] theorem State.modCore_turns (s : State) (c : Nat) (f : CoreS → CoreS) : (s.modCore c f).turns = s.turns := rfl
@[simp] theorem State.modCore_blocked (s : State) (c : Nat) (f : CoreS → CoreS) : (s.modCore c f).blocked = s.blocked := rfl
@[simp] theorem State.modCore_overflowed (s : State) (c : Nat) (f : CoreS → CoreS) : (s.modCore c f).overflowed = s.overflowed := rfl
@[simp] theorem State.modCore_ahead (s : State) (c : Nat) (f : CoreS → CoreS) : (s.modCore c f).ahead = s.ahead := rfl

/-! ### modCluster -/

@[simp] theorem State.modCluster_groups (s : State) (k : Nat) (f : ClusterS → ClusterS) : (s.modCluster k f).groups = s.groups := rfl
@[simp] theorem State.modCluster_requests (s : State) (k : Nat) (f : ClusterS → ClusterS) : (s.modCluster k f).requests = s.requests := rfl
@[simp] theorem State.modCluster_cores (s : State) (k : Nat) (f : ClusterS → ClusterS) : (s.modCluster k f).cores = s.cores := rfl
@[simp] theorem State.modCluster_dies (s : State) (k : Nat) (f : ClusterS → ClusterS) : (s.modCluster k f).dies = s.dies := rfl
@[simp] theorem State.modCluster_slices (s : State) (k : Nat) (f : ClusterS → ClusterS) : (s.modCluster k f).slices = s.slices := rfl
@[simp] theorem State.modCluster_floors (s : State) (k : Nat) (f : ClusterS → ClusterS) : (s.modCluster k f).floors = s.floors := rfl
@[simp] theorem State.modCluster_watchers (s : State) (k : Nat) (f : ClusterS → ClusterS) : (s.modCluster k f).watchers = s.watchers := rfl
@[simp] theorem State.modCluster_hbm (s : State) (k : Nat) (f : ClusterS → ClusterS) : (s.modCluster k f).hbm = s.hbm := rfl
@[simp] theorem State.modCluster_hbmPoison (s : State) (k : Nat) (f : ClusterS → ClusterS) : (s.modCluster k f).hbmPoison = s.hbmPoison := rfl
@[simp] theorem State.modCluster_hbmMarked (s : State) (k : Nat) (f : ClusterS → ClusterS) : (s.modCluster k f).hbmMarked = s.hbmMarked := rfl
@[simp] theorem State.modCluster_frames (s : State) (k : Nat) (f : ClusterS → ClusterS) : (s.modCluster k f).frames = s.frames := rfl
@[simp] theorem State.modCluster_metaFrames (s : State) (k : Nat) (f : ClusterS → ClusterS) : (s.modCluster k f).metaFrames = s.metaFrames := rfl
@[simp] theorem State.modCluster_tableFrames (s : State) (k : Nat) (f : ClusterS → ClusterS) : (s.modCluster k f).tableFrames = s.tableFrames := rfl
@[simp] theorem State.modCluster_roots (s : State) (k : Nat) (f : ClusterS → ClusterS) : (s.modCluster k f).roots = s.roots := rfl
@[simp] theorem State.modCluster_badPtes (s : State) (k : Nat) (f : ClusterS → ClusterS) : (s.modCluster k f).badPtes = s.badPtes := rfl
@[simp] theorem State.modCluster_pools (s : State) (k : Nat) (f : ClusterS → ClusterS) : (s.modCluster k f).pools = s.pools := rfl
@[simp] theorem State.modCluster_held (s : State) (k : Nat) (f : ClusterS → ClusterS) : (s.modCluster k f).held = s.held := rfl
@[simp] theorem State.modCluster_ctls (s : State) (k : Nat) (f : ClusterS → ClusterS) : (s.modCluster k f).ctls = s.ctls := rfl
@[simp] theorem State.modCluster_contexts (s : State) (k : Nat) (f : ClusterS → ClusterS) : (s.modCluster k f).contexts = s.contexts := rfl
@[simp] theorem State.modCluster_pipes (s : State) (k : Nat) (f : ClusterS → ClusterS) : (s.modCluster k f).pipes = s.pipes := rfl
@[simp] theorem State.modCluster_queues (s : State) (k : Nat) (f : ClusterS → ClusterS) : (s.modCluster k f).queues = s.queues := rfl
@[simp] theorem State.modCluster_packets (s : State) (k : Nat) (f : ClusterS → ClusterS) : (s.modCluster k f).packets = s.packets := rfl
@[simp] theorem State.modCluster_waitItems (s : State) (k : Nat) (f : ClusterS → ClusterS) : (s.modCluster k f).waitItems = s.waitItems := rfl
@[simp] theorem State.modCluster_ringWaits (s : State) (k : Nat) (f : ClusterS → ClusterS) : (s.modCluster k f).ringWaits = s.ringWaits := rfl
@[simp] theorem State.modCluster_rebases (s : State) (k : Nat) (f : ClusterS → ClusterS) : (s.modCluster k f).rebases = s.rebases := rfl
@[simp] theorem State.modCluster_host (s : State) (k : Nat) (f : ClusterS → ClusterS) : (s.modCluster k f).host = s.host := rfl
@[simp] theorem State.modCluster_agenda (s : State) (k : Nat) (f : ClusterS → ClusterS) : (s.modCluster k f).agenda = s.agenda := rfl
@[simp] theorem State.modCluster_cur (s : State) (k : Nat) (f : ClusterS → ClusterS) : (s.modCluster k f).cur = s.cur := rfl
@[simp] theorem State.modCluster_nextId (s : State) (k : Nat) (f : ClusterS → ClusterS) : (s.modCluster k f).nextId = s.nextId := rfl
@[simp] theorem State.modCluster_ticks (s : State) (k : Nat) (f : ClusterS → ClusterS) : (s.modCluster k f).ticks = s.ticks := rfl
@[simp] theorem State.modCluster_turns (s : State) (k : Nat) (f : ClusterS → ClusterS) : (s.modCluster k f).turns = s.turns := rfl
@[simp] theorem State.modCluster_blocked (s : State) (k : Nat) (f : ClusterS → ClusterS) : (s.modCluster k f).blocked = s.blocked := rfl
@[simp] theorem State.modCluster_overflowed (s : State) (k : Nat) (f : ClusterS → ClusterS) : (s.modCluster k f).overflowed = s.overflowed := rfl
@[simp] theorem State.modCluster_ahead (s : State) (k : Nat) (f : ClusterS → ClusterS) : (s.modCluster k f).ahead = s.ahead := rfl

/-! ### setSlice -/

@[simp] theorem State.setSlice_groups (s : State) (k : Nat) (l : List L2Line) : (s.setSlice k l).groups = s.groups := rfl
@[simp] theorem State.setSlice_requests (s : State) (k : Nat) (l : List L2Line) : (s.setSlice k l).requests = s.requests := rfl
@[simp] theorem State.setSlice_cores (s : State) (k : Nat) (l : List L2Line) : (s.setSlice k l).cores = s.cores := rfl
@[simp] theorem State.setSlice_clusters (s : State) (k : Nat) (l : List L2Line) : (s.setSlice k l).clusters = s.clusters := rfl
@[simp] theorem State.setSlice_dies (s : State) (k : Nat) (l : List L2Line) : (s.setSlice k l).dies = s.dies := rfl
@[simp] theorem State.setSlice_floors (s : State) (k : Nat) (l : List L2Line) : (s.setSlice k l).floors = s.floors := rfl
@[simp] theorem State.setSlice_watchers (s : State) (k : Nat) (l : List L2Line) : (s.setSlice k l).watchers = s.watchers := rfl
@[simp] theorem State.setSlice_hbm (s : State) (k : Nat) (l : List L2Line) : (s.setSlice k l).hbm = s.hbm := rfl
@[simp] theorem State.setSlice_hbmPoison (s : State) (k : Nat) (l : List L2Line) : (s.setSlice k l).hbmPoison = s.hbmPoison := rfl
@[simp] theorem State.setSlice_hbmMarked (s : State) (k : Nat) (l : List L2Line) : (s.setSlice k l).hbmMarked = s.hbmMarked := rfl
@[simp] theorem State.setSlice_frames (s : State) (k : Nat) (l : List L2Line) : (s.setSlice k l).frames = s.frames := rfl
@[simp] theorem State.setSlice_metaFrames (s : State) (k : Nat) (l : List L2Line) : (s.setSlice k l).metaFrames = s.metaFrames := rfl
@[simp] theorem State.setSlice_tableFrames (s : State) (k : Nat) (l : List L2Line) : (s.setSlice k l).tableFrames = s.tableFrames := rfl
@[simp] theorem State.setSlice_roots (s : State) (k : Nat) (l : List L2Line) : (s.setSlice k l).roots = s.roots := rfl
@[simp] theorem State.setSlice_badPtes (s : State) (k : Nat) (l : List L2Line) : (s.setSlice k l).badPtes = s.badPtes := rfl
@[simp] theorem State.setSlice_pools (s : State) (k : Nat) (l : List L2Line) : (s.setSlice k l).pools = s.pools := rfl
@[simp] theorem State.setSlice_held (s : State) (k : Nat) (l : List L2Line) : (s.setSlice k l).held = s.held := rfl
@[simp] theorem State.setSlice_ctls (s : State) (k : Nat) (l : List L2Line) : (s.setSlice k l).ctls = s.ctls := rfl
@[simp] theorem State.setSlice_contexts (s : State) (k : Nat) (l : List L2Line) : (s.setSlice k l).contexts = s.contexts := rfl
@[simp] theorem State.setSlice_pipes (s : State) (k : Nat) (l : List L2Line) : (s.setSlice k l).pipes = s.pipes := rfl
@[simp] theorem State.setSlice_queues (s : State) (k : Nat) (l : List L2Line) : (s.setSlice k l).queues = s.queues := rfl
@[simp] theorem State.setSlice_packets (s : State) (k : Nat) (l : List L2Line) : (s.setSlice k l).packets = s.packets := rfl
@[simp] theorem State.setSlice_waitItems (s : State) (k : Nat) (l : List L2Line) : (s.setSlice k l).waitItems = s.waitItems := rfl
@[simp] theorem State.setSlice_ringWaits (s : State) (k : Nat) (l : List L2Line) : (s.setSlice k l).ringWaits = s.ringWaits := rfl
@[simp] theorem State.setSlice_rebases (s : State) (k : Nat) (l : List L2Line) : (s.setSlice k l).rebases = s.rebases := rfl
@[simp] theorem State.setSlice_host (s : State) (k : Nat) (l : List L2Line) : (s.setSlice k l).host = s.host := rfl
@[simp] theorem State.setSlice_agenda (s : State) (k : Nat) (l : List L2Line) : (s.setSlice k l).agenda = s.agenda := rfl
@[simp] theorem State.setSlice_cur (s : State) (k : Nat) (l : List L2Line) : (s.setSlice k l).cur = s.cur := rfl
@[simp] theorem State.setSlice_nextId (s : State) (k : Nat) (l : List L2Line) : (s.setSlice k l).nextId = s.nextId := rfl
@[simp] theorem State.setSlice_ticks (s : State) (k : Nat) (l : List L2Line) : (s.setSlice k l).ticks = s.ticks := rfl
@[simp] theorem State.setSlice_turns (s : State) (k : Nat) (l : List L2Line) : (s.setSlice k l).turns = s.turns := rfl
@[simp] theorem State.setSlice_blocked (s : State) (k : Nat) (l : List L2Line) : (s.setSlice k l).blocked = s.blocked := rfl
@[simp] theorem State.setSlice_overflowed (s : State) (k : Nat) (l : List L2Line) : (s.setSlice k l).overflowed = s.overflowed := rfl
@[simp] theorem State.setSlice_ahead (s : State) (k : Nat) (l : List L2Line) : (s.setSlice k l).ahead = s.ahead := rfl

/-! ### modFrame -/

@[simp] theorem State.modFrame_groups (s : State) (k : Nat) (f : Frame → Frame) : (s.modFrame k f).groups = s.groups := rfl
@[simp] theorem State.modFrame_requests (s : State) (k : Nat) (f : Frame → Frame) : (s.modFrame k f).requests = s.requests := rfl
@[simp] theorem State.modFrame_cores (s : State) (k : Nat) (f : Frame → Frame) : (s.modFrame k f).cores = s.cores := rfl
@[simp] theorem State.modFrame_clusters (s : State) (k : Nat) (f : Frame → Frame) : (s.modFrame k f).clusters = s.clusters := rfl
@[simp] theorem State.modFrame_dies (s : State) (k : Nat) (f : Frame → Frame) : (s.modFrame k f).dies = s.dies := rfl
@[simp] theorem State.modFrame_slices (s : State) (k : Nat) (f : Frame → Frame) : (s.modFrame k f).slices = s.slices := rfl
@[simp] theorem State.modFrame_floors (s : State) (k : Nat) (f : Frame → Frame) : (s.modFrame k f).floors = s.floors := rfl
@[simp] theorem State.modFrame_watchers (s : State) (k : Nat) (f : Frame → Frame) : (s.modFrame k f).watchers = s.watchers := rfl
@[simp] theorem State.modFrame_hbm (s : State) (k : Nat) (f : Frame → Frame) : (s.modFrame k f).hbm = s.hbm := rfl
@[simp] theorem State.modFrame_hbmPoison (s : State) (k : Nat) (f : Frame → Frame) : (s.modFrame k f).hbmPoison = s.hbmPoison := rfl
@[simp] theorem State.modFrame_hbmMarked (s : State) (k : Nat) (f : Frame → Frame) : (s.modFrame k f).hbmMarked = s.hbmMarked := rfl
@[simp] theorem State.modFrame_metaFrames (s : State) (k : Nat) (f : Frame → Frame) : (s.modFrame k f).metaFrames = s.metaFrames := rfl
@[simp] theorem State.modFrame_tableFrames (s : State) (k : Nat) (f : Frame → Frame) : (s.modFrame k f).tableFrames = s.tableFrames := rfl
@[simp] theorem State.modFrame_roots (s : State) (k : Nat) (f : Frame → Frame) : (s.modFrame k f).roots = s.roots := rfl
@[simp] theorem State.modFrame_badPtes (s : State) (k : Nat) (f : Frame → Frame) : (s.modFrame k f).badPtes = s.badPtes := rfl
@[simp] theorem State.modFrame_pools (s : State) (k : Nat) (f : Frame → Frame) : (s.modFrame k f).pools = s.pools := rfl
@[simp] theorem State.modFrame_held (s : State) (k : Nat) (f : Frame → Frame) : (s.modFrame k f).held = s.held := rfl
@[simp] theorem State.modFrame_ctls (s : State) (k : Nat) (f : Frame → Frame) : (s.modFrame k f).ctls = s.ctls := rfl
@[simp] theorem State.modFrame_contexts (s : State) (k : Nat) (f : Frame → Frame) : (s.modFrame k f).contexts = s.contexts := rfl
@[simp] theorem State.modFrame_pipes (s : State) (k : Nat) (f : Frame → Frame) : (s.modFrame k f).pipes = s.pipes := rfl
@[simp] theorem State.modFrame_queues (s : State) (k : Nat) (f : Frame → Frame) : (s.modFrame k f).queues = s.queues := rfl
@[simp] theorem State.modFrame_packets (s : State) (k : Nat) (f : Frame → Frame) : (s.modFrame k f).packets = s.packets := rfl
@[simp] theorem State.modFrame_waitItems (s : State) (k : Nat) (f : Frame → Frame) : (s.modFrame k f).waitItems = s.waitItems := rfl
@[simp] theorem State.modFrame_ringWaits (s : State) (k : Nat) (f : Frame → Frame) : (s.modFrame k f).ringWaits = s.ringWaits := rfl
@[simp] theorem State.modFrame_rebases (s : State) (k : Nat) (f : Frame → Frame) : (s.modFrame k f).rebases = s.rebases := rfl
@[simp] theorem State.modFrame_host (s : State) (k : Nat) (f : Frame → Frame) : (s.modFrame k f).host = s.host := rfl
@[simp] theorem State.modFrame_agenda (s : State) (k : Nat) (f : Frame → Frame) : (s.modFrame k f).agenda = s.agenda := rfl
@[simp] theorem State.modFrame_cur (s : State) (k : Nat) (f : Frame → Frame) : (s.modFrame k f).cur = s.cur := rfl
@[simp] theorem State.modFrame_nextId (s : State) (k : Nat) (f : Frame → Frame) : (s.modFrame k f).nextId = s.nextId := rfl
@[simp] theorem State.modFrame_ticks (s : State) (k : Nat) (f : Frame → Frame) : (s.modFrame k f).ticks = s.ticks := rfl
@[simp] theorem State.modFrame_turns (s : State) (k : Nat) (f : Frame → Frame) : (s.modFrame k f).turns = s.turns := rfl
@[simp] theorem State.modFrame_blocked (s : State) (k : Nat) (f : Frame → Frame) : (s.modFrame k f).blocked = s.blocked := rfl
@[simp] theorem State.modFrame_overflowed (s : State) (k : Nat) (f : Frame → Frame) : (s.modFrame k f).overflowed = s.overflowed := rfl
@[simp] theorem State.modFrame_ahead (s : State) (k : Nat) (f : Frame → Frame) : (s.modFrame k f).ahead = s.ahead := rfl

/-! ### modCtl -/

@[simp] theorem State.modCtl_groups (s : State) (k : Nat) (f : Ctl → Ctl) : (s.modCtl k f).groups = s.groups := rfl
@[simp] theorem State.modCtl_requests (s : State) (k : Nat) (f : Ctl → Ctl) : (s.modCtl k f).requests = s.requests := rfl
@[simp] theorem State.modCtl_cores (s : State) (k : Nat) (f : Ctl → Ctl) : (s.modCtl k f).cores = s.cores := rfl
@[simp] theorem State.modCtl_clusters (s : State) (k : Nat) (f : Ctl → Ctl) : (s.modCtl k f).clusters = s.clusters := rfl
@[simp] theorem State.modCtl_dies (s : State) (k : Nat) (f : Ctl → Ctl) : (s.modCtl k f).dies = s.dies := rfl
@[simp] theorem State.modCtl_slices (s : State) (k : Nat) (f : Ctl → Ctl) : (s.modCtl k f).slices = s.slices := rfl
@[simp] theorem State.modCtl_floors (s : State) (k : Nat) (f : Ctl → Ctl) : (s.modCtl k f).floors = s.floors := rfl
@[simp] theorem State.modCtl_watchers (s : State) (k : Nat) (f : Ctl → Ctl) : (s.modCtl k f).watchers = s.watchers := rfl
@[simp] theorem State.modCtl_hbm (s : State) (k : Nat) (f : Ctl → Ctl) : (s.modCtl k f).hbm = s.hbm := rfl
@[simp] theorem State.modCtl_hbmPoison (s : State) (k : Nat) (f : Ctl → Ctl) : (s.modCtl k f).hbmPoison = s.hbmPoison := rfl
@[simp] theorem State.modCtl_hbmMarked (s : State) (k : Nat) (f : Ctl → Ctl) : (s.modCtl k f).hbmMarked = s.hbmMarked := rfl
@[simp] theorem State.modCtl_frames (s : State) (k : Nat) (f : Ctl → Ctl) : (s.modCtl k f).frames = s.frames := rfl
@[simp] theorem State.modCtl_metaFrames (s : State) (k : Nat) (f : Ctl → Ctl) : (s.modCtl k f).metaFrames = s.metaFrames := rfl
@[simp] theorem State.modCtl_tableFrames (s : State) (k : Nat) (f : Ctl → Ctl) : (s.modCtl k f).tableFrames = s.tableFrames := rfl
@[simp] theorem State.modCtl_roots (s : State) (k : Nat) (f : Ctl → Ctl) : (s.modCtl k f).roots = s.roots := rfl
@[simp] theorem State.modCtl_badPtes (s : State) (k : Nat) (f : Ctl → Ctl) : (s.modCtl k f).badPtes = s.badPtes := rfl
@[simp] theorem State.modCtl_pools (s : State) (k : Nat) (f : Ctl → Ctl) : (s.modCtl k f).pools = s.pools := rfl
@[simp] theorem State.modCtl_held (s : State) (k : Nat) (f : Ctl → Ctl) : (s.modCtl k f).held = s.held := rfl
@[simp] theorem State.modCtl_contexts (s : State) (k : Nat) (f : Ctl → Ctl) : (s.modCtl k f).contexts = s.contexts := rfl
@[simp] theorem State.modCtl_pipes (s : State) (k : Nat) (f : Ctl → Ctl) : (s.modCtl k f).pipes = s.pipes := rfl
@[simp] theorem State.modCtl_queues (s : State) (k : Nat) (f : Ctl → Ctl) : (s.modCtl k f).queues = s.queues := rfl
@[simp] theorem State.modCtl_packets (s : State) (k : Nat) (f : Ctl → Ctl) : (s.modCtl k f).packets = s.packets := rfl
@[simp] theorem State.modCtl_waitItems (s : State) (k : Nat) (f : Ctl → Ctl) : (s.modCtl k f).waitItems = s.waitItems := rfl
@[simp] theorem State.modCtl_ringWaits (s : State) (k : Nat) (f : Ctl → Ctl) : (s.modCtl k f).ringWaits = s.ringWaits := rfl
@[simp] theorem State.modCtl_rebases (s : State) (k : Nat) (f : Ctl → Ctl) : (s.modCtl k f).rebases = s.rebases := rfl
@[simp] theorem State.modCtl_host (s : State) (k : Nat) (f : Ctl → Ctl) : (s.modCtl k f).host = s.host := rfl
@[simp] theorem State.modCtl_agenda (s : State) (k : Nat) (f : Ctl → Ctl) : (s.modCtl k f).agenda = s.agenda := rfl
@[simp] theorem State.modCtl_cur (s : State) (k : Nat) (f : Ctl → Ctl) : (s.modCtl k f).cur = s.cur := rfl
@[simp] theorem State.modCtl_nextId (s : State) (k : Nat) (f : Ctl → Ctl) : (s.modCtl k f).nextId = s.nextId := rfl
@[simp] theorem State.modCtl_ticks (s : State) (k : Nat) (f : Ctl → Ctl) : (s.modCtl k f).ticks = s.ticks := rfl
@[simp] theorem State.modCtl_turns (s : State) (k : Nat) (f : Ctl → Ctl) : (s.modCtl k f).turns = s.turns := rfl
@[simp] theorem State.modCtl_blocked (s : State) (k : Nat) (f : Ctl → Ctl) : (s.modCtl k f).blocked = s.blocked := rfl
@[simp] theorem State.modCtl_overflowed (s : State) (k : Nat) (f : Ctl → Ctl) : (s.modCtl k f).overflowed = s.overflowed := rfl
@[simp] theorem State.modCtl_ahead (s : State) (k : Nat) (f : Ctl → Ctl) : (s.modCtl k f).ahead = s.ahead := rfl

/-! ### modReq -/

@[simp] theorem State.modReq_groups (s : State) (k : Nat) (f : Req → Req) : (s.modReq k f).groups = s.groups := rfl
@[simp] theorem State.modReq_cores (s : State) (k : Nat) (f : Req → Req) : (s.modReq k f).cores = s.cores := rfl
@[simp] theorem State.modReq_clusters (s : State) (k : Nat) (f : Req → Req) : (s.modReq k f).clusters = s.clusters := rfl
@[simp] theorem State.modReq_dies (s : State) (k : Nat) (f : Req → Req) : (s.modReq k f).dies = s.dies := rfl
@[simp] theorem State.modReq_slices (s : State) (k : Nat) (f : Req → Req) : (s.modReq k f).slices = s.slices := rfl
@[simp] theorem State.modReq_floors (s : State) (k : Nat) (f : Req → Req) : (s.modReq k f).floors = s.floors := rfl
@[simp] theorem State.modReq_watchers (s : State) (k : Nat) (f : Req → Req) : (s.modReq k f).watchers = s.watchers := rfl
@[simp] theorem State.modReq_hbm (s : State) (k : Nat) (f : Req → Req) : (s.modReq k f).hbm = s.hbm := rfl
@[simp] theorem State.modReq_hbmPoison (s : State) (k : Nat) (f : Req → Req) : (s.modReq k f).hbmPoison = s.hbmPoison := rfl
@[simp] theorem State.modReq_hbmMarked (s : State) (k : Nat) (f : Req → Req) : (s.modReq k f).hbmMarked = s.hbmMarked := rfl
@[simp] theorem State.modReq_frames (s : State) (k : Nat) (f : Req → Req) : (s.modReq k f).frames = s.frames := rfl
@[simp] theorem State.modReq_metaFrames (s : State) (k : Nat) (f : Req → Req) : (s.modReq k f).metaFrames = s.metaFrames := rfl
@[simp] theorem State.modReq_tableFrames (s : State) (k : Nat) (f : Req → Req) : (s.modReq k f).tableFrames = s.tableFrames := rfl
@[simp] theorem State.modReq_roots (s : State) (k : Nat) (f : Req → Req) : (s.modReq k f).roots = s.roots := rfl
@[simp] theorem State.modReq_badPtes (s : State) (k : Nat) (f : Req → Req) : (s.modReq k f).badPtes = s.badPtes := rfl
@[simp] theorem State.modReq_pools (s : State) (k : Nat) (f : Req → Req) : (s.modReq k f).pools = s.pools := rfl
@[simp] theorem State.modReq_held (s : State) (k : Nat) (f : Req → Req) : (s.modReq k f).held = s.held := rfl
@[simp] theorem State.modReq_ctls (s : State) (k : Nat) (f : Req → Req) : (s.modReq k f).ctls = s.ctls := rfl
@[simp] theorem State.modReq_contexts (s : State) (k : Nat) (f : Req → Req) : (s.modReq k f).contexts = s.contexts := rfl
@[simp] theorem State.modReq_pipes (s : State) (k : Nat) (f : Req → Req) : (s.modReq k f).pipes = s.pipes := rfl
@[simp] theorem State.modReq_queues (s : State) (k : Nat) (f : Req → Req) : (s.modReq k f).queues = s.queues := rfl
@[simp] theorem State.modReq_packets (s : State) (k : Nat) (f : Req → Req) : (s.modReq k f).packets = s.packets := rfl
@[simp] theorem State.modReq_waitItems (s : State) (k : Nat) (f : Req → Req) : (s.modReq k f).waitItems = s.waitItems := rfl
@[simp] theorem State.modReq_ringWaits (s : State) (k : Nat) (f : Req → Req) : (s.modReq k f).ringWaits = s.ringWaits := rfl
@[simp] theorem State.modReq_rebases (s : State) (k : Nat) (f : Req → Req) : (s.modReq k f).rebases = s.rebases := rfl
@[simp] theorem State.modReq_host (s : State) (k : Nat) (f : Req → Req) : (s.modReq k f).host = s.host := rfl
@[simp] theorem State.modReq_agenda (s : State) (k : Nat) (f : Req → Req) : (s.modReq k f).agenda = s.agenda := rfl
@[simp] theorem State.modReq_cur (s : State) (k : Nat) (f : Req → Req) : (s.modReq k f).cur = s.cur := rfl
@[simp] theorem State.modReq_nextId (s : State) (k : Nat) (f : Req → Req) : (s.modReq k f).nextId = s.nextId := rfl
@[simp] theorem State.modReq_ticks (s : State) (k : Nat) (f : Req → Req) : (s.modReq k f).ticks = s.ticks := rfl
@[simp] theorem State.modReq_turns (s : State) (k : Nat) (f : Req → Req) : (s.modReq k f).turns = s.turns := rfl
@[simp] theorem State.modReq_blocked (s : State) (k : Nat) (f : Req → Req) : (s.modReq k f).blocked = s.blocked := rfl
@[simp] theorem State.modReq_overflowed (s : State) (k : Nat) (f : Req → Req) : (s.modReq k f).overflowed = s.overflowed := rfl
@[simp] theorem State.modReq_ahead (s : State) (k : Nat) (f : Req → Req) : (s.modReq k f).ahead = s.ahead := rfl

/-! ### dropReq -/

@[simp] theorem State.dropReq_groups (s : State) (k : Nat) : (s.dropReq k).groups = s.groups := rfl
@[simp] theorem State.dropReq_cores (s : State) (k : Nat) : (s.dropReq k).cores = s.cores := rfl
@[simp] theorem State.dropReq_clusters (s : State) (k : Nat) : (s.dropReq k).clusters = s.clusters := rfl
@[simp] theorem State.dropReq_dies (s : State) (k : Nat) : (s.dropReq k).dies = s.dies := rfl
@[simp] theorem State.dropReq_slices (s : State) (k : Nat) : (s.dropReq k).slices = s.slices := rfl
@[simp] theorem State.dropReq_floors (s : State) (k : Nat) : (s.dropReq k).floors = s.floors := rfl
@[simp] theorem State.dropReq_watchers (s : State) (k : Nat) : (s.dropReq k).watchers = s.watchers := rfl
@[simp] theorem State.dropReq_hbm (s : State) (k : Nat) : (s.dropReq k).hbm = s.hbm := rfl
@[simp] theorem State.dropReq_hbmPoison (s : State) (k : Nat) : (s.dropReq k).hbmPoison = s.hbmPoison := rfl
@[simp] theorem State.dropReq_hbmMarked (s : State) (k : Nat) : (s.dropReq k).hbmMarked = s.hbmMarked := rfl
@[simp] theorem State.dropReq_frames (s : State) (k : Nat) : (s.dropReq k).frames = s.frames := rfl
@[simp] theorem State.dropReq_metaFrames (s : State) (k : Nat) : (s.dropReq k).metaFrames = s.metaFrames := rfl
@[simp] theorem State.dropReq_tableFrames (s : State) (k : Nat) : (s.dropReq k).tableFrames = s.tableFrames := rfl
@[simp] theorem State.dropReq_roots (s : State) (k : Nat) : (s.dropReq k).roots = s.roots := rfl
@[simp] theorem State.dropReq_badPtes (s : State) (k : Nat) : (s.dropReq k).badPtes = s.badPtes := rfl
@[simp] theorem State.dropReq_pools (s : State) (k : Nat) : (s.dropReq k).pools = s.pools := rfl
@[simp] theorem State.dropReq_held (s : State) (k : Nat) : (s.dropReq k).held = s.held := rfl
@[simp] theorem State.dropReq_ctls (s : State) (k : Nat) : (s.dropReq k).ctls = s.ctls := rfl
@[simp] theorem State.dropReq_contexts (s : State) (k : Nat) : (s.dropReq k).contexts = s.contexts := rfl
@[simp] theorem State.dropReq_pipes (s : State) (k : Nat) : (s.dropReq k).pipes = s.pipes := rfl
@[simp] theorem State.dropReq_queues (s : State) (k : Nat) : (s.dropReq k).queues = s.queues := rfl
@[simp] theorem State.dropReq_packets (s : State) (k : Nat) : (s.dropReq k).packets = s.packets := rfl
@[simp] theorem State.dropReq_waitItems (s : State) (k : Nat) : (s.dropReq k).waitItems = s.waitItems := rfl
@[simp] theorem State.dropReq_ringWaits (s : State) (k : Nat) : (s.dropReq k).ringWaits = s.ringWaits := rfl
@[simp] theorem State.dropReq_rebases (s : State) (k : Nat) : (s.dropReq k).rebases = s.rebases := rfl
@[simp] theorem State.dropReq_host (s : State) (k : Nat) : (s.dropReq k).host = s.host := rfl
@[simp] theorem State.dropReq_agenda (s : State) (k : Nat) : (s.dropReq k).agenda = s.agenda := rfl
@[simp] theorem State.dropReq_cur (s : State) (k : Nat) : (s.dropReq k).cur = s.cur := rfl
@[simp] theorem State.dropReq_nextId (s : State) (k : Nat) : (s.dropReq k).nextId = s.nextId := rfl
@[simp] theorem State.dropReq_ticks (s : State) (k : Nat) : (s.dropReq k).ticks = s.ticks := rfl
@[simp] theorem State.dropReq_turns (s : State) (k : Nat) : (s.dropReq k).turns = s.turns := rfl
@[simp] theorem State.dropReq_blocked (s : State) (k : Nat) : (s.dropReq k).blocked = s.blocked := rfl
@[simp] theorem State.dropReq_overflowed (s : State) (k : Nat) : (s.dropReq k).overflowed = s.overflowed := rfl
@[simp] theorem State.dropReq_ahead (s : State) (k : Nat) : (s.dropReq k).ahead = s.ahead := rfl

/-! ### fresh -/

@[simp] theorem State.fresh_groups (s : State) : (s.fresh.1).groups = s.groups := rfl
@[simp] theorem State.fresh_requests (s : State) : (s.fresh.1).requests = s.requests := rfl
@[simp] theorem State.fresh_cores (s : State) : (s.fresh.1).cores = s.cores := rfl
@[simp] theorem State.fresh_clusters (s : State) : (s.fresh.1).clusters = s.clusters := rfl
@[simp] theorem State.fresh_dies (s : State) : (s.fresh.1).dies = s.dies := rfl
@[simp] theorem State.fresh_slices (s : State) : (s.fresh.1).slices = s.slices := rfl
@[simp] theorem State.fresh_floors (s : State) : (s.fresh.1).floors = s.floors := rfl
@[simp] theorem State.fresh_watchers (s : State) : (s.fresh.1).watchers = s.watchers := rfl
@[simp] theorem State.fresh_hbm (s : State) : (s.fresh.1).hbm = s.hbm := rfl
@[simp] theorem State.fresh_hbmPoison (s : State) : (s.fresh.1).hbmPoison = s.hbmPoison := rfl
@[simp] theorem State.fresh_hbmMarked (s : State) : (s.fresh.1).hbmMarked = s.hbmMarked := rfl
@[simp] theorem State.fresh_frames (s : State) : (s.fresh.1).frames = s.frames := rfl
@[simp] theorem State.fresh_metaFrames (s : State) : (s.fresh.1).metaFrames = s.metaFrames := rfl
@[simp] theorem State.fresh_tableFrames (s : State) : (s.fresh.1).tableFrames = s.tableFrames := rfl
@[simp] theorem State.fresh_roots (s : State) : (s.fresh.1).roots = s.roots := rfl
@[simp] theorem State.fresh_badPtes (s : State) : (s.fresh.1).badPtes = s.badPtes := rfl
@[simp] theorem State.fresh_pools (s : State) : (s.fresh.1).pools = s.pools := rfl
@[simp] theorem State.fresh_held (s : State) : (s.fresh.1).held = s.held := rfl
@[simp] theorem State.fresh_ctls (s : State) : (s.fresh.1).ctls = s.ctls := rfl
@[simp] theorem State.fresh_contexts (s : State) : (s.fresh.1).contexts = s.contexts := rfl
@[simp] theorem State.fresh_pipes (s : State) : (s.fresh.1).pipes = s.pipes := rfl
@[simp] theorem State.fresh_queues (s : State) : (s.fresh.1).queues = s.queues := rfl
@[simp] theorem State.fresh_packets (s : State) : (s.fresh.1).packets = s.packets := rfl
@[simp] theorem State.fresh_waitItems (s : State) : (s.fresh.1).waitItems = s.waitItems := rfl
@[simp] theorem State.fresh_ringWaits (s : State) : (s.fresh.1).ringWaits = s.ringWaits := rfl
@[simp] theorem State.fresh_rebases (s : State) : (s.fresh.1).rebases = s.rebases := rfl
@[simp] theorem State.fresh_host (s : State) : (s.fresh.1).host = s.host := rfl
@[simp] theorem State.fresh_agenda (s : State) : (s.fresh.1).agenda = s.agenda := rfl
@[simp] theorem State.fresh_cur (s : State) : (s.fresh.1).cur = s.cur := rfl
@[simp] theorem State.fresh_ticks (s : State) : (s.fresh.1).ticks = s.ticks := rfl
@[simp] theorem State.fresh_turns (s : State) : (s.fresh.1).turns = s.turns := rfl
@[simp] theorem State.fresh_blocked (s : State) : (s.fresh.1).blocked = s.blocked := rfl
@[simp] theorem State.fresh_overflowed (s : State) : (s.fresh.1).overflowed = s.overflowed := rfl
@[simp] theorem State.fresh_ahead (s : State) : (s.fresh.1).ahead = s.ahead := rfl

/-! ### msix -/

@[simp] theorem State.msix_groups (s : State) (v : Nat) : (s.msix v).groups = s.groups := rfl
@[simp] theorem State.msix_requests (s : State) (v : Nat) : (s.msix v).requests = s.requests := rfl
@[simp] theorem State.msix_cores (s : State) (v : Nat) : (s.msix v).cores = s.cores := rfl
@[simp] theorem State.msix_clusters (s : State) (v : Nat) : (s.msix v).clusters = s.clusters := rfl
@[simp] theorem State.msix_dies (s : State) (v : Nat) : (s.msix v).dies = s.dies := rfl
@[simp] theorem State.msix_slices (s : State) (v : Nat) : (s.msix v).slices = s.slices := rfl
@[simp] theorem State.msix_floors (s : State) (v : Nat) : (s.msix v).floors = s.floors := rfl
@[simp] theorem State.msix_watchers (s : State) (v : Nat) : (s.msix v).watchers = s.watchers := rfl
@[simp] theorem State.msix_hbm (s : State) (v : Nat) : (s.msix v).hbm = s.hbm := rfl
@[simp] theorem State.msix_hbmPoison (s : State) (v : Nat) : (s.msix v).hbmPoison = s.hbmPoison := rfl
@[simp] theorem State.msix_hbmMarked (s : State) (v : Nat) : (s.msix v).hbmMarked = s.hbmMarked := rfl
@[simp] theorem State.msix_frames (s : State) (v : Nat) : (s.msix v).frames = s.frames := rfl
@[simp] theorem State.msix_metaFrames (s : State) (v : Nat) : (s.msix v).metaFrames = s.metaFrames := rfl
@[simp] theorem State.msix_tableFrames (s : State) (v : Nat) : (s.msix v).tableFrames = s.tableFrames := rfl
@[simp] theorem State.msix_roots (s : State) (v : Nat) : (s.msix v).roots = s.roots := rfl
@[simp] theorem State.msix_badPtes (s : State) (v : Nat) : (s.msix v).badPtes = s.badPtes := rfl
@[simp] theorem State.msix_pools (s : State) (v : Nat) : (s.msix v).pools = s.pools := rfl
@[simp] theorem State.msix_held (s : State) (v : Nat) : (s.msix v).held = s.held := rfl
@[simp] theorem State.msix_ctls (s : State) (v : Nat) : (s.msix v).ctls = s.ctls := rfl
@[simp] theorem State.msix_contexts (s : State) (v : Nat) : (s.msix v).contexts = s.contexts := rfl
@[simp] theorem State.msix_pipes (s : State) (v : Nat) : (s.msix v).pipes = s.pipes := rfl
@[simp] theorem State.msix_queues (s : State) (v : Nat) : (s.msix v).queues = s.queues := rfl
@[simp] theorem State.msix_packets (s : State) (v : Nat) : (s.msix v).packets = s.packets := rfl
@[simp] theorem State.msix_waitItems (s : State) (v : Nat) : (s.msix v).waitItems = s.waitItems := rfl
@[simp] theorem State.msix_ringWaits (s : State) (v : Nat) : (s.msix v).ringWaits = s.ringWaits := rfl
@[simp] theorem State.msix_rebases (s : State) (v : Nat) : (s.msix v).rebases = s.rebases := rfl
@[simp] theorem State.msix_agenda (s : State) (v : Nat) : (s.msix v).agenda = s.agenda := rfl
@[simp] theorem State.msix_cur (s : State) (v : Nat) : (s.msix v).cur = s.cur := rfl
@[simp] theorem State.msix_nextId (s : State) (v : Nat) : (s.msix v).nextId = s.nextId := rfl
@[simp] theorem State.msix_ticks (s : State) (v : Nat) : (s.msix v).ticks = s.ticks := rfl
@[simp] theorem State.msix_turns (s : State) (v : Nat) : (s.msix v).turns = s.turns := rfl
@[simp] theorem State.msix_blocked (s : State) (v : Nat) : (s.msix v).blocked = s.blocked := rfl
@[simp] theorem State.msix_overflowed (s : State) (v : Nat) : (s.msix v).overflowed = s.overflowed := rfl
@[simp] theorem State.msix_ahead (s : State) (v : Nat) : (s.msix v).ahead = s.ahead := rfl

/-! ### modGroup -/

@[simp] theorem State.modGroup_requests (s : State) (g : Nat) (f : Group → Group) : (s.modGroup g f).requests = s.requests := by unfold State.modGroup; split <;> rfl
@[simp] theorem State.modGroup_cores (s : State) (g : Nat) (f : Group → Group) : (s.modGroup g f).cores = s.cores := by unfold State.modGroup; split <;> rfl
@[simp] theorem State.modGroup_clusters (s : State) (g : Nat) (f : Group → Group) : (s.modGroup g f).clusters = s.clusters := by unfold State.modGroup; split <;> rfl
@[simp] theorem State.modGroup_dies (s : State) (g : Nat) (f : Group → Group) : (s.modGroup g f).dies = s.dies := by unfold State.modGroup; split <;> rfl
@[simp] theorem State.modGroup_slices (s : State) (g : Nat) (f : Group → Group) : (s.modGroup g f).slices = s.slices := by unfold State.modGroup; split <;> rfl
@[simp] theorem State.modGroup_floors (s : State) (g : Nat) (f : Group → Group) : (s.modGroup g f).floors = s.floors := by unfold State.modGroup; split <;> rfl
@[simp] theorem State.modGroup_watchers (s : State) (g : Nat) (f : Group → Group) : (s.modGroup g f).watchers = s.watchers := by unfold State.modGroup; split <;> rfl
@[simp] theorem State.modGroup_hbm (s : State) (g : Nat) (f : Group → Group) : (s.modGroup g f).hbm = s.hbm := by unfold State.modGroup; split <;> rfl
@[simp] theorem State.modGroup_hbmPoison (s : State) (g : Nat) (f : Group → Group) : (s.modGroup g f).hbmPoison = s.hbmPoison := by unfold State.modGroup; split <;> rfl
@[simp] theorem State.modGroup_hbmMarked (s : State) (g : Nat) (f : Group → Group) : (s.modGroup g f).hbmMarked = s.hbmMarked := by unfold State.modGroup; split <;> rfl
@[simp] theorem State.modGroup_frames (s : State) (g : Nat) (f : Group → Group) : (s.modGroup g f).frames = s.frames := by unfold State.modGroup; split <;> rfl
@[simp] theorem State.modGroup_metaFrames (s : State) (g : Nat) (f : Group → Group) : (s.modGroup g f).metaFrames = s.metaFrames := by unfold State.modGroup; split <;> rfl
@[simp] theorem State.modGroup_tableFrames (s : State) (g : Nat) (f : Group → Group) : (s.modGroup g f).tableFrames = s.tableFrames := by unfold State.modGroup; split <;> rfl
@[simp] theorem State.modGroup_roots (s : State) (g : Nat) (f : Group → Group) : (s.modGroup g f).roots = s.roots := by unfold State.modGroup; split <;> rfl
@[simp] theorem State.modGroup_badPtes (s : State) (g : Nat) (f : Group → Group) : (s.modGroup g f).badPtes = s.badPtes := by unfold State.modGroup; split <;> rfl
@[simp] theorem State.modGroup_pools (s : State) (g : Nat) (f : Group → Group) : (s.modGroup g f).pools = s.pools := by unfold State.modGroup; split <;> rfl
@[simp] theorem State.modGroup_held (s : State) (g : Nat) (f : Group → Group) : (s.modGroup g f).held = s.held := by unfold State.modGroup; split <;> rfl
@[simp] theorem State.modGroup_ctls (s : State) (g : Nat) (f : Group → Group) : (s.modGroup g f).ctls = s.ctls := by unfold State.modGroup; split <;> rfl
@[simp] theorem State.modGroup_contexts (s : State) (g : Nat) (f : Group → Group) : (s.modGroup g f).contexts = s.contexts := by unfold State.modGroup; split <;> rfl
@[simp] theorem State.modGroup_pipes (s : State) (g : Nat) (f : Group → Group) : (s.modGroup g f).pipes = s.pipes := by unfold State.modGroup; split <;> rfl
@[simp] theorem State.modGroup_queues (s : State) (g : Nat) (f : Group → Group) : (s.modGroup g f).queues = s.queues := by unfold State.modGroup; split <;> rfl
@[simp] theorem State.modGroup_packets (s : State) (g : Nat) (f : Group → Group) : (s.modGroup g f).packets = s.packets := by unfold State.modGroup; split <;> rfl
@[simp] theorem State.modGroup_waitItems (s : State) (g : Nat) (f : Group → Group) : (s.modGroup g f).waitItems = s.waitItems := by unfold State.modGroup; split <;> rfl
@[simp] theorem State.modGroup_ringWaits (s : State) (g : Nat) (f : Group → Group) : (s.modGroup g f).ringWaits = s.ringWaits := by unfold State.modGroup; split <;> rfl
@[simp] theorem State.modGroup_rebases (s : State) (g : Nat) (f : Group → Group) : (s.modGroup g f).rebases = s.rebases := by unfold State.modGroup; split <;> rfl
@[simp] theorem State.modGroup_host (s : State) (g : Nat) (f : Group → Group) : (s.modGroup g f).host = s.host := by unfold State.modGroup; split <;> rfl
@[simp] theorem State.modGroup_agenda (s : State) (g : Nat) (f : Group → Group) : (s.modGroup g f).agenda = s.agenda := by unfold State.modGroup; split <;> rfl
@[simp] theorem State.modGroup_cur (s : State) (g : Nat) (f : Group → Group) : (s.modGroup g f).cur = s.cur := by unfold State.modGroup; split <;> rfl
@[simp] theorem State.modGroup_nextId (s : State) (g : Nat) (f : Group → Group) : (s.modGroup g f).nextId = s.nextId := by unfold State.modGroup; split <;> rfl
@[simp] theorem State.modGroup_ticks (s : State) (g : Nat) (f : Group → Group) : (s.modGroup g f).ticks = s.ticks := by unfold State.modGroup; split <;> rfl
@[simp] theorem State.modGroup_turns (s : State) (g : Nat) (f : Group → Group) : (s.modGroup g f).turns = s.turns := by unfold State.modGroup; split <;> rfl
@[simp] theorem State.modGroup_blocked (s : State) (g : Nat) (f : Group → Group) : (s.modGroup g f).blocked = s.blocked := by unfold State.modGroup; split <;> rfl
@[simp] theorem State.modGroup_overflowed (s : State) (g : Nat) (f : Group → Group) : (s.modGroup g f).overflowed = s.overflowed := by unfold State.modGroup; split <;> rfl
@[simp] theorem State.modGroup_ahead (s : State) (g : Nat) (f : Group → Group) : (s.modGroup g f).ahead = s.ahead := by unfold State.modGroup; split <;> rfl

/-! ### modDie -/

@[simp] theorem State.modDie_groups (s : State) (d : Nat) (f : DieS → DieS) : (s.modDie d f).groups = s.groups := by unfold State.modDie; split <;> rfl
@[simp] theorem State.modDie_requests (s : State) (d : Nat) (f : DieS → DieS) : (s.modDie d f).requests = s.requests := by unfold State.modDie; split <;> rfl
@[simp] theorem State.modDie_cores (s : State) (d : Nat) (f : DieS → DieS) : (s.modDie d f).cores = s.cores := by unfold State.modDie; split <;> rfl
@[simp] theorem State.modDie_clusters (s : State) (d : Nat) (f : DieS → DieS) : (s.modDie d f).clusters = s.clusters := by unfold State.modDie; split <;> rfl
@[simp] theorem State.modDie_slices (s : State) (d : Nat) (f : DieS → DieS) : (s.modDie d f).slices = s.slices := by unfold State.modDie; split <;> rfl
@[simp] theorem State.modDie_floors (s : State) (d : Nat) (f : DieS → DieS) : (s.modDie d f).floors = s.floors := by unfold State.modDie; split <;> rfl
@[simp] theorem State.modDie_watchers (s : State) (d : Nat) (f : DieS → DieS) : (s.modDie d f).watchers = s.watchers := by unfold State.modDie; split <;> rfl
@[simp] theorem State.modDie_hbm (s : State) (d : Nat) (f : DieS → DieS) : (s.modDie d f).hbm = s.hbm := by unfold State.modDie; split <;> rfl
@[simp] theorem State.modDie_hbmPoison (s : State) (d : Nat) (f : DieS → DieS) : (s.modDie d f).hbmPoison = s.hbmPoison := by unfold State.modDie; split <;> rfl
@[simp] theorem State.modDie_hbmMarked (s : State) (d : Nat) (f : DieS → DieS) : (s.modDie d f).hbmMarked = s.hbmMarked := by unfold State.modDie; split <;> rfl
@[simp] theorem State.modDie_frames (s : State) (d : Nat) (f : DieS → DieS) : (s.modDie d f).frames = s.frames := by unfold State.modDie; split <;> rfl
@[simp] theorem State.modDie_metaFrames (s : State) (d : Nat) (f : DieS → DieS) : (s.modDie d f).metaFrames = s.metaFrames := by unfold State.modDie; split <;> rfl
@[simp] theorem State.modDie_tableFrames (s : State) (d : Nat) (f : DieS → DieS) : (s.modDie d f).tableFrames = s.tableFrames := by unfold State.modDie; split <;> rfl
@[simp] theorem State.modDie_roots (s : State) (d : Nat) (f : DieS → DieS) : (s.modDie d f).roots = s.roots := by unfold State.modDie; split <;> rfl
@[simp] theorem State.modDie_badPtes (s : State) (d : Nat) (f : DieS → DieS) : (s.modDie d f).badPtes = s.badPtes := by unfold State.modDie; split <;> rfl
@[simp] theorem State.modDie_pools (s : State) (d : Nat) (f : DieS → DieS) : (s.modDie d f).pools = s.pools := by unfold State.modDie; split <;> rfl
@[simp] theorem State.modDie_held (s : State) (d : Nat) (f : DieS → DieS) : (s.modDie d f).held = s.held := by unfold State.modDie; split <;> rfl
@[simp] theorem State.modDie_ctls (s : State) (d : Nat) (f : DieS → DieS) : (s.modDie d f).ctls = s.ctls := by unfold State.modDie; split <;> rfl
@[simp] theorem State.modDie_contexts (s : State) (d : Nat) (f : DieS → DieS) : (s.modDie d f).contexts = s.contexts := by unfold State.modDie; split <;> rfl
@[simp] theorem State.modDie_pipes (s : State) (d : Nat) (f : DieS → DieS) : (s.modDie d f).pipes = s.pipes := by unfold State.modDie; split <;> rfl
@[simp] theorem State.modDie_queues (s : State) (d : Nat) (f : DieS → DieS) : (s.modDie d f).queues = s.queues := by unfold State.modDie; split <;> rfl
@[simp] theorem State.modDie_packets (s : State) (d : Nat) (f : DieS → DieS) : (s.modDie d f).packets = s.packets := by unfold State.modDie; split <;> rfl
@[simp] theorem State.modDie_waitItems (s : State) (d : Nat) (f : DieS → DieS) : (s.modDie d f).waitItems = s.waitItems := by unfold State.modDie; split <;> rfl
@[simp] theorem State.modDie_ringWaits (s : State) (d : Nat) (f : DieS → DieS) : (s.modDie d f).ringWaits = s.ringWaits := by unfold State.modDie; split <;> rfl
@[simp] theorem State.modDie_rebases (s : State) (d : Nat) (f : DieS → DieS) : (s.modDie d f).rebases = s.rebases := by unfold State.modDie; split <;> rfl
@[simp] theorem State.modDie_host (s : State) (d : Nat) (f : DieS → DieS) : (s.modDie d f).host = s.host := by unfold State.modDie; split <;> rfl
@[simp] theorem State.modDie_agenda (s : State) (d : Nat) (f : DieS → DieS) : (s.modDie d f).agenda = s.agenda := by unfold State.modDie; split <;> rfl
@[simp] theorem State.modDie_cur (s : State) (d : Nat) (f : DieS → DieS) : (s.modDie d f).cur = s.cur := by unfold State.modDie; split <;> rfl
@[simp] theorem State.modDie_nextId (s : State) (d : Nat) (f : DieS → DieS) : (s.modDie d f).nextId = s.nextId := by unfold State.modDie; split <;> rfl
@[simp] theorem State.modDie_ticks (s : State) (d : Nat) (f : DieS → DieS) : (s.modDie d f).ticks = s.ticks := by unfold State.modDie; split <;> rfl
@[simp] theorem State.modDie_turns (s : State) (d : Nat) (f : DieS → DieS) : (s.modDie d f).turns = s.turns := by unfold State.modDie; split <;> rfl
@[simp] theorem State.modDie_blocked (s : State) (d : Nat) (f : DieS → DieS) : (s.modDie d f).blocked = s.blocked := by unfold State.modDie; split <;> rfl
@[simp] theorem State.modDie_overflowed (s : State) (d : Nat) (f : DieS → DieS) : (s.modDie d f).overflowed = s.overflowed := by unfold State.modDie; split <;> rfl
@[simp] theorem State.modDie_ahead (s : State) (d : Nat) (f : DieS → DieS) : (s.modDie d f).ahead = s.ahead := by unfold State.modDie; split <;> rfl

/-! ### modContext -/

@[simp] theorem State.modContext_groups (s : State) (a : Nat) (f : Context → Context) : (s.modContext a f).groups = s.groups := by unfold State.modContext; split <;> rfl
@[simp] theorem State.modContext_requests (s : State) (a : Nat) (f : Context → Context) : (s.modContext a f).requests = s.requests := by unfold State.modContext; split <;> rfl
@[simp] theorem State.modContext_cores (s : State) (a : Nat) (f : Context → Context) : (s.modContext a f).cores = s.cores := by unfold State.modContext; split <;> rfl
@[simp] theorem State.modContext_clusters (s : State) (a : Nat) (f : Context → Context) : (s.modContext a f).clusters = s.clusters := by unfold State.modContext; split <;> rfl
@[simp] theorem State.modContext_dies (s : State) (a : Nat) (f : Context → Context) : (s.modContext a f).dies = s.dies := by unfold State.modContext; split <;> rfl
@[simp] theorem State.modContext_slices (s : State) (a : Nat) (f : Context → Context) : (s.modContext a f).slices = s.slices := by unfold State.modContext; split <;> rfl
@[simp] theorem State.modContext_floors (s : State) (a : Nat) (f : Context → Context) : (s.modContext a f).floors = s.floors := by unfold State.modContext; split <;> rfl
@[simp] theorem State.modContext_watchers (s : State) (a : Nat) (f : Context → Context) : (s.modContext a f).watchers = s.watchers := by unfold State.modContext; split <;> rfl
@[simp] theorem State.modContext_hbm (s : State) (a : Nat) (f : Context → Context) : (s.modContext a f).hbm = s.hbm := by unfold State.modContext; split <;> rfl
@[simp] theorem State.modContext_hbmPoison (s : State) (a : Nat) (f : Context → Context) : (s.modContext a f).hbmPoison = s.hbmPoison := by unfold State.modContext; split <;> rfl
@[simp] theorem State.modContext_hbmMarked (s : State) (a : Nat) (f : Context → Context) : (s.modContext a f).hbmMarked = s.hbmMarked := by unfold State.modContext; split <;> rfl
@[simp] theorem State.modContext_frames (s : State) (a : Nat) (f : Context → Context) : (s.modContext a f).frames = s.frames := by unfold State.modContext; split <;> rfl
@[simp] theorem State.modContext_metaFrames (s : State) (a : Nat) (f : Context → Context) : (s.modContext a f).metaFrames = s.metaFrames := by unfold State.modContext; split <;> rfl
@[simp] theorem State.modContext_tableFrames (s : State) (a : Nat) (f : Context → Context) : (s.modContext a f).tableFrames = s.tableFrames := by unfold State.modContext; split <;> rfl
@[simp] theorem State.modContext_roots (s : State) (a : Nat) (f : Context → Context) : (s.modContext a f).roots = s.roots := by unfold State.modContext; split <;> rfl
@[simp] theorem State.modContext_badPtes (s : State) (a : Nat) (f : Context → Context) : (s.modContext a f).badPtes = s.badPtes := by unfold State.modContext; split <;> rfl
@[simp] theorem State.modContext_pools (s : State) (a : Nat) (f : Context → Context) : (s.modContext a f).pools = s.pools := by unfold State.modContext; split <;> rfl
@[simp] theorem State.modContext_held (s : State) (a : Nat) (f : Context → Context) : (s.modContext a f).held = s.held := by unfold State.modContext; split <;> rfl
@[simp] theorem State.modContext_ctls (s : State) (a : Nat) (f : Context → Context) : (s.modContext a f).ctls = s.ctls := by unfold State.modContext; split <;> rfl
@[simp] theorem State.modContext_pipes (s : State) (a : Nat) (f : Context → Context) : (s.modContext a f).pipes = s.pipes := by unfold State.modContext; split <;> rfl
@[simp] theorem State.modContext_queues (s : State) (a : Nat) (f : Context → Context) : (s.modContext a f).queues = s.queues := by unfold State.modContext; split <;> rfl
@[simp] theorem State.modContext_packets (s : State) (a : Nat) (f : Context → Context) : (s.modContext a f).packets = s.packets := by unfold State.modContext; split <;> rfl
@[simp] theorem State.modContext_waitItems (s : State) (a : Nat) (f : Context → Context) : (s.modContext a f).waitItems = s.waitItems := by unfold State.modContext; split <;> rfl
@[simp] theorem State.modContext_ringWaits (s : State) (a : Nat) (f : Context → Context) : (s.modContext a f).ringWaits = s.ringWaits := by unfold State.modContext; split <;> rfl
@[simp] theorem State.modContext_rebases (s : State) (a : Nat) (f : Context → Context) : (s.modContext a f).rebases = s.rebases := by unfold State.modContext; split <;> rfl
@[simp] theorem State.modContext_host (s : State) (a : Nat) (f : Context → Context) : (s.modContext a f).host = s.host := by unfold State.modContext; split <;> rfl
@[simp] theorem State.modContext_agenda (s : State) (a : Nat) (f : Context → Context) : (s.modContext a f).agenda = s.agenda := by unfold State.modContext; split <;> rfl
@[simp] theorem State.modContext_cur (s : State) (a : Nat) (f : Context → Context) : (s.modContext a f).cur = s.cur := by unfold State.modContext; split <;> rfl
@[simp] theorem State.modContext_nextId (s : State) (a : Nat) (f : Context → Context) : (s.modContext a f).nextId = s.nextId := by unfold State.modContext; split <;> rfl
@[simp] theorem State.modContext_ticks (s : State) (a : Nat) (f : Context → Context) : (s.modContext a f).ticks = s.ticks := by unfold State.modContext; split <;> rfl
@[simp] theorem State.modContext_turns (s : State) (a : Nat) (f : Context → Context) : (s.modContext a f).turns = s.turns := by unfold State.modContext; split <;> rfl
@[simp] theorem State.modContext_blocked (s : State) (a : Nat) (f : Context → Context) : (s.modContext a f).blocked = s.blocked := by unfold State.modContext; split <;> rfl
@[simp] theorem State.modContext_overflowed (s : State) (a : Nat) (f : Context → Context) : (s.modContext a f).overflowed = s.overflowed := by unfold State.modContext; split <;> rfl
@[simp] theorem State.modContext_ahead (s : State) (a : Nat) (f : Context → Context) : (s.modContext a f).ahead = s.ahead := by unfold State.modContext; split <;> rfl

/-! ### modPacket -/

@[simp] theorem State.modPacket_groups (s : State) (k : Nat) (f : Packet → Packet) : (s.modPacket k f).groups = s.groups := by unfold State.modPacket; split <;> rfl
@[simp] theorem State.modPacket_requests (s : State) (k : Nat) (f : Packet → Packet) : (s.modPacket k f).requests = s.requests := by unfold State.modPacket; split <;> rfl
@[simp] theorem State.modPacket_cores (s : State) (k : Nat) (f : Packet → Packet) : (s.modPacket k f).cores = s.cores := by unfold State.modPacket; split <;> rfl
@[simp] theorem State.modPacket_clusters (s : State) (k : Nat) (f : Packet → Packet) : (s.modPacket k f).clusters = s.clusters := by unfold State.modPacket; split <;> rfl
@[simp] theorem State.modPacket_dies (s : State) (k : Nat) (f : Packet → Packet) : (s.modPacket k f).dies = s.dies := by unfold State.modPacket; split <;> rfl
@[simp] theorem State.modPacket_slices (s : State) (k : Nat) (f : Packet → Packet) : (s.modPacket k f).slices = s.slices := by unfold State.modPacket; split <;> rfl
@[simp] theorem State.modPacket_floors (s : State) (k : Nat) (f : Packet → Packet) : (s.modPacket k f).floors = s.floors := by unfold State.modPacket; split <;> rfl
@[simp] theorem State.modPacket_watchers (s : State) (k : Nat) (f : Packet → Packet) : (s.modPacket k f).watchers = s.watchers := by unfold State.modPacket; split <;> rfl
@[simp] theorem State.modPacket_hbm (s : State) (k : Nat) (f : Packet → Packet) : (s.modPacket k f).hbm = s.hbm := by unfold State.modPacket; split <;> rfl
@[simp] theorem State.modPacket_hbmPoison (s : State) (k : Nat) (f : Packet → Packet) : (s.modPacket k f).hbmPoison = s.hbmPoison := by unfold State.modPacket; split <;> rfl
@[simp] theorem State.modPacket_hbmMarked (s : State) (k : Nat) (f : Packet → Packet) : (s.modPacket k f).hbmMarked = s.hbmMarked := by unfold State.modPacket; split <;> rfl
@[simp] theorem State.modPacket_frames (s : State) (k : Nat) (f : Packet → Packet) : (s.modPacket k f).frames = s.frames := by unfold State.modPacket; split <;> rfl
@[simp] theorem State.modPacket_metaFrames (s : State) (k : Nat) (f : Packet → Packet) : (s.modPacket k f).metaFrames = s.metaFrames := by unfold State.modPacket; split <;> rfl
@[simp] theorem State.modPacket_tableFrames (s : State) (k : Nat) (f : Packet → Packet) : (s.modPacket k f).tableFrames = s.tableFrames := by unfold State.modPacket; split <;> rfl
@[simp] theorem State.modPacket_roots (s : State) (k : Nat) (f : Packet → Packet) : (s.modPacket k f).roots = s.roots := by unfold State.modPacket; split <;> rfl
@[simp] theorem State.modPacket_badPtes (s : State) (k : Nat) (f : Packet → Packet) : (s.modPacket k f).badPtes = s.badPtes := by unfold State.modPacket; split <;> rfl
@[simp] theorem State.modPacket_pools (s : State) (k : Nat) (f : Packet → Packet) : (s.modPacket k f).pools = s.pools := by unfold State.modPacket; split <;> rfl
@[simp] theorem State.modPacket_held (s : State) (k : Nat) (f : Packet → Packet) : (s.modPacket k f).held = s.held := by unfold State.modPacket; split <;> rfl
@[simp] theorem State.modPacket_ctls (s : State) (k : Nat) (f : Packet → Packet) : (s.modPacket k f).ctls = s.ctls := by unfold State.modPacket; split <;> rfl
@[simp] theorem State.modPacket_contexts (s : State) (k : Nat) (f : Packet → Packet) : (s.modPacket k f).contexts = s.contexts := by unfold State.modPacket; split <;> rfl
@[simp] theorem State.modPacket_pipes (s : State) (k : Nat) (f : Packet → Packet) : (s.modPacket k f).pipes = s.pipes := by unfold State.modPacket; split <;> rfl
@[simp] theorem State.modPacket_queues (s : State) (k : Nat) (f : Packet → Packet) : (s.modPacket k f).queues = s.queues := by unfold State.modPacket; split <;> rfl
@[simp] theorem State.modPacket_waitItems (s : State) (k : Nat) (f : Packet → Packet) : (s.modPacket k f).waitItems = s.waitItems := by unfold State.modPacket; split <;> rfl
@[simp] theorem State.modPacket_ringWaits (s : State) (k : Nat) (f : Packet → Packet) : (s.modPacket k f).ringWaits = s.ringWaits := by unfold State.modPacket; split <;> rfl
@[simp] theorem State.modPacket_rebases (s : State) (k : Nat) (f : Packet → Packet) : (s.modPacket k f).rebases = s.rebases := by unfold State.modPacket; split <;> rfl
@[simp] theorem State.modPacket_host (s : State) (k : Nat) (f : Packet → Packet) : (s.modPacket k f).host = s.host := by unfold State.modPacket; split <;> rfl
@[simp] theorem State.modPacket_agenda (s : State) (k : Nat) (f : Packet → Packet) : (s.modPacket k f).agenda = s.agenda := by unfold State.modPacket; split <;> rfl
@[simp] theorem State.modPacket_cur (s : State) (k : Nat) (f : Packet → Packet) : (s.modPacket k f).cur = s.cur := by unfold State.modPacket; split <;> rfl
@[simp] theorem State.modPacket_nextId (s : State) (k : Nat) (f : Packet → Packet) : (s.modPacket k f).nextId = s.nextId := by unfold State.modPacket; split <;> rfl
@[simp] theorem State.modPacket_ticks (s : State) (k : Nat) (f : Packet → Packet) : (s.modPacket k f).ticks = s.ticks := by unfold State.modPacket; split <;> rfl
@[simp] theorem State.modPacket_turns (s : State) (k : Nat) (f : Packet → Packet) : (s.modPacket k f).turns = s.turns := by unfold State.modPacket; split <;> rfl
@[simp] theorem State.modPacket_blocked (s : State) (k : Nat) (f : Packet → Packet) : (s.modPacket k f).blocked = s.blocked := by unfold State.modPacket; split <;> rfl
@[simp] theorem State.modPacket_overflowed (s : State) (k : Nat) (f : Packet → Packet) : (s.modPacket k f).overflowed = s.overflowed := by unfold State.modPacket; split <;> rfl
@[simp] theorem State.modPacket_ahead (s : State) (k : Nat) (f : Packet → Packet) : (s.modPacket k f).ahead = s.ahead := by unfold State.modPacket; split <;> rfl

/-! ### modQueue -/

@[simp] theorem State.modQueue_groups (s : State) (q : Nat) (f : Queue → Queue) : (s.modQueue q f).groups = s.groups := by unfold State.modQueue; split <;> rfl
@[simp] theorem State.modQueue_requests (s : State) (q : Nat) (f : Queue → Queue) : (s.modQueue q f).requests = s.requests := by unfold State.modQueue; split <;> rfl
@[simp] theorem State.modQueue_cores (s : State) (q : Nat) (f : Queue → Queue) : (s.modQueue q f).cores = s.cores := by unfold State.modQueue; split <;> rfl
@[simp] theorem State.modQueue_clusters (s : State) (q : Nat) (f : Queue → Queue) : (s.modQueue q f).clusters = s.clusters := by unfold State.modQueue; split <;> rfl
@[simp] theorem State.modQueue_dies (s : State) (q : Nat) (f : Queue → Queue) : (s.modQueue q f).dies = s.dies := by unfold State.modQueue; split <;> rfl
@[simp] theorem State.modQueue_slices (s : State) (q : Nat) (f : Queue → Queue) : (s.modQueue q f).slices = s.slices := by unfold State.modQueue; split <;> rfl
@[simp] theorem State.modQueue_floors (s : State) (q : Nat) (f : Queue → Queue) : (s.modQueue q f).floors = s.floors := by unfold State.modQueue; split <;> rfl
@[simp] theorem State.modQueue_watchers (s : State) (q : Nat) (f : Queue → Queue) : (s.modQueue q f).watchers = s.watchers := by unfold State.modQueue; split <;> rfl
@[simp] theorem State.modQueue_hbm (s : State) (q : Nat) (f : Queue → Queue) : (s.modQueue q f).hbm = s.hbm := by unfold State.modQueue; split <;> rfl
@[simp] theorem State.modQueue_hbmPoison (s : State) (q : Nat) (f : Queue → Queue) : (s.modQueue q f).hbmPoison = s.hbmPoison := by unfold State.modQueue; split <;> rfl
@[simp] theorem State.modQueue_hbmMarked (s : State) (q : Nat) (f : Queue → Queue) : (s.modQueue q f).hbmMarked = s.hbmMarked := by unfold State.modQueue; split <;> rfl
@[simp] theorem State.modQueue_frames (s : State) (q : Nat) (f : Queue → Queue) : (s.modQueue q f).frames = s.frames := by unfold State.modQueue; split <;> rfl
@[simp] theorem State.modQueue_metaFrames (s : State) (q : Nat) (f : Queue → Queue) : (s.modQueue q f).metaFrames = s.metaFrames := by unfold State.modQueue; split <;> rfl
@[simp] theorem State.modQueue_tableFrames (s : State) (q : Nat) (f : Queue → Queue) : (s.modQueue q f).tableFrames = s.tableFrames := by unfold State.modQueue; split <;> rfl
@[simp] theorem State.modQueue_roots (s : State) (q : Nat) (f : Queue → Queue) : (s.modQueue q f).roots = s.roots := by unfold State.modQueue; split <;> rfl
@[simp] theorem State.modQueue_badPtes (s : State) (q : Nat) (f : Queue → Queue) : (s.modQueue q f).badPtes = s.badPtes := by unfold State.modQueue; split <;> rfl
@[simp] theorem State.modQueue_pools (s : State) (q : Nat) (f : Queue → Queue) : (s.modQueue q f).pools = s.pools := by unfold State.modQueue; split <;> rfl
@[simp] theorem State.modQueue_held (s : State) (q : Nat) (f : Queue → Queue) : (s.modQueue q f).held = s.held := by unfold State.modQueue; split <;> rfl
@[simp] theorem State.modQueue_ctls (s : State) (q : Nat) (f : Queue → Queue) : (s.modQueue q f).ctls = s.ctls := by unfold State.modQueue; split <;> rfl
@[simp] theorem State.modQueue_contexts (s : State) (q : Nat) (f : Queue → Queue) : (s.modQueue q f).contexts = s.contexts := by unfold State.modQueue; split <;> rfl
@[simp] theorem State.modQueue_pipes (s : State) (q : Nat) (f : Queue → Queue) : (s.modQueue q f).pipes = s.pipes := by unfold State.modQueue; split <;> rfl
@[simp] theorem State.modQueue_packets (s : State) (q : Nat) (f : Queue → Queue) : (s.modQueue q f).packets = s.packets := by unfold State.modQueue; split <;> rfl
@[simp] theorem State.modQueue_waitItems (s : State) (q : Nat) (f : Queue → Queue) : (s.modQueue q f).waitItems = s.waitItems := by unfold State.modQueue; split <;> rfl
@[simp] theorem State.modQueue_ringWaits (s : State) (q : Nat) (f : Queue → Queue) : (s.modQueue q f).ringWaits = s.ringWaits := by unfold State.modQueue; split <;> rfl
@[simp] theorem State.modQueue_rebases (s : State) (q : Nat) (f : Queue → Queue) : (s.modQueue q f).rebases = s.rebases := by unfold State.modQueue; split <;> rfl
@[simp] theorem State.modQueue_host (s : State) (q : Nat) (f : Queue → Queue) : (s.modQueue q f).host = s.host := by unfold State.modQueue; split <;> rfl
@[simp] theorem State.modQueue_agenda (s : State) (q : Nat) (f : Queue → Queue) : (s.modQueue q f).agenda = s.agenda := by unfold State.modQueue; split <;> rfl
@[simp] theorem State.modQueue_cur (s : State) (q : Nat) (f : Queue → Queue) : (s.modQueue q f).cur = s.cur := by unfold State.modQueue; split <;> rfl
@[simp] theorem State.modQueue_nextId (s : State) (q : Nat) (f : Queue → Queue) : (s.modQueue q f).nextId = s.nextId := by unfold State.modQueue; split <;> rfl
@[simp] theorem State.modQueue_ticks (s : State) (q : Nat) (f : Queue → Queue) : (s.modQueue q f).ticks = s.ticks := by unfold State.modQueue; split <;> rfl
@[simp] theorem State.modQueue_turns (s : State) (q : Nat) (f : Queue → Queue) : (s.modQueue q f).turns = s.turns := by unfold State.modQueue; split <;> rfl
@[simp] theorem State.modQueue_blocked (s : State) (q : Nat) (f : Queue → Queue) : (s.modQueue q f).blocked = s.blocked := by unfold State.modQueue; split <;> rfl
@[simp] theorem State.modQueue_overflowed (s : State) (q : Nat) (f : Queue → Queue) : (s.modQueue q f).overflowed = s.overflowed := by unfold State.modQueue; split <;> rfl
@[simp] theorem State.modQueue_ahead (s : State) (q : Nat) (f : Queue → Queue) : (s.modQueue q f).ahead = s.ahead := by unfold State.modQueue; split <;> rfl

/-! ### modPipe -/

@[simp] theorem State.modPipe_groups (s : State) (p : Nat) (f : Pipe → Pipe) : (s.modPipe p f).groups = s.groups := by unfold State.modPipe; split <;> rfl
@[simp] theorem State.modPipe_requests (s : State) (p : Nat) (f : Pipe → Pipe) : (s.modPipe p f).requests = s.requests := by unfold State.modPipe; split <;> rfl
@[simp] theorem State.modPipe_cores (s : State) (p : Nat) (f : Pipe → Pipe) : (s.modPipe p f).cores = s.cores := by unfold State.modPipe; split <;> rfl
@[simp] theorem State.modPipe_clusters (s : State) (p : Nat) (f : Pipe → Pipe) : (s.modPipe p f).clusters = s.clusters := by unfold State.modPipe; split <;> rfl
@[simp] theorem State.modPipe_dies (s : State) (p : Nat) (f : Pipe → Pipe) : (s.modPipe p f).dies = s.dies := by unfold State.modPipe; split <;> rfl
@[simp] theorem State.modPipe_slices (s : State) (p : Nat) (f : Pipe → Pipe) : (s.modPipe p f).slices = s.slices := by unfold State.modPipe; split <;> rfl
@[simp] theorem State.modPipe_floors (s : State) (p : Nat) (f : Pipe → Pipe) : (s.modPipe p f).floors = s.floors := by unfold State.modPipe; split <;> rfl
@[simp] theorem State.modPipe_watchers (s : State) (p : Nat) (f : Pipe → Pipe) : (s.modPipe p f).watchers = s.watchers := by unfold State.modPipe; split <;> rfl
@[simp] theorem State.modPipe_hbm (s : State) (p : Nat) (f : Pipe → Pipe) : (s.modPipe p f).hbm = s.hbm := by unfold State.modPipe; split <;> rfl
@[simp] theorem State.modPipe_hbmPoison (s : State) (p : Nat) (f : Pipe → Pipe) : (s.modPipe p f).hbmPoison = s.hbmPoison := by unfold State.modPipe; split <;> rfl
@[simp] theorem State.modPipe_hbmMarked (s : State) (p : Nat) (f : Pipe → Pipe) : (s.modPipe p f).hbmMarked = s.hbmMarked := by unfold State.modPipe; split <;> rfl
@[simp] theorem State.modPipe_frames (s : State) (p : Nat) (f : Pipe → Pipe) : (s.modPipe p f).frames = s.frames := by unfold State.modPipe; split <;> rfl
@[simp] theorem State.modPipe_metaFrames (s : State) (p : Nat) (f : Pipe → Pipe) : (s.modPipe p f).metaFrames = s.metaFrames := by unfold State.modPipe; split <;> rfl
@[simp] theorem State.modPipe_tableFrames (s : State) (p : Nat) (f : Pipe → Pipe) : (s.modPipe p f).tableFrames = s.tableFrames := by unfold State.modPipe; split <;> rfl
@[simp] theorem State.modPipe_roots (s : State) (p : Nat) (f : Pipe → Pipe) : (s.modPipe p f).roots = s.roots := by unfold State.modPipe; split <;> rfl
@[simp] theorem State.modPipe_badPtes (s : State) (p : Nat) (f : Pipe → Pipe) : (s.modPipe p f).badPtes = s.badPtes := by unfold State.modPipe; split <;> rfl
@[simp] theorem State.modPipe_pools (s : State) (p : Nat) (f : Pipe → Pipe) : (s.modPipe p f).pools = s.pools := by unfold State.modPipe; split <;> rfl
@[simp] theorem State.modPipe_held (s : State) (p : Nat) (f : Pipe → Pipe) : (s.modPipe p f).held = s.held := by unfold State.modPipe; split <;> rfl
@[simp] theorem State.modPipe_ctls (s : State) (p : Nat) (f : Pipe → Pipe) : (s.modPipe p f).ctls = s.ctls := by unfold State.modPipe; split <;> rfl
@[simp] theorem State.modPipe_contexts (s : State) (p : Nat) (f : Pipe → Pipe) : (s.modPipe p f).contexts = s.contexts := by unfold State.modPipe; split <;> rfl
@[simp] theorem State.modPipe_queues (s : State) (p : Nat) (f : Pipe → Pipe) : (s.modPipe p f).queues = s.queues := by unfold State.modPipe; split <;> rfl
@[simp] theorem State.modPipe_packets (s : State) (p : Nat) (f : Pipe → Pipe) : (s.modPipe p f).packets = s.packets := by unfold State.modPipe; split <;> rfl
@[simp] theorem State.modPipe_waitItems (s : State) (p : Nat) (f : Pipe → Pipe) : (s.modPipe p f).waitItems = s.waitItems := by unfold State.modPipe; split <;> rfl
@[simp] theorem State.modPipe_ringWaits (s : State) (p : Nat) (f : Pipe → Pipe) : (s.modPipe p f).ringWaits = s.ringWaits := by unfold State.modPipe; split <;> rfl
@[simp] theorem State.modPipe_rebases (s : State) (p : Nat) (f : Pipe → Pipe) : (s.modPipe p f).rebases = s.rebases := by unfold State.modPipe; split <;> rfl
@[simp] theorem State.modPipe_host (s : State) (p : Nat) (f : Pipe → Pipe) : (s.modPipe p f).host = s.host := by unfold State.modPipe; split <;> rfl
@[simp] theorem State.modPipe_agenda (s : State) (p : Nat) (f : Pipe → Pipe) : (s.modPipe p f).agenda = s.agenda := by unfold State.modPipe; split <;> rfl
@[simp] theorem State.modPipe_cur (s : State) (p : Nat) (f : Pipe → Pipe) : (s.modPipe p f).cur = s.cur := by unfold State.modPipe; split <;> rfl
@[simp] theorem State.modPipe_nextId (s : State) (p : Nat) (f : Pipe → Pipe) : (s.modPipe p f).nextId = s.nextId := by unfold State.modPipe; split <;> rfl
@[simp] theorem State.modPipe_ticks (s : State) (p : Nat) (f : Pipe → Pipe) : (s.modPipe p f).ticks = s.ticks := by unfold State.modPipe; split <;> rfl
@[simp] theorem State.modPipe_turns (s : State) (p : Nat) (f : Pipe → Pipe) : (s.modPipe p f).turns = s.turns := by unfold State.modPipe; split <;> rfl
@[simp] theorem State.modPipe_blocked (s : State) (p : Nat) (f : Pipe → Pipe) : (s.modPipe p f).blocked = s.blocked := by unfold State.modPipe; split <;> rfl
@[simp] theorem State.modPipe_overflowed (s : State) (p : Nat) (f : Pipe → Pipe) : (s.modPipe p f).overflowed = s.overflowed := by unfold State.modPipe; split <;> rfl
@[simp] theorem State.modPipe_ahead (s : State) (p : Nat) (f : Pipe → Pipe) : (s.modPipe p f).ahead = s.ahead := by unfold State.modPipe; split <;> rfl

/-! ### hostErr -/

@[simp] theorem State.hostErr_groups (s : State) (b : Nat) : (s.hostErr b).groups = s.groups := by unfold State.hostErr; split <;> rfl
@[simp] theorem State.hostErr_requests (s : State) (b : Nat) : (s.hostErr b).requests = s.requests := by unfold State.hostErr; split <;> rfl
@[simp] theorem State.hostErr_cores (s : State) (b : Nat) : (s.hostErr b).cores = s.cores := by unfold State.hostErr; split <;> rfl
@[simp] theorem State.hostErr_clusters (s : State) (b : Nat) : (s.hostErr b).clusters = s.clusters := by unfold State.hostErr; split <;> rfl
@[simp] theorem State.hostErr_dies (s : State) (b : Nat) : (s.hostErr b).dies = s.dies := by unfold State.hostErr; split <;> rfl
@[simp] theorem State.hostErr_slices (s : State) (b : Nat) : (s.hostErr b).slices = s.slices := by unfold State.hostErr; split <;> rfl
@[simp] theorem State.hostErr_floors (s : State) (b : Nat) : (s.hostErr b).floors = s.floors := by unfold State.hostErr; split <;> rfl
@[simp] theorem State.hostErr_watchers (s : State) (b : Nat) : (s.hostErr b).watchers = s.watchers := by unfold State.hostErr; split <;> rfl
@[simp] theorem State.hostErr_hbm (s : State) (b : Nat) : (s.hostErr b).hbm = s.hbm := by unfold State.hostErr; split <;> rfl
@[simp] theorem State.hostErr_hbmPoison (s : State) (b : Nat) : (s.hostErr b).hbmPoison = s.hbmPoison := by unfold State.hostErr; split <;> rfl
@[simp] theorem State.hostErr_hbmMarked (s : State) (b : Nat) : (s.hostErr b).hbmMarked = s.hbmMarked := by unfold State.hostErr; split <;> rfl
@[simp] theorem State.hostErr_frames (s : State) (b : Nat) : (s.hostErr b).frames = s.frames := by unfold State.hostErr; split <;> rfl
@[simp] theorem State.hostErr_metaFrames (s : State) (b : Nat) : (s.hostErr b).metaFrames = s.metaFrames := by unfold State.hostErr; split <;> rfl
@[simp] theorem State.hostErr_tableFrames (s : State) (b : Nat) : (s.hostErr b).tableFrames = s.tableFrames := by unfold State.hostErr; split <;> rfl
@[simp] theorem State.hostErr_roots (s : State) (b : Nat) : (s.hostErr b).roots = s.roots := by unfold State.hostErr; split <;> rfl
@[simp] theorem State.hostErr_badPtes (s : State) (b : Nat) : (s.hostErr b).badPtes = s.badPtes := by unfold State.hostErr; split <;> rfl
@[simp] theorem State.hostErr_pools (s : State) (b : Nat) : (s.hostErr b).pools = s.pools := by unfold State.hostErr; split <;> rfl
@[simp] theorem State.hostErr_held (s : State) (b : Nat) : (s.hostErr b).held = s.held := by unfold State.hostErr; split <;> rfl
@[simp] theorem State.hostErr_ctls (s : State) (b : Nat) : (s.hostErr b).ctls = s.ctls := by unfold State.hostErr; split <;> rfl
@[simp] theorem State.hostErr_contexts (s : State) (b : Nat) : (s.hostErr b).contexts = s.contexts := by unfold State.hostErr; split <;> rfl
@[simp] theorem State.hostErr_pipes (s : State) (b : Nat) : (s.hostErr b).pipes = s.pipes := by unfold State.hostErr; split <;> rfl
@[simp] theorem State.hostErr_queues (s : State) (b : Nat) : (s.hostErr b).queues = s.queues := by unfold State.hostErr; split <;> rfl
@[simp] theorem State.hostErr_packets (s : State) (b : Nat) : (s.hostErr b).packets = s.packets := by unfold State.hostErr; split <;> rfl
@[simp] theorem State.hostErr_waitItems (s : State) (b : Nat) : (s.hostErr b).waitItems = s.waitItems := by unfold State.hostErr; split <;> rfl
@[simp] theorem State.hostErr_ringWaits (s : State) (b : Nat) : (s.hostErr b).ringWaits = s.ringWaits := by unfold State.hostErr; split <;> rfl
@[simp] theorem State.hostErr_rebases (s : State) (b : Nat) : (s.hostErr b).rebases = s.rebases := by unfold State.hostErr; split <;> rfl
@[simp] theorem State.hostErr_agenda (s : State) (b : Nat) : (s.hostErr b).agenda = s.agenda := by unfold State.hostErr; split <;> rfl
@[simp] theorem State.hostErr_cur (s : State) (b : Nat) : (s.hostErr b).cur = s.cur := by unfold State.hostErr; split <;> rfl
@[simp] theorem State.hostErr_nextId (s : State) (b : Nat) : (s.hostErr b).nextId = s.nextId := by unfold State.hostErr; split <;> rfl
@[simp] theorem State.hostErr_ticks (s : State) (b : Nat) : (s.hostErr b).ticks = s.ticks := by unfold State.hostErr; split <;> rfl
@[simp] theorem State.hostErr_turns (s : State) (b : Nat) : (s.hostErr b).turns = s.turns := by unfold State.hostErr; split <;> rfl
@[simp] theorem State.hostErr_blocked (s : State) (b : Nat) : (s.hostErr b).blocked = s.blocked := by unfold State.hostErr; split <;> rfl
@[simp] theorem State.hostErr_overflowed (s : State) (b : Nat) : (s.hostErr b).overflowed = s.overflowed := by unfold State.hostErr; split <;> rfl
@[simp] theorem State.hostErr_ahead (s : State) (b : Nat) : (s.hostErr b).ahead = s.ahead := by unfold State.hostErr; split <;> rfl

end Sys2Proof.Machine
end

