-- ==== Sys2Proof/Laws/Group.lean ====
section
/-! SUPPORT. What each update of a group leaves alone: one lemma per field and update. -/

namespace Sys2Proof.Machine

/-! ### Group.setS -/

@[simp] theorem Group.setS_asid (g : Group) (n : Nat) (v : Word) : (g.setS n v).asid = g.asid := by unfold Group.setS; split <;> rfl
@[simp] theorem Group.setS_core (g : Group) (n : Nat) (v : Word) : (g.setS n v).core = g.core := by unfold Group.setS; split <;> rfl
@[simp] theorem Group.setS_part (g : Group) (n : Nat) (v : Word) : (g.setS n v).part = g.part := by unfold Group.setS; split <;> rfl
@[simp] theorem Group.setS_slot (g : Group) (n : Nat) (v : Word) : (g.setS n v).slot = g.slot := by unfold Group.setS; split <;> rfl
@[simp] theorem Group.setS_gid (g : Group) (n : Nat) (v : Word) : (g.setS n v).gid = g.gid := by unfold Group.setS; split <;> rfl
@[simp] theorem Group.setS_demand (g : Group) (n : Nat) (v : Word) : (g.setS n v).demand = g.demand := by unfold Group.setS; split <;> rfl
@[simp] theorem Group.setS_blocks (g : Group) (n : Nat) (v : Word) : (g.setS n v).blocks = g.blocks := by unfold Group.setS; split <;> rfl
@[simp] theorem Group.setS_pc (g : Group) (n : Nat) (v : Word) : (g.setS n v).pc = g.pc := by unfold Group.setS; split <;> rfl
@[simp] theorem Group.setS_vregs (g : Group) (n : Nat) (v : Word) : (g.setS n v).vregs = g.vregs := by unfold Group.setS; split <;> rfl
@[simp] theorem Group.setS_flags (g : Group) (n : Nat) (v : Word) : (g.setS n v).flags = g.flags := by unfold Group.setS; split <;> rfl
@[simp] theorem Group.setS_gmode (g : Group) (n : Nat) (v : Word) : (g.setS n v).gmode = g.gmode := by unfold Group.setS; split <;> rfl
@[simp] theorem Group.setS_srseed (g : Group) (n : Nat) (v : Word) : (g.setS n v).srseed = g.srseed := by unfold Group.setS; split <;> rfl
@[simp] theorem Group.setS_view (g : Group) (n : Nat) (v : Word) : (g.setS n v).view = g.view := by unfold Group.setS; split <;> rfl
@[simp] theorem Group.setS_observed (g : Group) (n : Nat) (v : Word) : (g.setS n v).observed = g.observed := by unfold Group.setS; split <;> rfl
@[simp] theorem Group.setS_compl (g : Group) (n : Nat) (v : Word) : (g.setS n v).compl = g.compl := by unfold Group.setS; split <;> rfl
@[simp] theorem Group.setS_ifp (g : Group) (n : Nat) (v : Word) : (g.setS n v).ifp = g.ifp := by unfold Group.setS; split <;> rfl
@[simp] theorem Group.setS_drift (g : Group) (n : Nat) (v : Word) : (g.setS n v).drift = g.drift := by unfold Group.setS; split <;> rfl
@[simp] theorem Group.setS_window (g : Group) (n : Nat) (v : Word) : (g.setS n v).window = g.window := by unfold Group.setS; split <;> rfl
@[simp] theorem Group.setS_dropped (g : Group) (n : Nat) (v : Word) : (g.setS n v).dropped = g.dropped := by unfold Group.setS; split <;> rfl
@[simp] theorem Group.setS_sup (g : Group) (n : Nat) (v : Word) : (g.setS n v).sup = g.sup := by unfold Group.setS; split <;> rfl
@[simp] theorem Group.setS_trap (g : Group) (n : Nat) (v : Word) : (g.setS n v).trap = g.trap := by unfold Group.setS; split <;> rfl
@[simp] theorem Group.setS_ops (g : Group) (n : Nat) (v : Word) : (g.setS n v).ops = g.ops := by unfold Group.setS; split <;> rfl
@[simp] theorem Group.setS_pend (g : Group) (n : Nat) (v : Word) : (g.setS n v).pend = g.pend := by unfold Group.setS; split <;> rfl
@[simp] theorem Group.setS_region (g : Group) (n : Nat) (v : Word) : (g.setS n v).region = g.region := by unfold Group.setS; split <;> rfl
@[simp] theorem Group.setS_stackEnd (g : Group) (n : Nat) (v : Word) : (g.setS n v).stackEnd = g.stackEnd := by unfold Group.setS; split <;> rfl
@[simp] theorem Group.setS_team (g : Group) (n : Nat) (v : Word) : (g.setS n v).team = g.team := by unfold Group.setS; split <;> rfl
@[simp] theorem Group.setS_tasks (g : Group) (n : Nat) (v : Word) : (g.setS n v).tasks = g.tasks := by unfold Group.setS; split <;> rfl
@[simp] theorem Group.setS_running (g : Group) (n : Nat) (v : Word) : (g.setS n v).running = g.running := by unfold Group.setS; split <;> rfl
@[simp] theorem Group.setS_park (g : Group) (n : Nat) (v : Word) : (g.setS n v).park = g.park := by unfold Group.setS; split <;> rfl
@[simp] theorem Group.setS_inWord (g : Group) (n : Nat) (v : Word) : (g.setS n v).inWord = g.inWord := by unfold Group.setS; split <;> rfl
@[simp] theorem Group.setS_current (g : Group) (n : Nat) (v : Word) : (g.setS n v).current = g.current := by unfold Group.setS; split <;> rfl
@[simp] theorem Group.setS_refind (g : Group) (n : Nat) (v : Word) : (g.setS n v).refind = g.refind := by unfold Group.setS; split <;> rfl
@[simp] theorem Group.setS_arrival (g : Group) (n : Nat) (v : Word) : (g.setS n v).arrival = g.arrival := by unfold Group.setS; split <;> rfl
@[simp] theorem Group.setS_replay (g : Group) (n : Nat) (v : Word) : (g.setS n v).replay = g.replay := by unfold Group.setS; split <;> rfl
@[simp] theorem Group.setS_answers (g : Group) (n : Nat) (v : Word) : (g.setS n v).answers = g.answers := by unfold Group.setS; split <;> rfl
@[simp] theorem Group.setS_wanted (g : Group) (n : Nat) (v : Word) : (g.setS n v).wanted = g.wanted := by unfold Group.setS; split <;> rfl
@[simp] theorem Group.setS_issued (g : Group) (n : Nat) (v : Word) : (g.setS n v).issued = g.issued := by unfold Group.setS; split <;> rfl
@[simp] theorem Group.setS_lastIssue (g : Group) (n : Nat) (v : Word) : (g.setS n v).lastIssue = g.lastIssue := by unfold Group.setS; split <;> rfl
@[simp] theorem Group.setS_sleepLeft (g : Group) (n : Nat) (v : Word) : (g.setS n v).sleepLeft = g.sleepLeft := by unfold Group.setS; split <;> rfl
@[simp] theorem Group.setS_escal (g : Group) (n : Nat) (v : Word) : (g.setS n v).escal = g.escal := by unfold Group.setS; split <;> rfl
@[simp] theorem Group.setS_poisonRegs (g : Group) (n : Nat) (v : Word) : (g.setS n v).poisonRegs = g.poisonRegs := by unfold Group.setS; split <;> rfl
@[simp] theorem Group.setS_active (g : Group) (n : Nat) (v : Word) : (g.setS n v).active = g.active := by unfold Group.setS; split <;> rfl
@[simp] theorem Group.setS_since (g : Group) (n : Nat) (v : Word) : (g.setS n v).since = g.since := by unfold Group.setS; split <;> rfl
@[simp] theorem Group.setS_seen (g : Group) (n : Nat) (v : Word) : (g.setS n v).seen = g.seen := by unfold Group.setS; split <;> rfl
@[simp] theorem Group.setS_migTo (g : Group) (n : Nat) (v : Word) : (g.setS n v).migTo = g.migTo := by unfold Group.setS; split <;> rfl

/-! ### Group.setTriple -/

@[simp] theorem Group.setTriple_asid (g : Group) (n : Nat) (m : LaneMask) : (g.setTriple n m).asid = g.asid := by simp [Group.setTriple]
@[simp] theorem Group.setTriple_core (g : Group) (n : Nat) (m : LaneMask) : (g.setTriple n m).core = g.core := by simp [Group.setTriple]
@[simp] theorem Group.setTriple_part (g : Group) (n : Nat) (m : LaneMask) : (g.setTriple n m).part = g.part := by simp [Group.setTriple]
@[simp] theorem Group.setTriple_slot (g : Group) (n : Nat) (m : LaneMask) : (g.setTriple n m).slot = g.slot := by simp [Group.setTriple]
@[simp] theorem Group.setTriple_gid (g : Group) (n : Nat) (m : LaneMask) : (g.setTriple n m).gid = g.gid := by simp [Group.setTriple]
@[simp] theorem Group.setTriple_demand (g : Group) (n : Nat) (m : LaneMask) : (g.setTriple n m).demand = g.demand := by simp [Group.setTriple]
@[simp] theorem Group.setTriple_blocks (g : Group) (n : Nat) (m : LaneMask) : (g.setTriple n m).blocks = g.blocks := by simp [Group.setTriple]
@[simp] theorem Group.setTriple_pc (g : Group) (n : Nat) (m : LaneMask) : (g.setTriple n m).pc = g.pc := by simp [Group.setTriple]
@[simp] theorem Group.setTriple_vregs (g : Group) (n : Nat) (m : LaneMask) : (g.setTriple n m).vregs = g.vregs := by simp [Group.setTriple]
@[simp] theorem Group.setTriple_flags (g : Group) (n : Nat) (m : LaneMask) : (g.setTriple n m).flags = g.flags := by simp [Group.setTriple]
@[simp] theorem Group.setTriple_gmode (g : Group) (n : Nat) (m : LaneMask) : (g.setTriple n m).gmode = g.gmode := by simp [Group.setTriple]
@[simp] theorem Group.setTriple_srseed (g : Group) (n : Nat) (m : LaneMask) : (g.setTriple n m).srseed = g.srseed := by simp [Group.setTriple]
@[simp] theorem Group.setTriple_view (g : Group) (n : Nat) (m : LaneMask) : (g.setTriple n m).view = g.view := by simp [Group.setTriple]
@[simp] theorem Group.setTriple_observed (g : Group) (n : Nat) (m : LaneMask) : (g.setTriple n m).observed = g.observed := by simp [Group.setTriple]
@[simp] theorem Group.setTriple_compl (g : Group) (n : Nat) (m : LaneMask) : (g.setTriple n m).compl = g.compl := by simp [Group.setTriple]
@[simp] theorem Group.setTriple_ifp (g : Group) (n : Nat) (m : LaneMask) : (g.setTriple n m).ifp = g.ifp := by simp [Group.setTriple]
@[simp] theorem Group.setTriple_drift (g : Group) (n : Nat) (m : LaneMask) : (g.setTriple n m).drift = g.drift := by simp [Group.setTriple]
@[simp] theorem Group.setTriple_window (g : Group) (n : Nat) (m : LaneMask) : (g.setTriple n m).window = g.window := by simp [Group.setTriple]
@[simp] theorem Group.setTriple_dropped (g : Group) (n : Nat) (m : LaneMask) : (g.setTriple n m).dropped = g.dropped := by simp [Group.setTriple]
@[simp] theorem Group.setTriple_sup (g : Group) (n : Nat) (m : LaneMask) : (g.setTriple n m).sup = g.sup := by simp [Group.setTriple]
@[simp] theorem Group.setTriple_trap (g : Group) (n : Nat) (m : LaneMask) : (g.setTriple n m).trap = g.trap := by simp [Group.setTriple]
@[simp] theorem Group.setTriple_ops (g : Group) (n : Nat) (m : LaneMask) : (g.setTriple n m).ops = g.ops := by simp [Group.setTriple]
@[simp] theorem Group.setTriple_pend (g : Group) (n : Nat) (m : LaneMask) : (g.setTriple n m).pend = g.pend := by simp [Group.setTriple]
@[simp] theorem Group.setTriple_region (g : Group) (n : Nat) (m : LaneMask) : (g.setTriple n m).region = g.region := by simp [Group.setTriple]
@[simp] theorem Group.setTriple_stackEnd (g : Group) (n : Nat) (m : LaneMask) : (g.setTriple n m).stackEnd = g.stackEnd := by simp [Group.setTriple]
@[simp] theorem Group.setTriple_team (g : Group) (n : Nat) (m : LaneMask) : (g.setTriple n m).team = g.team := by simp [Group.setTriple]
@[simp] theorem Group.setTriple_tasks (g : Group) (n : Nat) (m : LaneMask) : (g.setTriple n m).tasks = g.tasks := by simp [Group.setTriple]
@[simp] theorem Group.setTriple_running (g : Group) (n : Nat) (m : LaneMask) : (g.setTriple n m).running = g.running := by simp [Group.setTriple]
@[simp] theorem Group.setTriple_park (g : Group) (n : Nat) (m : LaneMask) : (g.setTriple n m).park = g.park := by simp [Group.setTriple]
@[simp] theorem Group.setTriple_inWord (g : Group) (n : Nat) (m : LaneMask) : (g.setTriple n m).inWord = g.inWord := by simp [Group.setTriple]
@[simp] theorem Group.setTriple_current (g : Group) (n : Nat) (m : LaneMask) : (g.setTriple n m).current = g.current := by simp [Group.setTriple]
@[simp] theorem Group.setTriple_refind (g : Group) (n : Nat) (m : LaneMask) : (g.setTriple n m).refind = g.refind := by simp [Group.setTriple]
@[simp] theorem Group.setTriple_arrival (g : Group) (n : Nat) (m : LaneMask) : (g.setTriple n m).arrival = g.arrival := by simp [Group.setTriple]
@[simp] theorem Group.setTriple_replay (g : Group) (n : Nat) (m : LaneMask) : (g.setTriple n m).replay = g.replay := by simp [Group.setTriple]
@[simp] theorem Group.setTriple_answers (g : Group) (n : Nat) (m : LaneMask) : (g.setTriple n m).answers = g.answers := by simp [Group.setTriple]
@[simp] theorem Group.setTriple_wanted (g : Group) (n : Nat) (m : LaneMask) : (g.setTriple n m).wanted = g.wanted := by simp [Group.setTriple]
@[simp] theorem Group.setTriple_issued (g : Group) (n : Nat) (m : LaneMask) : (g.setTriple n m).issued = g.issued := by simp [Group.setTriple]
@[simp] theorem Group.setTriple_lastIssue (g : Group) (n : Nat) (m : LaneMask) : (g.setTriple n m).lastIssue = g.lastIssue := by simp [Group.setTriple]
@[simp] theorem Group.setTriple_sleepLeft (g : Group) (n : Nat) (m : LaneMask) : (g.setTriple n m).sleepLeft = g.sleepLeft := by simp [Group.setTriple]
@[simp] theorem Group.setTriple_escal (g : Group) (n : Nat) (m : LaneMask) : (g.setTriple n m).escal = g.escal := by simp [Group.setTriple]
@[simp] theorem Group.setTriple_poisonRegs (g : Group) (n : Nat) (m : LaneMask) : (g.setTriple n m).poisonRegs = g.poisonRegs := by simp [Group.setTriple]
@[simp] theorem Group.setTriple_active (g : Group) (n : Nat) (m : LaneMask) : (g.setTriple n m).active = g.active := by simp [Group.setTriple]
@[simp] theorem Group.setTriple_since (g : Group) (n : Nat) (m : LaneMask) : (g.setTriple n m).since = g.since := by simp [Group.setTriple]
@[simp] theorem Group.setTriple_seen (g : Group) (n : Nat) (m : LaneMask) : (g.setTriple n m).seen = g.seen := by simp [Group.setTriple]
@[simp] theorem Group.setTriple_migTo (g : Group) (n : Nat) (m : LaneMask) : (g.setTriple n m).migTo = g.migTo := by simp [Group.setTriple]

/-! ### Group.setAm -/

@[simp] theorem Group.setAm_asid (g : Group) (m : LaneMask) : (g.setAm m).asid = g.asid := by simp [Group.setAm]
@[simp] theorem Group.setAm_core (g : Group) (m : LaneMask) : (g.setAm m).core = g.core := by simp [Group.setAm]
@[simp] theorem Group.setAm_part (g : Group) (m : LaneMask) : (g.setAm m).part = g.part := by simp [Group.setAm]
@[simp] theorem Group.setAm_slot (g : Group) (m : LaneMask) : (g.setAm m).slot = g.slot := by simp [Group.setAm]
@[simp] theorem Group.setAm_gid (g : Group) (m : LaneMask) : (g.setAm m).gid = g.gid := by simp [Group.setAm]
@[simp] theorem Group.setAm_demand (g : Group) (m : LaneMask) : (g.setAm m).demand = g.demand := by simp [Group.setAm]
@[simp] theorem Group.setAm_blocks (g : Group) (m : LaneMask) : (g.setAm m).blocks = g.blocks := by simp [Group.setAm]
@[simp] theorem Group.setAm_pc (g : Group) (m : LaneMask) : (g.setAm m).pc = g.pc := by simp [Group.setAm]
@[simp] theorem Group.setAm_vregs (g : Group) (m : LaneMask) : (g.setAm m).vregs = g.vregs := by simp [Group.setAm]
@[simp] theorem Group.setAm_flags (g : Group) (m : LaneMask) : (g.setAm m).flags = g.flags := by simp [Group.setAm]
@[simp] theorem Group.setAm_gmode (g : Group) (m : LaneMask) : (g.setAm m).gmode = g.gmode := by simp [Group.setAm]
@[simp] theorem Group.setAm_srseed (g : Group) (m : LaneMask) : (g.setAm m).srseed = g.srseed := by simp [Group.setAm]
@[simp] theorem Group.setAm_view (g : Group) (m : LaneMask) : (g.setAm m).view = g.view := by simp [Group.setAm]
@[simp] theorem Group.setAm_observed (g : Group) (m : LaneMask) : (g.setAm m).observed = g.observed := by simp [Group.setAm]
@[simp] theorem Group.setAm_compl (g : Group) (m : LaneMask) : (g.setAm m).compl = g.compl := by simp [Group.setAm]
@[simp] theorem Group.setAm_ifp (g : Group) (m : LaneMask) : (g.setAm m).ifp = g.ifp := by simp [Group.setAm]
@[simp] theorem Group.setAm_drift (g : Group) (m : LaneMask) : (g.setAm m).drift = g.drift := by simp [Group.setAm]
@[simp] theorem Group.setAm_window (g : Group) (m : LaneMask) : (g.setAm m).window = g.window := by simp [Group.setAm]
@[simp] theorem Group.setAm_dropped (g : Group) (m : LaneMask) : (g.setAm m).dropped = g.dropped := by simp [Group.setAm]
@[simp] theorem Group.setAm_sup (g : Group) (m : LaneMask) : (g.setAm m).sup = g.sup := by simp [Group.setAm]
@[simp] theorem Group.setAm_trap (g : Group) (m : LaneMask) : (g.setAm m).trap = g.trap := by simp [Group.setAm]
@[simp] theorem Group.setAm_ops (g : Group) (m : LaneMask) : (g.setAm m).ops = g.ops := by simp [Group.setAm]
@[simp] theorem Group.setAm_pend (g : Group) (m : LaneMask) : (g.setAm m).pend = g.pend := by simp [Group.setAm]
@[simp] theorem Group.setAm_region (g : Group) (m : LaneMask) : (g.setAm m).region = g.region := by simp [Group.setAm]
@[simp] theorem Group.setAm_stackEnd (g : Group) (m : LaneMask) : (g.setAm m).stackEnd = g.stackEnd := by simp [Group.setAm]
@[simp] theorem Group.setAm_team (g : Group) (m : LaneMask) : (g.setAm m).team = g.team := by simp [Group.setAm]
@[simp] theorem Group.setAm_tasks (g : Group) (m : LaneMask) : (g.setAm m).tasks = g.tasks := by simp [Group.setAm]
@[simp] theorem Group.setAm_running (g : Group) (m : LaneMask) : (g.setAm m).running = g.running := by simp [Group.setAm]
@[simp] theorem Group.setAm_park (g : Group) (m : LaneMask) : (g.setAm m).park = g.park := by simp [Group.setAm]
@[simp] theorem Group.setAm_inWord (g : Group) (m : LaneMask) : (g.setAm m).inWord = g.inWord := by simp [Group.setAm]
@[simp] theorem Group.setAm_current (g : Group) (m : LaneMask) : (g.setAm m).current = g.current := by simp [Group.setAm]
@[simp] theorem Group.setAm_refind (g : Group) (m : LaneMask) : (g.setAm m).refind = g.refind := by simp [Group.setAm]
@[simp] theorem Group.setAm_arrival (g : Group) (m : LaneMask) : (g.setAm m).arrival = g.arrival := by simp [Group.setAm]
@[simp] theorem Group.setAm_replay (g : Group) (m : LaneMask) : (g.setAm m).replay = g.replay := by simp [Group.setAm]
@[simp] theorem Group.setAm_answers (g : Group) (m : LaneMask) : (g.setAm m).answers = g.answers := by simp [Group.setAm]
@[simp] theorem Group.setAm_wanted (g : Group) (m : LaneMask) : (g.setAm m).wanted = g.wanted := by simp [Group.setAm]
@[simp] theorem Group.setAm_issued (g : Group) (m : LaneMask) : (g.setAm m).issued = g.issued := by simp [Group.setAm]
@[simp] theorem Group.setAm_lastIssue (g : Group) (m : LaneMask) : (g.setAm m).lastIssue = g.lastIssue := by simp [Group.setAm]
@[simp] theorem Group.setAm_sleepLeft (g : Group) (m : LaneMask) : (g.setAm m).sleepLeft = g.sleepLeft := by simp [Group.setAm]
@[simp] theorem Group.setAm_escal (g : Group) (m : LaneMask) : (g.setAm m).escal = g.escal := by simp [Group.setAm]
@[simp] theorem Group.setAm_poisonRegs (g : Group) (m : LaneMask) : (g.setAm m).poisonRegs = g.poisonRegs := by simp [Group.setAm]
@[simp] theorem Group.setAm_active (g : Group) (m : LaneMask) : (g.setAm m).active = g.active := by simp [Group.setAm]
@[simp] theorem Group.setAm_since (g : Group) (m : LaneMask) : (g.setAm m).since = g.since := by simp [Group.setAm]
@[simp] theorem Group.setAm_seen (g : Group) (m : LaneMask) : (g.setAm m).seen = g.seen := by simp [Group.setAm]
@[simp] theorem Group.setAm_migTo (g : Group) (m : LaneMask) : (g.setAm m).migTo = g.migTo := by simp [Group.setAm]

/-! ### Group.setV -/

@[simp] theorem Group.setV_asid (g : Group) (n : Nat) (m : LaneMask) (f : Nat → Word) : (g.setV n m f).asid = g.asid := by unfold Group.setV; split <;> rfl
@[simp] theorem Group.setV_core (g : Group) (n : Nat) (m : LaneMask) (f : Nat → Word) : (g.setV n m f).core = g.core := by unfold Group.setV; split <;> rfl
@[simp] theorem Group.setV_part (g : Group) (n : Nat) (m : LaneMask) (f : Nat → Word) : (g.setV n m f).part = g.part := by unfold Group.setV; split <;> rfl
@[simp] theorem Group.setV_slot (g : Group) (n : Nat) (m : LaneMask) (f : Nat → Word) : (g.setV n m f).slot = g.slot := by unfold Group.setV; split <;> rfl
@[simp] theorem Group.setV_gid (g : Group) (n : Nat) (m : LaneMask) (f : Nat → Word) : (g.setV n m f).gid = g.gid := by unfold Group.setV; split <;> rfl
@[simp] theorem Group.setV_demand (g : Group) (n : Nat) (m : LaneMask) (f : Nat → Word) : (g.setV n m f).demand = g.demand := by unfold Group.setV; split <;> rfl
@[simp] theorem Group.setV_blocks (g : Group) (n : Nat) (m : LaneMask) (f : Nat → Word) : (g.setV n m f).blocks = g.blocks := by unfold Group.setV; split <;> rfl
@[simp] theorem Group.setV_pc (g : Group) (n : Nat) (m : LaneMask) (f : Nat → Word) : (g.setV n m f).pc = g.pc := by unfold Group.setV; split <;> rfl
@[simp] theorem Group.setV_sregs (g : Group) (n : Nat) (m : LaneMask) (f : Nat → Word) : (g.setV n m f).sregs = g.sregs := by unfold Group.setV; split <;> rfl
@[simp] theorem Group.setV_flags (g : Group) (n : Nat) (m : LaneMask) (f : Nat → Word) : (g.setV n m f).flags = g.flags := by unfold Group.setV; split <;> rfl
@[simp] theorem Group.setV_gmode (g : Group) (n : Nat) (m : LaneMask) (f : Nat → Word) : (g.setV n m f).gmode = g.gmode := by unfold Group.setV; split <;> rfl
@[simp] theorem Group.setV_srseed (g : Group) (n : Nat) (m : LaneMask) (f : Nat → Word) : (g.setV n m f).srseed = g.srseed := by unfold Group.setV; split <;> rfl
@[simp] theorem Group.setV_view (g : Group) (n : Nat) (m : LaneMask) (f : Nat → Word) : (g.setV n m f).view = g.view := by unfold Group.setV; split <;> rfl
@[simp] theorem Group.setV_observed (g : Group) (n : Nat) (m : LaneMask) (f : Nat → Word) : (g.setV n m f).observed = g.observed := by unfold Group.setV; split <;> rfl
@[simp] theorem Group.setV_compl (g : Group) (n : Nat) (m : LaneMask) (f : Nat → Word) : (g.setV n m f).compl = g.compl := by unfold Group.setV; split <;> rfl
@[simp] theorem Group.setV_ifp (g : Group) (n : Nat) (m : LaneMask) (f : Nat → Word) : (g.setV n m f).ifp = g.ifp := by unfold Group.setV; split <;> rfl
@[simp] theorem Group.setV_drift (g : Group) (n : Nat) (m : LaneMask) (f : Nat → Word) : (g.setV n m f).drift = g.drift := by unfold Group.setV; split <;> rfl
@[simp] theorem Group.setV_window (g : Group) (n : Nat) (m : LaneMask) (f : Nat → Word) : (g.setV n m f).window = g.window := by unfold Group.setV; split <;> rfl
@[simp] theorem Group.setV_dropped (g : Group) (n : Nat) (m : LaneMask) (f : Nat → Word) : (g.setV n m f).dropped = g.dropped := by unfold Group.setV; split <;> rfl
@[simp] theorem Group.setV_sup (g : Group) (n : Nat) (m : LaneMask) (f : Nat → Word) : (g.setV n m f).sup = g.sup := by unfold Group.setV; split <;> rfl
@[simp] theorem Group.setV_trap (g : Group) (n : Nat) (m : LaneMask) (f : Nat → Word) : (g.setV n m f).trap = g.trap := by unfold Group.setV; split <;> rfl
@[simp] theorem Group.setV_ops (g : Group) (n : Nat) (m : LaneMask) (f : Nat → Word) : (g.setV n m f).ops = g.ops := by unfold Group.setV; split <;> rfl
@[simp] theorem Group.setV_pend (g : Group) (n : Nat) (m : LaneMask) (f : Nat → Word) : (g.setV n m f).pend = g.pend := by unfold Group.setV; split <;> rfl
@[simp] theorem Group.setV_region (g : Group) (n : Nat) (m : LaneMask) (f : Nat → Word) : (g.setV n m f).region = g.region := by unfold Group.setV; split <;> rfl
@[simp] theorem Group.setV_stackEnd (g : Group) (n : Nat) (m : LaneMask) (f : Nat → Word) : (g.setV n m f).stackEnd = g.stackEnd := by unfold Group.setV; split <;> rfl
@[simp] theorem Group.setV_team (g : Group) (n : Nat) (m : LaneMask) (f : Nat → Word) : (g.setV n m f).team = g.team := by unfold Group.setV; split <;> rfl
@[simp] theorem Group.setV_tasks (g : Group) (n : Nat) (m : LaneMask) (f : Nat → Word) : (g.setV n m f).tasks = g.tasks := by unfold Group.setV; split <;> rfl
@[simp] theorem Group.setV_running (g : Group) (n : Nat) (m : LaneMask) (f : Nat → Word) : (g.setV n m f).running = g.running := by unfold Group.setV; split <;> rfl
@[simp] theorem Group.setV_park (g : Group) (n : Nat) (m : LaneMask) (f : Nat → Word) : (g.setV n m f).park = g.park := by unfold Group.setV; split <;> rfl
@[simp] theorem Group.setV_inWord (g : Group) (n : Nat) (m : LaneMask) (f : Nat → Word) : (g.setV n m f).inWord = g.inWord := by unfold Group.setV; split <;> rfl
@[simp] theorem Group.setV_current (g : Group) (n : Nat) (m : LaneMask) (f : Nat → Word) : (g.setV n m f).current = g.current := by unfold Group.setV; split <;> rfl
@[simp] theorem Group.setV_refind (g : Group) (n : Nat) (m : LaneMask) (f : Nat → Word) : (g.setV n m f).refind = g.refind := by unfold Group.setV; split <;> rfl
@[simp] theorem Group.setV_arrival (g : Group) (n : Nat) (m : LaneMask) (f : Nat → Word) : (g.setV n m f).arrival = g.arrival := by unfold Group.setV; split <;> rfl
@[simp] theorem Group.setV_replay (g : Group) (n : Nat) (m : LaneMask) (f : Nat → Word) : (g.setV n m f).replay = g.replay := by unfold Group.setV; split <;> rfl
@[simp] theorem Group.setV_answers (g : Group) (n : Nat) (m : LaneMask) (f : Nat → Word) : (g.setV n m f).answers = g.answers := by unfold Group.setV; split <;> rfl
@[simp] theorem Group.setV_wanted (g : Group) (n : Nat) (m : LaneMask) (f : Nat → Word) : (g.setV n m f).wanted = g.wanted := by unfold Group.setV; split <;> rfl
@[simp] theorem Group.setV_issued (g : Group) (n : Nat) (m : LaneMask) (f : Nat → Word) : (g.setV n m f).issued = g.issued := by unfold Group.setV; split <;> rfl
@[simp] theorem Group.setV_lastIssue (g : Group) (n : Nat) (m : LaneMask) (f : Nat → Word) : (g.setV n m f).lastIssue = g.lastIssue := by unfold Group.setV; split <;> rfl
@[simp] theorem Group.setV_sleepLeft (g : Group) (n : Nat) (m : LaneMask) (f : Nat → Word) : (g.setV n m f).sleepLeft = g.sleepLeft := by unfold Group.setV; split <;> rfl
@[simp] theorem Group.setV_escal (g : Group) (n : Nat) (m : LaneMask) (f : Nat → Word) : (g.setV n m f).escal = g.escal := by unfold Group.setV; split <;> rfl
@[simp] theorem Group.setV_poisonRegs (g : Group) (n : Nat) (m : LaneMask) (f : Nat → Word) : (g.setV n m f).poisonRegs = g.poisonRegs := by unfold Group.setV; split <;> rfl
@[simp] theorem Group.setV_active (g : Group) (n : Nat) (m : LaneMask) (f : Nat → Word) : (g.setV n m f).active = g.active := by unfold Group.setV; split <;> rfl
@[simp] theorem Group.setV_since (g : Group) (n : Nat) (m : LaneMask) (f : Nat → Word) : (g.setV n m f).since = g.since := by unfold Group.setV; split <;> rfl
@[simp] theorem Group.setV_seen (g : Group) (n : Nat) (m : LaneMask) (f : Nat → Word) : (g.setV n m f).seen = g.seen := by unfold Group.setV; split <;> rfl
@[simp] theorem Group.setV_migTo (g : Group) (n : Nat) (m : LaneMask) (f : Nat → Word) : (g.setV n m f).migTo = g.migTo := by unfold Group.setV; split <;> rfl

/-! ### Group.unpoison -/

@[simp] theorem Group.unpoison_asid (g : Group) (l : List Nat) : (g.unpoison l).asid = g.asid := by unfold Group.unpoison; split <;> rfl
@[simp] theorem Group.unpoison_core (g : Group) (l : List Nat) : (g.unpoison l).core = g.core := by unfold Group.unpoison; split <;> rfl
@[simp] theorem Group.unpoison_part (g : Group) (l : List Nat) : (g.unpoison l).part = g.part := by unfold Group.unpoison; split <;> rfl
@[simp] theorem Group.unpoison_slot (g : Group) (l : List Nat) : (g.unpoison l).slot = g.slot := by unfold Group.unpoison; split <;> rfl
@[simp] theorem Group.unpoison_gid (g : Group) (l : List Nat) : (g.unpoison l).gid = g.gid := by unfold Group.unpoison; split <;> rfl
@[simp] theorem Group.unpoison_demand (g : Group) (l : List Nat) : (g.unpoison l).demand = g.demand := by unfold Group.unpoison; split <;> rfl
@[simp] theorem Group.unpoison_blocks (g : Group) (l : List Nat) : (g.unpoison l).blocks = g.blocks := by unfold Group.unpoison; split <;> rfl
@[simp] theorem Group.unpoison_pc (g : Group) (l : List Nat) : (g.unpoison l).pc = g.pc := by unfold Group.unpoison; split <;> rfl
@[simp] theorem Group.unpoison_sregs (g : Group) (l : List Nat) : (g.unpoison l).sregs = g.sregs := by unfold Group.unpoison; split <;> rfl
@[simp] theorem Group.unpoison_vregs (g : Group) (l : List Nat) : (g.unpoison l).vregs = g.vregs := by unfold Group.unpoison; split <;> rfl
@[simp] theorem Group.unpoison_flags (g : Group) (l : List Nat) : (g.unpoison l).flags = g.flags := by unfold Group.unpoison; split <;> rfl
@[simp] theorem Group.unpoison_gmode (g : Group) (l : List Nat) : (g.unpoison l).gmode = g.gmode := by unfold Group.unpoison; split <;> rfl
@[simp] theorem Group.unpoison_srseed (g : Group) (l : List Nat) : (g.unpoison l).srseed = g.srseed := by unfold Group.unpoison; split <;> rfl
@[simp] theorem Group.unpoison_view (g : Group) (l : List Nat) : (g.unpoison l).view = g.view := by unfold Group.unpoison; split <;> rfl
@[simp] theorem Group.unpoison_observed (g : Group) (l : List Nat) : (g.unpoison l).observed = g.observed := by unfold Group.unpoison; split <;> rfl
@[simp] theorem Group.unpoison_compl (g : Group) (l : List Nat) : (g.unpoison l).compl = g.compl := by unfold Group.unpoison; split <;> rfl
@[simp] theorem Group.unpoison_ifp (g : Group) (l : List Nat) : (g.unpoison l).ifp = g.ifp := by unfold Group.unpoison; split <;> rfl
@[simp] theorem Group.unpoison_drift (g : Group) (l : List Nat) : (g.unpoison l).drift = g.drift := by unfold Group.unpoison; split <;> rfl
@[simp] theorem Group.unpoison_window (g : Group) (l : List Nat) : (g.unpoison l).window = g.window := by unfold Group.unpoison; split <;> rfl
@[simp] theorem Group.unpoison_dropped (g : Group) (l : List Nat) : (g.unpoison l).dropped = g.dropped := by unfold Group.unpoison; split <;> rfl
@[simp] theorem Group.unpoison_sup (g : Group) (l : List Nat) : (g.unpoison l).sup = g.sup := by unfold Group.unpoison; split <;> rfl
@[simp] theorem Group.unpoison_trap (g : Group) (l : List Nat) : (g.unpoison l).trap = g.trap := by unfold Group.unpoison; split <;> rfl
@[simp] theorem Group.unpoison_ops (g : Group) (l : List Nat) : (g.unpoison l).ops = g.ops := by unfold Group.unpoison; split <;> rfl
@[simp] theorem Group.unpoison_pend (g : Group) (l : List Nat) : (g.unpoison l).pend = g.pend := by unfold Group.unpoison; split <;> rfl
@[simp] theorem Group.unpoison_region (g : Group) (l : List Nat) : (g.unpoison l).region = g.region := by unfold Group.unpoison; split <;> rfl
@[simp] theorem Group.unpoison_stackEnd (g : Group) (l : List Nat) : (g.unpoison l).stackEnd = g.stackEnd := by unfold Group.unpoison; split <;> rfl
@[simp] theorem Group.unpoison_team (g : Group) (l : List Nat) : (g.unpoison l).team = g.team := by unfold Group.unpoison; split <;> rfl
@[simp] theorem Group.unpoison_tasks (g : Group) (l : List Nat) : (g.unpoison l).tasks = g.tasks := by unfold Group.unpoison; split <;> rfl
@[simp] theorem Group.unpoison_running (g : Group) (l : List Nat) : (g.unpoison l).running = g.running := by unfold Group.unpoison; split <;> rfl
@[simp] theorem Group.unpoison_park (g : Group) (l : List Nat) : (g.unpoison l).park = g.park := by unfold Group.unpoison; split <;> rfl
@[simp] theorem Group.unpoison_inWord (g : Group) (l : List Nat) : (g.unpoison l).inWord = g.inWord := by unfold Group.unpoison; split <;> rfl
@[simp] theorem Group.unpoison_current (g : Group) (l : List Nat) : (g.unpoison l).current = g.current := by unfold Group.unpoison; split <;> rfl
@[simp] theorem Group.unpoison_refind (g : Group) (l : List Nat) : (g.unpoison l).refind = g.refind := by unfold Group.unpoison; split <;> rfl
@[simp] theorem Group.unpoison_arrival (g : Group) (l : List Nat) : (g.unpoison l).arrival = g.arrival := by unfold Group.unpoison; split <;> rfl
@[simp] theorem Group.unpoison_replay (g : Group) (l : List Nat) : (g.unpoison l).replay = g.replay := by unfold Group.unpoison; split <;> rfl
@[simp] theorem Group.unpoison_answers (g : Group) (l : List Nat) : (g.unpoison l).answers = g.answers := by unfold Group.unpoison; split <;> rfl
@[simp] theorem Group.unpoison_wanted (g : Group) (l : List Nat) : (g.unpoison l).wanted = g.wanted := by unfold Group.unpoison; split <;> rfl
@[simp] theorem Group.unpoison_issued (g : Group) (l : List Nat) : (g.unpoison l).issued = g.issued := by unfold Group.unpoison; split <;> rfl
@[simp] theorem Group.unpoison_lastIssue (g : Group) (l : List Nat) : (g.unpoison l).lastIssue = g.lastIssue := by unfold Group.unpoison; split <;> rfl
@[simp] theorem Group.unpoison_sleepLeft (g : Group) (l : List Nat) : (g.unpoison l).sleepLeft = g.sleepLeft := by unfold Group.unpoison; split <;> rfl
@[simp] theorem Group.unpoison_escal (g : Group) (l : List Nat) : (g.unpoison l).escal = g.escal := by unfold Group.unpoison; split <;> rfl
@[simp] theorem Group.unpoison_active (g : Group) (l : List Nat) : (g.unpoison l).active = g.active := by unfold Group.unpoison; split <;> rfl
@[simp] theorem Group.unpoison_since (g : Group) (l : List Nat) : (g.unpoison l).since = g.since := by unfold Group.unpoison; split <;> rfl
@[simp] theorem Group.unpoison_seen (g : Group) (l : List Nat) : (g.unpoison l).seen = g.seen := by unfold Group.unpoison; split <;> rfl
@[simp] theorem Group.unpoison_migTo (g : Group) (l : List Nat) : (g.unpoison l).migTo = g.migTo := by unfold Group.unpoison; split <;> rfl

/-! ### writeDst -/

@[simp] theorem writeDst_asid (g : Group) (d : Opd) (wide : Bool) (m : LaneMask) (f : Nat → DWord) : (writeDst g d wide m f).asid = g.asid := by cases d <;> simp [writeDst] <;> split <;> simp
@[simp] theorem writeDst_core (g : Group) (d : Opd) (wide : Bool) (m : LaneMask) (f : Nat → DWord) : (writeDst g d wide m f).core = g.core := by cases d <;> simp [writeDst] <;> split <;> simp
@[simp] theorem writeDst_part (g : Group) (d : Opd) (wide : Bool) (m : LaneMask) (f : Nat → DWord) : (writeDst g d wide m f).part = g.part := by cases d <;> simp [writeDst] <;> split <;> simp
@[simp] theorem writeDst_slot (g : Group) (d : Opd) (wide : Bool) (m : LaneMask) (f : Nat → DWord) : (writeDst g d wide m f).slot = g.slot := by cases d <;> simp [writeDst] <;> split <;> simp
@[simp] theorem writeDst_gid (g : Group) (d : Opd) (wide : Bool) (m : LaneMask) (f : Nat → DWord) : (writeDst g d wide m f).gid = g.gid := by cases d <;> simp [writeDst] <;> split <;> simp
@[simp] theorem writeDst_demand (g : Group) (d : Opd) (wide : Bool) (m : LaneMask) (f : Nat → DWord) : (writeDst g d wide m f).demand = g.demand := by cases d <;> simp [writeDst] <;> split <;> simp
@[simp] theorem writeDst_blocks (g : Group) (d : Opd) (wide : Bool) (m : LaneMask) (f : Nat → DWord) : (writeDst g d wide m f).blocks = g.blocks := by cases d <;> simp [writeDst] <;> split <;> simp
@[simp] theorem writeDst_pc (g : Group) (d : Opd) (wide : Bool) (m : LaneMask) (f : Nat → DWord) : (writeDst g d wide m f).pc = g.pc := by cases d <;> simp [writeDst] <;> split <;> simp
@[simp] theorem writeDst_flags (g : Group) (d : Opd) (wide : Bool) (m : LaneMask) (f : Nat → DWord) : (writeDst g d wide m f).flags = g.flags := by cases d <;> simp [writeDst] <;> split <;> simp
@[simp] theorem writeDst_gmode (g : Group) (d : Opd) (wide : Bool) (m : LaneMask) (f : Nat → DWord) : (writeDst g d wide m f).gmode = g.gmode := by cases d <;> simp [writeDst] <;> split <;> simp
@[simp] theorem writeDst_srseed (g : Group) (d : Opd) (wide : Bool) (m : LaneMask) (f : Nat → DWord) : (writeDst g d wide m f).srseed = g.srseed := by cases d <;> simp [writeDst] <;> split <;> simp
@[simp] theorem writeDst_view (g : Group) (d : Opd) (wide : Bool) (m : LaneMask) (f : Nat → DWord) : (writeDst g d wide m f).view = g.view := by cases d <;> simp [writeDst] <;> split <;> simp
@[simp] theorem writeDst_observed (g : Group) (d : Opd) (wide : Bool) (m : LaneMask) (f : Nat → DWord) : (writeDst g d wide m f).observed = g.observed := by cases d <;> simp [writeDst] <;> split <;> simp
@[simp] theorem writeDst_compl (g : Group) (d : Opd) (wide : Bool) (m : LaneMask) (f : Nat → DWord) : (writeDst g d wide m f).compl = g.compl := by cases d <;> simp [writeDst] <;> split <;> simp
@[simp] theorem writeDst_ifp (g : Group) (d : Opd) (wide : Bool) (m : LaneMask) (f : Nat → DWord) : (writeDst g d wide m f).ifp = g.ifp := by cases d <;> simp [writeDst] <;> split <;> simp
@[simp] theorem writeDst_drift (g : Group) (d : Opd) (wide : Bool) (m : LaneMask) (f : Nat → DWord) : (writeDst g d wide m f).drift = g.drift := by cases d <;> simp [writeDst] <;> split <;> simp
@[simp] theorem writeDst_window (g : Group) (d : Opd) (wide : Bool) (m : LaneMask) (f : Nat → DWord) : (writeDst g d wide m f).window = g.window := by cases d <;> simp [writeDst] <;> split <;> simp
@[simp] theorem writeDst_dropped (g : Group) (d : Opd) (wide : Bool) (m : LaneMask) (f : Nat → DWord) : (writeDst g d wide m f).dropped = g.dropped := by cases d <;> simp [writeDst] <;> split <;> simp
@[simp] theorem writeDst_sup (g : Group) (d : Opd) (wide : Bool) (m : LaneMask) (f : Nat → DWord) : (writeDst g d wide m f).sup = g.sup := by cases d <;> simp [writeDst] <;> split <;> simp
@[simp] theorem writeDst_trap (g : Group) (d : Opd) (wide : Bool) (m : LaneMask) (f : Nat → DWord) : (writeDst g d wide m f).trap = g.trap := by cases d <;> simp [writeDst] <;> split <;> simp
@[simp] theorem writeDst_ops (g : Group) (d : Opd) (wide : Bool) (m : LaneMask) (f : Nat → DWord) : (writeDst g d wide m f).ops = g.ops := by cases d <;> simp [writeDst] <;> split <;> simp
@[simp] theorem writeDst_pend (g : Group) (d : Opd) (wide : Bool) (m : LaneMask) (f : Nat → DWord) : (writeDst g d wide m f).pend = g.pend := by cases d <;> simp [writeDst] <;> split <;> simp
@[simp] theorem writeDst_region (g : Group) (d : Opd) (wide : Bool) (m : LaneMask) (f : Nat → DWord) : (writeDst g d wide m f).region = g.region := by cases d <;> simp [writeDst] <;> split <;> simp
@[simp] theorem writeDst_stackEnd (g : Group) (d : Opd) (wide : Bool) (m : LaneMask) (f : Nat → DWord) : (writeDst g d wide m f).stackEnd = g.stackEnd := by cases d <;> simp [writeDst] <;> split <;> simp
@[simp] theorem writeDst_team (g : Group) (d : Opd) (wide : Bool) (m : LaneMask) (f : Nat → DWord) : (writeDst g d wide m f).team = g.team := by cases d <;> simp [writeDst] <;> split <;> simp
@[simp] theorem writeDst_tasks (g : Group) (d : Opd) (wide : Bool) (m : LaneMask) (f : Nat → DWord) : (writeDst g d wide m f).tasks = g.tasks := by cases d <;> simp [writeDst] <;> split <;> simp
@[simp] theorem writeDst_running (g : Group) (d : Opd) (wide : Bool) (m : LaneMask) (f : Nat → DWord) : (writeDst g d wide m f).running = g.running := by cases d <;> simp [writeDst] <;> split <;> simp
@[simp] theorem writeDst_park (g : Group) (d : Opd) (wide : Bool) (m : LaneMask) (f : Nat → DWord) : (writeDst g d wide m f).park = g.park := by cases d <;> simp [writeDst] <;> split <;> simp
@[simp] theorem writeDst_inWord (g : Group) (d : Opd) (wide : Bool) (m : LaneMask) (f : Nat → DWord) : (writeDst g d wide m f).inWord = g.inWord := by cases d <;> simp [writeDst] <;> split <;> simp
@[simp] theorem writeDst_current (g : Group) (d : Opd) (wide : Bool) (m : LaneMask) (f : Nat → DWord) : (writeDst g d wide m f).current = g.current := by cases d <;> simp [writeDst] <;> split <;> simp
@[simp] theorem writeDst_refind (g : Group) (d : Opd) (wide : Bool) (m : LaneMask) (f : Nat → DWord) : (writeDst g d wide m f).refind = g.refind := by cases d <;> simp [writeDst] <;> split <;> simp
@[simp] theorem writeDst_arrival (g : Group) (d : Opd) (wide : Bool) (m : LaneMask) (f : Nat → DWord) : (writeDst g d wide m f).arrival = g.arrival := by cases d <;> simp [writeDst] <;> split <;> simp
@[simp] theorem writeDst_replay (g : Group) (d : Opd) (wide : Bool) (m : LaneMask) (f : Nat → DWord) : (writeDst g d wide m f).replay = g.replay := by cases d <;> simp [writeDst] <;> split <;> simp
@[simp] theorem writeDst_answers (g : Group) (d : Opd) (wide : Bool) (m : LaneMask) (f : Nat → DWord) : (writeDst g d wide m f).answers = g.answers := by cases d <;> simp [writeDst] <;> split <;> simp
@[simp] theorem writeDst_wanted (g : Group) (d : Opd) (wide : Bool) (m : LaneMask) (f : Nat → DWord) : (writeDst g d wide m f).wanted = g.wanted := by cases d <;> simp [writeDst] <;> split <;> simp
@[simp] theorem writeDst_issued (g : Group) (d : Opd) (wide : Bool) (m : LaneMask) (f : Nat → DWord) : (writeDst g d wide m f).issued = g.issued := by cases d <;> simp [writeDst] <;> split <;> simp
@[simp] theorem writeDst_lastIssue (g : Group) (d : Opd) (wide : Bool) (m : LaneMask) (f : Nat → DWord) : (writeDst g d wide m f).lastIssue = g.lastIssue := by cases d <;> simp [writeDst] <;> split <;> simp
@[simp] theorem writeDst_sleepLeft (g : Group) (d : Opd) (wide : Bool) (m : LaneMask) (f : Nat → DWord) : (writeDst g d wide m f).sleepLeft = g.sleepLeft := by cases d <;> simp [writeDst] <;> split <;> simp
@[simp] theorem writeDst_escal (g : Group) (d : Opd) (wide : Bool) (m : LaneMask) (f : Nat → DWord) : (writeDst g d wide m f).escal = g.escal := by cases d <;> simp [writeDst] <;> split <;> simp
@[simp] theorem writeDst_active (g : Group) (d : Opd) (wide : Bool) (m : LaneMask) (f : Nat → DWord) : (writeDst g d wide m f).active = g.active := by cases d <;> simp [writeDst] <;> split <;> simp
@[simp] theorem writeDst_since (g : Group) (d : Opd) (wide : Bool) (m : LaneMask) (f : Nat → DWord) : (writeDst g d wide m f).since = g.since := by cases d <;> simp [writeDst] <;> split <;> simp
@[simp] theorem writeDst_seen (g : Group) (d : Opd) (wide : Bool) (m : LaneMask) (f : Nat → DWord) : (writeDst g d wide m f).seen = g.seen := by cases d <;> simp [writeDst] <;> split <;> simp
@[simp] theorem writeDst_migTo (g : Group) (d : Opd) (wide : Bool) (m : LaneMask) (f : Nat → DWord) : (writeDst g d wide m f).migTo = g.migTo := by cases d <;> simp [writeDst] <;> split <;> simp

/-! ### writeScalar -/

@[simp] theorem writeScalar_asid (g : Group) (d : Opd) (v : Word) : (writeScalar g d v).asid = g.asid := by simp [writeScalar]
@[simp] theorem writeScalar_core (g : Group) (d : Opd) (v : Word) : (writeScalar g d v).core = g.core := by simp [writeScalar]
@[simp] theorem writeScalar_part (g : Group) (d : Opd) (v : Word) : (writeScalar g d v).part = g.part := by simp [writeScalar]
@[simp] theorem writeScalar_slot (g : Group) (d : Opd) (v : Word) : (writeScalar g d v).slot = g.slot := by simp [writeScalar]
@[simp] theorem writeScalar_gid (g : Group) (d : Opd) (v : Word) : (writeScalar g d v).gid = g.gid := by simp [writeScalar]
@[simp] theorem writeScalar_demand (g : Group) (d : Opd) (v : Word) : (writeScalar g d v).demand = g.demand := by simp [writeScalar]
@[simp] theorem writeScalar_blocks (g : Group) (d : Opd) (v : Word) : (writeScalar g d v).blocks = g.blocks := by simp [writeScalar]
@[simp] theorem writeScalar_pc (g : Group) (d : Opd) (v : Word) : (writeScalar g d v).pc = g.pc := by simp [writeScalar]
@[simp] theorem writeScalar_flags (g : Group) (d : Opd) (v : Word) : (writeScalar g d v).flags = g.flags := by simp [writeScalar]
@[simp] theorem writeScalar_gmode (g : Group) (d : Opd) (v : Word) : (writeScalar g d v).gmode = g.gmode := by simp [writeScalar]
@[simp] theorem writeScalar_srseed (g : Group) (d : Opd) (v : Word) : (writeScalar g d v).srseed = g.srseed := by simp [writeScalar]
@[simp] theorem writeScalar_view (g : Group) (d : Opd) (v : Word) : (writeScalar g d v).view = g.view := by simp [writeScalar]
@[simp] theorem writeScalar_observed (g : Group) (d : Opd) (v : Word) : (writeScalar g d v).observed = g.observed := by simp [writeScalar]
@[simp] theorem writeScalar_compl (g : Group) (d : Opd) (v : Word) : (writeScalar g d v).compl = g.compl := by simp [writeScalar]
@[simp] theorem writeScalar_ifp (g : Group) (d : Opd) (v : Word) : (writeScalar g d v).ifp = g.ifp := by simp [writeScalar]
@[simp] theorem writeScalar_drift (g : Group) (d : Opd) (v : Word) : (writeScalar g d v).drift = g.drift := by simp [writeScalar]
@[simp] theorem writeScalar_window (g : Group) (d : Opd) (v : Word) : (writeScalar g d v).window = g.window := by simp [writeScalar]
@[simp] theorem writeScalar_dropped (g : Group) (d : Opd) (v : Word) : (writeScalar g d v).dropped = g.dropped := by simp [writeScalar]
@[simp] theorem writeScalar_sup (g : Group) (d : Opd) (v : Word) : (writeScalar g d v).sup = g.sup := by simp [writeScalar]
@[simp] theorem writeScalar_trap (g : Group) (d : Opd) (v : Word) : (writeScalar g d v).trap = g.trap := by simp [writeScalar]
@[simp] theorem writeScalar_ops (g : Group) (d : Opd) (v : Word) : (writeScalar g d v).ops = g.ops := by simp [writeScalar]
@[simp] theorem writeScalar_pend (g : Group) (d : Opd) (v : Word) : (writeScalar g d v).pend = g.pend := by simp [writeScalar]
@[simp] theorem writeScalar_region (g : Group) (d : Opd) (v : Word) : (writeScalar g d v).region = g.region := by simp [writeScalar]
@[simp] theorem writeScalar_stackEnd (g : Group) (d : Opd) (v : Word) : (writeScalar g d v).stackEnd = g.stackEnd := by simp [writeScalar]
@[simp] theorem writeScalar_team (g : Group) (d : Opd) (v : Word) : (writeScalar g d v).team = g.team := by simp [writeScalar]
@[simp] theorem writeScalar_tasks (g : Group) (d : Opd) (v : Word) : (writeScalar g d v).tasks = g.tasks := by simp [writeScalar]
@[simp] theorem writeScalar_running (g : Group) (d : Opd) (v : Word) : (writeScalar g d v).running = g.running := by simp [writeScalar]
@[simp] theorem writeScalar_park (g : Group) (d : Opd) (v : Word) : (writeScalar g d v).park = g.park := by simp [writeScalar]
@[simp] theorem writeScalar_inWord (g : Group) (d : Opd) (v : Word) : (writeScalar g d v).inWord = g.inWord := by simp [writeScalar]
@[simp] theorem writeScalar_current (g : Group) (d : Opd) (v : Word) : (writeScalar g d v).current = g.current := by simp [writeScalar]
@[simp] theorem writeScalar_refind (g : Group) (d : Opd) (v : Word) : (writeScalar g d v).refind = g.refind := by simp [writeScalar]
@[simp] theorem writeScalar_arrival (g : Group) (d : Opd) (v : Word) : (writeScalar g d v).arrival = g.arrival := by simp [writeScalar]
@[simp] theorem writeScalar_replay (g : Group) (d : Opd) (v : Word) : (writeScalar g d v).replay = g.replay := by simp [writeScalar]
@[simp] theorem writeScalar_answers (g : Group) (d : Opd) (v : Word) : (writeScalar g d v).answers = g.answers := by simp [writeScalar]
@[simp] theorem writeScalar_wanted (g : Group) (d : Opd) (v : Word) : (writeScalar g d v).wanted = g.wanted := by simp [writeScalar]
@[simp] theorem writeScalar_issued (g : Group) (d : Opd) (v : Word) : (writeScalar g d v).issued = g.issued := by simp [writeScalar]
@[simp] theorem writeScalar_lastIssue (g : Group) (d : Opd) (v : Word) : (writeScalar g d v).lastIssue = g.lastIssue := by simp [writeScalar]
@[simp] theorem writeScalar_sleepLeft (g : Group) (d : Opd) (v : Word) : (writeScalar g d v).sleepLeft = g.sleepLeft := by simp [writeScalar]
@[simp] theorem writeScalar_escal (g : Group) (d : Opd) (v : Word) : (writeScalar g d v).escal = g.escal := by simp [writeScalar]
@[simp] theorem writeScalar_active (g : Group) (d : Opd) (v : Word) : (writeScalar g d v).active = g.active := by simp [writeScalar]
@[simp] theorem writeScalar_since (g : Group) (d : Opd) (v : Word) : (writeScalar g d v).since = g.since := by simp [writeScalar]
@[simp] theorem writeScalar_seen (g : Group) (d : Opd) (v : Word) : (writeScalar g d v).seen = g.seen := by simp [writeScalar]
@[simp] theorem writeScalar_migTo (g : Group) (d : Opd) (v : Word) : (writeScalar g d v).migTo = g.migTo := by simp [writeScalar]

/-! ### writePair -/

@[simp] theorem writePair_asid (g : Group) (d : Opd) (v : DWord) : (writePair g d v).asid = g.asid := by simp [writePair]
@[simp] theorem writePair_core (g : Group) (d : Opd) (v : DWord) : (writePair g d v).core = g.core := by simp [writePair]
@[simp] theorem writePair_part (g : Group) (d : Opd) (v : DWord) : (writePair g d v).part = g.part := by simp [writePair]
@[simp] theorem writePair_slot (g : Group) (d : Opd) (v : DWord) : (writePair g d v).slot = g.slot := by simp [writePair]
@[simp] theorem writePair_gid (g : Group) (d : Opd) (v : DWord) : (writePair g d v).gid = g.gid := by simp [writePair]
@[simp] theorem writePair_demand (g : Group) (d : Opd) (v : DWord) : (writePair g d v).demand = g.demand := by simp [writePair]
@[simp] theorem writePair_blocks (g : Group) (d : Opd) (v : DWord) : (writePair g d v).blocks = g.blocks := by simp [writePair]
@[simp] theorem writePair_pc (g : Group) (d : Opd) (v : DWord) : (writePair g d v).pc = g.pc := by simp [writePair]
@[simp] theorem writePair_flags (g : Group) (d : Opd) (v : DWord) : (writePair g d v).flags = g.flags := by simp [writePair]
@[simp] theorem writePair_gmode (g : Group) (d : Opd) (v : DWord) : (writePair g d v).gmode = g.gmode := by simp [writePair]
@[simp] theorem writePair_srseed (g : Group) (d : Opd) (v : DWord) : (writePair g d v).srseed = g.srseed := by simp [writePair]
@[simp] theorem writePair_view (g : Group) (d : Opd) (v : DWord) : (writePair g d v).view = g.view := by simp [writePair]
@[simp] theorem writePair_observed (g : Group) (d : Opd) (v : DWord) : (writePair g d v).observed = g.observed := by simp [writePair]
@[simp] theorem writePair_compl (g : Group) (d : Opd) (v : DWord) : (writePair g d v).compl = g.compl := by simp [writePair]
@[simp] theorem writePair_ifp (g : Group) (d : Opd) (v : DWord) : (writePair g d v).ifp = g.ifp := by simp [writePair]
@[simp] theorem writePair_drift (g : Group) (d : Opd) (v : DWord) : (writePair g d v).drift = g.drift := by simp [writePair]
@[simp] theorem writePair_window (g : Group) (d : Opd) (v : DWord) : (writePair g d v).window = g.window := by simp [writePair]
@[simp] theorem writePair_dropped (g : Group) (d : Opd) (v : DWord) : (writePair g d v).dropped = g.dropped := by simp [writePair]
@[simp] theorem writePair_sup (g : Group) (d : Opd) (v : DWord) : (writePair g d v).sup = g.sup := by simp [writePair]
@[simp] theorem writePair_trap (g : Group) (d : Opd) (v : DWord) : (writePair g d v).trap = g.trap := by simp [writePair]
@[simp] theorem writePair_ops (g : Group) (d : Opd) (v : DWord) : (writePair g d v).ops = g.ops := by simp [writePair]
@[simp] theorem writePair_pend (g : Group) (d : Opd) (v : DWord) : (writePair g d v).pend = g.pend := by simp [writePair]
@[simp] theorem writePair_region (g : Group) (d : Opd) (v : DWord) : (writePair g d v).region = g.region := by simp [writePair]
@[simp] theorem writePair_stackEnd (g : Group) (d : Opd) (v : DWord) : (writePair g d v).stackEnd = g.stackEnd := by simp [writePair]
@[simp] theorem writePair_team (g : Group) (d : Opd) (v : DWord) : (writePair g d v).team = g.team := by simp [writePair]
@[simp] theorem writePair_tasks (g : Group) (d : Opd) (v : DWord) : (writePair g d v).tasks = g.tasks := by simp [writePair]
@[simp] theorem writePair_running (g : Group) (d : Opd) (v : DWord) : (writePair g d v).running = g.running := by simp [writePair]
@[simp] theorem writePair_park (g : Group) (d : Opd) (v : DWord) : (writePair g d v).park = g.park := by simp [writePair]
@[simp] theorem writePair_inWord (g : Group) (d : Opd) (v : DWord) : (writePair g d v).inWord = g.inWord := by simp [writePair]
@[simp] theorem writePair_current (g : Group) (d : Opd) (v : DWord) : (writePair g d v).current = g.current := by simp [writePair]
@[simp] theorem writePair_refind (g : Group) (d : Opd) (v : DWord) : (writePair g d v).refind = g.refind := by simp [writePair]
@[simp] theorem writePair_arrival (g : Group) (d : Opd) (v : DWord) : (writePair g d v).arrival = g.arrival := by simp [writePair]
@[simp] theorem writePair_replay (g : Group) (d : Opd) (v : DWord) : (writePair g d v).replay = g.replay := by simp [writePair]
@[simp] theorem writePair_answers (g : Group) (d : Opd) (v : DWord) : (writePair g d v).answers = g.answers := by simp [writePair]
@[simp] theorem writePair_wanted (g : Group) (d : Opd) (v : DWord) : (writePair g d v).wanted = g.wanted := by simp [writePair]
@[simp] theorem writePair_issued (g : Group) (d : Opd) (v : DWord) : (writePair g d v).issued = g.issued := by simp [writePair]
@[simp] theorem writePair_lastIssue (g : Group) (d : Opd) (v : DWord) : (writePair g d v).lastIssue = g.lastIssue := by simp [writePair]
@[simp] theorem writePair_sleepLeft (g : Group) (d : Opd) (v : DWord) : (writePair g d v).sleepLeft = g.sleepLeft := by simp [writePair]
@[simp] theorem writePair_escal (g : Group) (d : Opd) (v : DWord) : (writePair g d v).escal = g.escal := by simp [writePair]
@[simp] theorem writePair_active (g : Group) (d : Opd) (v : DWord) : (writePair g d v).active = g.active := by simp [writePair]
@[simp] theorem writePair_since (g : Group) (d : Opd) (v : DWord) : (writePair g d v).since = g.since := by simp [writePair]
@[simp] theorem writePair_seen (g : Group) (d : Opd) (v : DWord) : (writePair g d v).seen = g.seen := by simp [writePair]
@[simp] theorem writePair_migTo (g : Group) (d : Opd) (v : DWord) : (writePair g d v).migTo = g.migTo := by simp [writePair]

/-! ### Group.release -/

@[simp] theorem Group.release_asid (g : Group) (k : Nat) : (g.release k).asid = g.asid := by unfold Group.release; split <;> rfl
@[simp] theorem Group.release_core (g : Group) (k : Nat) : (g.release k).core = g.core := by unfold Group.release; split <;> rfl
@[simp] theorem Group.release_part (g : Group) (k : Nat) : (g.release k).part = g.part := by unfold Group.release; split <;> rfl
@[simp] theorem Group.release_slot (g : Group) (k : Nat) : (g.release k).slot = g.slot := by unfold Group.release; split <;> rfl
@[simp] theorem Group.release_gid (g : Group) (k : Nat) : (g.release k).gid = g.gid := by unfold Group.release; split <;> rfl
@[simp] theorem Group.release_demand (g : Group) (k : Nat) : (g.release k).demand = g.demand := by unfold Group.release; split <;> rfl
@[simp] theorem Group.release_blocks (g : Group) (k : Nat) : (g.release k).blocks = g.blocks := by unfold Group.release; split <;> rfl
@[simp] theorem Group.release_pc (g : Group) (k : Nat) : (g.release k).pc = g.pc := by unfold Group.release; split <;> rfl
@[simp] theorem Group.release_sregs (g : Group) (k : Nat) : (g.release k).sregs = g.sregs := by unfold Group.release; split <;> rfl
@[simp] theorem Group.release_vregs (g : Group) (k : Nat) : (g.release k).vregs = g.vregs := by unfold Group.release; split <;> rfl
@[simp] theorem Group.release_flags (g : Group) (k : Nat) : (g.release k).flags = g.flags := by unfold Group.release; split <;> rfl
@[simp] theorem Group.release_gmode (g : Group) (k : Nat) : (g.release k).gmode = g.gmode := by unfold Group.release; split <;> rfl
@[simp] theorem Group.release_srseed (g : Group) (k : Nat) : (g.release k).srseed = g.srseed := by unfold Group.release; split <;> rfl
@[simp] theorem Group.release_observed (g : Group) (k : Nat) : (g.release k).observed = g.observed := by unfold Group.release; split <;> rfl
@[simp] theorem Group.release_compl (g : Group) (k : Nat) : (g.release k).compl = g.compl := by unfold Group.release; split <;> rfl
@[simp] theorem Group.release_ifp (g : Group) (k : Nat) : (g.release k).ifp = g.ifp := by unfold Group.release; split <;> rfl
@[simp] theorem Group.release_drift (g : Group) (k : Nat) : (g.release k).drift = g.drift := by unfold Group.release; split <;> rfl
@[simp] theorem Group.release_window (g : Group) (k : Nat) : (g.release k).window = g.window := by unfold Group.release; split <;> rfl
@[simp] theorem Group.release_dropped (g : Group) (k : Nat) : (g.release k).dropped = g.dropped := by unfold Group.release; split <;> rfl
@[simp] theorem Group.release_sup (g : Group) (k : Nat) : (g.release k).sup = g.sup := by unfold Group.release; split <;> rfl
@[simp] theorem Group.release_trap (g : Group) (k : Nat) : (g.release k).trap = g.trap := by unfold Group.release; split <;> rfl
@[simp] theorem Group.release_ops (g : Group) (k : Nat) : (g.release k).ops = g.ops := by unfold Group.release; split <;> rfl
@[simp] theorem Group.release_pend (g : Group) (k : Nat) : (g.release k).pend = g.pend := by unfold Group.release; split <;> rfl
@[simp] theorem Group.release_region (g : Group) (k : Nat) : (g.release k).region = g.region := by unfold Group.release; split <;> rfl
@[simp] theorem Group.release_stackEnd (g : Group) (k : Nat) : (g.release k).stackEnd = g.stackEnd := by unfold Group.release; split <;> rfl
@[simp] theorem Group.release_team (g : Group) (k : Nat) : (g.release k).team = g.team := by unfold Group.release; split <;> rfl
@[simp] theorem Group.release_tasks (g : Group) (k : Nat) : (g.release k).tasks = g.tasks := by unfold Group.release; split <;> rfl
@[simp] theorem Group.release_running (g : Group) (k : Nat) : (g.release k).running = g.running := by unfold Group.release; split <;> rfl
@[simp] theorem Group.release_park (g : Group) (k : Nat) : (g.release k).park = g.park := by unfold Group.release; split <;> rfl
@[simp] theorem Group.release_inWord (g : Group) (k : Nat) : (g.release k).inWord = g.inWord := by unfold Group.release; split <;> rfl
@[simp] theorem Group.release_current (g : Group) (k : Nat) : (g.release k).current = g.current := by unfold Group.release; split <;> rfl
@[simp] theorem Group.release_refind (g : Group) (k : Nat) : (g.release k).refind = g.refind := by unfold Group.release; split <;> rfl
@[simp] theorem Group.release_arrival (g : Group) (k : Nat) : (g.release k).arrival = g.arrival := by unfold Group.release; split <;> rfl
@[simp] theorem Group.release_replay (g : Group) (k : Nat) : (g.release k).replay = g.replay := by unfold Group.release; split <;> rfl
@[simp] theorem Group.release_answers (g : Group) (k : Nat) : (g.release k).answers = g.answers := by unfold Group.release; split <;> rfl
@[simp] theorem Group.release_wanted (g : Group) (k : Nat) : (g.release k).wanted = g.wanted := by unfold Group.release; split <;> rfl
@[simp] theorem Group.release_issued (g : Group) (k : Nat) : (g.release k).issued = g.issued := by unfold Group.release; split <;> rfl
@[simp] theorem Group.release_lastIssue (g : Group) (k : Nat) : (g.release k).lastIssue = g.lastIssue := by unfold Group.release; split <;> rfl
@[simp] theorem Group.release_sleepLeft (g : Group) (k : Nat) : (g.release k).sleepLeft = g.sleepLeft := by unfold Group.release; split <;> rfl
@[simp] theorem Group.release_escal (g : Group) (k : Nat) : (g.release k).escal = g.escal := by unfold Group.release; split <;> rfl
@[simp] theorem Group.release_poisonRegs (g : Group) (k : Nat) : (g.release k).poisonRegs = g.poisonRegs := by unfold Group.release; split <;> rfl
@[simp] theorem Group.release_active (g : Group) (k : Nat) : (g.release k).active = g.active := by unfold Group.release; split <;> rfl
@[simp] theorem Group.release_since (g : Group) (k : Nat) : (g.release k).since = g.since := by unfold Group.release; split <;> rfl
@[simp] theorem Group.release_seen (g : Group) (k : Nat) : (g.release k).seen = g.seen := by unfold Group.release; split <;> rfl
@[simp] theorem Group.release_migTo (g : Group) (k : Nat) : (g.release k).migTo = g.migTo := by unfold Group.release; split <;> rfl

/-! ### Group.acquire -/

@[simp] theorem Group.acquire_asid (g : Group) (k : Nat) (w : Stamp) : (g.acquire k w).asid = g.asid := by unfold Group.acquire; split <;> rfl
@[simp] theorem Group.acquire_core (g : Group) (k : Nat) (w : Stamp) : (g.acquire k w).core = g.core := by unfold Group.acquire; split <;> rfl
@[simp] theorem Group.acquire_part (g : Group) (k : Nat) (w : Stamp) : (g.acquire k w).part = g.part := by unfold Group.acquire; split <;> rfl
@[simp] theorem Group.acquire_slot (g : Group) (k : Nat) (w : Stamp) : (g.acquire k w).slot = g.slot := by unfold Group.acquire; split <;> rfl
@[simp] theorem Group.acquire_gid (g : Group) (k : Nat) (w : Stamp) : (g.acquire k w).gid = g.gid := by unfold Group.acquire; split <;> rfl
@[simp] theorem Group.acquire_demand (g : Group) (k : Nat) (w : Stamp) : (g.acquire k w).demand = g.demand := by unfold Group.acquire; split <;> rfl
@[simp] theorem Group.acquire_blocks (g : Group) (k : Nat) (w : Stamp) : (g.acquire k w).blocks = g.blocks := by unfold Group.acquire; split <;> rfl
@[simp] theorem Group.acquire_pc (g : Group) (k : Nat) (w : Stamp) : (g.acquire k w).pc = g.pc := by unfold Group.acquire; split <;> rfl
@[simp] theorem Group.acquire_sregs (g : Group) (k : Nat) (w : Stamp) : (g.acquire k w).sregs = g.sregs := by unfold Group.acquire; split <;> rfl
@[simp] theorem Group.acquire_vregs (g : Group) (k : Nat) (w : Stamp) : (g.acquire k w).vregs = g.vregs := by unfold Group.acquire; split <;> rfl
@[simp] theorem Group.acquire_flags (g : Group) (k : Nat) (w : Stamp) : (g.acquire k w).flags = g.flags := by unfold Group.acquire; split <;> rfl
@[simp] theorem Group.acquire_gmode (g : Group) (k : Nat) (w : Stamp) : (g.acquire k w).gmode = g.gmode := by unfold Group.acquire; split <;> rfl
@[simp] theorem Group.acquire_srseed (g : Group) (k : Nat) (w : Stamp) : (g.acquire k w).srseed = g.srseed := by unfold Group.acquire; split <;> rfl
@[simp] theorem Group.acquire_observed (g : Group) (k : Nat) (w : Stamp) : (g.acquire k w).observed = g.observed := by unfold Group.acquire; split <;> rfl
@[simp] theorem Group.acquire_compl (g : Group) (k : Nat) (w : Stamp) : (g.acquire k w).compl = g.compl := by unfold Group.acquire; split <;> rfl
@[simp] theorem Group.acquire_ifp (g : Group) (k : Nat) (w : Stamp) : (g.acquire k w).ifp = g.ifp := by unfold Group.acquire; split <;> rfl
@[simp] theorem Group.acquire_drift (g : Group) (k : Nat) (w : Stamp) : (g.acquire k w).drift = g.drift := by unfold Group.acquire; split <;> rfl
@[simp] theorem Group.acquire_window (g : Group) (k : Nat) (w : Stamp) : (g.acquire k w).window = g.window := by unfold Group.acquire; split <;> rfl
@[simp] theorem Group.acquire_dropped (g : Group) (k : Nat) (w : Stamp) : (g.acquire k w).dropped = g.dropped := by unfold Group.acquire; split <;> rfl
@[simp] theorem Group.acquire_sup (g : Group) (k : Nat) (w : Stamp) : (g.acquire k w).sup = g.sup := by unfold Group.acquire; split <;> rfl
@[simp] theorem Group.acquire_trap (g : Group) (k : Nat) (w : Stamp) : (g.acquire k w).trap = g.trap := by unfold Group.acquire; split <;> rfl
@[simp] theorem Group.acquire_ops (g : Group) (k : Nat) (w : Stamp) : (g.acquire k w).ops = g.ops := by unfold Group.acquire; split <;> rfl
@[simp] theorem Group.acquire_pend (g : Group) (k : Nat) (w : Stamp) : (g.acquire k w).pend = g.pend := by unfold Group.acquire; split <;> rfl
@[simp] theorem Group.acquire_region (g : Group) (k : Nat) (w : Stamp) : (g.acquire k w).region = g.region := by unfold Group.acquire; split <;> rfl
@[simp] theorem Group.acquire_stackEnd (g : Group) (k : Nat) (w : Stamp) : (g.acquire k w).stackEnd = g.stackEnd := by unfold Group.acquire; split <;> rfl
@[simp] theorem Group.acquire_team (g : Group) (k : Nat) (w : Stamp) : (g.acquire k w).team = g.team := by unfold Group.acquire; split <;> rfl
@[simp] theorem Group.acquire_tasks (g : Group) (k : Nat) (w : Stamp) : (g.acquire k w).tasks = g.tasks := by unfold Group.acquire; split <;> rfl
@[simp] theorem Group.acquire_running (g : Group) (k : Nat) (w : Stamp) : (g.acquire k w).running = g.running := by unfold Group.acquire; split <;> rfl
@[simp] theorem Group.acquire_park (g : Group) (k : Nat) (w : Stamp) : (g.acquire k w).park = g.park := by unfold Group.acquire; split <;> rfl
@[simp] theorem Group.acquire_inWord (g : Group) (k : Nat) (w : Stamp) : (g.acquire k w).inWord = g.inWord := by unfold Group.acquire; split <;> rfl
@[simp] theorem Group.acquire_current (g : Group) (k : Nat) (w : Stamp) : (g.acquire k w).current = g.current := by unfold Group.acquire; split <;> rfl
@[simp] theorem Group.acquire_refind (g : Group) (k : Nat) (w : Stamp) : (g.acquire k w).refind = g.refind := by unfold Group.acquire; split <;> rfl
@[simp] theorem Group.acquire_arrival (g : Group) (k : Nat) (w : Stamp) : (g.acquire k w).arrival = g.arrival := by unfold Group.acquire; split <;> rfl
@[simp] theorem Group.acquire_replay (g : Group) (k : Nat) (w : Stamp) : (g.acquire k w).replay = g.replay := by unfold Group.acquire; split <;> rfl
@[simp] theorem Group.acquire_answers (g : Group) (k : Nat) (w : Stamp) : (g.acquire k w).answers = g.answers := by unfold Group.acquire; split <;> rfl
@[simp] theorem Group.acquire_wanted (g : Group) (k : Nat) (w : Stamp) : (g.acquire k w).wanted = g.wanted := by unfold Group.acquire; split <;> rfl
@[simp] theorem Group.acquire_issued (g : Group) (k : Nat) (w : Stamp) : (g.acquire k w).issued = g.issued := by unfold Group.acquire; split <;> rfl
@[simp] theorem Group.acquire_lastIssue (g : Group) (k : Nat) (w : Stamp) : (g.acquire k w).lastIssue = g.lastIssue := by unfold Group.acquire; split <;> rfl
@[simp] theorem Group.acquire_sleepLeft (g : Group) (k : Nat) (w : Stamp) : (g.acquire k w).sleepLeft = g.sleepLeft := by unfold Group.acquire; split <;> rfl
@[simp] theorem Group.acquire_escal (g : Group) (k : Nat) (w : Stamp) : (g.acquire k w).escal = g.escal := by unfold Group.acquire; split <;> rfl
@[simp] theorem Group.acquire_poisonRegs (g : Group) (k : Nat) (w : Stamp) : (g.acquire k w).poisonRegs = g.poisonRegs := by unfold Group.acquire; split <;> rfl
@[simp] theorem Group.acquire_active (g : Group) (k : Nat) (w : Stamp) : (g.acquire k w).active = g.active := by unfold Group.acquire; split <;> rfl
@[simp] theorem Group.acquire_since (g : Group) (k : Nat) (w : Stamp) : (g.acquire k w).since = g.since := by unfold Group.acquire; split <;> rfl
@[simp] theorem Group.acquire_seen (g : Group) (k : Nat) (w : Stamp) : (g.acquire k w).seen = g.seen := by unfold Group.acquire; split <;> rfl
@[simp] theorem Group.acquire_migTo (g : Group) (k : Nat) (w : Stamp) : (g.acquire k w).migTo = g.migTo := by unfold Group.acquire; split <;> rfl

/-! ### writeCell -/

@[simp] theorem writeCell_asid (g : Group) (c : WrCell) : (writeCell g c).asid = g.asid := by unfold writeCell; split <;> simp
@[simp] theorem writeCell_core (g : Group) (c : WrCell) : (writeCell g c).core = g.core := by unfold writeCell; split <;> simp
@[simp] theorem writeCell_part (g : Group) (c : WrCell) : (writeCell g c).part = g.part := by unfold writeCell; split <;> simp
@[simp] theorem writeCell_slot (g : Group) (c : WrCell) : (writeCell g c).slot = g.slot := by unfold writeCell; split <;> simp
@[simp] theorem writeCell_gid (g : Group) (c : WrCell) : (writeCell g c).gid = g.gid := by unfold writeCell; split <;> simp
@[simp] theorem writeCell_demand (g : Group) (c : WrCell) : (writeCell g c).demand = g.demand := by unfold writeCell; split <;> simp
@[simp] theorem writeCell_blocks (g : Group) (c : WrCell) : (writeCell g c).blocks = g.blocks := by unfold writeCell; split <;> simp
@[simp] theorem writeCell_pc (g : Group) (c : WrCell) : (writeCell g c).pc = g.pc := by unfold writeCell; split <;> simp
@[simp] theorem writeCell_flags (g : Group) (c : WrCell) : (writeCell g c).flags = g.flags := by unfold writeCell; split <;> simp
@[simp] theorem writeCell_gmode (g : Group) (c : WrCell) : (writeCell g c).gmode = g.gmode := by unfold writeCell; split <;> simp
@[simp] theorem writeCell_srseed (g : Group) (c : WrCell) : (writeCell g c).srseed = g.srseed := by unfold writeCell; split <;> simp
@[simp] theorem writeCell_view (g : Group) (c : WrCell) : (writeCell g c).view = g.view := by unfold writeCell; split <;> simp
@[simp] theorem writeCell_observed (g : Group) (c : WrCell) : (writeCell g c).observed = g.observed := by unfold writeCell; split <;> simp
@[simp] theorem writeCell_compl (g : Group) (c : WrCell) : (writeCell g c).compl = g.compl := by unfold writeCell; split <;> simp
@[simp] theorem writeCell_ifp (g : Group) (c : WrCell) : (writeCell g c).ifp = g.ifp := by unfold writeCell; split <;> simp
@[simp] theorem writeCell_drift (g : Group) (c : WrCell) : (writeCell g c).drift = g.drift := by unfold writeCell; split <;> simp
@[simp] theorem writeCell_window (g : Group) (c : WrCell) : (writeCell g c).window = g.window := by unfold writeCell; split <;> simp
@[simp] theorem writeCell_dropped (g : Group) (c : WrCell) : (writeCell g c).dropped = g.dropped := by unfold writeCell; split <;> simp
@[simp] theorem writeCell_sup (g : Group) (c : WrCell) : (writeCell g c).sup = g.sup := by unfold writeCell; split <;> simp
@[simp] theorem writeCell_trap (g : Group) (c : WrCell) : (writeCell g c).trap = g.trap := by unfold writeCell; split <;> simp
@[simp] theorem writeCell_ops (g : Group) (c : WrCell) : (writeCell g c).ops = g.ops := by unfold writeCell; split <;> simp
@[simp] theorem writeCell_pend (g : Group) (c : WrCell) : (writeCell g c).pend = g.pend := by unfold writeCell; split <;> simp
@[simp] theorem writeCell_region (g : Group) (c : WrCell) : (writeCell g c).region = g.region := by unfold writeCell; split <;> simp
@[simp] theorem writeCell_stackEnd (g : Group) (c : WrCell) : (writeCell g c).stackEnd = g.stackEnd := by unfold writeCell; split <;> simp
@[simp] theorem writeCell_team (g : Group) (c : WrCell) : (writeCell g c).team = g.team := by unfold writeCell; split <;> simp
@[simp] theorem writeCell_tasks (g : Group) (c : WrCell) : (writeCell g c).tasks = g.tasks := by unfold writeCell; split <;> simp
@[simp] theorem writeCell_running (g : Group) (c : WrCell) : (writeCell g c).running = g.running := by unfold writeCell; split <;> simp
@[simp] theorem writeCell_park (g : Group) (c : WrCell) : (writeCell g c).park = g.park := by unfold writeCell; split <;> simp
@[simp] theorem writeCell_inWord (g : Group) (c : WrCell) : (writeCell g c).inWord = g.inWord := by unfold writeCell; split <;> simp
@[simp] theorem writeCell_current (g : Group) (c : WrCell) : (writeCell g c).current = g.current := by unfold writeCell; split <;> simp
@[simp] theorem writeCell_refind (g : Group) (c : WrCell) : (writeCell g c).refind = g.refind := by unfold writeCell; split <;> simp
@[simp] theorem writeCell_arrival (g : Group) (c : WrCell) : (writeCell g c).arrival = g.arrival := by unfold writeCell; split <;> simp
@[simp] theorem writeCell_replay (g : Group) (c : WrCell) : (writeCell g c).replay = g.replay := by unfold writeCell; split <;> simp
@[simp] theorem writeCell_answers (g : Group) (c : WrCell) : (writeCell g c).answers = g.answers := by unfold writeCell; split <;> simp
@[simp] theorem writeCell_wanted (g : Group) (c : WrCell) : (writeCell g c).wanted = g.wanted := by unfold writeCell; split <;> simp
@[simp] theorem writeCell_issued (g : Group) (c : WrCell) : (writeCell g c).issued = g.issued := by unfold writeCell; split <;> simp
@[simp] theorem writeCell_lastIssue (g : Group) (c : WrCell) : (writeCell g c).lastIssue = g.lastIssue := by unfold writeCell; split <;> simp
@[simp] theorem writeCell_sleepLeft (g : Group) (c : WrCell) : (writeCell g c).sleepLeft = g.sleepLeft := by unfold writeCell; split <;> simp
@[simp] theorem writeCell_escal (g : Group) (c : WrCell) : (writeCell g c).escal = g.escal := by unfold writeCell; split <;> simp
@[simp] theorem writeCell_active (g : Group) (c : WrCell) : (writeCell g c).active = g.active := by unfold writeCell; split <;> simp
@[simp] theorem writeCell_since (g : Group) (c : WrCell) : (writeCell g c).since = g.since := by unfold writeCell; split <;> simp
@[simp] theorem writeCell_seen (g : Group) (c : WrCell) : (writeCell g c).seen = g.seen := by unfold writeCell; split <;> simp
@[simp] theorem writeCell_migTo (g : Group) (c : WrCell) : (writeCell g c).migTo = g.migTo := by unfold writeCell; split <;> simp

end Sys2Proof.Machine
end

