-- ==== Sys2Proof/Laws/Legal.lean ====
section
/-! SUPPORT. What a well-formed instruction word gives: legal types and fields without a violation. -/

namespace Sys2Proof

/-- The details of a full word. -/
theorem Instr.details_word (i : Instr) (w : W) (h : i.word = some w) :
    i.details = (if typesLegal i then [] else [3]) ++ fieldDetails i w.ms.val w.mn w.imm w.codes := by
  unfold Instr.details
  split
  · simp [Instr.word] at h
  · rw [h]

theorem Instr.wf_types (i : Instr) (w : W) (h : i.word = some w) (hwf : i.wf = true) : typesLegal i = true := by
  rw [Instr.wf, Instr.details_word i w h] at hwf
  by_cases ht : typesLegal i = true
  · exact ht
  · simp [ht] at hwf

theorem Instr.wf_fields (i : Instr) (w : W) (h : i.word = some w) (hwf : i.wf = true) :
    fieldDetails i w.ms.val w.mn w.imm w.codes = [] := by
  have ht := Instr.wf_types i w h hwf
  rw [Instr.wf, Instr.details_word i w h] at hwf
  simpa [ht] using hwf

end Sys2Proof
end

