-- ==== Sys2Proof/Laws/Tables.lean ====
section
/-! SUPPORT. Tables read back what was put into them, and so do the parts of the state that are tables. -/

namespace Sys2Proof.Machine

/-! ### Tables -/

theorem tabGet?_tabPut_same {α : Type} (t : Tab α) (k : Nat) (a : α) : tabGet? (tabPut t k a) k = some a := by
  induction t with
  | nil => simp [tabPut, tabGet?]
  | cons p r ih => obtain ⟨i, b⟩ := p; by_cases h : i = k <;> simp [tabPut, tabGet?, h, ih]

theorem tabGet?_tabPut_other {α : Type} (t : Tab α) (k j : Nat) (a : α) (h : j ≠ k) : tabGet? (tabPut t k a) j = tabGet? t j := by
  induction t with
  | nil => simp [tabPut, tabGet?, Ne.symm h]
  | cons p r ih =>
    obtain ⟨i, b⟩ := p
    by_cases hk : i = k
    · subst hk; simp [tabPut, tabGet?, Ne.symm h]
    · simp only [tabPut, hk, if_false, tabGet?]
      by_cases hj : i = j <;> simp [hj, ih]

theorem tabGet_tabPut_same {α : Type} (t : Tab α) (k : Nat) (a d : α) : tabGet (tabPut t k a) k d = a := by
  simp [tabGet, tabGet?_tabPut_same]

theorem tabGet_tabPut_other {α : Type} (t : Tab α) (k j : Nat) (a d : α) (h : j ≠ k) :
    tabGet (tabPut t k a) j d = tabGet t j d := by
  simp [tabGet, tabGet?_tabPut_other _ _ _ _ h]

theorem tabGet?_tabDel_same {α : Type} (t : Tab α) (k : Nat) : tabGet? (tabDel t k) k = none := by
  induction t with
  | nil => rfl
  | cons p r ih =>
    obtain ⟨i, b⟩ := p
    by_cases h : i = k
    · simpa [tabDel, h] using ih
    · have : tabDel ((i, b) :: r) k = (i, b) :: tabDel r k := by simp [tabDel, h]
      rw [this]; simp [tabGet?, h, ih]

theorem tabGet?_tabDel_other {α : Type} (t : Tab α) (k j : Nat) (h : j ≠ k) : tabGet? (tabDel t k) j = tabGet? t j := by
  induction t with
  | nil => rfl
  | cons p r ih =>
    obtain ⟨i, b⟩ := p
    by_cases hk : i = k
    · have : tabDel ((i, b) :: r) k = tabDel r k := by simp [tabDel, hk]
      rw [this, ih]; simp [tabGet?, hk, Ne.symm h]
    · have : tabDel ((i, b) :: r) k = (i, b) :: tabDel r k := by simp [tabDel, hk]
      rw [this]; by_cases hj : i = j <;> simp [tabGet?, hj, ih]

/-! ### Groups -/

@[simp] theorem State.group?_setGroup_same (s : State) (g : Nat) (x : Group) : (s.setGroup g x).group? g = some x :=
  tabGet?_tabPut_same _ _ _

theorem State.group?_setGroup_other (s : State) (g k : Nat) (x : Group) (h : k ≠ g) : (s.setGroup g x).group? k = s.group? k :=
  tabGet?_tabPut_other _ _ _ _ h

@[simp] theorem tabPut_tabPut {α : Type} (t : Tab α) (k : Nat) (a b : α) : tabPut (tabPut t k a) k b = tabPut t k b := by
  induction t with
  | nil => simp [tabPut]
  | cons p r ih => obtain ⟨i, c⟩ := p; by_cases h : i = k <;> simp [tabPut, h, ih]

@[simp] theorem State.setGroup_setGroup (s : State) (g : Nat) (x y : Group) : (s.setGroup g x).setGroup g y = s.setGroup g y := by
  simp [State.setGroup]

theorem State.modGroup_of (s : State) (g : Nat) (x : Group) (f : Group → Group) (h : s.group? g = some x) :
    s.modGroup g f = s.setGroup g (f x) := by simp [State.modGroup, h]

/-- Two changes of one group are one. -/
theorem State.modGroup_modGroup (s : State) (g : Nat) (f h : Group → Group) :
    (s.modGroup g f).modGroup g h = s.modGroup g (fun x => h (f x)) := by
  cases e : s.group? g with
  | none => simp [State.modGroup, e]
  | some x => simp [State.modGroup, e]

@[simp] theorem State.modGroup_setGroup (s : State) (g : Nat) (x : Group) (f : Group → Group) :
    (s.setGroup g x).modGroup g f = s.setGroup g (f x) := by simp [State.modGroup]

theorem State.group?_modGroup_other (s : State) (g k : Nat) (f : Group → Group) (h : k ≠ g) : (s.modGroup g f).group? k = s.group? k := by
  unfold State.modGroup; split
  · exact State.group?_setGroup_other _ _ _ _ h
  · rfl

/-- An update of another part of the state does not change which group a key names. -/
theorem State.group?_congr {s t : State} (g : Nat) (h : t.groups = s.groups) : t.group? g = s.group? g := by
  simp [State.group?, h]

@[simp] theorem State.group?_modCore (s : State) (c k : Nat) (f : CoreS → CoreS) : (s.modCore c f).group? k = s.group? k := rfl
@[simp] theorem State.group?_modCluster (s : State) (c k : Nat) (f : ClusterS → ClusterS) : (s.modCluster c f).group? k = s.group? k := rfl
@[simp] theorem State.group?_fresh (s : State) (k : Nat) : s.fresh.1.group? k = s.group? k := rfl

/-! ### Cores, clusters and slices -/

@[simp] theorem State.core_setCore_same (s : State) (c : Nat) (x : CoreS) : (s.setCore c x).core c = x := tabGet_tabPut_same _ _ _ _
theorem State.core_setCore_other (s : State) (c k : Nat) (x : CoreS) (h : k ≠ c) : (s.setCore c x).core k = s.core k :=
  tabGet_tabPut_other _ _ _ _ _ h
@[simp] theorem State.core_modCore_same (s : State) (c : Nat) (f : CoreS → CoreS) : (s.modCore c f).core c = f (s.core c) :=
  tabGet_tabPut_same _ _ _ _
theorem State.core_modCore_other (s : State) (c k : Nat) (f : CoreS → CoreS) (h : k ≠ c) : (s.modCore c f).core k = s.core k :=
  tabGet_tabPut_other _ _ _ _ _ h
@[simp] theorem State.core_setGroup (s : State) (g c : Nat) (x : Group) : (s.setGroup g x).core c = s.core c := rfl
@[simp] theorem State.core_modGroup (s : State) (g c : Nat) (f : Group → Group) : (s.modGroup g f).core c = s.core c := by
  simp [State.core]
@[simp] theorem State.cluster_modCluster_same (s : State) (c : Nat) (f : ClusterS → ClusterS) :
    (s.modCluster c f).cluster c = f (s.cluster c) := tabGet_tabPut_same _ _ _ _
theorem State.cluster_modCluster_other (s : State) (c k : Nat) (f : ClusterS → ClusterS) (h : k ≠ c) :
    (s.modCluster c f).cluster k = s.cluster k := tabGet_tabPut_other _ _ _ _ _ h
@[simp] theorem State.slice_setSlice_same (s : State) (k : Nat) (l : List L2Line) : (s.setSlice k l).slice k = l := tabGet_tabPut_same _ _ _ _
theorem State.slice_setSlice_other (s : State) (k j : Nat) (l : List L2Line) (h : j ≠ k) : (s.setSlice k l).slice j = s.slice j :=
  tabGet_tabPut_other _ _ _ _ _ h
@[simp] theorem State.die_modDie_same (s : State) (d : Nat) (f : DieS → DieS) (h : d < 4) : (s.modDie d f).die d = f (s.die d) := by
  simp [State.modDie, State.die, h, Vector.toArray_set]

end Sys2Proof.Machine
end

