-- ==== Sys2Proof/Laws/Memory.lean ====
section
/-! SUPPORT. Byte memories: a read after a write, and every write keeps the canonical form. -/

namespace Sys2Proof.Machine

/-! ### Read after write -/

/-- The listed addresses rise. -/
def rising (m : List Host.Cell) : Prop := m.Pairwise (fun p q => p.1 < q.1)

theorem cellsWf_cons (a : Nat) (b : Byte) (r : List Host.Cell) :
    cellsWf ((a, b) :: r) = true ↔ b ≠ 0 ∧ (∀ p ∈ r.head?, a < p.1) ∧ cellsWf r = true := by
  cases r with
  | nil => simp [cellsWf]
  | cons p r => obtain ⟨a', b'⟩ := p; simp [cellsWf, and_assoc]

theorem cellsWf_rising (m : List Host.Cell) (h : cellsWf m = true) : rising m := by
  induction m with
  | nil => exact List.Pairwise.nil
  | cons p r ih =>
    obtain ⟨a, b⟩ := p
    obtain ⟨_, hh, hr⟩ := (cellsWf_cons a b r).mp h
    have hp := ih hr
    refine List.Pairwise.cons ?_ hp
    cases r with
    | nil => simp
    | cons q r =>
      have h1 := hh q (by simp)
      intro x hx
      rcases List.mem_cons.mp hx with rfl | hx
      · exact h1
      · exact Nat.lt_trans h1 ((List.pairwise_cons.mp hp).1 x hx)

theorem cellRead_lt (m : List Host.Cell) (a : Nat) (h : ∀ p ∈ m, a < p.1) : cellRead m a = 0 := by
  cases m with
  | nil => rfl
  | cons p r =>
    obtain ⟨i, b⟩ := p
    have : a < i := h (i, b) (by simp)
    have h2 : i ≠ a := by omega
    simp [cellRead, h2, this]

theorem cellWrite_cons_lt (i a : Nat) (b v : Byte) (r : List Host.Cell) (h : a < i) :
    cellWrite ((i, b) :: r) a v = if v = 0 then (i, b) :: r else (a, v) :: (i, b) :: r := by simp [cellWrite, h]
theorem cellWrite_cons_eq (a : Nat) (b v : Byte) (r : List Host.Cell) :
    cellWrite ((a, b) :: r) a v = if v = 0 then r else (a, v) :: r := by simp [cellWrite]
theorem cellWrite_cons_gt (i a : Nat) (b v : Byte) (r : List Host.Cell) (h : i < a) :
    cellWrite ((i, b) :: r) a v = (i, b) :: cellWrite r a v := by
  have h1 : ¬ a < i := by omega
  have h2 : i ≠ a := by omega
  simp [cellWrite, h1, h2]
theorem cellRead_cons_eq (a : Nat) (b : Byte) (r : List Host.Cell) : cellRead ((a, b) :: r) a = b := by simp [cellRead]
theorem cellRead_cons_lt (i a : Nat) (b : Byte) (r : List Host.Cell) (h : a < i) : cellRead ((i, b) :: r) a = 0 := by
  have h1 : i ≠ a := by omega
  simp [cellRead, h1, h]
theorem cellRead_cons_gt (i a : Nat) (b : Byte) (r : List Host.Cell) (h : i < a) : cellRead ((i, b) :: r) a = cellRead r a := by
  have h1 : i ≠ a := by omega
  have h2 : ¬ a < i := by omega
  simp [cellRead, h1, h2]

theorem cellRead_cellWrite_same (m : List Host.Cell) (a : Nat) (v : Byte) (h : cellsWf m = true) :
    cellRead (cellWrite m a v) a = v := by
  induction m with
  | nil =>
    rw [cellWrite]; split
    · next hv => rw [hv]; rfl
    · exact cellRead_cons_eq _ _ _
  | cons p r ih =>
    obtain ⟨i, b⟩ := p
    have hgt := (List.pairwise_cons.mp (cellsWf_rising _ h)).1
    rcases Nat.lt_trichotomy a i with h1 | rfl | h1
    · rw [cellWrite_cons_lt _ _ _ _ _ h1]
      split
      · next hv => rw [cellRead_cons_lt _ _ _ _ h1, hv]
      · exact cellRead_cons_eq _ _ _
    · rw [cellWrite_cons_eq]
      split
      · next hv => rw [hv]; exact cellRead_lt r a (fun p hp => hgt p hp)
      · exact cellRead_cons_eq _ _ _
    · rw [cellWrite_cons_gt _ _ _ _ _ h1, cellRead_cons_gt _ _ _ _ h1, ih ((cellsWf_cons i b r).mp h).2.2]

theorem cellRead_cellWrite_other (m : List Host.Cell) (a x : Nat) (v : Byte) (h : cellsWf m = true) (hx : x ≠ a) :
    cellRead (cellWrite m a v) x = cellRead m x := by
  induction m with
  | nil =>
    rw [cellWrite]; split
    · rfl
    · simp [cellRead, Ne.symm hx]
  | cons p r ih =>
    obtain ⟨i, b⟩ := p
    have hgt := (List.pairwise_cons.mp (cellsWf_rising _ h)).1
    rcases Nat.lt_trichotomy a i with h1 | rfl | h1
    · rw [cellWrite_cons_lt _ _ _ _ _ h1]
      split
      · rfl
      · rcases Nat.lt_or_gt_of_ne hx with h3 | h3
        · rw [cellRead_cons_lt _ _ _ _ h3, cellRead_cons_lt _ _ _ _ (by omega)]
        · rw [cellRead_cons_gt _ _ _ _ h3]
    · rw [cellWrite_cons_eq]
      rcases Nat.lt_or_gt_of_ne hx with h3 | h3
      · rw [cellRead_cons_lt _ _ _ _ h3]
        split
        · exact cellRead_lt r x (fun p hp => Nat.lt_trans h3 (hgt p hp))
        · exact cellRead_cons_lt _ _ _ _ h3
      · rw [cellRead_cons_gt _ _ _ _ h3]
        split
        · rfl
        · exact cellRead_cons_gt _ _ _ _ h3
    · rw [cellWrite_cons_gt _ _ _ _ _ h1]
      rcases Nat.lt_trichotomy x i with h3 | rfl | h3
      · rw [cellRead_cons_lt _ _ _ _ h3, cellRead_cons_lt _ _ _ _ h3]
      · rw [cellRead_cons_eq, cellRead_cons_eq]
      · rw [cellRead_cons_gt _ _ _ _ h3, cellRead_cons_gt _ _ _ _ h3, ih ((cellsWf_cons i b r).mp h).2.2]

/-! ### The canonical form -/

theorem cellsWf_cons_of (a : Nat) (b : Byte) (r : List Host.Cell) (hb : b ≠ 0) (hr : ∀ p ∈ r, a < p.1) (h : cellsWf r = true) :
    cellsWf ((a, b) :: r) = true :=
  (cellsWf_cons a b r).mpr ⟨hb, fun p hp => hr p (List.mem_of_mem_head? hp), h⟩

theorem mem_cellWrite (m : List Host.Cell) (a : Nat) (v : Byte) (p : Host.Cell) (h : p ∈ cellWrite m a v) : p.1 = a ∨ p ∈ m := by
  induction m with
  | nil =>
    rw [cellWrite] at h; split at h
    · exact Or.inr h
    · rcases List.mem_cons.mp h with rfl | h
      · exact Or.inl rfl
      · exact Or.inr h
  | cons q r ih =>
    obtain ⟨i, b⟩ := q
    rcases Nat.lt_trichotomy a i with h1 | rfl | h1
    · rw [cellWrite_cons_lt _ _ _ _ _ h1] at h
      split at h
      · exact Or.inr h
      · rcases List.mem_cons.mp h with rfl | h
        · exact Or.inl rfl
        · exact Or.inr h
    · rw [cellWrite_cons_eq] at h
      split at h
      · exact Or.inr (List.mem_cons_of_mem _ h)
      · rcases List.mem_cons.mp h with rfl | h
        · exact Or.inl rfl
        · exact Or.inr (List.mem_cons_of_mem _ h)
    · rw [cellWrite_cons_gt _ _ _ _ _ h1] at h
      rcases List.mem_cons.mp h with rfl | h
      · exact Or.inr (by simp)
      · rcases ih h with h | h
        · exact Or.inl h
        · exact Or.inr (List.mem_cons_of_mem _ h)

theorem cellsWf_cellWrite (m : List Host.Cell) (a : Nat) (v : Byte) (h : cellsWf m = true) : cellsWf (cellWrite m a v) = true := by
  induction m with
  | nil =>
    rw [cellWrite]; split
    · rfl
    · next hv => simpa [cellsWf] using hv
  | cons p r ih =>
    obtain ⟨i, b⟩ := p
    have hgt := (List.pairwise_cons.mp (cellsWf_rising _ h)).1
    obtain ⟨hb, hh, hr⟩ := (cellsWf_cons i b r).mp h
    rcases Nat.lt_trichotomy a i with h1 | rfl | h1
    · rw [cellWrite_cons_lt _ _ _ _ _ h1]
      split
      · exact h
      · next hv => exact (cellsWf_cons _ _ _).mpr ⟨hv, by simp [h1], h⟩
    · rw [cellWrite_cons_eq]
      split
      · exact hr
      · next hv => exact (cellsWf_cons _ _ _).mpr ⟨hv, hh, hr⟩
    · rw [cellWrite_cons_gt _ _ _ _ _ h1]
      refine cellsWf_cons_of _ _ _ hb (fun p hp => ?_) (ih hr)
      rcases mem_cellWrite _ _ _ _ hp with hp | hp
      · omega
      · exact hgt p hp

theorem cellsWf_cellWrites (m : List Host.Cell) (a : Nat) (bs : List Byte) (h : cellsWf m = true) :
    cellsWf (cellWrites m a bs) = true := by
  induction bs generalizing m a with
  | nil => exact h
  | cons b r ih => exact ih _ _ (cellsWf_cellWrite m a b h)

theorem cellRead_cellWrites_other (m : List Host.Cell) (a x : Nat) (bs : List Byte) (h : cellsWf m = true)
    (hx : x < a ∨ a + bs.length ≤ x) : cellRead (cellWrites m a bs) x = cellRead m x := by
  induction bs generalizing m a with
  | nil => rfl
  | cons b r ih =>
    have hl : (b :: r).length = r.length + 1 := rfl
    rw [cellWrites, ih _ _ (cellsWf_cellWrite m a b h) (by omega)]
    exact cellRead_cellWrite_other m a x b h (by omega)

theorem cellRead_cellWrites_at (m : List Host.Cell) (a k : Nat) (bs : List Byte) (h : cellsWf m = true) (hk : k < bs.length) :
    cellRead (cellWrites m a bs) (a + k) = bs[k] := by
  induction bs generalizing m a k with
  | nil => exact absurd hk (by simp)
  | cons b r ih =>
    cases k with
    | zero =>
      rw [cellWrites, cellRead_cellWrites_other _ _ _ _ (cellsWf_cellWrite m a b h) (by omega)]
      simpa using cellRead_cellWrite_same m a b h
    | succ k =>
      have := ih (cellWrite m a b) (a + 1) k (cellsWf_cellWrite m a b h) (by simpa using hk)
      rw [cellWrites, show a + (k + 1) = a + 1 + k by omega, this]
      simp

/-- Bytes read where they were written. -/
theorem cellReads_cellWrites (m : List Host.Cell) (a : Nat) (bs : List Byte) (h : cellsWf m = true) :
    cellReads (cellWrites m a bs) a bs.length = bs := by
  apply List.ext_getElem
  · simp [cellReads]
  · intro k h1 h2
    simp only [cellReads, List.getElem_map, List.getElem_range]
    exact cellRead_cellWrites_at m a k bs h h2

/-! ### The operations on the memories of the machine -/

theorem memoryWf_reset : memoryWf State.reset = true := by decide

theorem memoryWf_iff (s : State) : memoryWf s = true ↔
    cellsWf s.hbm = true ∧ cellsWf s.host.fw = true ∧ coresWf s.cores = true ∧ s.contexts.all (fun c => contextWf c.2) = true ∧
      s.packets.all (fun p => packetWf p.2) = true := by
  simp only [memoryWf, Bool.and_eq_true, and_assoc]

/-- A state whose byte memories are those of another is sound if that one is. -/
theorem memoryWf_congr {s t : State} (h : memoryWf s = true) (h1 : t.hbm = s.hbm) (h2 : t.host.fw = s.host.fw) (h3 : t.cores = s.cores)
    (h4 : t.contexts = s.contexts) (h5 : t.packets = s.packets) : memoryWf t = true := by
  simp only [memoryWf, h1, h2, h3, h4, h5] at h ⊢; exact h

theorem memoryWf_hbm {s t : State} (h : memoryWf s = true) (h1 : cellsWf t.hbm = true) (h2 : t.host = s.host) (h3 : t.cores = s.cores)
    (h4 : t.contexts = s.contexts) (h5 : t.packets = s.packets) : memoryWf t = true := by
  obtain ⟨_, a, b, c, d⟩ := (memoryWf_iff s).mp h
  exact (memoryWf_iff t).mpr ⟨h1, h2 ▸ a, h3 ▸ b, h4 ▸ c, h5 ▸ d⟩

theorem cellsWf_filter (m : List Host.Cell) (f : Host.Cell → Bool) (h : cellsWf m = true) : cellsWf (m.filter f) = true := by
  induction m with
  | nil => rfl
  | cons p r ih =>
    obtain ⟨a, b⟩ := p
    have hgt := (List.pairwise_cons.mp (cellsWf_rising _ h)).1
    obtain ⟨hb, _, hr⟩ := (cellsWf_cons a b r).mp h
    by_cases hf : f (a, b)
    · rw [List.filter_cons_of_pos hf]
      exact cellsWf_cons_of a b _ hb (fun q hq => hgt q (List.mem_filter.mp hq).1) (ih hr)
    · rw [List.filter_cons_of_neg hf]; exact ih hr

theorem cellsWf_foldl (l : List Nat) (m : List Host.Cell) (f : List Host.Cell → Nat → List Host.Cell)
    (hf : ∀ m k, cellsWf m = true → cellsWf (f m k) = true) (h : cellsWf m = true) : cellsWf (l.foldl f m) = true := by
  induction l generalizing m with
  | nil => exact h
  | cons k r ih => exact ih _ (hf m k h)

/-- A table entry keeps the canonical form of HBM. -/
theorem memoryWf_writePte (s : State) (pa : Nat) (e : DWord) (h : memoryWf s = true) : memoryWf (writePte s pa e) = true :=
  memoryWf_hbm h (cellsWf_cellWrites _ _ _ ((memoryWf_iff s).mp h).1) rfl rfl rfl rfl

/-- A write of a line keeps it. -/
theorem memoryWf_hbmWriteLine (s : State) (pa : Nat) (d : BitVec 1024) (m p : BitVec 128) (h : memoryWf s = true) :
    memoryWf (hbmWriteLine s pa d m p) = true := by
  refine memoryWf_hbm h (cellsWf_foldl _ _ _ (fun m k hm => ?_) ((memoryWf_iff s).mp h).1) rfl rfl rfl rfl
  split
  · exact cellsWf_cellWrite _ _ _ hm
  · exact hm

/-- Clearing a range keeps it. -/
theorem memoryWf_zeroRange (s : State) (pa n : Nat) (h : memoryWf s = true) : memoryWf (zeroRange s pa n) = true :=
  memoryWf_hbm h (cellsWf_filter _ _ ((memoryWf_iff s).mp h).1) rfl rfl rfl rfl

theorem coresWf_tabPut (t : Tab CoreS) (c : Nat) (x : CoreS) (h : coresWf t = true) (hx : cellsWf x.scratch = true) :
    coresWf (tabPut t c x) = true := by
  induction t with
  | nil => simpa [coresWf, tabPut] using hx
  | cons p r ih =>
    obtain ⟨i, y⟩ := p
    simp only [coresWf, List.all_cons, Bool.and_eq_true] at h
    by_cases hi : i = c
    · simp only [coresWf, tabPut, hi, if_true, List.all_cons, Bool.and_eq_true]; exact ⟨hx, h.2⟩
    · simp only [coresWf, tabPut, hi, if_false, List.all_cons, Bool.and_eq_true]; exact ⟨h.1, ih h.2⟩

theorem core_scratchWf (s : State) (c : Nat) (h : coresWf s.cores = true) : cellsWf (s.core c).scratch = true := by
  have : ∀ t : Tab CoreS, coresWf t = true → cellsWf (tabGet t c CoreS.empty).scratch = true := by
    intro t ht
    induction t with
    | nil => rfl
    | cons p r ih =>
      obtain ⟨i, y⟩ := p
      simp only [coresWf, List.all_cons, Bool.and_eq_true] at ht
      by_cases hi : i = c
      · simp [tabGet, tabGet?, hi, ht.1]
      · have := ih ht.2; simpa [tabGet, tabGet?, hi] using this
  exact this s.cores h

/-- A change of a core that keeps the form of its scratchpad. -/
theorem memoryWf_modCore (s : State) (c : Nat) (f : CoreS → CoreS) (h : memoryWf s = true)
    (hf : ∀ x : CoreS, cellsWf x.scratch = true → cellsWf (f x).scratch = true) : memoryWf (s.modCore c f) = true := by
  obtain ⟨a, b, d, e, g⟩ := (memoryWf_iff s).mp h
  exact (memoryWf_iff _).mpr ⟨a, b, coresWf_tabPut _ _ _ d (hf _ (core_scratchWf s c d)), e, g⟩

/-- A write into a scratchpad keeps it. -/
theorem memoryWf_scratchWrite (s : State) (core off : Nat) (bs : List Byte) (h : memoryWf s = true) :
    memoryWf (scratchWrite s core off bs) = true :=
  memoryWf_modCore s core _ h (fun _ hx => cellsWf_cellWrites _ _ _ hx)

/-! ### Scratchpads read back what was written -/

theorem scratchRead_scratchWrite (s : State) (core off : Nat) (bs : List Byte) (h : memoryWf s = true) :
    scratchRead (scratchWrite s core off bs) core off bs.length = bs := by
  simp only [scratchRead, scratchWrite, State.core_modCore_same]
  exact cellReads_cellWrites _ _ _ (core_scratchWf s core ((memoryWf_iff s).mp h).2.2.1)

/-- A byte outside the written range, of any core, reads as before. -/
theorem scratchByte_scratchWrite_other (s : State) (core k off x : Nat) (bs : List Byte) (h : memoryWf s = true)
    (hx : k ≠ core ∨ x < off ∨ off + bs.length ≤ x) :
    cellRead ((scratchWrite s core off bs).core k).scratch x = cellRead (s.core k).scratch x := by
  by_cases hk : k = core
  · subst hk
    simp only [scratchWrite, State.core_modCore_same]
    exact cellRead_cellWrites_other _ _ _ _ (core_scratchWf s k ((memoryWf_iff s).mp h).2.2.1) (by omega)
  · rw [scratchWrite, State.core_modCore_other _ _ _ _ hk]

end Sys2Proof.Machine
end

