-- ==== Sys2Proof/Laws/PerInstr.lean ====
section
/-! SUPPORT. Statements for every instruction, one lemma for each constructor: MAJ and MIN of an instruction word lead the
opcode map (R81) back to that instruction. -/

namespace Sys2Proof.Laws.Encoding

/-- MAJ and MIN have eight bits, and the opcode map reads them, with the word's other fields, as the instruction. -/
def Statement (i : Instr) : Prop :=
  ∀ w, i.word = some w → typesLegal i = true →
    i.opcode.1 < 256 ∧ i.opcode.2 < 256 ∧ opcodeInstr i.opcode.1 i.opcode.2 { w with v := 0, t := .i8 } = .ok i

theorem code_lt (t : Ty) : t.code < 32 := by cases t <;> decide
theorem ofCode_code (t : Ty) : Ty.ofCode t.code = some t := by cases t <;> rfl

theorem typedCode_lt (w : W) : typedCode w < 256 := by
  have := code_lt w.t; have := w.v.isLt; unfold typedCode; omega

/-- V and T are read back from MIN. -/
theorem typedMin_code (mk : W → Instr) (w : W) : typedMin mk (typedCode w) { w with v := 0, t := .i8 } = .ok (mk w) := by
  have h1 := code_lt w.t
  have h2 : typedCode w % 32 = w.t.code := by unfold typedCode; omega
  have h3 : typedCode w / 32 % 8 = w.v.val := by have := w.v.isLt; unfold typedCode; omega
  simp only [typedMin, h2, ofCode_code, h3]

/-- An instruction whose MIN is its own has no V and no T. -/
theorem plain_eq (w : W) (h : w.plain = true) : ({ w with v := 0, t := .i8 } : W) = w := by
  simp only [W.plain, Bool.and_eq_true, beq_iff_eq] at h
  obtain ⟨h1, h2⟩ := h
  cases w; simp_all

theorem typed_case (i : Instr) (w : W) (maj : Nat) (mk : W → Instr) (hw : i.word = some w) (ho : i.opcode = (maj, typedCode w))
    (hm : maj < 256) (hc : ∀ x, opcodeInstr maj (typedCode w) x = typedMin mk (typedCode w) x) (hi : mk w = i) : Statement i := by
  intro x hx _
  have : w = x := by rw [hw] at hx; exact Option.some.inj hx
  subst this
  rw [ho]
  exact ⟨hm, typedCode_lt w, by rw [hc, typedMin_code, hi]⟩

theorem exact_case (i : Instr) (w : W) (maj min : Nat) (mk : W → Instr) (hw : i.word = some w) (ho : i.opcode = (maj, min))
    (hm : maj < 256) (hn : min < 256) (ht : typesLegal i = w.plain) 
    (hc : ∀ x, opcodeInstr maj min x = .ok (mk { x with v := 0, t := .i8 })) (hi : mk w = i) : Statement i := by
  intro x hx hp
  have : w = x := by rw [hw] at hx; exact Option.some.inj hx
  subst this
  rw [ho]
  exact ⟨hm, hn, by rw [hc, plain_eq w (ht ▸ hp), hi]⟩

theorem no_case (i : Instr) (h : i.word = none) : Statement i := by
  intro x hx _; rw [h] at hx; exact absurd hx (by simp)

theorem nop (w : W) : Statement (.nop w) := exact_case _ w 0x00 0 .nop rfl rfl (by decide) (by decide) rfl (fun _ => rfl) rfl
theorem pairedWord (oa : HopA) (ha : Half) (ob : HopB) (hb : Half) : Statement (.pairedWord oa ha ob hb) := no_case _ rfl
theorem bra (w : W) : Statement (.bra w) := exact_case _ w 0x01 0 .bra rfl rfl (by decide) (by decide) rfl (fun _ => rfl) rfl
theorem braNz (w : W) : Statement (.braNz w) := exact_case _ w 0x01 1 .braNz rfl rfl (by decide) (by decide) rfl (fun _ => rfl) rfl
theorem braZ (w : W) : Statement (.braZ w) := exact_case _ w 0x01 2 .braZ rfl rfl (by decide) (by decide) rfl (fun _ => rfl) rfl
theorem braEmpty (w : W) : Statement (.braEmpty w) := exact_case _ w 0x01 3 .braEmpty rfl rfl (by decide) (by decide) rfl (fun _ => rfl) rfl
theorem braFull (w : W) : Statement (.braFull w) := exact_case _ w 0x01 4 .braFull rfl rfl (by decide) (by decide) rfl (fun _ => rfl) rfl
theorem brx (w : W) : Statement (.brx w) := exact_case _ w 0x02 0 .brx rfl rfl (by decide) (by decide) rfl (fun _ => rfl) rfl
theorem call (w : W) : Statement (.call w) := exact_case _ w 0x03 0 .call rfl rfl (by decide) (by decide) rfl (fun _ => rfl) rfl
theorem ret (w : W) : Statement (.ret w) := exact_case _ w 0x04 0 .ret rfl rfl (by decide) (by decide) rfl (fun _ => rfl) rfl
theorem loop (w : W) : Statement (.loop w) := exact_case _ w 0x05 0 .loop rfl rfl (by decide) (by decide) rfl (fun _ => rfl) rfl
theorem waitc (w : W) : Statement (.waitc w) := exact_case _ w 0x06 0 .waitc rfl rfl (by decide) (by decide) rfl (fun _ => rfl) rfl
theorem sleep (w : W) : Statement (.sleep w) := exact_case _ w 0x07 0 .sleep rfl rfl (by decide) (by decide) rfl (fun _ => rfl) rfl
theorem errst (w : W) : Statement (.errst w) := exact_case _ w 0x08 0 .errst rfl rfl (by decide) (by decide) rfl (fun _ => rfl) rfl
theorem add (w : W) : Statement (.add w) := typed_case _ w 0x10 .add rfl rfl (by decide) (fun _ => rfl) rfl
theorem sub (w : W) : Statement (.sub w) := typed_case _ w 0x11 .sub rfl rfl (by decide) (fun _ => rfl) rfl
theorem mul (w : W) : Statement (.mul w) := typed_case _ w 0x12 .mul rfl rfl (by decide) (fun _ => rfl) rfl
theorem mulhi (w : W) : Statement (.mulhi w) := typed_case _ w 0x13 .mulhi rfl rfl (by decide) (fun _ => rfl) rfl
theorem mad (w : W) : Statement (.mad w) := typed_case _ w 0x14 .mad rfl rfl (by decide) (fun _ => rfl) rfl
theorem abs (w : W) : Statement (.abs w) := typed_case _ w 0x15 .abs rfl rfl (by decide) (fun _ => rfl) rfl
theorem min (w : W) : Statement (.min w) := typed_case _ w 0x16 .min rfl rfl (by decide) (fun _ => rfl) rfl
theorem max (w : W) : Statement (.max w) := typed_case _ w 0x17 .max rfl rfl (by decide) (fun _ => rfl) rfl
theorem and (w : W) : Statement (.and w) := typed_case _ w 0x18 .and rfl rfl (by decide) (fun _ => rfl) rfl
theorem or (w : W) : Statement (.or w) := typed_case _ w 0x19 .or rfl rfl (by decide) (fun _ => rfl) rfl
theorem xor (w : W) : Statement (.xor w) := typed_case _ w 0x1A .xor rfl rfl (by decide) (fun _ => rfl) rfl
theorem not (w : W) : Statement (.not w) := typed_case _ w 0x1B .not rfl rfl (by decide) (fun _ => rfl) rfl
theorem shl (w : W) : Statement (.shl w) := typed_case _ w 0x1C .shl rfl rfl (by decide) (fun _ => rfl) rfl
theorem shr (w : W) : Statement (.shr w) := typed_case _ w 0x1D .shr rfl rfl (by decide) (fun _ => rfl) rfl
theorem sar (w : W) : Statement (.sar w) := typed_case _ w 0x1E .sar rfl rfl (by decide) (fun _ => rfl) rfl
theorem rot (w : W) : Statement (.rot w) := typed_case _ w 0x1F .rot rfl rfl (by decide) (fun _ => rfl) rfl
theorem clz (w : W) : Statement (.clz w) := typed_case _ w 0x20 .clz rfl rfl (by decide) (fun _ => rfl) rfl
theorem popc (w : W) : Statement (.popc w) := typed_case _ w 0x21 .popc rfl rfl (by decide) (fun _ => rfl) rfl
theorem brev (w : W) : Statement (.brev w) := typed_case _ w 0x22 .brev rfl rfl (by decide) (fun _ => rfl) rfl
theorem ffs (w : W) : Statement (.ffs w) := typed_case _ w 0x23 .ffs rfl rfl (by decide) (fun _ => rfl) rfl
theorem cmp (w : W) : Statement (.cmp w) := typed_case _ w 0x24 .cmp rfl rfl (by decide) (fun _ => rfl) rfl
theorem sel (w : W) : Statement (.sel w) := typed_case _ w 0x25 .sel rfl rfl (by decide) (fun _ => rfl) rfl
theorem mov (w : W) : Statement (.mov w) := typed_case _ w 0x26 .mov rfl rfl (by decide) (fun _ => rfl) rfl
theorem movi (w : W) : Statement (.movi w) := by
  intro x hx ht
  obtain rfl : w = x := Option.some.inj hx
  have hv : w.v.val = 0 := by
    simp only [typesLegal, W.typed, Bool.and_eq_true, decide_eq_true_eq] at ht; omega
  refine typed_case (.movi w) w 0x27 .movi rfl rfl (by decide) (fun y => ?_) rfl w rfl ht
  have h1 : typedCode w / 32 = 0 := by have := code_lt w.t; unfold typedCode; omega
  simp [opcodeInstr, h1]
theorem moviHi (w : W) : Statement (.moviHi w) := by
  intro x hx ht
  obtain rfl : w = x := Option.some.inj hx
  have hv : w.v.val = 1 := by
    simp only [typesLegal, Bool.and_eq_true, beq_iff_eq] at ht; simp [ht.1]
  refine typed_case (.moviHi w) w 0x27 .moviHi rfl rfl (by decide) (fun y => ?_) rfl w rfl ht
  have h1 : typedCode w / 32 = 1 := by have := code_lt w.t; unfold typedCode; omega
  simp [opcodeInstr, h1]
theorem fadd (w : W) : Statement (.fadd w) := typed_case _ w 0x40 .fadd rfl rfl (by decide) (fun _ => rfl) rfl
theorem fsub (w : W) : Statement (.fsub w) := typed_case _ w 0x41 .fsub rfl rfl (by decide) (fun _ => rfl) rfl
theorem fmul (w : W) : Statement (.fmul w) := typed_case _ w 0x42 .fmul rfl rfl (by decide) (fun _ => rfl) rfl
theorem ffma (w : W) : Statement (.ffma w) := typed_case _ w 0x43 .ffma rfl rfl (by decide) (fun _ => rfl) rfl
theorem fmin (w : W) : Statement (.fmin w) := typed_case _ w 0x44 .fmin rfl rfl (by decide) (fun _ => rfl) rfl
theorem fmax (w : W) : Statement (.fmax w) := typed_case _ w 0x45 .fmax rfl rfl (by decide) (fun _ => rfl) rfl
theorem fcmp (w : W) : Statement (.fcmp w) := typed_case _ w 0x46 .fcmp rfl rfl (by decide) (fun _ => rfl) rfl
theorem fclass (w : W) : Statement (.fclass w) := typed_case _ w 0x47 .fclass rfl rfl (by decide) (fun _ => rfl) rfl
theorem frnd (w : W) : Statement (.frnd w) := typed_case _ w 0x48 .frnd rfl rfl (by decide) (fun _ => rfl) rfl
theorem fdiv (w : W) : Statement (.fdiv w) := typed_case _ w 0x49 .fdiv rfl rfl (by decide) (fun _ => rfl) rfl
theorem fsqrt (w : W) : Statement (.fsqrt w) := typed_case _ w 0x4A .fsqrt rfl rfl (by decide) (fun _ => rfl) rfl
theorem cvt (w : W) : Statement (.cvt w) := typed_case _ w 0x70 .cvt rfl rfl (by decide) (fun _ => rfl) rfl
theorem pk (w : W) : Statement (.pk w) := typed_case _ w 0x71 .pk rfl rfl (by decide) (fun _ => rfl) rfl
theorem upk (w : W) : Statement (.upk w) := typed_case _ w 0x72 .upk rfl rfl (by decide) (fun _ => rfl) rfl
theorem mxs (w : W) : Statement (.mxs w) := typed_case _ w 0x73 .mxs rfl rfl (by decide) (fun _ => rfl) rfl
theorem bfx (w : W) : Statement (.bfx w) := typed_case _ w 0x90 .bfx rfl rfl (by decide) (fun _ => rfl) rfl
theorem bfi (w : W) : Statement (.bfi w) := exact_case _ w 0x91 0 .bfi rfl rfl (by decide) (by decide) rfl (fun _ => rfl) rfl
theorem fsh (w : W) : Statement (.fsh w) := typed_case _ w 0x92 .fsh rfl rfl (by decide) (fun _ => rfl) rfl
theorem rcp (w : W) : Statement (.rcp w) := typed_case _ w 0x98 .rcp rfl rfl (by decide) (fun _ => rfl) rfl
theorem rsq (w : W) : Statement (.rsq w) := typed_case _ w 0x99 .rsq rfl rfl (by decide) (fun _ => rfl) rfl
theorem exp2 (w : W) : Statement (.exp2 w) := typed_case _ w 0x9A .exp2 rfl rfl (by decide) (fun _ => rfl) rfl
theorem log2 (w : W) : Statement (.log2 w) := typed_case _ w 0x9B .log2 rfl rfl (by decide) (fun _ => rfl) rfl
theorem sinpi (w : W) : Statement (.sinpi w) := typed_case _ w 0x9C .sinpi rfl rfl (by decide) (fun _ => rfl) rfl
theorem cospi (w : W) : Statement (.cospi w) := typed_case _ w 0x9D .cospi rfl rfl (by decide) (fun _ => rfl) rfl
theorem tanh (w : W) : Statement (.tanh w) := typed_case _ w 0x9E .tanh rfl rfl (by decide) (fun _ => rfl) rfl
theorem shfl (w : W) : Statement (.shfl w) := typed_case _ w 0x80 .shfl rfl rfl (by decide) (fun _ => rfl) rfl
theorem bcast (w : W) : Statement (.bcast w) := typed_case _ w 0x81 .bcast rfl rfl (by decide) (fun _ => rfl) rfl
theorem vote (w : W) : Statement (.vote w) := typed_case _ w 0x82 .vote rfl rfl (by decide) (fun _ => rfl) rfl
theorem matchLanes (w : W) : Statement (.matchLanes w) := typed_case _ w 0x83 .matchLanes rfl rfl (by decide) (fun _ => rfl) rfl
theorem redsum (w : W) : Statement (.redsum w) := typed_case _ w 0x84 .redsum rfl rfl (by decide) (fun _ => rfl) rfl
theorem redmin (w : W) : Statement (.redmin w) := typed_case _ w 0x85 .redmin rfl rfl (by decide) (fun _ => rfl) rfl
theorem redmax (w : W) : Statement (.redmax w) := typed_case _ w 0x86 .redmax rfl rfl (by decide) (fun _ => rfl) rfl
theorem redand (w : W) : Statement (.redand w) := typed_case _ w 0x87 .redand rfl rfl (by decide) (fun _ => rfl) rfl
theorem redor (w : W) : Statement (.redor w) := typed_case _ w 0x88 .redor rfl rfl (by decide) (fun _ => rfl) rfl
theorem scan (w : W) : Statement (.scan w) := typed_case _ w 0x89 .scan rfl rfl (by decide) (fun _ => rfl) rfl
theorem ld (w : W) : Statement (.ld w) := typed_case _ w 0xA0 .ld rfl rfl (by decide) (fun _ => rfl) rfl
theorem ldx (w : W) : Statement (.ldx w) := typed_case _ w 0xA2 .ldx rfl rfl (by decide) (fun _ => rfl) rfl
theorem st (w : W) : Statement (.st w) := typed_case _ w 0xA1 .st rfl rfl (by decide) (fun _ => rfl) rfl
theorem stx (w : W) : Statement (.stx w) := typed_case _ w 0xA3 .stx rfl rfl (by decide) (fun _ => rfl) rfl
theorem ldS (w : W) : Statement (.ldS w) := typed_case _ w 0xA4 .ldS rfl rfl (by decide) (fun _ => rfl) rfl
theorem stS (w : W) : Statement (.stS w) := typed_case _ w 0xA5 .stS rfl rfl (by decide) (fun _ => rfl) rfl
theorem ldd (w : W) : Statement (.ldd w) := exact_case _ w 0xA6 0 .ldd rfl rfl (by decide) (by decide) rfl (fun _ => rfl) rfl
theorem atom (w : W) : Statement (.atom w) := typed_case _ w 0xA8 .atom rfl rfl (by decide) (fun _ => rfl) rfl
theorem atomS (w : W) : Statement (.atomS w) := typed_case _ w 0xA7 .atomS rfl rfl (by decide) (fun _ => rfl) rfl
theorem atomFadd (w : W) : Statement (.atomFadd w) := typed_case _ w 0xA9 .atomFadd rfl rfl (by decide) (fun _ => rfl) rfl
theorem watch (w : W) : Statement (.watch w) := exact_case _ w 0xAA 0 .watch rfl rfl (by decide) (by decide) rfl (fun _ => rfl) rfl
theorem fence (w : W) : Statement (.fence w) := exact_case _ w 0xAB 0 .fence rfl rfl (by decide) (by decide) rfl (fun _ => rfl) rfl
theorem mfk (w : W) : Statement (.mfk w) := exact_case _ w 0xF0 0 .mfk rfl rfl (by decide) (by decide) rfl (fun _ => rfl) rfl
theorem mtk (w : W) : Statement (.mtk w) := exact_case _ w 0xF1 0 .mtk rfl rfl (by decide) (by decide) rfl (fun _ => rfl) rfl
theorem sys (w : W) : Statement (.sys w) := exact_case _ w 0xF2 0 .sys rfl rfl (by decide) (by decide) rfl (fun _ => rfl) rfl
theorem trap (w : W) : Statement (.trap w) := exact_case _ w 0xF4 0 .trap rfl rfl (by decide) (by decide) rfl (fun _ => rfl) rfl
theorem sysret (w : W) : Statement (.sysret w) := exact_case _ w 0xF3 0 .sysret rfl rfl (by decide) (by decide) rfl (fun _ => rfl) rfl
theorem mapft (w : W) : Statement (.mapft w) := exact_case _ w 0xF5 0 .mapft rfl rfl (by decide) (by decide) rfl (fun _ => rfl) rfl
theorem fltrd (w : W) : Statement (.fltrd w) := exact_case _ w 0xF6 0 .fltrd rfl rfl (by decide) (by decide) rfl (fun _ => rfl) rfl
theorem spawn (w : W) : Statement (.spawn w) := exact_case _ w 0xC0 0 .spawn rfl rfl (by decide) (by decide) rfl (fun _ => rfl) rfl
theorem spawnS (w : W) : Statement (.spawnS w) := exact_case _ w 0xC0 1 .spawnS rfl rfl (by decide) (by decide) rfl (fun _ => rfl) rfl
theorem spawnL (w : W) : Statement (.spawnL w) := exact_case _ w 0xC0 2 .spawnL rfl rfl (by decide) (by decide) rfl (fun _ => rfl) rfl
theorem spawnG (w : W) : Statement (.spawnG w) := exact_case _ w 0xC0 3 .spawnG rfl rfl (by decide) (by decide) rfl (fun _ => rfl) rfl
theorem join (w : W) : Statement (.join w) := exact_case _ w 0xC1 0 .join rfl rfl (by decide) (by decide) rfl (fun _ => rfl) rfl
theorem joinall (w : W) : Statement (.joinall w) := exact_case _ w 0xC2 0 .joinall rfl rfl (by decide) (by decide) rfl (fun _ => rfl) rfl
theorem fprobe (w : W) : Statement (.fprobe w) := exact_case _ w 0xC3 0 .fprobe rfl rfl (by decide) (by decide) rfl (fun _ => rfl) rfl
theorem fres (w : W) : Statement (.fres w) := exact_case _ w 0xC4 0 .fres rfl rfl (by decide) (by decide) rfl (fun _ => rfl) rfl
theorem fresFail (w : W) : Statement (.fresFail w) := exact_case _ w 0xC4 1 .fresFail rfl rfl (by decide) (by decide) rfl (fun _ => rfl) rfl
theorem yield (w : W) : Statement (.yield w) := exact_case _ w 0xC5 0 .yield rfl rfl (by decide) (by decide) rfl (fun _ => rfl) rfl
theorem tret (w : W) : Statement (.tret w) := exact_case _ w 0xC6 0 .tret rfl rfl (by decide) (by decide) rfl (fun _ => rfl) rfl
theorem tid (w : W) : Statement (.tid w) := exact_case _ w 0xC7 0 .tid rfl rfl (by decide) (by decide) rfl (fun _ => rfl) rfl
theorem stage (w : W) : Statement (.stage w) := exact_case _ w 0xC8 0 .stage rfl rfl (by decide) (by decide) rfl (fun _ => rfl) rfl
theorem bufget (w : W) : Statement (.bufget w) := exact_case _ w 0xC9 0 .bufget rfl rfl (by decide) (by decide) rfl (fun _ => rfl) rfl
theorem bufput (w : W) : Statement (.bufput w) := exact_case _ w 0xCA 0 .bufput rfl rfl (by decide) (by decide) rfl (fun _ => rfl) rfl
theorem bufwaitFull (w : W) : Statement (.bufwaitFull w) := exact_case _ w 0xCB 0 .bufwaitFull rfl rfl (by decide) (by decide) rfl (fun _ => rfl) rfl
theorem bufwaitFree (w : W) : Statement (.bufwaitFree w) := exact_case _ w 0xCB 1 .bufwaitFree rfl rfl (by decide) (by decide) rfl (fun _ => rfl) rfl
theorem enq (w : W) : Statement (.enq w) := exact_case _ w 0xCC 0 .enq rfl rfl (by decide) (by decide) rfl (fun _ => rfl) rfl
theorem enqEos (w : W) : Statement (.enqEos w) := exact_case _ w 0xCC 1 .enqEos rfl rfl (by decide) (by decide) rfl (fun _ => rfl) rfl
theorem arcq (w : W) : Statement (.arcq w) := exact_case _ w 0xCD 0 .arcq rfl rfl (by decide) (by decide) rfl (fun _ => rfl) rfl
theorem qput (w : W) : Statement (.qput w) := exact_case _ w 0xCE 0 .qput rfl rfl (by decide) (by decide) rfl (fun _ => rfl) rfl
theorem mloop (w : W) : Statement (.mloop w) := exact_case _ w 0xD0 0 .mloop rfl rfl (by decide) (by decide) rfl (fun _ => rfl) rfl
theorem mfence (w : W) : Statement (.mfence w) := exact_case _ w 0xD1 0 .mfence rfl rfl (by decide) (by decide) rfl (fun _ => rfl) rfl
theorem mwait (w : W) : Statement (.mwait w) := exact_case _ w 0xD2 0 .mwait rfl rfl (by decide) (by decide) rfl (fun _ => rfl) rfl
theorem mzero (w : W) : Statement (.mzero w) := exact_case _ w 0xD3 0 .mzero rfl rfl (by decide) (by decide) rfl (fun _ => rfl) rfl
theorem epi (w : W) : Statement (.epi w) := exact_case _ w 0xD4 0 .epi rfl rfl (by decide) (by decide) rfl (fun _ => rfl) rfl
theorem mstat (w : W) : Statement (.mstat w) := exact_case _ w 0xD5 0 .mstat rfl rfl (by decide) (by decide) rfl (fun _ => rfl) rfl
theorem put (w : W) : Statement (.put w) := exact_case _ w 0xE0 0 .put rfl rfl (by decide) (by decide) rfl (fun _ => rfl) rfl
theorem dsld (w : W) : Statement (.dsld w) := typed_case _ w 0xE1 .dsld rfl rfl (by decide) (fun _ => rfl) rfl
theorem mcast (w : W) : Statement (.mcast w) := exact_case _ w 0xE2 0 .mcast rfl rfl (by decide) (by decide) rfl (fun _ => rfl) rfl
theorem phregSig (w : W) : Statement (.phregSig w) := exact_case _ w 0xE3 0 .phregSig rfl rfl (by decide) (by decide) rfl (fun _ => rfl) rfl
theorem phregWait (w : W) : Statement (.phregWait w) := exact_case _ w 0xE3 1 .phregWait rfl rfl (by decide) (by decide) rfl (fun _ => rfl) rfl
theorem phregSw (w : W) : Statement (.phregSw w) := exact_case _ w 0xE3 2 .phregSw rfl rfl (by decide) (by decide) rfl (fun _ => rfl) rfl
theorem phdrop (w : W) : Statement (.phdrop w) := exact_case _ w 0xE4 0 .phdrop rfl rfl (by decide) (by decide) rfl (fun _ => rfl) rfl
theorem phsig (w : W) : Statement (.phsig w) := exact_case _ w 0xE5 0 .phsig rfl rfl (by decide) (by decide) rfl (fun _ => rfl) rfl
theorem phwait (w : W) : Statement (.phwait w) := exact_case _ w 0xE6 0 .phwait rfl rfl (by decide) (by decide) rfl (fun _ => rfl) rfl
theorem phsw (w : W) : Statement (.phsw w) := exact_case _ w 0xE7 0 .phsw rfl rfl (by decide) (by decide) rfl (fun _ => rfl) rfl
theorem copy (w : W) : Statement (.copy w) := exact_case _ w 0xE8 0 .copy rfl rfl (by decide) (by decide) rfl (fun _ => rfl) rfl
theorem barInit (w : W) : Statement (.barInit w) := exact_case _ w 0xE9 0 .barInit rfl rfl (by decide) (by decide) rfl (fun _ => rfl) rfl
theorem barExp (w : W) : Statement (.barExp w) := exact_case _ w 0xE9 1 .barExp rfl rfl (by decide) (by decide) rfl (fun _ => rfl) rfl
theorem barArr (w : W) : Statement (.barArr w) := exact_case _ w 0xE9 2 .barArr rfl rfl (by decide) (by decide) rfl (fun _ => rfl) rfl
theorem barWait (w : W) : Statement (.barWait w) := exact_case _ w 0xE9 3 .barWait rfl rfl (by decide) (by decide) rfl (fun _ => rfl) rfl
theorem barTest (w : W) : Statement (.barTest w) := exact_case _ w 0xE9 4 .barTest rfl rfl (by decide) (by decide) rfl (fun _ => rfl) rfl
theorem migrate (w : W) : Statement (.migrate w) := exact_case _ w 0xEA 0 .migrate rfl rfl (by decide) (by decide) rfl (fun _ => rfl) rfl
theorem groupStart (core : Nat) : Statement (.groupStart core) := no_case _ rfl
theorem reserveStart (core : Nat) : Statement (.reserveStart core) := no_case _ rfl
theorem schedulerDisplace (grp : Nat) : Statement (.schedulerDisplace grp) := no_case _ rfl
theorem sleepExpiry (grp : Nat) : Statement (.sleepExpiry grp) := no_case _ rfl
theorem heldTrap (grp : Nat) : Statement (.heldTrap grp) := no_case _ rfl
theorem trapBudgetEscalate (grp : Nat) : Statement (.trapBudgetEscalate grp) := no_case _ rfl
theorem errorLogWindowClose (grp : Nat) : Statement (.errorLogWindowClose grp) := no_case _ rfl
theorem driftRollover (grp : Nat) : Statement (.driftRollover grp) := no_case _ rfl
theorem icacheFill (grp : Nat) : Statement (.icacheFill grp) := no_case _ rfl
theorem plbFill (grp : Nat) : Statement (.plbFill grp) := no_case _ rfl
theorem loadReturn (id : Nat) (mask : LaneMask) : Statement (.loadReturn id mask) := no_case _ rfl
theorem storeAck (id : Nat) : Statement (.storeAck id) := no_case _ rfl
theorem atomicReturn (id : Nat) (mask : LaneMask) : Statement (.atomicReturn id mask) := no_case _ rfl
theorem renewal (id : Nat) : Statement (.renewal id) := no_case _ rfl
theorem renewalReturn (id : Nat) : Statement (.renewalReturn id) := no_case _ rfl
theorem writeEvent (id : Nat) : Statement (.writeEvent id) := no_case _ rfl
theorem watchPoll (grp : Nat) : Statement (.watchPoll grp) := no_case _ rfl
theorem rebase (asid : Nat) : Statement (.rebase asid) := no_case _ rfl
theorem sfuResult (id : Nat) (mask : LaneMask) : Statement (.sfuResult id mask) := no_case _ rfl
theorem divideResult (id : Nat) (mask : LaneMask) : Statement (.divideResult id mask) := no_case _ rfl
theorem crossLaneResult (id : Nat) (mask : LaneMask) : Statement (.crossLaneResult id mask) := no_case _ rfl
theorem tokenRefill (core : Nat) (die : Nat) : Statement (.tokenRefill core die) := no_case _ rfl
theorem homeMissFill (id : Nat) : Statement (.homeMissFill id) := no_case _ rfl
theorem faultRingPoll (id : Nat) : Statement (.faultRingPoll id) := no_case _ rfl
theorem patrolRead (pa : Nat) (bad : BitVec 4) : Statement (.patrolRead pa bad) := no_case _ rfl
theorem frameSweepAdvance (ctl : Nat) : Statement (.frameSweepAdvance ctl) := no_case _ rfl
theorem entryTakeable (core : Nat) (serial : Nat) : Statement (.entryTakeable core serial) := no_case _ rfl
theorem stealAttempt (core : Nat) : Statement (.stealAttempt core) := no_case _ rfl
theorem stealTransfer (core : Nat) (intact : Bool) : Statement (.stealTransfer core intact) := no_case _ rfl
theorem stealBackoffExpiry (core : Nat) : Statement (.stealBackoffExpiry core) := no_case _ rfl
theorem stagingStart (core : Nat) (serial : Nat) : Statement (.stagingStart core serial) := no_case _ rfl
theorem stagingFillComplete (core : Nat) (serial : Nat) : Statement (.stagingFillComplete core serial) := no_case _ rfl
theorem commandAccept (id : Nat) : Statement (.commandAccept id) := no_case _ rfl
theorem mloopStart (core : Nat) : Statement (.mloopStart core) := no_case _ rfl
theorem mloopStep (core : Nat) : Statement (.mloopStep core) := no_case _ rfl
theorem mzeroPerform (core : Nat) : Statement (.mzeroPerform core) := no_case _ rfl
theorem epiStart (core : Nat) : Statement (.epiStart core) := no_case _ rfl
theorem epiComplete (id : Nat) : Statement (.epiComplete id) := no_case _ rfl
theorem putStart (id : Nat) : Statement (.putStart id) := no_case _ rfl
theorem putArrival (id : Nat) : Statement (.putArrival id) := no_case _ rfl
theorem dsldTargetRead (id : Nat) : Statement (.dsldTargetRead id) := no_case _ rfl
theorem mcastRead (id : Nat) : Statement (.mcastRead id) := no_case _ rfl
theorem mcastGrant (id : Nat) : Statement (.mcastGrant id) := no_case _ rfl
theorem mcastDelivery (id : Nat) (core : Nat) : Statement (.mcastDelivery id core) := no_case _ rfl
theorem networkWatchdog (die : Nat) : Statement (.networkWatchdog die) := no_case _ rfl
theorem barrierArrival (id : Nat) : Statement (.barrierArrival id) := no_case _ rfl
theorem copyStart (id : Nat) : Statement (.copyStart id) := no_case _ rfl
theorem copyPieceDone (id : Nat) (piece : Nat) : Statement (.copyPieceDone id piece) := no_case _ rfl
theorem migrateLand (grp : Nat) : Statement (.migrateLand grp) := no_case _ rfl
theorem arcadeSlotVisible (pipe : Nat) (stage : Nat) (slot : Nat) : Statement (.arcadeSlotVisible pipe stage slot) := no_case _ rfl
theorem enqWaitServed (pipe : Nat) (stage : Nat) : Statement (.enqWaitServed pipe stage) := no_case _ rfl
theorem recordTake (core : Nat) : Statement (.recordTake core) := no_case _ rfl
theorem roundaboutInterval (pipe : Nat) : Statement (.roundaboutInterval pipe) := no_case _ rfl
theorem drainSwitch (core : Nat) : Statement (.drainSwitch core) := no_case _ rfl
theorem packetTake (queue : Nat) : Statement (.packetTake queue) := no_case _ rfl
theorem queueMap (queue : Nat) : Statement (.queueMap queue) := no_case _ rfl
theorem queueUnmap (queue : Nat) : Statement (.queueUnmap queue) := no_case _ rfl
theorem barrierAnd (pkt : Nat) : Statement (.barrierAnd pkt) := no_case _ rfl
theorem barrierAndSettle (pkt : Nat) (index : Nat) : Statement (.barrierAndSettle pkt index) := no_case _ rfl
theorem signal (pkt : Nat) : Statement (.signal pkt) := no_case _ rfl
theorem mapopMap (pkt : Nat) : Statement (.mapopMap pkt) := no_case _ rfl
theorem mapopClear (pkt : Nat) : Statement (.mapopClear pkt) := no_case _ rfl
theorem mapopUnmap (pkt : Nat) : Statement (.mapopUnmap pkt) := no_case _ rfl
theorem mapopProtect (pkt : Nat) : Statement (.mapopProtect pkt) := no_case _ rfl
theorem mapopPooladd (pkt : Nat) : Statement (.mapopPooladd pkt) := no_case _ rfl
theorem mapopPooltake (pkt : Nat) : Statement (.mapopPooltake pkt) := no_case _ rfl
theorem mapopSweep (pkt : Nat) : Statement (.mapopSweep pkt) := no_case _ rfl
theorem mapopSpill (pkt : Nat) : Statement (.mapopSpill pkt) := no_case _ rfl
theorem mapopCold (pkt : Nat) : Statement (.mapopCold pkt) := no_case _ rfl
theorem ctxopSave (pkt : Nat) : Statement (.ctxopSave pkt) := no_case _ rfl
theorem ctxopRestore (pkt : Nat) : Statement (.ctxopRestore pkt) := no_case _ rfl
theorem ctxopTeardown (pkt : Nat) : Statement (.ctxopTeardown pkt) := no_case _ rfl
theorem resumeSysret (pkt : Nat) : Statement (.resumeSysret pkt) := no_case _ rfl
theorem resumeFailTask (pkt : Nat) : Statement (.resumeFailTask pkt) := no_case _ rfl
theorem resumeReissue (pkt : Nat) : Statement (.resumeReissue pkt) := no_case _ rfl
theorem resumeFailItem (pkt : Nat) : Statement (.resumeFailItem pkt) := no_case _ rfl
theorem copyPacket (pkt : Nat) : Statement (.copyPacket pkt) := no_case _ rfl
theorem launch (pkt : Nat) : Statement (.launch pkt) := no_case _ rfl
theorem pipeline (pkt : Nat) : Statement (.pipeline pkt) := no_case _ rfl
theorem allotmentPlacement (pkt : Nat) : Statement (.allotmentPlacement pkt) := no_case _ rfl
theorem contextEnd (asid : Nat) : Statement (.contextEnd asid) := no_case _ rfl
theorem firmwarePacket (pkt : Nat) : Statement (.firmwarePacket pkt) := no_case _ rfl
theorem apertureWrite (offset : Nat) (bytes : List Byte) : Statement (.apertureWrite offset bytes) := no_case _ rfl
theorem apertureRead (offset : Nat) (size : Nat) : Statement (.apertureRead offset size) := no_case _ rfl
theorem firmwareWindowAccess (offset : Nat) (bytes : Option (List Byte)) : Statement (.firmwareWindowAccess offset bytes) := no_case _ rfl
theorem doorbell (queue : Nat) : Statement (.doorbell queue) := no_case _ rfl
theorem coreDomainLower (die : Nat) : Statement (.coreDomainLower die) := no_case _ rfl
theorem coreDomainRaise (die : Nat) : Statement (.coreDomainRaise die) := no_case _ rfl
theorem memoryDomainLower (die : Nat) : Statement (.memoryDomainLower die) := no_case _ rfl
theorem memoryDomainRaise (die : Nat) : Statement (.memoryDomainRaise die) := no_case _ rfl
theorem recovery (value : Word) : Statement (.recovery value) := no_case _ rfl
theorem hostRegisterWrite (offset : Nat) (value : Word) : Statement (.hostRegisterWrite offset value) := no_case _ rfl
theorem peerAccess (asid : Nat) (va : Nat) (op : PeerOp) : Statement (.peerAccess asid va op) := no_case _ rfl
theorem linkTraining (port : Nat) (module : Nat) : Statement (.linkTraining port module) := no_case _ rfl
theorem linkDown (port : Nat) : Statement (.linkDown port) := no_case _ rfl
theorem flitRetry (port : Nat) : Statement (.flitRetry port) := no_case _ rfl
theorem selftest (report : SelfTestReport) : Statement (.selftest report) := no_case _ rfl
theorem train0 (good : Bool) : Statement (.train0 good) := no_case _ rfl
theorem early (die : Nat) (good : Bool) : Statement (.early die good) := no_case _ rfl
theorem powerCapClockDown (die : Nat) : Statement (.powerCapClockDown die) := no_case _ rfl
theorem powerCapClockUp (die : Nat) : Statement (.powerCapClockUp die) := no_case _ rfl
theorem thermalThrottle (die : Nat) : Statement (.thermalThrottle die) := no_case _ rfl
theorem thermalTrip (die : Nat) : Statement (.thermalTrip die) := no_case _ rfl
theorem illegalInstruction (detail : Nat) : Statement (.illegalInstruction detail) := no_case _ rfl
theorem softError (e : SoftError) : Statement (.softError e) := no_case _ rfl
theorem scrubComplete (cover : BitVec 11) : Statement (.scrubComplete cover) := no_case _ rfl
theorem coolBelow90 (die : Nat) : Statement (.coolBelow90 die) := no_case _ rfl
theorem firmwarePacketComplete (pkt : Nat) (code : Byte) (detail : Byte) : Statement (.firmwarePacketComplete pkt code detail) := no_case _ rfl
theorem bootStart : Statement (.bootStart) := no_case _ rfl
theorem attest : Statement (.attest) := no_case _ rfl
theorem scrub : Statement (.scrub) := no_case _ rfl
theorem powerOn : Statement (.powerOn) := no_case _ rfl
theorem powerLoss : Statement (.powerLoss) := no_case _ rfl

end Sys2Proof.Laws.Encoding
end

