-- ==== Sys2Proof/Laws/Words.lean ====
section
/-! SUPPORT. What issuing a word does: the cases of `runWord` for a group that is ready, and the shapes that the
families of computing words share. -/

namespace Sys2Proof.Machine

/-! ### The bookkeeping of an issue -/

theorem issueTick_of (s : State) (k : Nat) (g : Group) (h : s.group? k = some g) :
    issueTick s k = ({ s with ticks := s.ticks + 1 }).setGroup k (tick s g) :=
  State.modGroup_of { s with ticks := s.ticks + 1 } k g _ h

theorem Ready.tick_state {s : State} {g : Group} (h : Ready s g) :
    issueTick s s.cur = ({ s with ticks := s.ticks + 1 }).setGroup s.cur (tick s g) := issueTick_of s s.cur g h.group

@[simp] theorem tick_sregs (s : State) (g : Group) : (tick s g).sregs = g.sregs := rfl
@[simp] theorem tick_vregs (s : State) (g : Group) : (tick s g).vregs = g.vregs := rfl
@[simp] theorem tick_flags (s : State) (g : Group) : (tick s g).flags = g.flags := rfl
@[simp] theorem tick_gmode (s : State) (g : Group) : (tick s g).gmode = g.gmode := rfl
@[simp] theorem tick_pc (s : State) (g : Group) : (tick s g).pc = g.pc := rfl
@[simp] theorem tick_sup (s : State) (g : Group) : (tick s g).sup = g.sup := rfl
@[simp] theorem tick_ops (s : State) (g : Group) : (tick s g).ops = g.ops := rfl
@[simp] theorem tick_pend (s : State) (g : Group) : (tick s g).pend = g.pend := rfl
@[simp] theorem tick_core (s : State) (g : Group) : (tick s g).core = g.core := rfl
@[simp] theorem tick_part (s : State) (g : Group) : (tick s g).part = g.part := rfl
@[simp] theorem tick_asid (s : State) (g : Group) : (tick s g).asid = g.asid := rfl
@[simp] theorem tick_view (s : State) (g : Group) : (tick s g).view = g.view := rfl
@[simp] theorem tick_compl (s : State) (g : Group) : (tick s g).compl = g.compl := rfl
@[simp] theorem tick_observed (s : State) (g : Group) : (tick s g).observed = g.observed := rfl
@[simp] theorem tick_inWord (s : State) (g : Group) : (tick s g).inWord = g.inWord := rfl
@[simp] theorem tick_replay (s : State) (g : Group) : (tick s g).replay = g.replay := rfl
@[simp] theorem tick_poisonRegs (s : State) (g : Group) : (tick s g).poisonRegs = g.poisonRegs := rfl
@[simp] theorem tick_team (s : State) (g : Group) : (tick s g).team = g.team := rfl
@[simp] theorem tick_ifp (s : State) (g : Group) : (tick s g).ifp = g.ifp := rfl
@[simp] theorem tick_srseed (s : State) (g : Group) : (tick s g).srseed = g.srseed := rfl
@[simp] theorem tick_answers (s : State) (g : Group) : (tick s g).answers = g.answers := rfl
@[simp] theorem tick_tasks (s : State) (g : Group) : (tick s g).tasks = g.tasks := rfl
@[simp] theorem tick_gid (s : State) (g : Group) : (tick s g).gid = g.gid := rfl

@[simp] theorem tick_s (s : State) (g : Group) (n : Nat) : (tick s g).s n = g.s n := rfl
@[simp] theorem tick_v (s : State) (g : Group) (n l : Nat) : (tick s g).v n l = g.v n l := rfl
@[simp] theorem tick_spair (s : State) (g : Group) (n : Nat) : (tick s g).spair n = g.spair n := rfl
@[simp] theorem tick_triple (s : State) (g : Group) (n : Nat) : (tick s g).triple n = g.triple n := rfl
@[simp] theorem tick_emOf (s : State) (g : Group) (w : W) : emOf (tick s g) w = emOf g w := rfl
@[simp] theorem tick_opd32 (s : State) (g : Group) (imm : Word) (o : Opd) (l : Nat) : opd32 (tick s g) imm o l = opd32 g imm o l := by
  cases o <;> rfl
@[simp] theorem tick_opd64 (s : State) (g : Group) (imm : Word) (o : Opd) (l : Nat) : opd64 (tick s g) imm o l = opd64 g imm o l := by
  cases o <;> rfl
@[simp] theorem tick_opdVal (s : State) (g : Group) (imm : Word) (b : Bool) (o : Opd) (l : Nat) :
    opdVal (tick s g) imm b o l = opdVal g imm b o l := by cases b <;> simp [opdVal]
@[simp] theorem tick_srcsAt (s : State) (g : Group) (i : Instr) (w : W) (l : Nat) : srcsAt (tick s g) i w l = srcsAt g i w l := by
  simp only [srcsAt, tick_opdVal]
@[simp] theorem tick_scalarVal (s : State) (g : Group) (w : W) (o : Opd) : scalarVal (tick s g) w o = scalarVal g w o := by
  simp [scalarVal]
@[simp] theorem tick_pairVal (s : State) (g : Group) (w : W) (o : Opd) : pairVal (tick s g) w o = pairVal g w o := by simp [pairVal]
@[simp] theorem tick_acts (s : State) (g : Group) (w : W) : acts (tick s g) w = acts g w := rfl
@[simp] theorem tick_markerHeld (s : State) (g : Group) : (tick s g).markerHeld = g.markerHeld := rfl
@[simp] theorem tick_acquireHeld (s : State) (g : Group) : (tick s g).acquireHeld = g.acquireHeld := rfl
@[simp] theorem tick_count (s : State) (g : Group) (p : Nat) : (tick s g).count p = g.count p := rfl
@[simp] theorem tick_rndMode (s : State) (g : Group) (r : Nat) : rndMode (tick s g) r = rndMode g r := rfl
@[simp] theorem tick_ftzOf (s : State) (g : Group) (t : Ty) (v : Bool) : ftzOf (tick s g) t v = ftzOf g t v := rfl

/-! ### The cases of a word -/

/-- A ready group issues a word: what its body says becomes the step. -/
theorem runWord_ready {s : State} {g : Group} (h : Ready s g) (i : Instr) (w : W) (pipe : Bool) (body : State → Nat → Group → WOut)
    (hm : MarkerFree g w) (ha : pipe = true → g.acquireHeld = false) :
    runWord i w pipe s body =
      match body (issueTick s s.cur) s.cur (tick s g) with
      | .hold s2 p => finishWord s.cur g (.hold (unissued s s.cur s2) p)
      | .escal s2 r => finishWord s.cur g (.escal (unissued s s.cur s2) r)
      | .trap s2 t => finishWord s.cur g (.trap (if t.resume == g.pc then unissued s s.cur s2 else s2) t)
      | .wait s2 p x => finishWord s.cur g (.wait (s2.modGroup s.cur (fun g => { g with current := some i })) p x)
      | o => finishWord s.cur g o := by
  have hsw : (w.sw && g.markerHeld) = false := by rcases hm with hm | hm <;> simp [hm]
  have hpa : (pipe && g.acquireHeld) = false := by cases pipe <;> simp_all
  have hg : (issueTick s s.cur).group? s.cur = some (tick s g) := by rw [h.tick_state]; simp
  simp only [runWord, registerTrap, h.group, h.inWord, h.poison, Option.isNone_none, Bool.true_and, hsw, hpa, Bool.false_eq_true, if_false,
    List.isEmpty_nil, Bool.not_true, Bool.false_and, if_true, hg]
  all_goals (cases body (issueTick s s.cur) s.cur (tick s g) <;> rfl)

theorem runWord_done {s : State} {g : Group} (h : Ready s g) (i : Instr) (w : W) (pipe : Bool) (body : State → Nat → Group → WOut)
    (hm : MarkerFree g w) (ha : pipe = true → g.acquireHeld = false) (t : State)
    (hb : body (issueTick s s.cur) s.cur (tick s g) = .done t) : runWord i w pipe s body = .next (goOn t s.cur (nextPc g.pc)) := by
  rw [runWord_ready h i w pipe body hm ha, hb]; rfl

theorem runWord_jump {s : State} {g : Group} (h : Ready s g) (i : Instr) (w : W) (pipe : Bool) (body : State → Nat → Group → WOut)
    (hm : MarkerFree g w) (ha : pipe = true → g.acquireHeld = false) (t : State) (pc : DWord)
    (hb : body (issueTick s s.cur) s.cur (tick s g) = .jump t pc) : runWord i w pipe s body = .next (goOn t s.cur pc) := by
  rw [runWord_ready h i w pipe body hm ha, hb]; rfl

theorem runWord_wait {s : State} {g : Group} (h : Ready s g) (i : Instr) (w : W) (pipe : Bool) (body : State → Nat → Group → WOut)
    (hm : MarkerFree g w) (ha : pipe = true → g.acquireHeld = false) (t : State) (p : Park) (x : InWord)
    (hb : body (issueTick s s.cur) s.cur (tick s g) = .wait t p x) :
    runWord i w pipe s body = .next (t.modGroup s.cur (fun g => { g with park := some p, inWord := some x, current := some i })) := by
  rw [runWord_ready h i w pipe body hm ha, hb]
  simp only [finishWord, State.modGroup_modGroup]

theorem runWord_over {s : State} {g : Group} (h : Ready s g) (i : Instr) (w : W) (pipe : Bool) (body : State → Nat → Group → WOut)
    (hm : MarkerFree g w) (ha : pipe = true → g.acquireHeld = false) (t : State)
    (hb : body (issueTick s s.cur) s.cur (tick s g) = .over t) : runWord i w pipe s body = .next t := by
  rw [runWord_ready h i w pipe body hm ha, hb]; rfl

/-- A group that goes on. -/
theorem goOn_setGroup (s : State) (k : Nat) (g : Group) (pc : DWord) : goOn (s.setGroup k g) k pc = s.setGroup k (g.goesOn pc) := by
  simp [goOn, Group.goesOn]

/-- A word whose body changes nothing but its group. -/
theorem runWord_group {s : State} {g : Group} (h : Ready s g) (i : Instr) (w : W) (pipe : Bool) (body : State → Nat → Group → WOut)
    (hm : MarkerFree g w) (ha : pipe = true → g.acquireHeld = false) (g' : Group) (hpc : g'.pc = g.pc)
    (hb : body (issueTick s s.cur) s.cur (tick s g) = .done ((issueTick s s.cur).setGroup s.cur g')) :
    runWord i w pipe s body = .next (wordDone s g') := by
  rw [runWord_done h i w pipe body hm ha _ hb, goOn_setGroup, h.tick_state, State.setGroup_setGroup, wordDone, hpc]

/-! ### Destinations -/

theorem mem_maskLanes (m : LaneMask) (l : Nat) : l ∈ maskLanes m ↔ l < 96 ∧ m.getLsbD l = true := by simp [maskLanes]

theorem vregOf_congr (f h : Nat → Word) (e : ∀ l, l < 96 → f l = h l) : vregOf f = vregOf h := by
  simp only [vregOf, Vector.mk.injEq]
  congr 1
  exact List.map_congr_left (fun l hl => e l (List.mem_range.mp hl))

theorem Group.setV_congr (g : Group) (n : Nat) (m : LaneMask) (f h : Nat → Word) (e : ∀ l ∈ maskLanes m, f l = h l) :
    g.setV n m f = g.setV n m h := by
  unfold Group.setV
  split
  · rfl
  · have : vregOf (fun i => if m.getLsbD i then f i else g.v n i) = vregOf (fun i => if m.getLsbD i then h i else g.v n i) := by
      refine vregOf_congr _ _ (fun l hl => ?_)
      by_cases hm : m.getLsbD l
      · simp [hm, e l ((mem_maskLanes m l).mpr ⟨hl, hm⟩)]
      · simp [hm]
    rw [this]

/-- A destination is written with the values of the computed lanes alone. -/
theorem writeDst_congr (g : Group) (d : Opd) (wide : Bool) (m : LaneMask) (f h : Nat → DWord)
    (ev : ∀ n, d = .v n → ∀ l ∈ maskLanes m, low32 (f l) = low32 (h l) ∧ (wide = true → high32 (f l) = high32 (h l)))
    (es : ∀ n, d = .s n → low32 (f 0) = low32 (h 0) ∧ (wide = true → high32 (f 0) = high32 (h 0))) :
    writeDst g d wide m f = writeDst g d wide m h := by
  cases d with
  | v n =>
    have e1 : ∀ x : Group, x.setV n m (fun i => low32 (f i)) = x.setV n m (fun i => low32 (h i)) :=
      fun x => x.setV_congr _ _ _ _ (fun l hl => (ev n rfl l hl).1)
    cases wide with
    | false => simp only [writeDst, e1, Bool.false_eq_true, if_false]
    | true =>
      have e2 : ∀ x : Group, x.setV (n + 1) m (fun i => high32 (f i)) = x.setV (n + 1) m (fun i => high32 (h i)) :=
        fun x => x.setV_congr _ _ _ _ (fun l hl => (ev n rfl l hl).2 rfl)
      simp only [writeDst, e1, e2, if_true]
  | s n =>
    cases wide with
    | false => simp only [writeDst, (es n rfl).1, Bool.false_eq_true, if_false]
    | true => simp only [writeDst, (es n rfl).1, (es n rfl).2 rfl, if_true]
  | _ => rfl

theorem tabGet_map (l : List Nat) (f : Nat → DWord × Flags) (k : Nat) (hk : k ∈ l) : tabGet (l.map (fun i => (i, f i))) k (0, 0) = f k := by
  have : tabGet? (l.map (fun i => (i, f i))) k = some (f k) := by
    induction l with
    | nil => simp at hk
    | cons a r ih =>
      by_cases h : a = k
      · simp [tabGet?, h]
      · have hr : k ∈ r := by rcases List.mem_cons.mp hk with rfl | h2; exact absurd rfl h; exact h2
        simpa [tabGet?, h] using ih hr
  simp [tabGet, this]

/-! ### Computing words -/

/-- The lanes that a word computes: those of em in the vector form, one in the scalar form (R70, R93). -/
def computedLanes (g : Group) (i : Instr) (w : W) : List Nat := if isVector i w then maskLanes (emOf g w) else [0]

@[simp] theorem tick_computedLanes (s : State) (g : Group) (i : Instr) (w : W) : computedLanes (tick s g) i w = computedLanes g i w := rfl

theorem isVector_v (i : Instr) (w : W) (hf : (shapeOf i).form = .byD) (n : Fin 256) (hd : w.d = .v n) : isVector i w = true := by
  simp [isVector, Shape.isVector, hf, hd, W.codes, Opd.code]

theorem isVector_s (i : Instr) (w : W) (hf : (shapeOf i).form = .byD) (n : Fin 64) (hd : w.d = .s n) : isVector i w = false := by
  simp [isVector, Shape.isVector, hf, hd, W.codes, Opd.code]; omega

theorem low32_ofNat_ofInt (x : Int) : low32 (BitVec.ofInt 64 x) = BitVec.ofInt 32 x := by
  apply BitVec.eq_of_toNat_eq
  simp [low32]
  omega

/-- A computing word of fixed latency for a ready group: D is written with the lanes' values and the flags are raised. -/
theorem runCompute_ready {s : State} {g : Group} (h : Ready s g) (i : Instr) (w : W) (wide : Bool)
    (f : Group → Bool → Srcs → Nat → DWord × Flags) (hm : MarkerFree g w) (he : emOf g w ≠ 0) (val : Nat → DWord)
    (hv : ∀ n, w.d = .v n → ∀ l ∈ maskLanes (emOf g w), l ∈ computedLanes g i w → low32 (val l) = low32 (f (tick s g) (isVector i w) (srcsAt g i w l) l).1 ∧
      (wide = true → high32 (val l) = high32 (f (tick s g) (isVector i w) (srcsAt g i w l) l).1))
    (hvec : ∀ n, w.d = .v n → isVector i w = true)
    (hs : ∀ n, w.d = .s n → isVector i w = false ∧ low32 (val 0) = low32 (f (tick s g) false (srcsAt g i w 0) 0).1 ∧
      (wide = true → high32 (val 0) = high32 (f (tick s g) false (srcsAt g i w 0) 0).1)) :
    let res := (computedLanes g i w).map (fun l => (l, f (tick s g) (isVector i w) (srcsAt g i w l) l))
    runCompute i w wide none f s =
      .next (goOn (raiseFlags ((issueTick s s.cur).setGroup s.cur (writeDst (tick s g) w.d wide (emOf g w) val)) s.cur
        (orFlags (res.map (fun r => r.2.2))) (if isVector i w then logLane (res.map (fun r => (r.1, r.2.2))) else 0xFF) 63 g.pc)
        s.cur (nextPc g.pc)) := by
  intro res
  refine runWord_done h i w false _ hm (by simp) _ ?_
  have e : writeDst (tick s g) w.d wide (emOf g w) (fun l => (tabGet res l (0, 0)).1) = writeDst (tick s g) w.d wide (emOf g w) val := by
    refine writeDst_congr _ _ _ _ _ _ (fun n hn l hl => ?_) (fun n hn => ?_)
    · have hc : l ∈ computedLanes g i w := by simp [computedLanes, hvec n hn, hl]
      rw [show tabGet res l (0, 0) = _ from tabGet_map _ _ l hc]
      exact ⟨(hv n hn l hl hc).1.symm, fun hw => ((hv n hn l hl hc).2 hw).symm⟩
    · obtain ⟨hf, h1, h2⟩ := hs n hn
      have hc : 0 ∈ computedLanes g i w := by simp [computedLanes, hf]
      rw [show tabGet res 0 (0, 0) = _ from tabGet_map _ _ 0 hc, hf]
      exact ⟨h1.symm, fun hw => (h2 hw).symm⟩
  have hne : emOf (tick s g) w ≠ 0 := he
  rw [← e]
  refine (if_neg hne).trans ?_
  simp only [tick_srcsAt]
  rfl

/-! ### Flags that open no log record -/

/-- Flags without NV, DZ and OF are merged and nothing else happens (R45, R142). -/
theorem raiseFlags_quiet (s : State) (k : Nat) (g : Group) (fl : Flags) (lane left : Nat) (pc : DWord) (h : s.group? k = some g)
    (hf : fl &&& 7 = 0) : raiseFlags s k fl lane left pc = s.setGroup k { g with flags := g.flags ||| fl } := by
  simp only [raiseFlags, h, if_pos hf]

/-- A context that keeps no error log: flags are merged and nothing else happens (R45, R142). -/
theorem raiseFlags_noLog (s : State) (k : Nat) (g : Group) (fl : Flags) (lane left : Nat) (pc : DWord) (h : s.group? k = some g)
    (hn : (∀ c, s.context? g.asid = some c → c.regs.elctl.getLsbD 31 = false) ∧ g.window = none) :
    raiseFlags s k fl lane left pc = s.setGroup k { g with flags := g.flags ||| fl } := by
  have e : (s.setGroup k { g with flags := g.flags ||| fl }).context? g.asid = s.context? g.asid := rfl
  by_cases hf : fl &&& 7 = 0
  · exact raiseFlags_quiet s k g fl lane left pc h hf
  · simp only [raiseFlags, h, hf, if_false, e]
    cases hc : s.context? g.asid with
    | none => rfl
    | some c =>
      have hw : g.windowOpen left = false := by simp [Group.windowOpen, hn.2]
      simp only [hw, hn.1 c hc, Bool.false_eq_true, if_true, if_false]

/-- A computing word of fixed latency whose flags open no log record. -/
theorem runCompute_done {s : State} {g : Group} (h : Ready s g) (i : Instr) (w : W) (wide : Bool)
    (f : Group → Bool → Srcs → Nat → DWord × Flags) (hm : MarkerFree g w) (he : emOf g w ≠ 0) (hf : (shapeOf i).form = .byD)
    (hq : orFlags ((computedLanes g i w).map (fun l => (f (tick s g) (isVector i w) (srcsAt g i w l) l).2)) &&& 7 = 0 ∨
      (∀ c, s.context? g.asid = some c → c.regs.elctl.getLsbD 31 = false) ∧ g.window = none) :
    runCompute i w wide none f s = .next (wordDone s
      { writeDst (tick s g) w.d wide (emOf g w) (fun l => (f (tick s g) (isVector i w) (srcsAt g i w l) l).1) with
        flags := g.flags ||| orFlags ((computedLanes g i w).map (fun l => (f (tick s g) (isVector i w) (srcsAt g i w l) l).2)) }) := by
  rw [runCompute_ready h i w wide f hm he (fun l => (f (tick s g) (isVector i w) (srcsAt g i w l) l).1)]
  · rw [h.tick_state, State.setGroup_setGroup, List.map_map]
    simp only [Function.comp_def]
    have hr : ∀ lane pc, raiseFlags (({ s with ticks := s.ticks + 1 } : State).setGroup s.cur
        (writeDst (tick s g) w.d wide (emOf g w) (fun l => (f (tick s g) (isVector i w) (srcsAt g i w l) l).1))) s.cur
        (orFlags ((computedLanes g i w).map (fun l => (f (tick s g) (isVector i w) (srcsAt g i w l) l).2))) lane 63 pc =
        (({ s with ticks := s.ticks + 1 } : State).setGroup s.cur
        (writeDst (tick s g) w.d wide (emOf g w) (fun l => (f (tick s g) (isVector i w) (srcsAt g i w l) l).1))).setGroup s.cur
        { writeDst (tick s g) w.d wide (emOf g w) (fun l => (f (tick s g) (isVector i w) (srcsAt g i w l) l).1) with
          flags := g.flags ||| orFlags ((computedLanes g i w).map (fun l => (f (tick s g) (isVector i w) (srcsAt g i w l) l).2)) } := by
      intro lane pc
      rcases hq with hq | hq
      · rw [raiseFlags_quiet _ _ _ _ _ _ _ (State.group?_setGroup_same _ _ _) hq]; simp
      · rw [raiseFlags_noLog _ _ _ _ _ _ _ (State.group?_setGroup_same _ _ _)]
        · simp
        · rw [writeDst_asid]; exact ⟨hq.1, by simp [tick, hq.2]⟩
    rw [hr, State.setGroup_setGroup, goOn_setGroup]
    simp [wordDone, Group.goesOn]
  · exact fun n hn l _ _ => ⟨rfl, fun _ => rfl⟩
  · exact fun n hn => isVector_v i w hf n hn
  · intro n hn
    rw [isVector_s i w hf n hn]
    exact ⟨rfl, rfl, fun _ => rfl⟩

/-! ### No word stops the machine -/

theorem finishWord_next (k : Nat) (g : Group) (o : WOut) : ∃ t, finishWord k g o = .next t := by
  cases o <;> exact ⟨_, rfl⟩

theorem runWord_next (i : Instr) (w : W) (pipe : Bool) (s : State) (body : State → Nat → Group → WOut) :
    ∃ t, runWord i w pipe s body = .next t := by
  simp only [runWord]
  repeat' split
  all_goals first | exact finishWord_next _ _ _ | exact ⟨_, rfl⟩

theorem orSame_next (s : State) (o : Option State) : ∃ t, orSame s o = .next t := ⟨_, rfl⟩

theorem orSame_some (s t : State) : orSame s (some t) = .next t := rfl
theorem orSame_none (s : State) : orSame s none = .next s := rfl

end Sys2Proof.Machine
end

