-- ==== Sys2Proof/Tests/Slice0.lean ====
section
/-! SUPPORT. Tests of the model and, for each statement with hypotheses, a concrete state that meets them. Expected results are
written out from the spec's encodings, tables and worked examples, named in each section. -/

open Sys2Proof Sys2Proof.Machine

namespace Sys2Proof.Tests

-- One proof at a time: a test waits for the kernel, and many waiting at once take a thread each.
set_option Elab.async false

/-! ### A small machine -/

/-- A full word without switch marker and mask. -/
def w4 (t : Ty) (d a b c : Opd) (imm : Word := 0) (mod : BitVec 7 := 0) (v : Fin 8 := 0) : W := ⟨false, 0, false, v, t, d, a, b, c, mod, imm⟩

/-- One group on core 0 of a running context, with its turn. -/
def base : State := { placeWord State.reset 0 with cur := 1 }
def ctx : Context := { Context.start with clusters := [0] }
def grp : Group :=
  { startGroup CtxRegs.start 1 0 0 0 0 32 0x1000 [] with arrival := none, tasks := [⟨0, 0, 1, 0x1000, 0x1FF, false, 32, 0, false, 0, none⟩] }
/-- The machine with the group changed. -/
def inState (g : Group) : State := base.setGroup 1 g

def fitsB (s : State) (g : Group) (i : Instr) (w : W) : Bool :=
  decide (s.group? s.cur = some g) && decide (g.inWord = none) && decide (g.poisonRegs = []) && (!w.sw || !g.markerHeld) && i.wf
def issuesB (s : State) (g : Group) (i : Instr) (w : W) : Bool := fitsB s g i w && decide (emOf g w ≠ 0)

theorem fits_of (s : State) (g : Group) (i : Instr) (w : W) (h : fitsB s g i w = true) : Claims.Fits s g i w := by
  simp only [fitsB, Bool.and_eq_true, decide_eq_true_eq] at h
  obtain ⟨⟨⟨⟨a, b⟩, c⟩, d⟩, e⟩ := h
  refine ⟨⟨a, b, c⟩, ?_, e⟩
  cases hs : w.sw <;> simp_all [MarkerFree]

theorem issues_of (s : State) (g : Group) (i : Instr) (w : W) (h : issuesB s g i w = true) : Claims.Issues s g i w := by
  simp only [issuesB, Bool.and_eq_true, decide_eq_true_eq] at h
  exact ⟨fits_of s g i w h.1, h.2⟩

theorem okay_of {α β : Type} [DecidableEq β] (x : Except α β) (b : β) (h : (match x with | .ok y => decide (y = b) | .error _ => false) = true) :
    x = .ok b := by
  split at h
  · rw [of_decide_eq_true h]
  · cases h

theorem error_of {α β : Type} [DecidableEq α] (x : Except α β) (a : α) (h : (match x with | .error y => decide (y = a) | .ok _ => false) = true) :
    x = .error a := by
  split at h
  · rw [of_decide_eq_true h]
  · cases h

theorem noLog_of (s : State) (g : Group) (c : Context) (h : s.context? g.asid = some c) (b : c.regs.elctl.getLsbD 31 = false)
    (w : g.window = none) : Claims.NoLog s g :=
  ⟨fun x hx => by rw [h] at hx; cases hx; exact b, w⟩

theorem noLog : Claims.NoLog base grp := noLog_of base grp ctx (by decide +kernel) (by decide +kernel) rfl

/-- A 32-bit word of the vector form, with one, two and three sources. -/
def un (t : Ty) : W := w4 t (.v 1) (.v 2) (.v 0) (.v 0)
def bin (t : Ty) : W := w4 t (.v 1) (.v 2) (.v 3) (.v 0)
def tri (t : Ty) : W := w4 t (.v 1) (.v 2) (.v 3) (.v 4)
def cvtW : W := w4 .i8 (.v 1) (.v 2) (.v 0) (.v 11)
def pkW : W := w4 .e4m3 (.v 1) (.v 2) (.v 3) (.v 11)
def upkW : W := w4 .e4m3 (.v 1) (.v 2) (.v 0) (.v 11)
def mxsW : W := w4 .e4m3 (.v 1) (.v 2) (.v 3) (.v 0)

/-- A word of each integer, bitwise and floating-point instruction, of the conversions and of the lanes. -/
def arithmetic : List ((W → Instr) × W) :=
  [(.add, bin .i8), (.sub, bin .z8), (.mul, bin .i32), (.mulhi, bin .z32), (.mad, tri .i16), (.abs, un .i8), (.min, bin .i8), (.max, bin .z16),
   (.and, bin .b32), (.or, bin .b32), (.xor, bin .b32), (.not, un .b32), (.mov, un .b32), (.movi, w4 .b32 (.v 1) (.v 0) (.v 0) (.v 0) 5),
   (.moviHi, w4 .b64 (.v 2) (.v 0) (.v 0) (.v 0) 5 0 1), (.sel, w4 .b32 (.v 1) (.v 2) (.v 3) (.s 40)), (.shl, bin .b32), (.shr, bin .b32),
   (.sar, bin .b32), (.rot, bin .b32), (.fsh, tri .i8), (.clz, un .b32), (.popc, un .b32), (.brev, un .b32), (.ffs, un .b32),
   (.bfx, tri .i8), (.bfi, tri .i8), (.fadd, bin .f32), (.fsub, bin .f16), (.fmul, bin .bf16), (.ffma, tri .f32), (.frnd, un .f32),
   (.fdiv, bin .f32), (.fsqrt, un .f32), (.rcp, un .f32), (.rsq, un .f32), (.exp2, un .f32), (.log2, un .f32), (.sinpi, un .f32),
   (.cospi, un .f32), (.tanh, un .f32), (.shfl, bin .b32), (.bcast, w4 .b32 (.v 1) (.v 2) (.s 4) (.v 0)), (.matchLanes, un .b32),
   (.fmin, bin .f32), (.fmax, bin .f32), (.fclass, un .f32), (.cvt, cvtW), (.pk, pkW), (.upk, upkW), (.mxs, mxsW), (.scan, un .i32)]
theorem witness_arithmetic : ∀ p ∈ arithmetic, Claims.Issues base grp (p.1 p.2) p.2 := by
  intro p hp; apply issues_of; revert p; decide +kernel

theorem witness_EmptyMask : ∀ p ∈ arithmetic, Claims.Fits (inState (grp.setAm 0)) (grp.setAm 0) (p.1 p.2) p.2 ∧ emOf (grp.setAm 0) p.2 = 0 := by
  intro p hp
  exact ⟨fits_of _ _ _ _ (by revert p; decide +kernel), by revert p; decide +kernel⟩

def cmpW : W := w4 .i8 (.s 40) (.v 1) (.v 2) (.v 0)
def fcmpW : W := w4 .f32 (.s 40) (.v 1) (.v 2) (.v 0)
def ballotW : W := w4 .i8 (.s 40) (.v 1) (.v 0) (.v 0) 0 0 2
def countW : W := w4 .i8 (.s 20) (.v 1) (.v 0) (.v 0) 0 0 3

theorem witness_Comparisons : Claims.Fits base grp (.cmp cmpW) cmpW ∧ Claims.Fits base grp (.fcmp fcmpW) fcmpW ∧ Claims.NoLog base grp :=
  ⟨fits_of _ _ _ _ (by decide +kernel), fits_of _ _ _ _ (by decide +kernel), noLog⟩

theorem witness_UnitRoom : ∀ p ∈ Claims.unitWords, unitLoad base grp p.2.1 < 4 := by decide +kernel

theorem witness_Votes : Claims.Fits base grp (.vote ballotW) ballotW ∧ ballotW.v.val = 2 ∧ Claims.Fits base grp (.vote countW) countW ∧ countW.v.val ≠ 2 :=
  ⟨fits_of _ _ _ _ (by decide +kernel), by decide, fits_of _ _ _ _ (by decide +kernel), by decide⟩

theorem witness_Reductions :
    ∀ p ∈ ([(.redsum, un .i8), (.redmin, un .f32), (.redmax, w4 .i8 (.s 20) (.v 2) (.v 0) (.v 0)), (.redand, un .b32), (.redor, un .b32)] : List ((W → Instr) × W)),
      Claims.Fits base grp (p.1 p.2) p.2 := by
  intro p hp; apply fits_of; revert p; decide +kernel

/-- Ninety-six sources of 8 bits, of which lane 95 alone is present, and none. -/
theorem witness_ReductionValues : (List.replicate 95 none ++ [some 255]).length = 96 ∧ (∀ x, some x ∈ List.replicate 95 none ++ [some 255] → x < 2 ^ Ty.bits .i8) ∧
    (List.replicate 96 (none : Option Nat)).length = 96 := by
  refine ⟨by decide, ?_, by decide⟩
  intro x h; simp at h; subst h; decide

theorem witness_MinMax : Ty.isFlt .f16 = true ∧ isNan (fdecode .f16 0x7E00) = true ∧ isNan (fdecode .f16 0x7C01) = true ∧ isNan (fdecode .f16 0xFC00) = false ∧
    (0xFC00 : Nat) < 2 ^ Ty.bits .f16 := by decide +kernel

theorem witness_FloatNan : isNan (.inf true) = false ∧ (0 : Nat) < 2 ^ (fmtOf .f32).fb ∧ ¬ (fmtOf .f32).quietBit ≤ 0 ∧
    (fmtOf .f32).quietBit < 2 ^ (fmtOf .f32).fb := by decide +kernel

theorem witness_IntegerConversion : Ty.isInt .i8 = true ∧ Ty.isInt .z64 = true ∧ (2 ^ 64 - 1 : Nat) < 2 ^ Ty.bits .z64 := by decide

/-- A half that writes v`d` from v`a` and the register after it. -/
def half (d a : Fin 256) : Half := { ms := 0, d := d, a := a, b := a + 1, c := 0, rnd := 0 }
theorem witness_Paired : Ready base grp ∧ (Instr.pairedWord .fadd32 (half 8 2) .addI (half 13 4)).wf = true ∧ Claims.NoLog base grp :=
  ⟨⟨by decide +kernel, by decide, by decide⟩, by decide +kernel, noLog⟩

/-- A quiet, a signalling NaN and two numbers as operands of fcmp, and each relation of its table. -/
theorem witness_FcmpTable : Ty.isFlt .f16 = true ∧ (∀ b ∈ ([0x7E00, 0x7C01, 0x8000, 0x3C00] : List Nat), b < 2 ^ Ty.bits .f16) ∧ (7 : Nat) < 8 := by decide

/-- One and a half, whose rounding differs by the mode. -/
theorem witness_Rounding : Ty.isFlt .f16 = true ∧ fdecode .f16 0x3E00 = .num false 0x600 (-10) ∧ (0x600 : Nat) ≠ 0 ∧ (3 : Nat) < 4 := by decide +kernel

theorem witness_Conversions : Ty.isFp .e4m3 = true ∧ Ty.isFp .e2m1 = true ∧ Ty.isFp .f32 = true ∧ (2 ^ 32 - 1 : Nat) < 2 ^ 32 ∧ Ty.isFlt .f16 = true ∧
    (1 : Nat) < 2 ^ (fmtOf .f16).fb ∧ Ty.isInt .z64 = true ∧ intVal .z64 (2 ^ 64 - 1) ≠ 0 := by decide +kernel

/-- The half-operations as full words: each of its operands a vector register or unused. -/
theorem vectors_un (t : Ty) : Claims.vectors (un t) := ⟨⟨1, rfl⟩, by simp [un, w4]⟩
theorem vectors_bin (t : Ty) : Claims.vectors (bin t) := ⟨⟨1, rfl⟩, by simp [bin, w4]⟩
theorem vectors_tri (t : Ty) : Claims.vectors (tri t) := ⟨⟨1, rfl⟩, by simp [tri, w4]⟩
theorem witness_Halves : (.fadd32, .fadd, .f32) ∈ Claims.halvesA ∧ Claims.Issues base grp (.fadd (bin .f32)) (bin .f32) ∧ (bin .f32).t = .f32 ∧ Claims.vectors (bin .f32) ∧
    (.ffma16, .ffma, .f16) ∈ Claims.halvesA ∧ Claims.Issues base grp (.ffma (tri .f16)) (tri .f16) ∧ (tri .f16).t = .f16 ∧ Claims.vectors (tri .f16) ∧
    (.notB, .not, some .b32, 0) ∈ Claims.halvesB ∧ Claims.Issues base grp (.not (un .b32)) (un .b32) ∧ (un .b32).sat = false ∧ Claims.vectors (un .b32) ∧
    (.bfxI, .bfx, none, 0) ∈ Claims.halvesB ∧ Claims.Issues base grp (.bfx (tri .i8)) (tri .i8) ∧ (tri .i8).sat = false ∧ (tri .i8).v = 0 ∧ Claims.vectors (tri .i8) :=
  ⟨by simp [Claims.halvesA], issues_of _ _ _ _ (by decide +kernel), rfl, vectors_bin _, by simp [Claims.halvesA], issues_of _ _ _ _ (by decide +kernel), rfl, vectors_tri _,
    by simp [Claims.halvesB], issues_of _ _ _ _ (by decide +kernel), by decide, vectors_un _, by simp [Claims.halvesB], issues_of _ _ _ _ (by decide +kernel), by decide, rfl,
    vectors_tri _⟩

/-- A number that a code of binary16 gives. -/
def gives16 (c m : Nat) (s : Bool) (e : Int) : Bool := match fdecode .f16 c with | .num s' m' e' => decide (s' = s ∧ m' = m ∧ e' = e) | _ => false
theorem gives16_elim (c m : Nat) (s : Bool) (e : Int) (h : gives16 c m s e = true) : fdecode .f16 c = .num s m e := by
  unfold gives16 at h; split at h
  · rename_i heq; obtain ⟨rfl, rfl, rfl⟩ := of_decide_eq_true h; exact heq
  · cases h
theorem codes_of (c m : Nat) (e n k : Int) (h : gives16 c m (decide (n < 0)) e = true) (b : decide (Claims.units (min e k) (m, e) = Claims.units (min e k) (n.natAbs, k)) = true) :
    Claims.codes .f16 c n k := ⟨m, e, gives16_elim _ _ _ _ h, (of_decide_eq_true b : Claims.units (min e k) (m, e) = Claims.units (min e k) (n.natAbs, k))⟩
theorem two_pow_ne (n : Nat) : 2 ^ n ≠ 1025 := by
  cases n with
  | zero => decide
  | succ n => rw [Nat.pow_succ]; omega
/-- 1 + 2^-10 is neither an integer nor a half of one, nor a power of two. -/
theorem witness_Inexact : fdecode .f16 0x3C01 = .num false 1025 (-10) ∧ (∀ h : Int, ¬ Claims.codes .f16 0x3C01 h (-1)) ∧ ∀ k, ¬ Claims.codes .f16 0x3C01 1 k := by
  have d := gives16_elim 0x3C01 1025 false (-10) (by decide +kernel)
  refine ⟨d, ?_, ?_⟩
  · rintro h ⟨m, e, hd, hs⟩
    rw [d] at hd; injection hd with _ h2 h3; subst h2 h3
    simp only [Claims.same, Claims.units] at hs
    have : (min (-10 : Int) (-1)) = -10 := by decide
    rw [this] at hs
    have a : ((-10 : Int) - -10).toNat = 0 := by decide
    have b : ((-1 : Int) - -10).toNat = 9 := by decide
    rw [a, b] at hs; omega
  · rintro k ⟨m, e, hd, hs⟩
    rw [d] at hd; injection hd with _ h2 h3; subst h2 h3
    simp only [Claims.same, Claims.units] at hs
    by_cases hk : -10 ≤ k
    · rw [Int.min_eq_left hk] at hs
      have a : ((-10 : Int) - -10).toNat = 0 := by decide
      rw [a] at hs
      exact two_pow_ne (k - -10).toNat (by simpa using hs.symm)
    · rw [Int.min_eq_right (by omega)] at hs
      have a : (k - k).toNat = 0 := by omega
      have p : 0 < 2 ^ (-10 - k).toNat := Nat.two_pow_pos _
      rw [a] at hs; simp at hs <;> omega
/-- A code of binary16 for each row of the table of R118. -/
theorem witness_Functions : (0xFFFF : Nat) < 2 ^ Ty.bits .f16 ∧ (isNan (fdecode .f16 0x7C01) = true ∧ isSnan (fdecode .f16 0x7C01) = true) ∧
    fdecode .f16 0x8000 = .num true 0 (-24) ∧ vSign (fdecode .f16 0xFC00) = true ∧ fdecode .f16 0xC000 = .num true 1024 (-9) ∧
    Claims.codes .f16 0x4400 1 2 ∧ Claims.codes .f16 0xC000 (-2) 0 ∧ Claims.codes .f16 0x3E00 (2 * 1 + 1) (-1) ∧ Claims.codes .f16 0x8400 (-1) (-14) ∧
    Claims.magnitudes .f16 (fmtOf .f16).maxCode = (2047, 5) ∧ fdecode .f16 1 = .num false 1 (-24) ∧ 2047 * 1 < 2 ^ (-(5 + -24) : Int).toNat ∧
    fdecode .f16 0x4C00 = .num false 1024 (-6) ∧ Claims.upTo (1, Int.ofNat ((fmtOf .f16).eb - 1)) (1024, -6) ∧
    fdecode .f16 0xCE40 = .num true 1600 (-6) ∧ Claims.upTo ((1 - (fmtOf .f16).qmin).toNat, 0) (1600, -6) ∧
    fdecode .f16 0x4900 = .num false 1280 (-7) ∧ Claims.upTo (10, 0) (1280, -7) := by
  refine ⟨by decide, ⟨by decide +kernel, by decide +kernel⟩, gives16_elim _ _ _ _ (by decide +kernel), by decide +kernel, gives16_elim _ _ _ _ (by decide +kernel),
    codes_of _ 1024 (-8) _ _ (by decide +kernel) (by decide +kernel), codes_of _ 1024 (-9) _ _ (by decide +kernel) (by decide +kernel),
    codes_of _ 1536 (-10) _ _ (by decide +kernel) (by decide +kernel), codes_of _ 1024 (-24) _ _ (by decide +kernel) (by decide +kernel), by decide +kernel,
    gives16_elim _ _ _ _ (by decide +kernel), by decide, gives16_elim _ _ _ _ (by decide +kernel), by unfold Claims.upTo; decide +kernel,
    gives16_elim _ _ _ _ (by decide +kernel), by unfold Claims.upTo; decide +kernel, gives16_elim _ _ _ _ (by decide +kernel), by unfold Claims.upTo; decide +kernel⟩

/-! ### Steps, traps and control flow -/

def user : Group := grp
def handler : Group := { grp with sup := true, trap := { grp.trap with pc := 0x1000, left := 5 } }
def nopW : W := w4 .i8 (.v 0) (.v 0) (.v 0) (.v 0)
/-- The line with a nop in slot 0, as the group's instruction cache holds it. -/
def nopLine : ILine := ⟨1, 0x40, oneWordLine 0, false⟩

theorem ready_of (s : State) (k : Nat) (g : Group) (l : ILine)
    (h : (decide (s.group? k = some g) && g.active && canRun s g && !yields s k g && decide (dueHeld g = none) && !waitsOutside s k g && !(g.task.failing && !g.sup) &&
      !(g.inWord.isNone && g.window == some 0) && decide (insideWord g = none) && !g.ops.any (fun o => o.again) && !(g.inWord.isNone && g.sup && g.trap.left == 0) && !highBits g.pc &&
      decide (findILine s g.core g.asid g.pc = some l) && decide (g.arrival = none) && !l.failed && !lineReserved l.data) = true) :
    Claims.FetchReady s k g l := by
  simp only [Bool.and_eq_true, decide_eq_true_eq, Bool.not_eq_true'] at h
  obtain ⟨⟨⟨⟨⟨⟨⟨⟨⟨⟨⟨⟨⟨⟨⟨a, b⟩, c⟩, y⟩, d⟩, e⟩, f⟩, i⟩, x⟩, z⟩, j⟩, u⟩, v⟩, m⟩, n⟩, o⟩ := h
  exact ⟨a, b, c, y, d, e, f, i, x, z, j, u, v, (by rw [m]; intro h; cases h), n, o⟩

/-- A group inside a word, the machine in which it has its turn, and the machine whose event is the loss of power. -/
def midWord : Group := { grp with inWord := some .again, current := some (.nop nopW) }
def inside : State := { inState midWord with agenda := [.issue 1] }
def losing : State := { State.reset with agenda := [.event .powerLoss] }
theorem witness_StepRuns : toSave (settleSets (placeWord State.reset 0)) = none ∧ (placeWord State.reset 0).agenda = .issue 1 :: [] ∧
    Claims.FetchReady (Claims.turnOf (placeWord State.reset 0) 1 []) 1 grp nopLine ∧
    decodeFor grp.demand (linePair nopLine.data (pcSlot grp.pc)) (lineSlot nopLine.data (pcSlot grp.pc)) = .ok (.nop nopW) :=
  ⟨by decide +kernel, by decide +kernel, ready_of _ _ _ _ (by decide +kernel), okay_of _ _ (by decide +kernel)⟩

theorem witness_StepGoesOn : toSave (settleSets inside) = none ∧ (Claims.turnOf inside 1 []).group? 1 = some midWord ∧ canRun (Claims.turnOf inside 1 []) midWord = true ∧
    yields (Claims.turnOf inside 1 []) 1 midWord = false ∧ waitsOutside (Claims.turnOf inside 1 []) 1 midWord = false := by decide +kernel
theorem witness_StepInsideWord : insideWord midWord = some (.nop nopW) ∧ dueHeld midWord = none ∧ midWord.active = true ∧ midWord.task.failing = false := by decide +kernel
theorem witness_StepOfAnEvent : toSave (settleSets losing) = none ∧ Claims.Between base ∧ Instr.isWord .powerLoss = false :=
  ⟨by decide +kernel, by unfold Claims.Between; decide +kernel, rfl⟩

/-- MAJ 0xFF names no instruction (R83). -/
def badLine : ILine := ⟨1, 0x40, oneWordLine (BitVec.ofNat 96 (0xFF * 2 ^ 88)), false⟩
def badState : State := placeWord State.reset (BitVec.ofNat 96 (0xFF * 2 ^ 88))
theorem witness_IllegalWord : toSave (settleSets badState) = none ∧ Claims.Between badState ∧
    Claims.FetchReady (Claims.turnOf badState 1 []) 1 grp badLine ∧ grp.sup = false ∧ grp.inWord = none ∧
    decodeFor grp.demand (linePair badLine.data (pcSlot grp.pc)) (lineSlot badLine.data (pcSlot grp.pc)) = .error 2 :=
  ⟨by decide +kernel, ⟨by decide +kernel, by decide +kernel⟩, ready_of _ _ _ _ (by decide +kernel), rfl, rfl, error_of _ _ (by decide +kernel)⟩

theorem witness_TrapEntry : base.group? 1 = some grp ∧ grp.sup = false ∧ (inState handler).group? 1 = some handler ∧ handler.sup = true := by decide +kernel

def sysW : W := w4 .i8 (.v 0) (.v 0) (.v 0) (.v 0) 255
theorem witness_SysAndTrap : ∀ mk ∈ ([.sys, .trap] : List (W → Instr)), Claims.Fits base grp (mk sysW) sysW ∧ emOf grp sysW ≠ 0 ∧ grp.sup = false ∧
    Claims.Fits (inState handler) handler (mk sysW) sysW ∧ emOf handler sysW ≠ 0 ∧ handler.sup = true ∧
    Claims.Fits (inState (grp.setAm 0)) (grp.setAm 0) (mk sysW) sysW ∧ emOf (grp.setAm 0) sysW = 0 := by
  intro mk h
  refine ⟨fits_of _ _ _ _ ?_, by decide +kernel, rfl, fits_of _ _ _ _ ?_, by decide +kernel, rfl, fits_of _ _ _ _ ?_, by decide +kernel⟩ <;>
    (revert mk; decide +kernel)

def mapftW : W := w4 .i8 (.v 1) (.v 2) (.v 0) (.v 0)
def fltrdW : W := w4 .i8 (.v 0) (.s 4) (.v 0) (.v 0)
def mtkW (sel : Word) : W := w4 .i8 (.v 0) (.s 4) (.v 0) (.v 0) sel
def mfkW (sel : Word) : W := w4 .i8 (.s 20) (.v 0) (.v 0) (.v 0) sel
theorem witness_Privileged : grp.sup = false ∧ Claims.Fits base grp (.sysret nopW) nopW ∧ Claims.Issues base grp (.mapft mapftW) mapftW ∧
    Claims.Issues base grp (.fltrd fltrdW) fltrdW ∧ grp.acquireHeld = false ∧ Claims.Issues base grp (.mtk (mtkW 0x10)) (mtkW 0x10) ∧
    base.context? grp.asid ≠ none ∧ (∀ r, kSel (mtkW 0x10) = some r → r.1.userWrite = false) :=
  ⟨rfl, fits_of _ _ _ _ (by decide +kernel), issues_of _ _ _ _ (by decide +kernel), issues_of _ _ _ _ (by decide +kernel), by decide +kernel,
    issues_of _ _ _ _ (by decide +kernel), by decide +kernel, by
      have h : (kSel (mtkW 0x10)).map (fun r => r.1.userWrite) = some false := by decide +kernel
      intro r hr; rw [hr] at h; simpa using h⟩

def astray : Group := { handler with trap := { handler.trap with pc := 0x1004 } }
theorem witness_Sysret : Claims.Fits (inState handler) handler (.sysret nopW) nopW ∧ handler.sup = true ∧ wordAddress handler.trap.pc = true ∧
    highBits handler.trap.pc = false ∧ heldLack (inState handler) handler = false ∧ handler.trap.cause.getLsbD 31 = false ∧ Claims.Fits (inState astray) astray (.sysret nopW) nopW ∧
    wordAddress astray.trap.pc = false :=
  ⟨fits_of _ _ _ _ (by decide +kernel), rfl, by decide, by decide, by decide +kernel, by decide, fits_of _ _ _ _ (by decide +kernel), by decide⟩

theorem reachable_of (s : State) (g : Group) (pc : DWord) (l : ILine)
    (h : (!highBits pc && wordAddress pc && decide (findILine s g.core g.asid pc = some l) && lineTgt l.data (pcSlot pc)) = true) : Claims.Reachable s g pc := by
  simp only [Bool.and_eq_true, decide_eq_true_eq, Bool.not_eq_true'] at h
  exact ⟨h.1.1.1, h.1.1.2, l, h.1.2, h.2⟩

/-- The group with s4:s5 at the line's first word, s6 zero and s40 to s42 full. -/
def jumper : Group := (grp.setS 4 0x1000).setTriple 40 allLanes
def braW : W := w4 .i8 (.v 0) (.v 0) (.v 0) (.v 0)
def braA (n : Fin 64) : W := w4 .i8 (.v 0) (.s n) (.v 0) (.v 0)
/-- The word in a mask of s43 to s45, which is empty. -/
def off (w : W) : W := { w with ms := 2 }
def branchWords : List ((W → Instr) × W) := [(.bra, braW), (.braNz, braA 4), (.braZ, braA 6), (.braEmpty, braA 43), (.braFull, braA 40), (.brx, braA 4), (.ret, braA 4),
  (.call, w4 .i8 (.s 8) (.v 0) (.v 0) (.v 0)), (.loop, w4 .i8 (.s 4) (.v 0) (.v 0) (.v 0)), (.loop, w4 .i8 (.s 7) (.v 0) (.v 0) (.v 0)),
  (.bra, off braW), (.braNz, braA 6), (.braZ, braA 4), (.braEmpty, braA 40), (.braFull, braA 43), (.brx, off (braA 4)), (.ret, off (braA 4)),
  (.call, off (w4 .i8 (.s 8) (.v 0) (.v 0) (.v 0))), (.loop, off (w4 .i8 (.s 4) (.v 0) (.v 0) (.v 0)))]
theorem witness_Branches : (∀ p ∈ branchWords, Claims.Fits (inState jumper) jumper (p.1 p.2) p.2) ∧ Claims.Reachable (inState jumper) jumper 0x1000 ∧
    Claims.target jumper braW = 0x1000 ∧ Claims.src jumper (braA 4) true (.s 4) 0 = 0x1000 ∧ Claims.acts jumper braW ∧ ¬ Claims.acts jumper (off braW) ∧
    Claims.src32 jumper (braA 4) (.s 4) 0 ≠ 0 ∧ Claims.src32 jumper (braA 6) (.s 6) 0 = 0 ∧ Claims.tripleA jumper (braA 43) &&& emOf jumper (braA 43) = 0 ∧
    Claims.tripleA jumper (braA 40) &&& emOf jumper (braA 40) ≠ 0 ∧ Claims.tripleA jumper (braA 40) &&& emOf jumper (braA 40) = emOf jumper (braA 40) ∧
    Claims.tripleA jumper (braA 43) &&& emOf jumper (braA 43) ≠ emOf jumper (braA 43) := by
  refine ⟨?_, reachable_of _ _ _ nopLine (by decide +kernel), by decide +kernel, by decide +kernel, Or.inl rfl, ?_, by decide +kernel, by decide +kernel,
    by decide +kernel, by decide +kernel, by decide +kernel, by decide +kernel⟩
  · intro p h; apply fits_of; revert p; decide +kernel
  · intro h; rcases h with h | h <;> revert h <;> decide +kernel

/-- The branch to slot 1, which is no entry, and a register that names no word address. -/
def braFar : W := w4 .i8 (.v 0) (.v 0) (.v 0) (.v 0) 1
theorem witness_IllegalTarget : jumper.sup = false ∧ highBits 0x100C = false ∧ Claims.acts jumper braFar ∧ findILine (inState jumper) jumper.core jumper.asid 0x100C = some nopLine ∧
    lineTgt nopLine.data (pcSlot 0x100C) = false ∧ Claims.Fits (inState jumper) jumper (.bra braFar) braFar ∧ Claims.target jumper braFar = 0x100C ∧
    wordAddress 0x1004 = false ∧ Claims.Fits (inState (jumper.setS 4 0x1004)) (jumper.setS 4 0x1004) (.brx (braA 4)) (braA 4) ∧
    Claims.src (jumper.setS 4 0x1004) (braA 4) true (.s 4) 0 = 0x1004 :=
  ⟨rfl, by decide, Or.inl rfl, by decide +kernel, by decide +kernel, fits_of _ _ _ _ (by decide +kernel), by decide +kernel, by decide,
    fits_of _ _ _ _ (by decide +kernel), by decide +kernel⟩

/-- Each transfer, acting, to slot 1 of its line, by a register to no word address, and to an address with a high bit. -/
def far (w : W) : W := { w with imm := 1 }
def highG : Group := (grp.setS 4 0x1000).setS 5 0x04000000
def farJumps : List ((W → Instr) × W) := [(.bra, far braW), (.braNz, far (braA 4)), (.braZ, far (braA 6)), (.braEmpty, far (braA 43)), (.braFull, far (braA 40)),
  (.call, far (w4 .i8 (.s 8) (.v 0) (.v 0) (.v 0))), (.loop, far (w4 .i8 (.s 4) (.v 0) (.v 0) (.v 0)))]
theorem witness_IllegalTransfers : (∀ p ∈ farJumps, Claims.Fits (inState jumper) jumper (p.1 p.2) p.2 ∧ Claims.target jumper p.2 = 0x100C) ∧
    (∀ p ∈ ([.brx, .ret] : List (W → Instr)), Claims.Fits (inState (jumper.setS 4 0x1004)) (jumper.setS 4 0x1004) (p (braA 4)) (braA 4) ∧
      Claims.Fits (inState highG) highG (p (braA 4)) (braA 4)) ∧ highG.sup = false ∧ Claims.acts highG (braA 4) ∧
    highBits (Claims.src highG (braA 4) true (.s 4) 0) = true ∧ Claims.src32 jumper (far (w4 .i8 (.s 4) (.v 0) (.v 0) (.v 0))) (.s 4) 0 ≠ 1 ∧
    Claims.transfers.length = 9 := by
  refine ⟨fun p h => ⟨fits_of _ _ _ _ ?_, ?_⟩, fun p h => ⟨fits_of _ _ _ _ ?_, fits_of _ _ _ _ ?_⟩, rfl, Or.inl rfl, by decide +kernel, by decide +kernel, rfl⟩ <;>
    (revert p; decide +kernel)

/-- An outstanding store of the group, on path W. -/
def storeOp : Op :=
  { id := 5, path := some 3, instr := .st nopW, scalar := true, kind := .store, size := 4, lanes := [], stamp := 0, sup := false, acq := none
    acqStamp := 0, done := false, held := [], heldCause := (0, 0), heldTaken := false, again := false, stamps := [], prov := 0 }
def storing : Group := { grp with ops := [storeOp] }
def waitcW : W := w4 .i8 (.v 0) (.s 4) (.v 0) (.v 0) 3
theorem witness_Waiting : Claims.Fits base grp (.waitc waitcW) waitcW ∧ grp.count 3 ≤ (Claims.src32 grp waitcW waitcW.a 0).toNat ∧
    Claims.Fits (inState storing) storing (.waitc waitcW) waitcW ∧ storing.count 3 > (Claims.src32 storing waitcW waitcW.a 0).toNat ∧ storing.sup = false ∧
    Claims.Fits (inState jumper) jumper (.sleep (braA 4)) (braA 4) ∧ (Claims.src32 jumper (braA 4) (braA 4).a 0).toNat ≠ 0 ∧
    Claims.Fits base grp (.sleep (braA 4)) (braA 4) ∧ (Claims.src32 grp (braA 4) (braA 4).a 0).toNat = 0 ∧
    (∀ k x, (k, x) ∈ base.groups → x.core = grp.core → x.part = grp.part → x.active = true ∨ x.since = none) ∧ grp.active = true ∧
    Claims.Fits base grp (.errst (mfkW 63)) (mfkW 63) := by
  refine ⟨fits_of _ _ _ _ (by decide +kernel), by decide +kernel, fits_of _ _ _ _ (by decide +kernel), by decide +kernel, rfl,
    fits_of _ _ _ _ (by decide +kernel), by decide +kernel, fits_of _ _ _ _ (by decide +kernel), by decide +kernel, ?_, rfl, fits_of _ _ _ _ (by decide +kernel)⟩
  intro k x h
  have e : base.groups = [(1, grp)] := by decide +kernel
  rw [e] at h; simp at h; obtain ⟨-, rfl⟩ := h; intro _ _; exact Or.inl rfl

theorem witness_Mfk : base.context? grp.asid = some ctx ∧ (∀ k ∈ Claims.control.map (fun p => p.1),
      Claims.Issues base grp (.mfk (mfkW (BitVec.ofNat 32 k))) (mfkW (BitVec.ofNat 32 k)) ∧ Claims.sel (mfkW (BitVec.ofNat 32 k)) = k ∧
      Claims.wide (mfkW (BitVec.ofNat 32 k)) = false) ∧
    Claims.Issues base grp (.mfk (mfkW 0x1008)) (mfkW 0x1008) ∧ Claims.sel (mfkW 0x1008) = 8 ∧ Claims.wide (mfkW 0x1008) = true := by
  refine ⟨by decide +kernel, fun k h => ⟨issues_of _ _ _ _ ?_, ?_, ?_⟩, issues_of _ _ _ _ (by decide +kernel), by decide +kernel, by decide +kernel⟩ <;>
    (revert k; decide +kernel)

theorem witness_Mtk : (∀ k ∈ Claims.groupWrites.map (fun p => p.1) ++ Claims.contextWrites.map (fun p => p.1) ++ [0x0C0, 0x0C1],
      Claims.Issues (inState handler) handler (.mtk (mtkW (BitVec.ofNat 32 k))) (mtkW (BitVec.ofNat 32 k)) ∧ Claims.sel (mtkW (BitVec.ofNat 32 k)) = k) ∧
    handler.sup = true ∧ (inState handler).context? handler.asid = some ctx ∧
    Claims.Issues (inState handler) handler (.mtk (mtkW 0x1010)) (mtkW 0x1010) ∧ Claims.wide (mtkW 0x1010) = true ∧
    Claims.Issues (inState handler) handler (.mtk (mtkW 0x1030)) (mtkW 0x1030) ∧ Claims.Issues (inState handler) handler (.mtk (mtkW 0x10C0)) (mtkW 0x10C0) := by
  refine ⟨fun k h => ⟨issues_of _ _ _ _ ?_, ?_⟩, rfl, by decide +kernel, issues_of _ _ _ _ (by decide +kernel), by decide +kernel,
    issues_of _ _ _ _ (by decide +kernel), issues_of _ _ _ _ (by decide +kernel)⟩ <;>
    (revert k; decide +kernel)

/-! ### Memory -/

/-- The entry of level 1 that maps the first 64 GiB of an ASID onto themselves, with every right and slice 0 as home (R354). -/
def leafE : DWord := BitVec.ofNat 64 (1 + 2 + 15 * 32 + 1024 + 2 * 2048)
def tables : List Host.Cell := cellWrites (cellWrites [] 0x100000 (valBytes 8 (1 + 65 * 2 ^ 22))) 0x104000 (valBytes 8 leafE.toNat)
def page : PlbRec := leafRec 1 0 leafE 1
/-- The machine with that page mapped for ASIDs 0 and 1 and recorded in core 0, no frame set aside for the MTUs, and the group changed. -/
def mem (g : Group) : State :=
  ({ inState g with hbm := tables, roots := [(0, 0x100000), (1, 0x100000)], metaFrames := [], tableFrames := [], ahead := [] } : State).modCore 0 (fun c => { c with plb := [page] })
/-- s4:s5 holds 0x10000, the registers v0 to v3 and v8 zero. -/
def gm : Group := grp.setS 4 0x10000
def ldW : W := w4 .b32 (.v 6) (.s 4) .lane (.v 0) 0x40 0x40
def ldxW : W := w4 .b32 (.v 6) (.v 2) (.v 0) (.v 0) 0x40
def stW : W := w4 .b32 (.v 0) (.s 4) .lane (.v 8) 0x40 0x40
def stxW : W := w4 .b32 (.v 0) (.v 2) (.v 0) (.v 8) 0x40
def atomW : W := w4 .i32 (.v 9) (.s 4) .lane (.v 8) 0x40 0x40
def faddW : W := w4 .f32 (.v 9) (.s 4) .lane (.v 8) 0x40 0x40

theorem passes_of (s : State) (g : Group) (n : Nat) (f : PlbRec → Bool) (a : DWord) (r : PlbRec)
    (h : (decide (a.toNat % n = 0) && !highBits a && decide (plbFind s g.core g.asid a.toNat = some r) && f r) = true) : Claims.passes s g n f a := by
  simp only [Bool.and_eq_true, decide_eq_true_eq, Bool.not_eq_true'] at h
  exact ⟨h.1.1.1, h.1.1.2, r, h.1.2, h.2⟩

theorem witness_Global : ∀ p ∈ (Claims.loads ++ Claims.stores ++ Claims.atomics).zip [ldW, ldxW, stW, stxW, atomW, faddW],
    Claims.Issues (mem gm) gm (p.1.ctor p.2) p.2 ∧ gm.acquireHeld = false ∧
    Claims.Room (mem gm) gm (p.1.path p.2) (Claims.computed gm (p.1.ctor p.2) p.2) (Claims.address gm p.2) ∧
    (∀ l ∈ Claims.computed gm (p.1.ctor p.2) p.2, Claims.passes (mem gm) gm p.2.t.bytes p.1.grants (Claims.address gm p.2 l)) ∧
    releaseWaits (mem gm) 1 gm p.2.scope = false ∧ gm.drift ≠ 255 ∧ gm.drift ≠ 256 := by
  intro p h
  refine ⟨issues_of _ _ _ _ ?_, by decide, ⟨?_, ?_⟩, fun l hl => passes_of _ _ _ _ _ page ?_, ?_, by decide, by decide⟩
  · revert p; decide +kernel
  · revert p; decide +kernel
  · revert p; decide +kernel
  · revert l; revert p; decide +kernel
  · revert p; decide +kernel

/-- At 0x10001 no word of 32 bits is aligned. -/
def odd : Group := (grp.setS 4 0x10001).setV 2 allLanes (fun _ => 1)
theorem witness_Misaligned : ∀ p ∈ (Claims.loads ++ Claims.stores ++ Claims.atomics).zip [ldW, ldxW, stW, stxW, atomW, faddW],
    Claims.Issues (mem odd) odd (p.1.ctor p.2) p.2 ∧ odd.sup = false ∧
    (∀ l ∈ Claims.computed odd (p.1.ctor p.2) p.2, (Claims.address odd p.2 l).toNat % p.2.t.bytes ≠ 0) := by
  intro p h
  refine ⟨issues_of _ _ _ _ ?_, by decide, ?_⟩ <;> (revert p; decide +kernel)

def stSW : W := w4 .b32 (.v 0) (.s 4) .lane (.v 8) 0x40 0x40
/-- The team's window is all of the scratchpad above 0x2000 (R157). -/
def teamed (g : Group) : State := (mem g).modCore 0 (fun c => { c with teams := [(0, ⟨32, 1948⟩)] })
def gs : Group := grp.setS 4 0x10000
def atomSW : W := w4 .i32 (.v 9) (.s 4) .lane (.v 8) 0x40 0x40
def atomZW : W := w4 .i32 .zero (.s 4) .lane (.v 8) 0x40 0x40

theorem passesScratch_of (s : State) (g : Group) (off n : Nat) (load : Bool)
    (h : (decide (off % n = 0) && decide (0x2000 ≤ off) && decide (256 * (teamOf s g.core g.team).base ≤ off) &&
      decide (off + n ≤ 256 * ((teamOf s g.core g.team).base + (teamOf s g.core g.team).size)) && decide ((s.core g.core).scratchPoison = [])) = true) :
    Claims.passesScratch s g off n load := by
  simp only [Bool.and_eq_true, decide_eq_true_eq] at h
  obtain ⟨⟨⟨⟨a, b⟩, c⟩, d⟩, e⟩ := h
  exact ⟨a, fun x => by omega, fun _ => ⟨c, d⟩, by rw [e]; intro k hk; cases hk⟩

theorem witness_Scratch : ∀ p ∈ ([(.stS, stSW), (.ldS, ldW), (.atomS, atomSW), (.atomS, atomZW)] : List ((W → Instr) × W)),
    Claims.Issues (teamed gs) gs (p.1 p.2) p.2 ∧ gs.acquireHeld = false ∧ memoryWf (teamed gs) = true ∧ gs.count 1 < 255 ∧ gs.count 3 < 255 ∧
    gs.count 4 < 255 ∧ (teamed gs).requests = [] ∧
    ∀ l ∈ Claims.computed gs (p.1 p.2) p.2, ∀ load, Claims.passesScratch (teamed gs) gs (Claims.offset gs p.2 l) p.2.t.bytes load := by
  intro p h
  refine ⟨issues_of _ _ _ _ ?_, by decide, by decide +kernel, by decide, by decide, by decide, by decide, fun l hl load => passesScratch_of _ _ _ _ _ ?_⟩
  · revert p; decide +kernel
  · revert l; revert p; decide +kernel

/-- An access of 32 bits at the last word of the barrier region, and at the last of the scratchpad's 512 KiB, is a load's (R214). -/
theorem witness_ScratchBoundary : Claims.passesScratch (teamed gs) gs 0x1FFC 4 true ∧ Claims.passesScratch (teamed gs) gs 0x7BBFC 4 false :=
  ⟨⟨by decide, fun _ => rfl, fun h => absurd h (by decide), by decide +kernel⟩, passesScratch_of _ _ _ _ _ (by decide +kernel)⟩

def lddW : W := w4 .i8 (.v 0) (.s 4) (.v 0) (.v 6) 0x40
def gd : Group := gs.setV 6 allLanes (fun _ => 0x4000)
theorem witness_DirectLoad : Claims.Issues (teamed gd) gd (.ldd lddW) lddW ∧ gd.acquireHeld = false ∧
    Claims.Room (teamed gd) gd 2 (Claims.computed gd (.ldd lddW) lddW) (Claims.address gd lddW) ∧ 4 * 2 ^ lddW.ord = 4 ∧
    ∀ l ∈ Claims.computed gd (.ldd lddW) lddW, Claims.passes (teamed gd) gd 4 (fun r => r.rights.getLsbD 0) (Claims.address gd lddW l) ∧
      Claims.passesScratch (teamed gd) gd (Claims.src32 gd lddW lddW.c l).toNat 4 false := by
  refine ⟨issues_of _ _ _ _ (by decide +kernel), by decide, ⟨by decide, by decide +kernel⟩, by decide, fun l hl =>
    ⟨passes_of _ _ _ _ _ page ?_, passesScratch_of _ _ _ _ _ ?_⟩⟩ <;> (revert l; decide +kernel)

/-- Kinds of fence: 0 both, 1 acquire, 2 release, at .dev scope (R230). -/
def fenceW (kind : Word) : W := w4 .i8 (.v 0) (.v 0) (.v 0) (.v 0) kind 3
def watchW : W := w4 .i8 (.s 12) (.s 4) .zero (.s 14) 0x80 4
theorem witness_Fence : Claims.Fits base grp (.fence (fenceW 1)) (fenceW 1) ∧ Claims.Fits base grp (.fence (fenceW 2)) (fenceW 2) ∧
    releaseWaits base base.cur grp 3 = false ∧ Claims.Fits (inState storing) storing (.fence (fenceW 0)) (fenceW 0) ∧
    releaseWaits (inState storing) base.cur storing 3 = true ∧ storing.acquireHeld = false :=
  ⟨fits_of _ _ _ _ (by decide +kernel), fits_of _ _ _ _ (by decide +kernel), by decide +kernel, fits_of _ _ _ _ (by decide +kernel), by decide +kernel, by decide⟩
theorem witness_Watch : Claims.Issues (mem gm) gm (.watch watchW) watchW ∧ slotsUsed (mem gm) gm.core + 1 ≤ 4096 ∧
    Claims.passes (mem gm) gm 8 (fun r => r.rights.getLsbD 0) (Claims.address gm watchW 0) :=
  ⟨issues_of _ _ _ _ (by decide +kernel), by decide +kernel, passes_of _ _ _ _ _ page (by decide +kernel)⟩
theorem witness_Repair : ∀ p ∈ ([(.mapft, mapftW), (.fltrd, fltrdW)] : List ((W → Instr) × W)), Claims.Issues (inState handler) handler (p.1 p.2) p.2 ∧
    handler.sup = true ∧ handler.acquireHeld = false ∧ handler.count 4 < 255 := by
  intro p h
  refine ⟨issues_of _ _ _ _ ?_, rfl, by decide, by decide⟩; revert p; decide +kernel
theorem witness_AtomicValues : (2 ^ 64 - 1 : Nat) < 2 ^ Ty.bits .i64 ∧ (2 ^ 32 - 1 : Nat) < 2 ^ Ty.bits .b32 := by decide

/-! ### Tasks -/

/-- The answer of an access that succeeds, and what holds of it. -/
def okThen {α β γ : Type} (x : γ × Except α β) (p : γ → β → Bool) : Bool := match x.2 with | .ok v => p x.1 v | .error _ => false
theorem ok_elim {α β γ : Type} (x : γ × Except α β) (p : γ → β → Bool) (h : okThen x p = true) : ∃ s v, x = (s, .ok v) ∧ p s v = true := by
  obtain ⟨s, e⟩ := x
  cases e with
  | ok v => exact ⟨s, v, rfl, h⟩
  | error e => cases h

/-- A group that runs a task with its header at 0x20000, one child and room for frames up to 0x30000. -/
def gt : Group :=
  { grp with ifp := 0x20040, stackEnd := 0x30000, tasks := [{ header := 0, future := 0x28000, serial := 1, entry := 0x1000, origin := 0x1FF, root := false, demand := 32, hdr := 0x20000, failing := false, link := 0, onReturn := none }] }
/-- The record of the child, in state `st`, serial 7 (R176). -/
def record (st : Nat) (s : State) : State := { s with hbm := cellWrites (cellWrites s.hbm (0x20020 + 16) (valBytes 4 st)) (0x20020 + 20) (valBytes 4 7) }
def gj : Group := gt.setS 4 0x20020
def spawnW : W := w4 .i8 (.s 20) (.s 4) (.s 8) (.v 0) 0x21
def spawnSW : W := w4 .i8 (.s 20) (.s 4) (.s 8) (.s 24) 0x800021
def spawnGW : W := w4 .i8 (.s 20) (.s 4) (.s 8) (.s 12) 0x21
def spawns : List ((W → Instr) × W) := [(.spawn, spawnW), (.spawnS, spawnSW), (.spawnL, spawnW), (.spawnG, spawnGW)]
def crowded : Group := { gt with stackEnd := 0x20040 }

theorem witness_Spawn : (∀ p ∈ spawns, Claims.Issues (mem gt) gt (p.1 p.2) p.2 ∧ Claims.Issues (mem crowded) crowded (p.1 p.2) p.2) ∧ gt.sup = false ∧
    gt.acquireHeld = false ∧ crowded.ifp.toNat + 32 > crowded.stackEnd ∧ gt.ifp.toNat + 32 ≤ gt.stackEnd ∧
    Claims.passes (mem gt) gt 32 (fun r => r.rights.getLsbD 1 && !r.b) gt.ifp ∧ lineBusy (Claims.issued (mem gt) gt) gt.core gt.asid gt.ifp.toNat = false ∧
    ∃ s1 s2 serial ws, takeSerial (Claims.issued (mem gt) gt) gt.asid gt.core = (s1, serial) ∧
      groupWrite s1 gt.core gt.asid gt.ifp.toNat (Claims.freshRecord serial) gt.view gt.prov = (s2, .ok ws) ∧ dequeFull s2 gt.core = false := by
  refine ⟨fun p h => ⟨issues_of _ _ _ _ ?_, issues_of _ _ _ _ ?_⟩, rfl, by decide, by decide, by decide, passes_of _ _ _ _ _ page (by decide +kernel),
    by decide +kernel, ?_⟩
  · revert p; decide +kernel
  · revert p; decide +kernel
  · obtain ⟨s2, ws, e, h⟩ := ok_elim
      (groupWrite (takeSerial (Claims.issued (mem gt) gt) gt.asid gt.core).1 gt.core gt.asid gt.ifp.toNat
        (Claims.freshRecord (takeSerial (Claims.issued (mem gt) gt) gt.asid gt.core).2) gt.view gt.prov) (fun s _ => !dequeFull s gt.core) (by decide +kernel)
    exact ⟨_, s2, _, ws, rfl, e, by simpa using h⟩

def joinW : W := w4 .i8 (.s 20) (.s 4) (.v 0) (.v 0)
theorem witness_Join : ∀ st ∈ [0, 1, 2], Claims.Issues (record st (mem gj)) gj (.join joinW) joinW ∧ Claims.Issues (record st (mem gj)) gj (.fprobe joinW) joinW ∧
    gj.sup = false ∧ gj.acquireHeld = false ∧ Claims.readable (record st (mem gj)) gj (Claims.src gj joinW true joinW.a 0) ∧
    ∃ s1 b ws, groupRead (Claims.issued (record st (mem gj)) gj) gj (Claims.src gj joinW true joinW.a 0).toNat 32 = (s1, .ok (b, ws)) ∧
      Claims.field b 4 = BitVec.ofNat 32 st ∧ (s1.core gj.core).deque = [] ∧ (batchesOf s1 gj.core 1).openUsed = false := by
  intro st h
  refine ⟨issues_of _ _ _ _ ?_, issues_of _ _ _ _ ?_, rfl, by decide, ⟨passes_of _ _ _ _ _ page ?_, ?_⟩, ?_⟩
  · revert st; decide +kernel
  · revert st; decide +kernel
  · revert st; decide +kernel
  · revert st; decide +kernel
  · obtain ⟨s1, v, e, h⟩ := ok_elim (groupRead (Claims.issued (record st (mem gj)) gj) gj (Claims.src gj joinW true joinW.a 0).toNat 32)
      (fun s v => decide (Claims.field v.1 4 = BitVec.ofNat 32 st) && (s.core gj.core).deque.isEmpty && !(batchesOf s gj.core 1).openUsed) (by revert st; decide +kernel)
    simp only [Bool.and_eq_true, decide_eq_true_eq, List.isEmpty_iff, Bool.not_eq_true'] at h
    exact ⟨s1, v.1, v.2, e, h.1.1, h.1.2, h.2⟩

def joinallW : W := w4 .i8 (.s 20) (.v 0) (.v 0) (.v 0)
def childless : Group := { gt with ifp := 0x2003F }
def allOver (c : Children) (n : Nat) : Bool := match c with | .all _ k => k == n | .stop _ => false
def seenState (r : RecSee) (n : Nat) : Bool := match r with | .seen _ b _ => bytesAt b 16 4 == n | .stop _ => false
theorem witness_Joinall : Claims.Issues (record 2 (mem gt)) gt (.joinall joinallW) joinallW ∧ gt.sup = false ∧ gt.acquireHeld = false ∧ gt.rewalk = false ∧
    (∃ s1, joinChildren (Claims.issued (record 2 (mem gt)) gt) 1 (childAddrs gt) 0 = .all s1 1) ∧
    Claims.Issues (mem childless) childless (.joinall joinallW) joinallW ∧ childless.ifp.toNat < childless.task.hdr + 64 ∧
    (record 2 (mem gt)).group? 1 = some gt ∧
    ∃ s2 b ws, readRecord (record 2 (mem gt)) 1 gt (BitVec.ofNat 64 0x20020) = .seen s2 b ws ∧ bytesAt b 16 4 = 2 := by
  refine ⟨issues_of _ _ _ _ (by decide +kernel), rfl, by decide, rfl, ?_, issues_of _ _ _ _ (by decide +kernel), by decide, by decide +kernel, ?_⟩
  · have h : allOver (joinChildren (Claims.issued (record 2 (mem gt)) gt) 1 (childAddrs gt) 0) 1 = true := by decide +kernel
    revert h; cases joinChildren (Claims.issued (record 2 (mem gt)) gt) 1 (childAddrs gt) 0 with
    | all s k => intro h; simp [allOver] at h; subst h; exact ⟨s, rfl⟩
    | stop o => intro h; cases h
  · have h : seenState (readRecord (record 2 (mem gt)) 1 gt (BitVec.ofNat 64 0x20020)) 2 = true := by decide +kernel
    revert h; cases readRecord (record 2 (mem gt)) 1 gt (BitVec.ofNat 64 0x20020) with
    | seen s b w => intro h; simp [seenState] at h; exact ⟨s, b, w, rfl, h⟩
    | stop o => intro h; cases h

def fresW : W := w4 .i8 (.v 0) (.s 4) (.s 8) (.v 0)
theorem witness_Fres : ∀ mk ∈ ([.fres, .fresFail] : List (W → Instr)), Claims.Issues (mem gj) gj (mk fresW) fresW ∧ gj.acquireHeld = false ∧
    Claims.Room (mem gj) gj 3 [0] (fun _ => Claims.src gj fresW true fresW.a 0) ∧
    Claims.passes (mem gj) gj 32 (fun r => r.rights.getLsbD 0 && r.rights.getLsbD 1 && r.rights.getLsbD 3 && !r.b) (Claims.src gj fresW true fresW.a 0) := by
  intro mk h
  refine ⟨issues_of _ _ _ _ ?_, by decide, ⟨by decide, by decide +kernel⟩, passes_of _ _ _ _ _ page (by decide +kernel)⟩
  revert mk; decide +kernel

def tretW : W := w4 .i8 (.v 0) (.s 8) (.v 0) (.v 0)
def leaver : Group := { gt with ifp := 0x2003F }
def leaverS : State := (Claims.issued (mem leaver) leaver).setGroup 1 { tick (mem leaver) leaver with view := max leaver.view leaver.compl }
def resolved (r : State × RecWrite) : Bool := match r.2 with | .late | .done _ => true | _ => false
theorem resolved_elim (r : State × RecWrite) (h : resolved r = true) : ∃ s x, r = (s, x) ∧ (x = .late ∨ ∃ ws, x = .done ws) := by
  obtain ⟨s, x⟩ := r
  cases x with
  | late => exact ⟨s, _, rfl, Or.inl rfl⟩
  | done w => exact ⟨s, _, rfl, Or.inr ⟨w, rfl⟩⟩
  | _ => cases h
/-- Task 0x1FF's inline task of demand 1, whose header stands above its save area, and a task that failed with CAUSE 7. -/
def inlineLeaver : Group :=
  { gt with ifp := 0x20D80, demand := 1, tasks := gt.tasks ++ [{ gt.task with root := false, demand := 1, hdr := 0x20D60, link := 0x20000, onReturn := some (.s 20) }] }
def failer : Group := { leaver with tasks := [{ leaver.task with failing := true }], trap := { leaver.trap with cause := 7 } }
def afterTret (g : Group) : State := (Claims.issued (mem g) g).setGroup 1 { tick (mem g) g with view := max g.view g.compl }
def tretValue (g : Group) : BitVec 128 := if g.task.failing then 6 + (g.task.serial.toNat : BitVec 128) * 2 ^ 32 + 7 * 2 ^ 64 else 0
def tretWrite (g : Group) : State × RecWrite :=
  recordWrite (afterTret g) g.core g.asid g.task.future.toNat g.task.failing (tretValue g) (max g.view g.compl) g.prov g.gid
/-- The group as the write of the record leaves it, and what it reads of its save area. -/
def atReturn : Option Group := (tretWrite inlineLeaver).1.group? 1
def returnRead (g2 : Group) : State × Except (Nat × Nat) (List Byte × Stamp) :=
  groupRead ((tretWrite inlineLeaver).1.setGroup 1 { g2 with ifp := 0x20D60 }) { g2 with ifp := 0x20D60 } 0x20040 3360
theorem witness_Tret : Claims.Fits (inState storing) storing (.tret tretW) tretW ∧ storing.sup = false ∧ storing.acquireHeld = false ∧ storing.task.failing = false ∧
    (∃ o ∈ storing.ops, o.path ≠ none) ∧
    (∀ g ∈ [leaver, failer, inlineLeaver], Claims.Fits (mem g) g (.tret tretW) tretW ∧ g.sup = false ∧ g.acquireHeld = false ∧ g.ops = [] ∧
      pruneOps g.ops [] = g.ops ∧ g.rewalk = false ∧ g.ifp.toNat < g.task.hdr + 64 ∧ (batchesOf (mem g) 0 1).openUsed = false ∧ g.task.link = (if g.demand = 1 then 0x20000 else 0) ∧
      Claims.passes (mem g) g 32 (fun r => r.rights.getLsbD 1 && !r.b) g.task.future ∧
      (∃ s1 r, tretWrite g = (s1, r) ∧ (r = .late ∨ ∃ ws, r = .done ws)) ∧
      ∀ j, j < 4 → (tretValue g).extractLsb' (32 * j) 32 =
        if g.task.failing then ([6, g.task.serial, g.trap.cause, 0] : List Word).getD j 0 else (Claims.block g tretW.a 4).getD j 0) ∧
    failer.task.failing = true ∧ inlineLeaver.tasks = [] ++ [gt.task, inlineLeaver.task] ∧ inlineLeaver.task.hdr - saveBytes 1 = 0x20040 ∧ saveBytes 1 = 3360 ∧
    ∃ g2 s3 b ws, atReturn = some g2 ∧ g2.tasks = inlineLeaver.tasks ∧ g2.flags = inlineLeaver.flags ∧ g2.core = inlineLeaver.core ∧ g2.asid = inlineLeaver.asid ∧
      g2.view = max inlineLeaver.view inlineLeaver.compl ∧ returnRead g2 = (s3, .ok (b, ws)) := by
  refine ⟨fits_of _ _ _ _ (by decide +kernel), rfl, by decide, rfl, ⟨storeOp, by simp [storing], by decide⟩, fun g h => ⟨fits_of _ _ _ _ ?_, ?_, ?_, ?_, ?_, ?_, ?_, ?_, ?_,
    passes_of _ _ _ _ _ page ?_, ?_, ?_⟩, rfl, rfl, by decide, by decide, ?_⟩
  case refine_11 =>
    obtain ⟨s, x, e, h⟩ := resolved_elim (tretWrite g) (by revert g; decide +kernel)
    exact ⟨s, x, e, h⟩
  case refine_13 =>
    have h : (atReturn.any fun g2 => decide (g2.tasks = inlineLeaver.tasks) && decide (g2.flags = inlineLeaver.flags) && decide (g2.core = inlineLeaver.core) &&
      decide (g2.asid = inlineLeaver.asid) && decide (g2.view = max inlineLeaver.view inlineLeaver.compl) && okThen (returnRead g2) (fun _ _ => true)) = true := by decide +kernel
    cases e : atReturn with
    | none => rw [e] at h; cases h
    | some g2 =>
      rw [e] at h
      simp only [Option.any, Bool.and_eq_true, decide_eq_true_eq, and_assoc] at h
      obtain ⟨s3, ⟨b, ws⟩, r, -⟩ := ok_elim _ _ h.2.2.2.2.2
      exact ⟨g2, s3, b, ws, rfl, h.1, h.2.1, h.2.2.1, h.2.2.2.1, h.2.2.2.2.1, r⟩
  all_goals (revert g; decide +kernel)

/-- An entry that may run: demand of one block, no staging. -/
def entry : Entry :=
  { clo := { entry := 0x1000, future := 0x28000, flags := 0, need := 1, stage := [], args := [5, 6] }, serial := 9, stamp := 3, spawner := 0, spawnGrp := 1
    team := 0, takeable := true, waits := [], staging := .none, gateOpen := true, origin := 0, isRoot := false }
def withDeque (l : List Entry) (s : State) : State := s.modCore 0 (fun c => { c with deque := l, domain := some none })
/-- Both pushes of an inline run succeed. -/
def pushesB (s : State) (g : Group) (e : Entry) (pc : DWord) : Bool :=
  okThen (groupWrite s g.core g.asid g.ifp.toNat (saveArea g e.clo.demand pc) g.view g.prov) (fun s _ =>
    okThen (groupWrite s g.core g.asid (g.ifp.toNat + saveBytes e.clo.demand) (headerBytes e.clo.future g.task.hdr e.serial) g.view g.prov) (fun _ _ => true))
theorem pushes_of (s : State) (g : Group) (e : Entry) (pc : DWord) (h : pushesB s g e pc = true) : ∃ t, Claims.Pushes s g e pc t := by
  obtain ⟨s1, w1, e1, h⟩ := ok_elim _ _ h
  obtain ⟨t, w2, e2, -⟩ := ok_elim _ _ h
  exact ⟨t, s1, w1, w2, e1, e2⟩
def yieldW : W := w4 .i8 (.s 20) (.v 0) (.v 0) (.v 0)
def yieldG : Group := { tick (withDeque [entry] (mem gt)) gt with running := some entry }
def yieldS : State := (dropEntry (Claims.issued (withDeque [entry] (mem gt)) gt) 0 entry.serial).setGroup 1 yieldG
theorem witness_Yield : Claims.Issues (mem gt) gt (.yield yieldW) yieldW ∧ gt.acquireHeld = false ∧ gt.sup = false ∧
    ((mem gt).core gt.core).deque.all (fun e => !(runnable (mem gt) gt.core e && inlineOk (mem gt) gt e false)) = true ∧
    Claims.Issues (withDeque [entry] (mem gt)) gt (.yield yieldW) yieldW ∧ gt.ops = [] ∧ gt.pend = [] ∧ gt.rewalk = false ∧
    ((withDeque [entry] (mem gt)).core 0).deque.find? (fun e => runnable (withDeque [entry] (mem gt)) 0 e && inlineOk (withDeque [entry] (mem gt)) gt e false) = some entry ∧
    Claims.MayEnter gt entry ∧ pushesB yieldS yieldG entry (nextPc gt.pc) = true := by
  refine ⟨issues_of _ _ _ _ (by decide +kernel), by decide, rfl, by decide +kernel, issues_of _ _ _ _ (by decide +kernel), rfl, rfl, rfl, by decide +kernel,
    ⟨by simp [gt, grp, startGroup], rfl, rfl, rfl, rfl⟩, by decide +kernel⟩

theorem witness_TidStage : (∀ k ∈ [0, 1, 2, 3, 4], Claims.Fits base grp (.tid (mfkW (BitVec.ofNat 32 k))) (mfkW (BitVec.ofNat 32 k))) ∧
    Claims.Fits base grp (.stage (mfkW 0)) (mfkW 0) := by
  refine ⟨fun k h => fits_of _ _ _ _ ?_, fits_of _ _ _ _ (by decide +kernel)⟩; revert k; decide +kernel

/-- The deque full of other entries; with room for a frame, without, and with a path count above zero. -/
def others : List Entry := (List.range 512).map (fun j => { entry with serial := BitVec.ofNat 32 (1000 + j) })
def noRoom : Group := { gt with stackEnd := 0x20080 }
def draining : Group := { gt with ops := [storeOp] }
def spawnRec (g : Group) : State × Except (Nat × Nat) Stamp :=
  let r := takeSerial (Claims.issued (withDeque others (mem g)) g) g.asid g.core
  groupWrite r.1 g.core g.asid g.ifp.toNat (Claims.freshRecord r.2) g.view g.prov
def spawned (g : Group) (ws : Stamp) : Group := { writePair (tick (withDeque others (mem g)) g) spawnW.d g.ifp with ifp := g.ifp + 32, compl := max g.compl ws }
def spawnedE (g : Group) : Entry :=
  spawnEntry (Claims.issued (withDeque others (mem g)) g) 1 (tick (withDeque others (mem g)) g) spawnW 0 g.ifp
    (takeSerial (Claims.issued (withDeque others (mem g)) g) g.asid g.core).2
theorem witness_SpawnFull : ∀ g ∈ [gt, noRoom, draining], Claims.Issues (withDeque others (mem g)) g (.spawn spawnW) spawnW ∧ g.sup = false ∧ g.acquireHeld = false ∧
    g.ifp.toNat + 32 ≤ g.stackEnd ∧ Claims.passes (withDeque others (mem g)) g 32 (fun r => r.rights.getLsbD 1 && !r.b) g.ifp ∧
    lineBusy (Claims.issued (withDeque others (mem g)) g) g.core g.asid g.ifp.toNat = false ∧
    ∃ s2 ws, spawnRec g = (s2, .ok ws) ∧ dequeFull s2 g.core = true ∧
      inlineOk (s2.setGroup 1 (spawned g ws)) (spawned g ws) (spawnedE g) true = decide (g ≠ noRoom) ∧
      (g = draining ↔ ∃ o ∈ g.ops, o.path ≠ none) ∧
      (g = gt → Claims.MayEnter g (spawnedE g) ∧ ∃ t, Claims.Pushes (s2.setGroup 1 { spawned g ws with running := some (spawnedE g) })
        { spawned g ws with running := some (spawnedE g) } (spawnedE g) (nextPc g.pc) t) := by
  intro g h
  obtain ⟨s2, ws, e, h2⟩ := ok_elim (spawnRec g) (fun s2 ws => dequeFull s2 g.core && decide (inlineOk (s2.setGroup 1 (spawned g ws)) (spawned g ws) (spawnedE g) true = decide (g ≠ noRoom)) &&
      (decide (g ≠ gt) || pushesB (s2.setGroup 1 { spawned g ws with running := some (spawnedE g) }) { spawned g ws with running := some (spawnedE g) } (spawnedE g) (nextPc g.pc)))
    (by revert g; decide +kernel)
  simp only [Bool.and_eq_true, Bool.or_eq_true, decide_eq_true_eq] at h2
  refine ⟨issues_of _ _ _ _ ?_, ?_, ?_, ?_, passes_of _ _ _ _ _ page ?_, ?_, s2, ws, e, h2.1.1, h2.1.2, ?_, fun hg => ⟨?_, pushes_of _ _ _ _ (h2.2.resolve_left (fun x => x hg))⟩⟩
  case refine_8 => subst hg; exact ⟨by simp [gt, grp, startGroup], rfl, rfl, by decide +kernel, by decide +kernel⟩
  all_goals (clear h2 e; revert g; decide +kernel)

/-- The child's entry, runnable and not, in the deque of its spawner. -/
def child (ready : Bool) : Entry := { entry with serial := 7, takeable := ready }
def joinS (ready : Bool) : State := withDeque [entry, child ready] (record 0 (mem gj))
theorem witness_JoinInline : ∀ ready ∈ [true, false], Claims.Issues (joinS ready) gj (.join joinW) joinW ∧ gj.sup = false ∧ gj.acquireHeld = false ∧
    Claims.readable (joinS ready) gj (Claims.src gj joinW true joinW.a 0) ∧
    ∃ s1 b ws, groupRead (Claims.issued (joinS ready) gj) gj (Claims.src gj joinW true joinW.a 0).toNat 32 = (s1, .ok (b, ws)) ∧ Claims.field b 4 = 0 ∧
      (s1.core gj.core).deque.find? (fun e => e.serial == Claims.field b 5) = some (child ready) ∧ runnable s1 gj.core (child ready) = ready ∧
      inlineOk s1 (tick (joinS ready) gj) (child ready) false = true ∧ (batchesOf s1 gj.core 1).openUsed = false ∧ Claims.MayEnter gj (child ready) ∧
      ∃ t, Claims.Pushes ((dropEntry s1 gj.core (child ready).serial).setGroup 1 { tick (joinS ready) gj with running := some (child ready) })
        { tick (joinS ready) gj with running := some (child ready) } (child ready) gj.pc t := by
  intro ready h
  obtain ⟨s1, v, e, h2⟩ := ok_elim (groupRead (Claims.issued (joinS ready) gj) gj (Claims.src gj joinW true joinW.a 0).toNat 32) (fun s1 v =>
      decide (Claims.field v.1 4 = 0) && decide ((s1.core gj.core).deque.find? (fun e => e.serial == Claims.field v.1 5) = some (child ready)) &&
      decide (runnable s1 gj.core (child ready) = ready) && inlineOk s1 (tick (joinS ready) gj) (child ready) false && !(batchesOf s1 gj.core 1).openUsed &&
      pushesB ((dropEntry s1 gj.core (child ready).serial).setGroup 1 { tick (joinS ready) gj with running := some (child ready) })
        { tick (joinS ready) gj with running := some (child ready) } (child ready) gj.pc) (by revert ready; decide +kernel)
  simp only [Bool.and_eq_true, Bool.not_eq_true', decide_eq_true_eq] at h2
  obtain ⟨⟨⟨⟨⟨a, b⟩, c⟩, d⟩, f⟩, k⟩ := h2
  refine ⟨issues_of _ _ _ _ ?_, rfl, by decide, ⟨passes_of _ _ _ _ _ page ?_, ?_⟩, s1, v.1, v.2, e, a, b, c, d, f, ⟨by simp [gj, gt, Group.setS, grp, startGroup], rfl, rfl, rfl, rfl⟩, pushes_of _ _ _ _ k⟩ <;>
    (clear a b c d f k e; revert ready; decide +kernel)

/-- A store of the core to the line of the record has left. -/
def probing : State := { record 0 (mem gj) with requests := [⟨9, 1, 5, 0, 1, .store, 0, 0x400, 4, [⟨0, 0x20000, 0, 0⟩], 0, .missing, none, false, 0, none, 0, false, false⟩] }
theorem witness_Fprobe : Claims.Issues probing gj (.fprobe joinW) joinW ∧ gj.acquireHeld = false ∧
    Claims.passes probing gj 32 (fun r => r.rights.getLsbD 0) (Claims.src gj joinW true joinW.a 0) ∧
    lineBusy (Claims.issued probing gj) gj.core gj.asid (Claims.src gj joinW true joinW.a 0).toNat = true ∧ slotsUsed probing gj.core + 1 ≤ 4096 :=
  ⟨issues_of _ _ _ _ (by decide +kernel), by decide, passes_of _ _ _ _ _ page (by decide +kernel), by decide +kernel, by decide +kernel⟩

/-! ### Buffer handles, queues and matrix words -/

/-- A group with s4 and s8 set. -/
def ab (a b : Nat) : Group := (grp.setS 4 (BitVec.ofNat 32 a)).setS 8 (BitVec.ofNat 32 b)
def bufgetW : W := w4 .i8 (.s 20) (.s 4) (.s 8) (.v 0)
def free : Handle := ⟨0x2000, 256, .free, 0, false, 0, [], []⟩
def withHandles (l : Tab Handle) (s : State) : State := s.modCore 0 (fun c => { c with handles := l })
def goodRange (s : State) (g : Group) : Bool :=
  let a := (g.s 4).toNat
  let b := (g.s 8).toNat
  a % 256 == 0 && b % 256 == 0 && b != 0 && decide (256 * (teamOf s 0 g.team).base ≤ a) && decide (a + b ≤ 256 * ((teamOf s 0 g.team).base + (teamOf s 0 g.team).size))
theorem witness_Bufget : Claims.Issues (teamed (ab 0x2000 0)) (ab 0x2000 0) (.bufget bufgetW) bufgetW ∧ goodRange (teamed (ab 0x2000 0)) (ab 0x2000 0) = false ∧
    (∀ l ∈ [[], [(0, free)], (List.range 64).map (fun k => (k, free))], Claims.Issues (withHandles l (teamed (ab 0x7BA00 512))) (ab 0x7BA00 512) (.bufget bufgetW) bufgetW ∧
      goodRange (withHandles l (teamed (ab 0x7BA00 512))) (ab 0x7BA00 512) = true ∧ (∀ h, h < l.length → handle? (withHandles l (teamed (ab 0x7BA00 512))) 0 h ≠ none) ∧
      handle? (withHandles l (teamed (ab 0x7BA00 512))) 0 l.length = none) := by
  refine ⟨issues_of _ _ _ _ (by decide +kernel), by decide +kernel, fun l h => ⟨issues_of _ _ _ _ ?_, ?_, ?_, ?_⟩⟩ <;> (revert l; decide +kernel)

/-- The outstanding result of a bufget of 512 bytes (R205). -/
def getting : Pend := ⟨9, .join, [⟨276, 0, 0⟩], 0, 0xFF, 0x1000, some (0x2000, 512)⟩
def getter : Group := { grp with pend := [getting] }
theorem witness_BufgetReturn : (inState getter).group? 1 = some getter ∧ (inState getter).req? 9 = none ∧ findPend (inState getter) 9 = some (1, getting) ∧
    getting.id = 9 ∧ getting.unit = .join ∧ getting.flags = 0 ∧ allLanes.getLsbD 0 = true ∧ getter.acquireHeld = false := by
  refine ⟨by decide +kernel, by decide +kernel, by decide +kernel, rfl, rfl, rfl, by decide, by decide⟩

def bufputW (u : Nat) : W := w4 .i8 (.s 20) (.s 4) (.v 0) (.v 0) (BitVec.ofNat 32 u)
def handles : Tab Handle := [(0, free), (1, { free with st := .full }), (2, { free with st := .full, reads := 1 }), (63, { free with st := .filling })]
/-- A group inside bufwait on handle 3, for which the handle has turned. -/
def turnedG (mk : W → Instr) : Group := { grp with inWord := some (.answered 0), park := some .handle, current := some (mk (bufputW 0)) }
theorem witness_Bufput : (∀ a ∈ [0, 1, 2, 3, 63, 64], ∀ u ∈ [0, 1], Claims.Issues (withHandles handles (mem (ab a 0))) (ab a 0) (.bufput (bufputW u)) (bufputW u)) ∧
    (∀ a ∈ [0, 1, 2, 63], ∀ mk ∈ ([.bufwaitFull, .bufwaitFree] : List (W → Instr)), Claims.Issues (withHandles handles (mem (ab a 0))) (ab a 0) (mk (bufputW 0)) (bufputW 0)) ∧
    handle? (withHandles handles (mem (ab 3 0))) 0 3 = none ∧ handle? (withHandles handles (mem (ab 0 0))) 0 0 = some free ∧
    (∀ mk ∈ ([.bufwaitFull, .bufwaitFree] : List (W → Instr)), (inState (turnedG mk)).group? 1 = some (turnedG mk) ∧ (turnedG mk).inWord = some (.answered 0)) ∧
    Claims.putBack free false = none ∧ Claims.putBack free true = some none ∧ (Claims.putBack { free with st := .full, reads := 1 } false).isSome = true := by
  refine ⟨fun a h u hu => issues_of _ _ _ _ ?_, fun a h mk hm => issues_of _ _ _ _ ?_, by decide +kernel, by decide +kernel, by decide +kernel, by decide, by decide, by decide⟩
  · revert u; revert a; decide +kernel
  · revert mk; revert a; decide +kernel

def stg : Stage :=
  { entry := 0x1000, need := 1, cap := 2, from' := 2 ^ 16, weight := 1, min := 0, max := 4, slots := [], waits := [], closed := [], retired := false, nextSlot := 0 }
def pipe1 (x : Stage) : Pipe := { asid := 1, home := 0, hyst := 1, ways := 1, rootCore := 0, rootDone := false, stages := [x], assigned := [], unassigned := [] }
/-- Core 0 runs the root task of the pipeline in slot 0; the arena of its context is the first MiB. -/
def piped (x : Stage) (g : Group) : State :=
  ({ mem g with pipes := [(0, pipe1 x)], contexts := [(1, { ctx with regs := { ctx.regs with falen := 256 } })] } : State).modCore 0 (fun c => { c with domain := some none })
/-- s4 names stage 0 and s12:s13 the future at 0x20000, inside the arena; at 0x100000 it is outside. -/
def enqG (f : Nat) : Group := grp.setS 12 (BitVec.ofNat 32 f)
def enqW : W := w4 .i8 (.s 20) (.s 4) (.s 10) (.s 12) 3
def eosW : W := w4 .i8 (.s 20) (.s 4) (.v 0) (.v 0)
def slot0 : Slot := { grp := 1, clo := entry.clo, stamp := 0, visible := true, waits := [], poison := false, num := 0 }
def stages : List Stage := [stg, { stg with slots := [slot0, slot0] }, { stg with closed := [16] }, { stg with from' := 0 }, { stg with waits := [(1, slot0)] }]
theorem witness_Enq : (∀ x ∈ stages, ∀ f ∈ [0xFFFE0, 0x100000], Claims.Issues (piped x (enqG f)) (enqG f) (.enq enqW) enqW ∧ Claims.Issues (piped x (enqG f)) (enqG f) (.enqEos eosW) eosW ∧
      Claims.Issues (piped x (enqG f)) (enqG f) (.arcq (bufputW 1)) (bufputW 1) ∧ Claims.Target (piped x (enqG f)) (enqG f) 0 0 16 x ∧ arcadeUp (piped x (enqG f)) 0 = true ∧
      tabGet? (piped x (enqG f)).pipes 0 = some (pipe1 x)) ∧
    (grp.sup = false ∧ stg.from'.testBit 16 = true ∧ ({ stg with from' := 0 } : Stage).from'.testBit 16 = false) ∧
    ((piped stg (enqG 0xFFFE0)).context? 1).map (fun c => decide (arenaBase c.regs ≤ 0xFFFE0 ∧ 0xFFFE0 + 32 ≤ arenaEnd c.regs)) = some true ∧
    ((piped stg (enqG 0x100000)).context? 1).map (fun c => decide (0x100000 + 32 ≤ arenaEnd c.regs)) = some false ∧
    Claims.Issues base grp (.enq enqW) enqW ∧ Claims.Issues base grp (.arcq eosW) eosW ∧ (∀ a q k x, ¬ Claims.Target base grp a q k x) := by
  have away : ∀ a q k x, ¬ Claims.Target base grp a q k x := fun a q k x h => by
    have e : producerOf base grp.core = none := by decide +kernel
    have h1 := h.1
    rw [e] at h1; cases h1
  refine ⟨fun x h f hf => ⟨issues_of _ _ _ _ ?_, issues_of _ _ _ _ ?_, issues_of _ _ _ _ ?_, ⟨?_, ?_, by decide⟩, ?_, ?_⟩, by decide, by decide +kernel, by decide +kernel,
    issues_of _ _ _ _ (by decide +kernel), issues_of _ _ _ _ (by decide +kernel), away⟩ <;> (revert f; revert x; decide +kernel)

def qx : Queue :=
  { mapped := true, since := 0, base := 0x40000, log2n := 1, asid := 1, qp := true, priv := false, quantum := 0, read := 0, write := 0, latch := false, bad := false, reg := true, puts := [] }
def queued (x : Queue) (g : Group) : State := { mem g with queues := [(4095, x)], host := { (mem g).host with qtable := 0x80000 } }
/-- s4 names the queue, s8 to s23 are the packet, whose first byte is its type. -/
def qputW : W := w4 .i8 (.s 20) (.s 4) (.s 8) (.v 0)
def qg (type : Nat) : Group := ab 4095 type
def qbytes : List Byte := (Claims.block (qg 0x80) qputW.b 16).flatMap (fun v => valBytes 4 v.toNat)
theorem witness_Qput : (∀ x ∈ [qx, { qx with qp := false }, { qx with asid := 2 }, { qx with write := 2 }], ∀ t ∈ [0, 0x80], Claims.Issues (queued x (qg t)) (qg t) (.qput qputW) qputW ∧
      tabGet? (queued x (qg t)).queues 4095 = some x ∧ x.mapped = true) ∧ Claims.Issues (mem (ab 4096 1)) (ab 4096 1) (.qput qputW) qputW ∧
    qbytes.getD 0 0 ≠ 0 ∧ (qx.write + 2 ^ 64 - qx.read) % 2 ^ 64 < 2 ^ qx.log2n ∧
    ∃ s1 s2 s3 w1 w2 w3, forumWrite (Claims.issued (queued qx (qg 0x80)) (qg 0x80)) 1 (slotAddr qx 0 + 4) (qbytes.drop 4) = (s1, .ok w1) ∧
      forumWrite (s1.modQueue 4095 (fun y => { y with write := 1, puts := y.puts ++ [(0, [], 1)] })) 1 (slotAddr qx 0) (qbytes.take 4) = (s2, .ok w2) ∧
      forumWrite s2 (hostAsid s2) (qtAddr s2 4095 + 16) (valBytes 8 1) = (s3, .ok w3) := by
  refine ⟨fun x h t ht => ⟨issues_of _ _ _ _ ?_, ?_, ?_⟩, issues_of _ _ _ _ (by decide +kernel), by decide +kernel, by decide, ?_⟩
  · revert t; revert x; decide +kernel
  · revert t; revert x; decide +kernel
  · revert t; revert x; decide +kernel
  · obtain ⟨s1, w1, e1, h⟩ := ok_elim (forumWrite (Claims.issued (queued qx (qg 0x80)) (qg 0x80)) 1 (slotAddr qx 0 + 4) (qbytes.drop 4)) (fun s1 _ =>
      okThen (forumWrite (s1.modQueue 4095 (fun y => { y with write := 1, puts := y.puts ++ [(0, [], 1)] })) 1 (slotAddr qx 0) (qbytes.take 4)) (fun s2 _ =>
        okThen (forumWrite s2 (hostAsid s2) (qtAddr s2 4095 + 16) (valBytes 8 1)) (fun _ _ => true))) (by decide +kernel)
    obtain ⟨s2, w2, e2, h⟩ := ok_elim _ _ h
    obtain ⟨s3, w3, e3, -⟩ := ok_elim _ _ h
    exact ⟨s1, s2, s3, w1, w2, w3, e1, e2, e3⟩

def mloopW : W := w4 .i8 (.v 0) (.s 4) (.v 0) (.v 0) 1
def mzeroW : W := w4 .i8 (.v 0) (.v 0) (.v 0) (.v 0) 1
def epiW : W := w4 .i8 (.v 0) (.s 4) (.v 0) (.v 0)
def withBatches (b : Batches) (g : Group) : State := (inState g).modCore 0 (fun c => { c with batches := [(1, b)] })
def noBatch : Batches := { openNum := 0, openLeft := 0, openUsed := false, openFailed := none, closed := [], failWord := 0, epiFlags := 0 }
def oneClosed : Batches := { noBatch with openNum := 1, closed := [⟨0, 1, none⟩] }
theorem witness_Matrix : (∀ p ∈ ([(.mloop, mloopW), (.mzero, mzeroW), (.epi, epiW)] : List ((W → Instr) × W)), Claims.Issues base grp (p.1 p.2) p.2) ∧
    ((base.core 0).waiting.countP (fun c => c.part == grp.part)) < 4 ∧ grp.count 6 < 255 ∧ grp.count 7 < 255 ∧
    (∀ b ∈ [noBatch, { noBatch with closed := List.replicate 255 ⟨0, 1, none⟩ }], Claims.Issues (withBatches b grp) grp (.mfence (mfkW 0)) (mfkW 0)) ∧
    (∀ n ∈ [65536, 0, 1, 2], Claims.Issues (withBatches oneClosed (ab n 0)) (ab n 0) (.mwait (bufputW 0)) (bufputW 0)) ∧
    batchesOf (withBatches oneClosed (ab 0 0)) 0 1 = oneClosed ∧ Claims.unretired oneClosed 0 ∧ ¬ Claims.unretired oneClosed 2 ∧
    (∀ k ∈ [0, 1, 2, 3, 0x101, 0x102], Claims.Issues base grp (.mstat (mfkW (BitVec.ofNat 32 k))) (mfkW (BitVec.ofNat 32 k))) ∧
    (inState { grp with inWord := some (.batchDone true) }).group? 1 = some { grp with inWord := some (.batchDone true) } := by
  refine ⟨fun p h => issues_of _ _ _ _ ?_, by decide +kernel, by decide, by decide, fun b h => issues_of _ _ _ _ ?_, fun n h => issues_of _ _ _ _ ?_, by decide +kernel,
    by unfold Claims.unretired; decide, by unfold Claims.unretired; decide, fun k h => issues_of _ _ _ _ ?_, by decide +kernel⟩
  · revert p; decide +kernel
  · revert b; decide +kernel
  · revert n; decide +kernel
  · revert k; decide +kernel

/-! ### Transfers, phasers, barriers and migration -/

/-- The group with a block of registers from s4 up. -/
def blockG (l : List Nat) : Group := ((List.range l.length).zip l).foldl (fun g p => g.setS (4 + p.1) (BitVec.ofNat 32 p.2)) grp
def dwW (imm : Nat) : W := w4 .i8 (.s 20) (.s 4) (.v 0) (.v 0) (BitVec.ofNat 32 imm)
/-- The block of a put for each status of R269, at the ends of the ranges: target core, its offset, the source, the length, the barrier. -/
def puts : List (Nat × List Nat) :=
  [(0, [11, 0x7FFF0, 0x2000, 16, 0xFFFFFFFF]), (0, [0, 0x2000, 0x2000, 65536, 0x1FF8]), (1, [12, 0x2000, 0x2000, 16, 0]), (2, [0, 0x2000, 0x2000, 8, 0]),
   (2, [0, 0x2000, 0x2000, 65552, 0]), (3, [0, 0x2000, 0x1FF0, 16, 0]), (4, [0, 0x1FF0, 0x2000, 16, 0]), (4, [0, 0x7FFF0, 0x2000, 32, 0]),
   (5, [0, 0x2000, 0x2000, 16, 4]), (5, [0, 0x2000, 0x2000, 16, 0x2000])]
theorem witness_Put : (∀ p ∈ puts, Claims.Issues (teamed (blockG p.2)) (blockG p.2) (.put (dwW 0)) (dwW 0)) ∧ grp.acquireHeld = false ∧ grp.count 5 < 255 ∧
    ∀ p ∈ puts, Claims.putAnswer (teamed (blockG p.2)) (blockG p.2) (dwW 0) p.1 := by
  refine ⟨fun p h => issues_of _ _ _ _ ?_, by decide, by decide, fun p h => ?_⟩
  · revert p; decide +kernel
  · unfold Claims.putAnswer; revert p; decide +kernel

/-- Handles 0 full and 1 free. -/
def withTiles (g : Group) : State := withHandles [(0, { free with st := .full }), (1, free)] (mem g)
/-- The block and IMM of an mcast for each status: a tensor or handle 0 or 1 to core 0, at offset 0x2000 or under handle 1. -/
def mcasts : List (Nat × Nat × List Nat) :=
  [(0, 0, [0, 0, 0, 1, 0x2000, 0xFFFFFFFF]), (0, 1, [0, 0, 0, 4095, 0x7FFF0, 0x1FF8]), (0, 3, [0, 0, 0, 1, 63, 0xFFFFFFFF]), (1, 0, [0, 0, 0, 0, 0x2000, 0xFFFFFFFF]),
   (1, 0, [0, 0, 0, 4096, 0x2000, 0xFFFFFFFF]), (2, 0, [0, 0, 0, 1, 0x2008, 0xFFFFFFFF]), (3, 1, [1, 0, 0, 1, 0x2000, 0xFFFFFFFF]), (3, 1, [64, 0, 0, 1, 0x2000, 0xFFFFFFFF]),
   (4, 0, [0, 0, 0, 1, 0x1FF0, 0xFFFFFFFF]), (4, 2, [0, 0, 0, 1, 64, 0xFFFFFFFF]), (5, 2, [0, 0, 0, 1, 0, 0]), (5, 0, [0, 0, 0, 1, 0x2000, 0x2000])]
/-- The block and IMM of a copy for each status. -/
def copies : List (Nat × Nat × List Nat) :=
  [(0, 0, [0x20000, 0, 0x30000, 0, 0, 0, 0xFFFFFFFF, 0, 0]), (0, 1, [0, 0, 0x30000, 0, 0, 0, 0, 0, 128]), (0, 24, [0x20000, 0, 0x7FFF0, 11, 0, 0, 0x1FF8, 0xFFFFFFFF, 0]),
   (1, 5, [0, 0, 1, 0, 0, 0, 0, 0, 0]), (2, 1, [1, 0, 0x30000, 0, 0, 0, 0, 0, 0]), (2, 4, [0x20000, 0, 64, 0, 0, 0, 0, 0, 0]), (3, 2, [0x2000, 12, 0x30000, 0, 0, 0, 0, 0, 0]),
   (3, 8, [0x20000, 0, 0x1FF0, 0, 0, 0, 0, 0, 0]), (4, 16, [0x20000, 0, 0x30000, 0, 0, 0, 4, 0, 0]), (4, 32, [0x20000, 0, 0x30000, 0, 0, 0, 4, 0, 0]),
   (4, 20, [0x20000, 0, 1, 0, 0, 0, 0, 0, 0]), (5, 0, [0x20000, 0, 0x30000, 0, 0, 0, 0xFFFFFFFF, 0, 64])]
theorem witness_McastCopy : (∀ p ∈ mcasts, Claims.Issues (withTiles (blockG p.2.2)) (blockG p.2.2) (.mcast (dwW p.2.1)) (dwW p.2.1) ∧
      Claims.mcastAnswer (withTiles (blockG p.2.2)) (blockG p.2.2) (dwW p.2.1) p.1) ∧
    (∀ p ∈ copies, Claims.Issues (withTiles (blockG p.2.2)) (blockG p.2.2) (.copy (dwW p.2.1)) (dwW p.2.1) ∧
      Claims.copyAnswer (withTiles (blockG p.2.2)) (blockG p.2.2) (dwW p.2.1) p.1) ∧
    ((mem grp).die 0).copies.countP (fun c => !c.engine) < 1024 := by
  refine ⟨fun p h => ⟨issues_of _ _ _ _ ?_, ?_⟩, fun p h => ⟨issues_of _ _ _ _ ?_, ?_⟩, by decide +kernel⟩
  · revert p; decide +kernel
  · unfold Claims.mcastAnswer; revert p; decide +kernel
  · revert p; decide +kernel
  · unfold Claims.copyAnswer; revert p; decide +kernel

def dsldW : W := w4 .b32 (.v 6) (.s 4) .lane (.s 8) 0x40 0x40
theorem witness_Dsld : ∀ n ∈ [0, 11], Claims.Issues (mem (ab 0x2000 n)) (ab 0x2000 n) (.dsld dsldW) dsldW ∧ (ab 0x2000 n).acquireHeld = false ∧ (ab 0x2000 n).count 1 < 255 ∧
    (mem (ab 0x2000 n)).requests = [] ∧ ((mem (ab 0x2000 n)).core 0).scratchPoison = [] ∧
    ∀ l ∈ Claims.computed (ab 0x2000 n) (.dsld dsldW) dsldW, Claims.offset (ab 0x2000 n) dsldW l % 4 = 0 ∧ Claims.offset (ab 0x2000 n) dsldW l < 0x80000 ∧
      (Claims.src32 (ab 0x2000 n) dsldW dsldW.c l).toNat = n := by
  intro n h
  refine ⟨issues_of _ _ _ _ ?_, ?_, ?_, ?_, ?_, ?_⟩ <;> (revert n; decide +kernel)

def phased (x : Phaser) (ms : List Member) (g : Group) : State := (inState g).modCluster 0 (fun c => { c with phasers := [(63, x)], members := ms })
def member (mode : Nat) (next : Nat) : Member := ⟨63, 1, 0, mode, false, next⟩
def phWords : List (W → Instr) := [.phregSig, .phregWait, .phregSw, .phdrop, .phsig, .phwait, .phsw]
/-- No record, and one of each mode whose phase is to come or has been reached. -/
def phStates : List (Phaser × List Member) :=
  [(⟨0, 0, 0, 0, 0⟩, []), (⟨0, 1, 0, 0, 0⟩, [member 0 1]), (⟨0, 0, 0, 0, 0⟩, [member 1 1]), (⟨0, 1, 0, 0, 0⟩, [member 1 1]), (⟨0, 2, 0, 0, 0⟩, [member 2 1]),
   (⟨2 ^ 28 - 1, 1, 0, 0, 0⟩, [member 2 (2 ^ 28 - 1)])]
theorem witness_Phasers : (∀ mk ∈ phWords, Claims.Issues (inState (ab 64 0)) (ab 64 0) (mk (dwW 0)) (dwW 0)) ∧ (ab 64 0).unreturned = [] ∧ (ab 63 0).acquireHeld = false ∧
    (∀ x ∈ phStates, ∀ mk ∈ phWords, Claims.Issues (phased x.1 x.2 (ab 63 0)) (ab 63 0) (mk (dwW 0)) (dwW 0)) ∧
    (∀ x ∈ phStates, Claims.member (phased x.1 x.2 (ab 63 0)) (ab 63 0) 63 = x.2.head? ∧ Claims.phaser (phased x.1 x.2 (ab 63 0)) (ab 63 0) 63 = x.1) ∧
    reached 0 1 = false ∧ reached (2 ^ 28 - 1) (2 ^ 28 - 1) = true ∧
    (∃ ms : List Member, ms.length ≥ 1024 ∧ Claims.member (phased ⟨0, 0, 0, 0, 0⟩ ms (ab 63 0)) (ab 63 0) 63 = none) ∧
    Claims.Issues (phased ⟨0, 0, 0, 0, 0⟩ (List.replicate 16 ⟨0, 1, 0, 0, false, 0⟩) (ab 63 0)) (ab 63 0) (.phregSig (dwW 0)) (dwW 0) ∧
    (List.replicate 16 (⟨0, 1, 0, 0, false, 0⟩ : Member)).countP (fun m => m.grp == 1) ≥ 16 ∧
    (phased ⟨1, 1, 0, 0, 0⟩ [member 2 1] { ab 63 0 with inWord := some .signalled }).group? 1 = some { ab 63 0 with inWord := some .signalled } ∧ reached 1 1 = true := by
  refine ⟨fun mk h => issues_of _ _ _ _ ?_, by decide, by decide, fun x h mk hm => issues_of _ _ _ _ ?_, ?_, by decide, by decide,
    ⟨List.replicate 1024 ⟨0, 2, 0, 0, false, 0⟩, by decide +kernel, by decide +kernel⟩, issues_of _ _ _ _ (by decide +kernel), by decide, by decide +kernel, by decide⟩
  · revert mk; decide +kernel
  · revert mk; revert x; decide +kernel
  · decide +kernel

/-- The handler of a group that runs a task. -/
def taskHandler : Group := { gt with sup := true }
def userWords : List ((W → Instr) × W) :=
  spawns ++ [(.join, joinW), (.joinall, joinallW), (.yield, yieldW), (.migrate, dwW 0), (.enq, enqW), (.enqEos, eosW)]
theorem witness_UserWords : (∀ p ∈ userWords, Claims.Issues (mem taskHandler) taskHandler (p.1 p.2) p.2) ∧ Claims.Fits (mem taskHandler) taskHandler (.tret tretW) tretW ∧
    taskHandler.sup = true ∧ taskHandler.acquireHeld = false :=
  ⟨fun p h => issues_of _ _ _ _ (by revert p; decide +kernel), fits_of _ _ _ _ (by decide +kernel), rfl, by decide⟩

def barW : W := w4 .i8 (.v 0) (.s 4) (.s 8) (.s 12)
def barWaitW : W := w4 .i8 (.s 20) (.s 4) (.s 8) (.s 12)
def barTestW : W := w4 .i8 (.s 20) (.s 4) (.v 0) (.s 12)
/-- The barrier at the last offset of the region, of core 11 of the cluster or (C = 0xFFFFFFFF) of the group's own, with B = `n`. -/
def barG (c n : Nat) : Group := (ab 0x1FF8 n).setS 12 (BitVec.ofNat 32 c)
/-- The barrier word in both cores. -/
def barS (v : DWord) (g : Group) : State :=
  [0, 11].foldl (fun s k => s.modCore k (fun c => { c with scratch := cellWrites [] 0x1FF8 (valBytes 8 v.toNat) })) (mem g)
theorem barUsable_of (s : State) (core off : Nat) (h : (decide (off % 8 = 0) && decide (off < 0x2000) && decide ((s.core core).scratchPoison = [])) = true) :
    Claims.barUsable s core off := by
  simp only [Bool.and_eq_true, decide_eq_true_eq] at h
  exact ⟨h.1.1, h.1.2, by rw [h.2]; intro k hk; cases hk⟩
/-- Live words before and after phase 5, words with status 1 and 2, and B at the ends of its range. -/
def barWords : List (DWord × Nat) :=
  [(Claims.barLive true 5 3, 5), (Claims.barLive true 5 3, 4), (Claims.barLive true 5 (-1), 5), (barWord 2 false 5 0, 5), (Claims.barLive false 0 0, 65535), (0, 65536)]
theorem witness_Barriers : Claims.Issues (barS 0 (barG 0xFFFFFFFF 0)) (barG 0xFFFFFFFF 0) (.barExp barW) barW ∧ Claims.barUsable (barS 0 (barG 0xFFFFFFFF 0)) 0 0x1FF8 ∧
    (∀ v ∈ barWords, Claims.Issues (barS v.1 (barG 11 v.2)) (barG 11 v.2) (.barWait barWaitW) barWaitW ∧
      Claims.Issues (barS v.1 (barG 11 v.2)) (barG 11 v.2) (.barTest barTestW) barTestW ∧
      (∀ mk ∈ ([.barInit, .barExp, .barArr] : List (W → Instr)), Claims.Issues (barS v.1 (barG 11 v.2)) (barG 11 v.2) (mk barW) barW) ∧
      Claims.barUsable (barS v.1 (barG 11 v.2)) 11 0x1FF8 ∧
      Claims.barValue (barS v.1 (barG 11 v.2)) 11 0x1FF8 = v.1 ∧ memoryWf (barS v.1 (barG 11 v.2)) = true) ∧
    barW.mod.getLsbD 0 = false ∧ Claims.barCore (barG 11 0) barW 11 ∧ Claims.barCore (barG 0xFFFFFFFF 0) barW 0 ∧ grp.count 3 < 255 ∧ grp.unreturned = [] := by
  refine ⟨issues_of _ _ _ _ (by decide +kernel), barUsable_of _ _ _ (by decide +kernel),
    fun v hv => ⟨issues_of _ _ _ _ ?_, issues_of _ _ _ _ ?_, fun mk hm => issues_of _ _ _ _ ?_, barUsable_of _ _ _ ?_, ?_, ?_⟩, by decide,
    Or.inr (by decide +kernel), Or.inl (by decide +kernel), by decide, by decide⟩
  · revert v; decide +kernel
  · revert v; decide +kernel
  · revert mk; revert v; decide +kernel
  · revert v; decide +kernel
  · revert v; decide +kernel
  · revert v; decide +kernel

/-- A page of barrier words (R314): bit B of its entry and record. -/
def barPage : PlbRec := { page with b := true }
def globalBarW : W := w4 .i8 (.v 0) (.s 4) (.s 8) (.v 0) 0 1
theorem witness_GlobalBarrier : ∀ mk ∈ ([.barInit, .barExp, .barArr] : List (W → Instr)),
    let s := (mem gm).modCore 0 (fun c => { c with plb := [barPage] })
    Claims.Issues s gm (mk globalBarW) globalBarW ∧ globalBarW.mod.getLsbD 0 = true ∧ Claims.Room s gm 3 [0] (fun _ => Claims.src gm globalBarW true globalBarW.a 0) ∧ releaseWaits s 1 gm 4 = false ∧
    Claims.passes s gm 8 (fun r => r.rights.getLsbD 0 && r.rights.getLsbD 1 && r.b) (Claims.src gm globalBarW true globalBarW.a 0) := by
  intro mk h
  refine ⟨issues_of _ _ _ _ ?_, by decide, ⟨by decide, by decide +kernel⟩, by decide +kernel, passes_of _ _ _ _ _ barPage (by decide +kernel)⟩
  revert mk; decide +kernel

/-- A page whose home is slice `h`, and the launch's cores 0 and 108. -/
def moving (h : Nat) (far : Option (Option (Nat × Nat))) (g : Group) : State :=
  (((mem g).modCore 0 (fun c => { c with plb := [{ page with home := h }], domain := some none })).modCore 108 (fun c => { c with domain := far })).modContext 1 (fun c => { c with clusters := [0, 9] })
/-- Groups that hold 8 and 9 blocks, and one with a closed batch. -/
def mover (blocks : Nat) : Group := { gm with blocks := blocks }
def busyS : State := (moving 48 (some none) (mover 8)).modCore 0 (fun c => { c with batches := [(1, oneClosed)] })
/-- The landing slots of core 108 are taken. -/
def full108 : State := (List.range 8).foldl (fun s p => s.setGroup (10 + p) { grp with core := 108, part := p, slot := 17 }) (moving 48 (some none) (mover 8))
theorem witness_Migrate : (∀ s ∈ [moving 0 none (mover 8), moving 48 none (mover 8), moving 48 (some none) (mover 8), busyS, full108],
      Claims.Issues s (mover 8) (.migrate (dwW 0)) (dwW 0) ∧ (plbFind s 0 1 0x10000).isSome = true) ∧ Claims.Issues (moving 48 none (mover 9)) (mover 9) (.migrate (dwW 0)) (dwW 0) ∧
    grp.sup = false ∧ (mover 8).acquireHeld = false ∧ highBits (Claims.src (mover 8) (dwW 0) true (dwW 0).a 0) = false ∧ homeSlice 2 0 0x10000 / 48 = 0 ∧ homeSlice 2 48 0x10000 / 48 = 1 ∧
    migrateBusy busyS 1 (mover 8) = true ∧ migrateBusy (moving 48 none (mover 8)) 1 (mover 8) = false ∧ landingCores (moving 48 none (mover 8)) 1 48 1 (some none) = [] ∧
    landingCores full108 1 48 1 (some none) ≠ [] ∧ landingPlace (Claims.issued full108 (mover 8)) (landingCores full108 1 48 1 (some none)) 8 = none ∧
    (landingPlace (Claims.issued (moving 48 (some none) (mover 8)) (mover 8)) (landingCores (moving 48 (some none) (mover 8)) 1 48 1 (some none)) 8).isSome = true := by
  refine ⟨fun s h => ⟨issues_of _ _ _ _ ?_, ?_⟩, issues_of _ _ _ _ (by decide +kernel), rfl, by decide, by decide +kernel, by decide, by decide, by decide +kernel,
    by decide +kernel, by decide +kernel, by decide +kernel, by decide +kernel, by decide +kernel⟩ <;> (revert s; decide +kernel)

/-! ### Steps of the core and of the memory system -/

def headerB (s : State) (core base : Nat) (e : Entry) : Bool :=
  match s.context? (coreAsid s core) with
  | some c => decide (base = regionBase c.regs (freeRegion s (coreAsid s core))) &&
      (match (groupWrite (dropEntry s core e.serial) core (coreAsid s core) base (headerBytes e.clo.future 0 e.serial) e.stamp
        (provOf (coreAsid s core) e.serial e.clo.entry e.clo.entry)).2 with | .ok _ => true | .error _ => false)
  | none => false
theorem header_of (s : State) (core base : Nat) (e : Entry) (h : headerB s core base e = true) : Claims.HeaderWritten s core e base := by
  unfold headerB at h
  split at h
  · simp only [Bool.and_eq_true, decide_eq_true_eq] at h
    obtain ⟨h1, h2⟩ := h
    split at h2
    · rename_i w hw; exact ⟨_, w, by assumption, h1, hw⟩
    · cases h2
  · cases h
/-- The machine with a closure in the deque of core 0 and the arena of stacks at 0x40000. -/
def arena : CtxRegs := { CtxRegs.start with farena := 0x40000, falen := 0x2000 }
def waiting (g : Group) : State := withDeque [entry] { mem g with contexts := [(1, { ctx with regs := arena })] }
def joiner : Group := { gt with park := some .join }
def place : Place := ((nextStart (waiting grp) 0).map (fun p => p.2)).getD ⟨9, 9, .inl 0⟩
theorem witness_Starts : coreRuns (waiting grp) 0 = true ∧ nextStart (waiting grp) 0 = some (entry, place) ∧ Claims.HeaderWritten (waiting grp) 0 entry 0x41000 ∧
    coreRuns (waiting joiner) 0 = true ∧ allJoining (waiting joiner) 0 = true ∧ (∀ q ∈ residents (waiting joiner) 0 0, q.2.slot ≠ 16) ∧
    reserveEntry (waiting joiner) 0 = some entry ∧ Claims.HeaderWritten (waiting joiner) 0 entry 0x41000 := by
  refine ⟨by decide +kernel, ?_, header_of _ _ _ _ (by decide +kernel), by decide +kernel, by decide +kernel, ?_, by decide +kernel, header_of _ _ _ _ (by decide +kernel)⟩
  · have h : ((nextStart (waiting grp) 0).map (fun p => p.1) == some entry) = true := by decide +kernel
    revert h; unfold place; cases nextStart (waiting grp) 0 with
    | none => intro h; cases h
    | some p => intro h; simp at h; obtain ⟨e, p⟩ := p; simp at h; subst h; rfl
  · have h : (residents (waiting joiner) 0 0).all (fun q => decide (q.2.slot ≠ 16)) = true := by decide +kernel
    intro q hq; exact of_decide_eq_true (List.all_eq_true.mp h q hq)

/-- Eight groups of partition 0 that hold its active places, of which number 3 issued first, and group 1, which is ready and pending. -/
def pendingG : Group := { grp with active := false, since := some 1 }
def full8 : State := (List.range 8).foldl (fun s n => s.setGroup (10 + n) { grp with slot := n, lastIssue := if n = 3 then 2 else 7 }) (inState pendingG)
def third : Group := { grp with slot := 3, lastIssue := 2 }
theorem witness_Displace : full8.group? 1 = some pendingG ∧ full8.group? 13 = some third ∧ pendingG.active = false ∧ pendingG.since.isSome = true ∧ canRun full8 pendingG = true ∧
    8 ≤ (activeGroups full8 pendingG.core pendingG.part).length ∧ third.core = pendingG.core ∧ third.part = pendingG.part ∧ third.active = true ∧ third.inTrap = false ∧
    (∀ q ∈ activeGroups full8 pendingG.core pendingG.part, q.1 ≠ 13 → q.2.inTrap = false → third.lastIssue < q.2.lastIssue) := by
  refine ⟨by decide +kernel, by decide +kernel, rfl, rfl, by decide +kernel, by decide +kernel, rfl, rfl, rfl, rfl, ?_⟩
  have h : (activeGroups full8 pendingG.core pendingG.part).all (fun q => q.1 == 13 || decide (third.lastIssue < q.2.lastIssue)) = true := by decide +kernel
  intro q hq h1 _
  have := List.all_eq_true.mp h q hq
  simpa [h1] using this

/-- A load of which a lane was refused, and a dsld; in user mode and in a handler that issued it. -/
def heldOp (sup : Bool) (k : ReqKind) : Op := { storeOp with kind := k, done := true, sup := sup, held := [⟨3, 0x12344, 0, 0⟩], heldCause := (5, 1), scalar := sup }
def heldG (sup : Bool) (k : ReqKind) : Group := { (if sup then handler else grp) with ops := [heldOp sup k] }
theorem witness_Held : ∀ sup ∈ [true, false], ∀ k ∈ [ReqKind.load, ReqKind.dsld, ReqKind.probe], (inState (heldG sup k)).group? 1 = some (heldG sup k) ∧
    canRun (inState (heldG sup k)) (heldG sup k) = true ∧ dueHeld (heldG sup k) = some (heldOp sup k) ∧ (heldOp sup k).held = [⟨3, 0x12344, 0, 0⟩] ∧
    pruneOps (heldG sup k).ops [] = (heldG sup k).ops ∧ (heldG sup k).sup = sup := by decide +kernel

def spent : Group := { handler with trap := { handler.trap with left := 0 } }
def fetching : Group := { grp with wanted := [4, 2 ^ 64 + 0x400] }
/-- A line with a nop in slot 0 stands at 0x10000. -/
def withLine : State := let s := mem fetching; { s with hbm := cellWrites s.hbm 0x10000 (valBytes 64 (oneWordLine 0).toNat) }
def leafB (r : State × Walk) : Bool := match r.2 with | .leaf e l p => decide (e = leafE) && decide (l = 1) && decide (p = 0x104000) | _ => false
theorem leaf_elim (r : State × Walk) (h : leafB r = true) : ∃ s, r = (s, .leaf leafE 1 0x104000) := by
  obtain ⟨s, w⟩ := r
  cases w with
  | leaf e l p =>
    simp only [leafB, Bool.and_eq_true, decide_eq_true_eq] at h
    obtain ⟨⟨rfl, rfl⟩, rfl⟩ := h
    exact ⟨s, rfl⟩
  | _ => cases h
theorem witness_CoreSteps : (inState { grp with park := some .sleep }).group? 1 = some { grp with park := some .sleep } ∧
    (inState spent).group? 1 = some spent ∧ canRun (inState spent) spent = true ∧ spent.sup = true ∧ spent.trap.left = 0 ∧ spent.inWord = none ∧
    (inState { grp with window := some 0 }).group? 1 = some { grp with window := some 0 } ∧ (inState { grp with drift := 256 }).group? 1 = some { grp with drift := 256 } ∧
    withLine.group? 1 = some fetching ∧ mayFill withLine fetching = true ∧ fetching.wanted.find? (fun x => decide (x ≥ 2 ^ 64)) = some (2 ^ 64 + 0x400) ∧
    findILine withLine 0 1 (BitVec.ofNat 64 (64 * 0x400)) = none ∧ (∃ s', fetchLine withLine 0 1 (64 * 0x400) = (s', .ok (oneWordLine 0))) ∧ lineGood (oneWordLine 0) = true ∧
    fetching.wanted.find? (fun x => decide (x < 2 ^ 64)) = some 4 ∧ ∃ s', mtuWalk withLine (coreDie 0) 1 (4 * 2 ^ 14) = (s', .leaf leafE 1 0x104000) := by
  refine ⟨by decide +kernel, by decide +kernel, by decide +kernel, rfl, rfl, rfl, by decide +kernel, by decide +kernel, by decide +kernel, by decide +kernel,
    by decide +kernel, by decide +kernel, ?_, by decide +kernel, by decide +kernel, ?_⟩
  · obtain ⟨s', v, e, h⟩ := ok_elim (fetchLine withLine 0 1 (64 * 0x400)) (fun _ d => decide (d = oneWordLine 0)) (by decide +kernel)
    exact ⟨s', by rw [e, of_decide_eq_true h]⟩
  · exact leaf_elim _ (by decide +kernel)

/-- A request of the group for lanes 0 and 95 in the line of 0x10000, whose home is slice 0, and the operation that made it. -/
def req (k : ReqKind) (p : ReqPhase) : Req :=
  { id := 7, grp := 1, op := 5, core := 0, asid := 1, kind := k, beat := 0, line := 0x200, size := 4, lanes := [⟨0, 0x10000, 1, 0⟩, ⟨95, 0x1007C, 2, 0⟩], stamp := 4
    phase := p, tokenDie := none, woken := false, slice := 0, peer := none, lease := 0x20, stale := false, passed := false }
def opOf (i : Instr) (k : ReqKind) : Op := { storeOp with instr := i, scalar := false, kind := k, lanes := (req k .queued).lanes }
def opG (i : Instr) (k : ReqKind) : Group := { grp with ops := [opOf i k] }
/-- The home's line of 0x10000, and the machine with the request and that line. -/
def homeLine : L2Line :=
  { asid := 1, line := 0x200, home := true, valid := 0xF, dirty := 0, data := 0x77, poison := 0, ws := 2, ls := 3, prov := Vector.replicate 4 0 }
def asking (g : Group) (r : Req) : State := { mem g with requests := [r], slices := [(0, [homeLine])] }
def vals2 : List (Nat × DWord) := [(0, 0x11), (95, 0x22)]
def retPhase : ReqPhase := .ready vals2 [] 0 0 9
theorem waits_of (s : State) (r : Req) (g : Group) (h : (decide (s.req? r.id = some r) && decide (s.group? r.grp = some g)) = true) : Claims.Waits s r g := by
  simp only [Bool.and_eq_true, decide_eq_true_eq] at h; exact ⟨h.1, h.2⟩
theorem witness_Returns : ∀ x ∈ ([(.ld ldW, .load, ldW), (.atom atomW, .atomic 0 false .i32 true, atomW)] : List (Instr × ReqKind × W)),
    Claims.Waits (asking (opG x.1 x.2.1) (req x.2.1 retPhase)) (req x.2.1 retPhase) (opG x.1 x.2.1) ∧
    inFlight (asking (opG x.1 x.2.1) (req x.2.1 retPhase)) (req x.2.1 retPhase) = true ∧
    (opG x.1 x.2.1).ops.find? (fun o => o.id == (req x.2.1 retPhase).op) = some (opOf x.1 x.2.1) ∧ (opOf x.1 x.2.1).instr.word = some x.2.2 ∧
    Fld.isWide (shapeOf x.1).d = false ∧ (x.2.2.d = .v 6 ∨ x.2.2.d = .v 9) ∧ (∀ v ∈ vals2, v.1 < 96 ∧ allLanes.getLsbD v.1 = true) ∧ (vals2.map (fun v => v.1)).Nodup := by
  intro x h
  refine ⟨waits_of _ _ _ ?_, ?_, ?_, ?_, ?_, ?_, by decide, by decide⟩ <;> (revert x; decide +kernel)

/-- A first-touch page at 0x10000, found at level 3, and the MTU's pool of ASID 1 with one frame, or none. -/
def touchE : DWord := BitVec.ofNat 64 (1 + 4 + 15 * 32 + 1024 + 2 * 2048)
def touchTables : List Host.Cell :=
  [(0x100000, 1 + 65 * 2 ^ 22), (0x104000, 1 + 66 * 2 ^ 22), (0x108000, 1 + 67 * 2 ^ 22), (0x10C020, touchE.toNat)].foldl (fun m p => cellWrites m p.1 (valBytes 8 p.2)) []
def touch (pool : List Nat) : State := { mem grp with hbm := touchTables, pools := [(4, pool)] }
theorem walk_of (s : State) (die asid va : Nat) (w : Walk) (h : decide ((mtuWalk s die asid va).2 = w) = true) : ∃ s1, mtuWalk s die asid va = (s1, w) :=
  ⟨(mtuWalk s die asid va).1, by rw [← of_decide_eq_true h]⟩
def mtuR (k : ReqKind) (a : Nat) : Req := { req k .queued with lanes := [⟨95, BitVec.ofNat 64 a, 0, 0⟩] }
def mtuInstr (k : ReqKind) : Instr := if k = .mapft then .mapft (w4 .i8 (.v 6) (.v 2) (.v 0) (.v 0)) else .fltrd (w4 .i8 (.v 6) (.v 2) (.v 0) (.v 0))
def mtuG (k : ReqKind) : Group := opG (mtuInstr k) k
def mtuS (k : ReqKind) (a : Nat) : State := { mem (mtuG k) with requests := [mtuR k a], hbm := touchTables, pools := [(4, [70])] }
theorem witness_MtuPages : (∃ s1, mtuWalk (touch [70]) 0 1 0x10000 = (s1, .leaf touchE 3 0x10C020)) ∧ Claims.mapftStatus touchE 3 [70] = 0 ∧
    Claims.mapftStatus touchE 3 [] = 3 ∧ Claims.mapftStatus touchE 1 [70] = 2 ∧ Claims.mapftStatus leafE 1 [70] = 1 ∧ poolOf (touch [70]) 1 0 = [70] ∧
    memoryWf (touch [70]) = true ∧ (∃ s1, mtuWalk (touch [70]) 0 1 0x20000 = (s1, .invalid)) ∧ highBits (0x0400000000000000 : DWord) = true ∧
    (mapftPage (touch [70]) 1 0 0x10000).2 = some 0 ∧ ((mapftPage (touch [70]) 1 0 0x10000).1.frame 70).st = 2 ∧
    readPte (mapftPage (touch [70]) 1 0 0x10000).1 0x10C020 = BitVec.ofNat 64 (touchE.toNat - 2 + 70 * 2 ^ 22) :=
  ⟨walk_of _ _ _ _ _ (by decide +kernel), by decide, by decide, by decide, by decide, by decide +kernel, by decide +kernel,
    walk_of _ _ _ _ _ (by decide +kernel), by decide, by decide +kernel, by decide +kernel, by decide +kernel⟩
theorem witness_MtuAnswers : ∀ k ∈ [ReqKind.mapft, .fltrd], ∀ a ∈ [0x10000, 0x20000, 2 ^ 58],
    Claims.AtMtu (mtuS k a) (mtuR k a) (mtuG k) k ∧ (mtuR k a).lanes = [⟨95, BitVec.ofNat 64 a, 0, 0⟩] ∧ allLanes.getLsbD 95 = true ∧
    (mtuG k).ops.find? (fun o => o.id == (mtuR k a).op) = some (opOf (mtuInstr k) k) ∧
    (if k = .mapft then mapftPage (mtuS k a) 1 0 (BitVec.ofNat 64 a) else fltrdPage (mtuS k a) 1 0 (BitVec.ofNat 64 a)).2.isSome = true ∧
    ¬ Claims.MapftWaits (mtuS k a) (mtuR k a) (BitVec.ofNat 64 a) := by
  intro k h a ha
  refine ⟨⟨?_, ?_, rfl, rfl, ?_, ?_⟩, rfl, by decide, rfl, ?_, fun w => ?_⟩
  case refine_6 =>
    have b : pageBusy (mtuS k a) (tagAsid (mtuR k a).asid (BitVec.ofNat 64 a).toNat) ((BitVec.ofNat 64 a).toNat / 2 ^ 14) 14 = false := by
      clear w; revert a; revert k; decide +kernel
    rw [w.2.1] at b; cases b
  all_goals (revert a; revert k; decide +kernel)
/-- A store to the page of 0x10000 that has left its core. -/
def busyMtu : State := { mtuS .mapft 0x10000 with requests := [mtuR .mapft 0x10000, { req .store .missing with id := 8 }] }
theorem witness_MapftWaits : Claims.AtMtu busyMtu (mtuR .mapft 0x10000) (mtuG .mapft) .mapft ∧ Claims.MapftWaits busyMtu (mtuR .mapft 0x10000) 0x10000 :=
  ⟨⟨by decide +kernel, by decide +kernel, rfl, rfl, by decide +kernel, by decide +kernel⟩,
    by decide, by decide +kernel, touchE, 3, 0x10C020, by decide +kernel, by decide +kernel⟩
theorem witness_MtuFrame : (mapftPage (mtuS .mapft 0x10000) 1 0 0x10000).1.groups = (mtuS .mapft 0x10000).groups ∧
    (mapftPage (mtuS .mapft 0x10000) 1 0 0x10000).1.requests = (mtuS .mapft 0x10000).requests := by
  refine ⟨?_, ?_⟩ <;> decide +kernel

/-- A result of each unit that uses no path counter. -/
def result (u : ResUnit) : Pend := ⟨8, u, [⟨6, 0, 0x11⟩, ⟨6, 95, 0x22⟩, ⟨255, 95, 0x33⟩], 1, 0, 0x1000, none⟩
def resultG (u : ResUnit) : Group := { grp with pend := [result u] }
theorem witness_Results : ∀ u ∈ [ResUnit.sfu, .divide, .cross], (inState (resultG u)).group? 1 = some (resultG u) ∧ findPend (inState (resultG u)) 8 = some (1, result u) ∧
    (∀ c ∈ (result u).cells, c.code < 256 ∧ c.lane < 96 ∧ allLanes.getLsbD c.lane = true) ∧
    (result u).cells.Pairwise (fun a b => a.code ≠ b.code ∨ a.lane ≠ b.lane) ∧ (result u).bind = none ∧
    (∀ q ∈ (inState (resultG u)).groups, ∀ y ∈ q.2.pend, (result u).id ≤ y.id) ∧ Claims.NoLog (inState (resultG u)) (resultG u) := by
  intro u h
  refine ⟨?_, ?_, ?_, ?_, rfl, ?_, noLog_of _ _ ctx ?_ (by decide +kernel) rfl⟩ <;> (revert u; decide +kernel)

def ackR : Req := req .store (.acked 9 0xF 0x55 [] 0 0)
def stG : Group := opG (.st stW) .store
theorem witness_StoreAck : Claims.Waits (asking stG ackR) ackR stG ∧ inFlight (asking stG ackR) ackR = true ∧
    stG.ops.find? (fun o => o.id == ackR.op) = some (opOf (.st stW) .store) ∧ (opOf (.st stW) .store).held = [] ∧
    (∀ x ∈ (asking stG ackR).requests, x.op = ackR.op → x.id = ackR.id) ∧ ackR.peer = none :=
  ⟨waits_of _ _ _ (by decide +kernel), by decide +kernel, by decide +kernel, rfl, by intro x h; simp [asking] at h; subst h; intro _; rfl, rfl⟩

def ldG : Group := opG (.ld ldW) .load
def askR : Req := req .load .queued
def copyR : Req := req .load (.replied 0xF 0x77 0 2 9)
def storeR : Req := req .store .queued
def watchR : Req := { req .watch (.watching false) with size := 8, lanes := [⟨0, 0x10000, 0, 0x77⟩] }
def watchG : Group := opG (.watch watchW) .watch
def missR : Req := req .load .missing
def missS : State := { asking ldG missR with slices := [] }
def fullB (r : State × Fill) : Bool := match r.2 with | .full => decide (r.1.req? 7 = some missR) && (wholeLine r.1 missR).isSome | _ => false
theorem witness_Homes : (Claims.Waits (asking ldG askR) askR ldG ∧ leaving (asking ldG askR) askR = true ∧ l1Serves (asking ldG askR) askR = none ∧
      sameSector 0 0 = true ∧ sliceDie 0 = coreDie 0 ∧ memUp (asking ldG askR) 0 = true ∧ wholeLine (asking ldG askR) askR = some homeLine ∧ askR.stamp + leaseOf (asking ldG askR) askR.asid < 2 ^ 48) ∧
    (Claims.Waits (asking ldG copyR) copyR ldG ∧ inFlight (asking ldG copyR) copyR = true ∧
      (∀ y ∈ ((asking ldG copyR).core 0).l1, y.asid = copyR.tag → y.line = copyR.line → y.ws ≤ 2) ∧
      (∀ a ∈ copyR.lanes, byteMask (a.addr.toNat % 128) copyR.size &&& ~~~ sectorBytes 0xF = 0)) ∧
    (Claims.Waits (asking stG storeR) storeR stG ∧ leaving (asking stG storeR) storeR = true ∧
      findLine ((asking stG storeR).slice 0) storeR.tag storeR.line true = some homeLine) ∧
    (Claims.Waits (asking watchG watchR) watchR watchG ∧
      (asking watchG watchR).requests.find? (fun q => q.grp == watchR.grp && q.phase == .watching false) = some watchR ∧
      mayLeave (asking watchG watchR) watchR = true ∧ wholeLine (asking watchG watchR) watchR = some homeLine) ∧
    (Claims.Waits missS missR ldG ∧ inFlight missS missR = true ∧ memUp missS 0 = true ∧
      ∃ s' x, homeMiss missS missR.slice missR.tag missR.line = (s', .full) ∧ s'.req? missR.id = some missR ∧ wholeLine s' missR = some x) := by
  refine ⟨⟨waits_of _ _ _ (by decide +kernel), by decide +kernel, by decide +kernel, by decide, by decide, by decide +kernel, by decide +kernel, by decide +kernel⟩,
    ⟨waits_of _ _ _ (by decide +kernel), by decide +kernel, ?_, by decide +kernel⟩, ⟨waits_of _ _ _ (by decide +kernel), by decide +kernel, by decide +kernel⟩,
    ⟨waits_of _ _ _ (by decide +kernel), by decide +kernel, by decide +kernel, by decide +kernel⟩, waits_of _ _ _ (by decide +kernel), by decide +kernel, by decide +kernel, ?_⟩
  · intro y hy; have h : ((asking ldG copyR).core 0).l1 = [] := by decide +kernel
    rw [h] at hy; cases hy
  · have h : fullB (homeMiss missS missR.slice missR.tag missR.line) = true := by decide +kernel
    revert h; cases homeMiss missS missR.slice missR.tag missR.line with
    | mk s f => cases f <;> intro h <;> simp [fullB] at h; obtain ⟨a, b⟩ := h; obtain ⟨x, e⟩ := Option.isSome_iff_exists.mp b; exact ⟨s, x, rfl, a, e⟩

/-- The events of an atomic of two lanes, of each global barrier word and of fres. -/
def writers : List Req :=
  [req (.atomic 0 false .i32 true) .queued, req (.atomic 7 false .i32 false) .queued] ++
    ([0, 1, 2].map fun op => { req (.bar op) .queued with size := 8, lanes := [⟨0, 0x10078, 5, 0⟩] }) ++
    [{ req (.fres true 9 []) .queued with size := 32, lanes := [⟨0, 0x10060, 0, 0⟩] }]
def lastRule (s : State) (r : Req) : Bool := match r.kind with | .fres _ _ ws => allReturned s r.grp ws | _ => true
theorem atHome_of (s : State) (r : Req) (x : L2Line)
    (turn : r.isWrite = true ∧ r.peer = none ∧ leaving s r = true ∧ sameSector r.core r.slice = true ∧ sliceDie r.slice = coreDie r.core ∧ memUp s (sliceDie r.slice) = true)
    (waits : lastRule s r = true) (line : findLine (s.slice r.slice) r.tag r.line true = some x ∧ knownBytes x = BitVec.allOnes 128 ∧ x.poison = 0)
    (time : r.stamp < 2 ^ 48 ∧ x.ls + 1 < 2 ^ 48)
    (lanes : r.lanes ≠ [] ∧ 0 < r.size ∧ (∀ a ∈ r.lanes, a.addr.toNat % 128 + r.size ≤ 128) ∧ (r.lanes.map (fun a => a.lane)).Nodup) : Claims.AtHome s r x :=
  ⟨turn, fun f v ws h => by rw [lastRule, h] at waits; exact waits, line, time, lanes⟩
theorem witness_WriteEvents : ∀ r ∈ writers, Claims.Waits (asking stG r) r stG ∧ Claims.AtHome (asking stG r) r homeLine ∧ r.kind ≠ .store := by
  intro r h
  refine ⟨waits_of _ _ _ ?_, atHome_of _ _ _ ?_ ?_ ?_ ?_ ?_, ?_⟩ <;> (revert r; decide +kernel)
/-- The stamps of these requests and lines leave room below 2^48 (R333), and no write has overtaken the copy. -/
theorem witness_HomesBounds : copyR.stale = false ∧ storeR.stamp < 2 ^ 48 ∧ homeLine.ls + 1 < 2 ^ 48 ∧ missR.stamp + missR.lease < 2 ^ 48 ∧
    storeR.peer = none ∧ homeLine.poison = 0 := by decide

/-- A claimed fault record with SEQ 16 and a ring of 16 records: with RDPTR 0 it is full, with 1 it has room. -/
def ringCtx : Context := { ctx with regs := { CtxRegs.start with frbase := 0x20000, frctl := 4 } }
def ringWait : RingWait := ⟨3, 1, 0, some 16, List.replicate 56 0, none⟩
def ringS (rd : Nat) : State :=
  { mem grp with contexts := [(1, ringCtx)], ringWaits := [ringWait], hbm := cellWrites tables 0x20008 (valBytes 8 rd) }
theorem witness_Ring : ∀ rd ∈ [0, 1], (ringS rd).ringWaits.find? (fun y => y.id == 3) = some ringWait ∧ (ringS rd).context? 1 = some ringCtx ∧ ringCtx.st = .running ∧
    ringCtx.notify = 0 ∧ 16 = 2 ^ (ringCtx.regs.frctl.extractLsb' 0 5).toNat ∧
    ∃ s1 b w, devRead (ringS rd) 0 1 (ringBase ringCtx + 8) 8 0 = (s1, .ok (b, w)) ∧ bytesVal b = rd ∧
      ∃ s3 e l pte s2 w', mtuWalk s1 0 1 (ringBase ringCtx + 64 + 64 * (16 % 16)) = (s3, .leaf e l pte) ∧ pteP e = true ∧
        devWrite s3 0 1 (ringBase ringCtx + 64 + 64 * (16 % 16)) (valBytes 8 16 ++ ringWait.bytes) 0 (devProv 1 0xFFFFFD) 27 = (s2, .ok w') := by
  intro rd h
  refine ⟨?_, ?_, rfl, ?_, ?_, ?_⟩
  · revert rd; decide +kernel
  · revert rd; decide +kernel
  · decide
  · decide
  · obtain ⟨s1, v, e, h1⟩ := ok_elim (devRead (ringS rd) 0 1 (ringBase ringCtx + 8) 8 0) (fun s v => decide (bytesVal v.1 = rd) &&
      leafB (mtuWalk s 0 1 (ringBase ringCtx + 64 + 64 * (16 % 16))) &&
      okThen (devWrite (mtuWalk s 0 1 (ringBase ringCtx + 64 + 64 * (16 % 16))).1 0 1 (ringBase ringCtx + 64 + 64 * (16 % 16)) (valBytes 8 16 ++ ringWait.bytes) 0
        (devProv 1 0xFFFFFD) 27) (fun _ _ => true)) (by revert rd; decide +kernel)
    simp only [Bool.and_eq_true, decide_eq_true_eq] at h1
    obtain ⟨⟨h1, h2⟩, h3⟩ := h1
    obtain ⟨s2, w', e2, -⟩ := ok_elim _ _ h3
    refine ⟨s1, v.1, v.2, e, h1, ?_⟩
    obtain ⟨s3, ew⟩ := leaf_elim _ h2
    exact ⟨s3, _, _, _, s2, w', ew, by decide, by rw [ew] at e2; exact e2⟩

def bucketCtx : Context := { ctx with regs := { CtxRegs.start with tbucket := 0x00100001 } }
def bucketS : State := { mem grp with contexts := [(1, bucketCtx)] }
/-- Frame 8 in use, with and without AC and Q, under the hand of controller 0. -/
def sweepS (ac q : Bool) : State := { mem grp with frames := [(8, ⟨1, ac, q, 0, 1, 4⟩)], ctls := [(0, ⟨8, 4, 8, true, [], []⟩)] }
theorem witness_Upkeep : (coreGoes bucketS 0 = true ∧ bucketS.context? (coreAsid bucketS 0) = some bucketCtx ∧ (3 : Nat) ≠ coreDie 0 ∧
      bucketCtx.regs.tbucket.extractLsb' 0 16 ≠ 0) ∧
    (inMemory (0x10000 / 128 * 128) = true ∧ memUp base (paDie (0x10000 / 128 * 128)) = true) ∧
    (∀ b ∈ [true, false], memUp (sweepS b false) (0 / 2) = true ∧ ((sweepS b false).ctl 0).running = true ∧
      ((sweepS b false).ctl 0).cold.length < min ((sweepS b false).ctl 0).high 65536 ∧ (sweepS b false).frame (0 * 2 ^ 22 + ((sweepS b false).ctl 0).hand % 2 ^ 22) = ⟨1, b, false, 0, 1, 4⟩) ∧
    bucketS.rebases = [] := by decide +kernel

/-- The log of 16 records at an address, and the record 17 of a group; the page table's pointer page, or its leaf, changed. -/
def logC (en : Bool) (base : DWord) : Context := { ctx with regs := { ctx.regs with elctl := if en then 0x80000004 else 4, elbase := base, elseq := 17 } }
def logS (en : Bool) (base : DWord) : State := { mem grp with contexts := [(1, logC en base)] }
def logPut (base : DWord) : State :=
  { logS true base with groups := tabPut (logS true base).groups 1 { grp with flags := grp.flags ||| 1, dropped := 0 }
                        contexts := tabPut (logS true base).contexts 1 { logC true base with regs := { (logC true base).regs with elseq := 18 } } }
def rights (n : Nat) (s : State) : State := { s with hbm := cellWrites s.hbm 0x104000 (valBytes 8 (1 + 15 * 32 + 1024 + 2 * 2048 - 64 * (1 - n / 2) + n % 2 * 2)) }
def walkIs (r : State × Walk) (p : DWord → Bool) : Bool := match r.2 with | .leaf e _ _ => p e | _ => false
theorem walkIs_elim (r : State × Walk) (p : DWord → Bool) (h : walkIs r p = true) : ∃ u e level at_, r = (u, .leaf e level at_) ∧ p e = true := by
  obtain ⟨u, w⟩ := r
  cases w with
  | leaf e l k => exact ⟨u, e, l, k, rfl, h⟩
  | _ => cases h
theorem witness_Log : (∀ en ∈ [true, false], (logS en 0x20010).group? 1 = some grp ∧ (logS en 0x20010).context? grp.asid = some (logC en 0x20010) ∧
      (logC en 0x20010).regs.elctl.getLsbD 31 = en) ∧ grp.window = none ∧ (1 : Flags) &&& 7 ≠ 0 ∧ (8 : Flags) &&& 7 = 0 ∧
    Claims.LogPlace (logC true 0x20010) 17 0x20020 ∧ Claims.LogPlace (logC true 0x1000000000) 17 0x1000000020 ∧
    (∃ u, mtuWalk (logPut 0x1000000000) 0 1 0x1000000020 = (u, .invalid)) ∧
    (∃ u e l k, mtuWalk (logPut 0x20010) 0 1 0x20020 = (u, .leaf e l k) ∧ pteP e = true) :=
  ⟨by decide +kernel, rfl, by decide, by decide, ⟨by decide, by decide, by decide⟩, ⟨by decide, by decide, by decide⟩, walk_of _ _ _ _ _ (by decide +kernel),
    walkIs_elim _ pteP (by decide +kernel)⟩
theorem witness_LogWritten : ∃ u e l k v w, mtuWalk (logPut 0x20010) 0 1 0x20020 = (u, .leaf e l k) ∧ (pteP e = true ∨ pteRights e &&& 2 = 0) ∧
    groupWrite u grp.core grp.asid 0x20020 (Claims.logRecord grp 17 1 0 0x1000) grp.view (provOf grp.asid grp.task.serial grp.task.entry 0x1000) = (v, .ok w) := by
  obtain ⟨u, e, l, k, h, he⟩ := walkIs_elim (mtuWalk (logPut 0x20010) 0 1 0x20020) pteP (by decide +kernel)
  have a : okThen (groupWrite (mtuWalk (logPut 0x20010) 0 1 0x20020).1 grp.core grp.asid 0x20020 (Claims.logRecord grp 17 1 0 0x1000) grp.view
    (provOf grp.asid grp.task.serial grp.task.entry 0x1000)) (fun _ _ => true) = true := by decide +kernel
  rw [h] at a
  obtain ⟨v, w, b, -⟩ := ok_elim _ _ a
  exact ⟨u, e, l, k, v, w, h, Or.inl he, b⟩
/-- The leaf is absent with the right W; it is present without W, so that the write is refused. -/
theorem witness_LogLost : (∃ u e l k, mtuWalk (rights 2 (logPut 0x20010)) 0 1 0x20020 = (u, .leaf e l k) ∧ (!pteP e && decide (pteRights e &&& 2 ≠ 0)) = true) ∧
    ∃ u e l k v d, mtuWalk (rights 1 (logPut 0x20010)) 0 1 0x20020 = (u, .leaf e l k) ∧ (pteP e = true ∨ pteRights e &&& 2 = 0) ∧
      groupWrite u grp.core grp.asid 0x20020 (Claims.logRecord grp 17 1 0 0x1000) grp.view (provOf grp.asid grp.task.serial grp.task.entry 0x1000) = (v, .error (6, d)) := by
  refine ⟨walkIs_elim _ _ (by decide +kernel), ?_⟩
  obtain ⟨u, e, l, k, h, he⟩ := walkIs_elim (mtuWalk (rights 1 (logPut 0x20010)) 0 1 0x20020) pteP (by decide +kernel)
  have a : (match (groupWrite (mtuWalk (rights 1 (logPut 0x20010)) 0 1 0x20020).1 grp.core grp.asid 0x20020 (Claims.logRecord grp 17 1 0 0x1000) grp.view
    (provOf grp.asid grp.task.serial grp.task.entry 0x1000)).2 with | .error (6, _) => true | _ => false) = true := by decide +kernel
  rw [h] at a
  generalize hr : groupWrite u grp.core grp.asid 0x20020 (Claims.logRecord grp 17 1 0 0x1000) grp.view (provOf grp.asid grp.task.serial grp.task.entry 0x1000) = r at a
  obtain ⟨v, x⟩ := r
  simp only at a
  split at a
  · exact ⟨u, e, l, k, v, _, h, Or.inl he, hr⟩
  · cases a
/-- An uncorrectable sector of the page table. -/
theorem witness_LogPoison : ∃ u, mtuWalk { logPut 0x20010 with hbmPoison := [0x104000 / 32] } 0 1 0x20020 = (u, .poison) := walk_of _ _ _ _ _ (by decide +kernel)

/-! ### Steps of the deque, the stager and the pipelines -/

def notYet : Entry := { entry with takeable := false, waits := [5], spawnGrp := 1 }
/-- Core 1 has nothing to run and steals; core 0, its first victim, offers `l`. -/
def stealing (st : StealSt) (l : List Entry) : State := (withDeque l (mem grp)).modCore 1 (fun c => { c with domain := some none, steal := st })
def idleSt : StealSt := ⟨0, 0, false, none⟩
theorem witness_Steal : ((withDeque [notYet] (mem grp)).core 0).deque.find? (fun e => e.serial == BitVec.ofNat 32 9) = some notYet ∧
    coreRuns (withDeque [notYet] (mem grp)) 0 = true ∧ allReturned (withDeque [notYet] (mem grp)) 1 [5] = true ∧
    (∀ l ∈ [[entry], []], mayStealNow (stealing idleSt l) 1 = true ∧ ((stealing idleSt l).core 1).steal = idleSt) ∧
    (victims 1)[0]?.map (fun v => match v with | .core c => c | _ => 999) = some 0 ∧
    (match (victims 1)[0]? with | some v => stealFrom (stealing idleSt [entry]) 1 v | none => none) = some (0, entry) ∧
    (match (victims 1)[0]? with | some v => stealFrom (stealing idleSt []) 1 v | none => some (0, entry)) = none ∧
    ((stealing { idleSt with flight := some (entry, 0) } []).core 1).steal.flight = some (entry, 0) ∧ coreRuns (stealing { idleSt with flight := some (entry, 0) } []) 1 = true ∧
    dequeFull (stealing { idleSt with flight := some (entry, 0) } []) 1 = false ∧ ((stealing { idleSt with backoff := true } []).core 1).steal.backoff = true := by
  decide +kernel

/-- A descriptor of rank 1 at 0x30000: 16 elements of i8 from 0x38000 on, in one tile. -/
def desc1 : List Byte := valBytes 8 0x38000 ++ valBytes 4 (0x100 + Ty.i8.code) ++ valBytes 4 16 ++ valBytes 4 16 ++ List.replicate 108 0
def tile1 : Tensor := ⟨0x38000, .i8, 1, 16 :: List.replicate 13 1, 16 :: List.replicate 13 1, List.replicate 14 0, 0⟩
/-- An entry with one staging name: that tile into handle 5. -/
def staged (x : Staging) : Entry := { entry with clo := { entry.clo with flags := 1, stage := [0x30000, 0, 0, 5, 0, 0, 0, 0] }, staging := x }
def stageS (x : Staging) (h : HandleSt) : State :=
  let s := withHandles [(5, { free with st := h })] (withDeque [staged x] { mem grp with contexts := [(1, { ctx with regs := { ctx.regs with stageahead := 4 } })] })
  { s with hbm := cellWrites s.hbm 0x30000 desc1 }
def isTensor (r : Except Nat Tensor) : Bool := match r with | .ok t => decide (t = tile1) | .error _ => false
theorem witness_Staging : (coreGoes (stageS .notBegun .free) 0 = true ∧ stageOrder (stageS .notBegun .free) 0 = staged .notBegun :: [] ∧
      (staged .notBegun).nextName = some (0, 5) ∧ stageReady (stageS .notBegun .free) (staged .notBegun) = true ∧ tile1.tileBytes ≤ free.size ∧
      ∃ s', stageTensor (stageS .notBegun .free) 0 (staged .notBegun) 0 = (s', .ok tile1) ∧ handle? s' 0 5 = some free) ∧
    (coreGoes (stageS (.begun [5] []) .filling) 0 = true ∧ findEntry (stageS (.begun [5] []) .filling) 0 (BitVec.ofNat 32 9) = some (staged (.begun [5] [])) ∧
      ∃ s1 s2 bs, stageTensor (stageS (.begun [5] []) .filling) 0 (staged (.begun [5] [])) 0 = (s1, .ok tile1) ∧
        readTile s1 (coreDie 0) (coreAsid s1 0) tile1 ((staged (.begun [5] [])).stageName 0).2 (staged (.begun [5] [])).stamp = (s2, .ok bs) ∧
        handle? s1 0 5 = some { free with st := .filling } ∧ handle? s2 0 5 = some { free with st := .filling } ∧ cellsWf (s2.core 0).scratch = true) := by
  refine ⟨⟨by decide +kernel, by decide +kernel, by decide +kernel, by decide +kernel, by decide +kernel, ?_⟩, by decide +kernel, by decide +kernel, ?_⟩
  · obtain ⟨s1, d, e, h⟩ := ok_elim (stageTensor (stageS .notBegun .free) 0 (staged .notBegun) 0) (fun s d => decide (d = tile1) && decide (handle? s 0 5 = some free))
      (by decide +kernel)
    simp only [Bool.and_eq_true, decide_eq_true_eq] at h
    exact ⟨s1, by rw [e, h.1], h.2⟩
  · obtain ⟨s1, d, e, h⟩ := ok_elim (stageTensor (stageS (.begun [5] []) .filling) 0 (staged (.begun [5] [])) 0)
      (fun s d => decide (d = tile1) && decide (handle? s 0 5 = some { free with st := .filling }) &&
        okThen (readTile s (coreDie 0) (coreAsid s 0) tile1 ((staged (.begun [5] [])).stageName 0).2 (staged (.begun [5] [])).stamp)
          (fun s _ => decide (handle? s 0 5 = some { free with st := .filling }) && cellsWf (s.core 0).scratch)) (by decide +kernel)
    simp only [Bool.and_eq_true, decide_eq_true_eq] at h
    obtain ⟨⟨h1, h2⟩, h3⟩ := h
    obtain ⟨s2, bs, e2, h4⟩ := ok_elim _ _ h3
    simp only [Bool.and_eq_true, decide_eq_true_eq] at h4
    subst h1
    exact ⟨s1, s2, bs, e, e2, h2, h4.1, h4.2⟩

/-- A pipeline with two stages on one cluster. -/
def pipes2 (x y : Stage) (d : Option (Nat × Nat)) (un : List Nat) (g : Group) : State :=
  ({ mem g with pipes := [(0, { pipe1 x with stages := [x, y], rootDone := true, unassigned := un })], contexts := [(1, { ctx with regs := { arena with falen := 0x2000 } })] } :
    State).modCore 0 (fun c => { c with domain := some (some (0, 0)), drainTo := d })
def hidden : Stage := { stg with slots := [{ slot0 with visible := false, waits := [5], clo := { entry.clo with future := 0x40000 } }] }
def shown : Stage := { stg with slots := [{ slot0 with clo := { entry.clo with future := 0x40000 } }] }
def enqWaiter : Group := { grp with inWord := some .again }
def served : Stage := { stg with waits := [(1, slot0)] }
theorem witness_Arcade : (stage? (pipes2 hidden stg none [] grp) 0 0 = some hidden ∧ (hidden.slots.find? (fun y => y.num == 0)).isSome = true ∧
      pipeRuns (pipes2 hidden stg none [] grp) 0 = true ∧ allReturned (pipes2 hidden stg none [] grp) 1 [5] = true) ∧
    (stage? (pipes2 served stg none [] enqWaiter) 0 0 = some served ∧ served.slots.length < served.cap ∧ pipeRuns (pipes2 served stg none [] enqWaiter) 0 = true ∧
      (pipes2 served stg none [] enqWaiter).group? 1 = some enqWaiter) := by decide +kernel

def taking : State := pipes2 shown stg none [] grp
def afterTake : State × Word := takeSerial (taking.modStage 0 0 (fun x => { x with slots := [] })) 1 0
theorem witness_Record : (taking.core 0).domain = some (some (0, 0)) ∧ (taking.core 0).drainTo = none ∧ coreRuns taking 0 = true ∧ pipeRuns taking 0 = true ∧
    (taking.core 0).deque = [] ∧ stage? taking 0 0 = some shown ∧ coreAsid taking 0 = 1 ∧
    (∀ y ∈ shown.slots, y.visible = true ∧ y.poison = false ∧ closureOk y.clo = true ∧ (ordinaryPlace taking 0 y.clo.demand none y.clo.scr).isSome = true ∧
      ((taking.context? 1).map (fun c => futureOk c.regs y.clo.future)) = some true ∧
      ((taking.context? 1).map (fun c => regionBase c.regs (freeRegion taking 1))) = some 0x41000 ∧
      okThen ((), (groupWrite afterTake.1 0 1 0x41000 (headerBytes y.clo.future 0 afterTake.2) y.stamp (provOf 1 afterTake.2 y.clo.entry y.clo.entry)).2) (fun _ _ => true) = true) := by
  decide +kernel

/-- The stage lacks cores; or none does, since nothing is in demand. -/
def calm : State := pipes2 stg stg none [] grp
def lacking : State := pipes2 { shown with min := 1 } stg none [3, 7] grp
theorem witness_Roundabout : (∀ s ∈ [lacking, calm], pipeRuns s 0 = true ∧ (tabGet? s.pipes 0).isSome = true) ∧ coreIdle lacking 3 = true ∧
    ((tabGet? calm.pipes 0).map (fun p => (largest (fun x => x.target - x.cores) (targets (poolSize calm p) p.hyst (wants p))).isNone)) = some true ∧
    ((tabGet? lacking.pipes 0).map (fun p => decide (poolSize lacking p < 16) && (largest (fun x => x.target - x.cores) (targets (poolSize lacking p) p.hyst (wants p))).isSome &&
      decide (listMin? p.unassigned = some 3))) = some true ∧
    (let s := { pipes2 stg shown (some (0, 1)) [] grp with groups := [] }
     (s.core 0).drainTo = some (0, 1) ∧ coreRuns s 0 = true ∧ coreIdle s 0 = true ∧ stage? s 0 1 = some shown ∧ shown.retired = false ∧ shown.slots ≠ []) := by
  decide +kernel

/-! ### Steps of the matrix engine, the cluster and the copy engines -/

def command (i : Instr) (regs : List Word) : MCmd :=
  { id := 6, grp := 1, gid := 0, part := 0, asid := 1, instr := i, op := 5, regs := regs, batch := 0, stamp := 0, waits := [5], rnd := 0, seed := 0
    win := (0x2000, 0x7BC00), fail := none, started := false, step := 0, held := false, addr := 0, descs := [], prov := 0, out := [], outFlags := 0 }
def withCommand (f : CoreS → CoreS) (s : State) : State := s.modCore 0 f
def epiHandle : Handle := { free with size := 1024 }
def acceptS (i : Instr) : State := withHandles [(0, epiHandle)] (withCommand (fun c => { c with waiting := [command i []] }) (inState grp))
theorem witness_Accept : (∀ i ∈ [.mloop mloopW, .mzero mzeroW, .epi epiW], findWaiting (acceptS i) 6 = some (0, command i []) ∧ coreGoes (acceptS i) 0 = true ∧
      ((acceptS i).core 0).queue.length < 32 ∧ ((acceptS i).core 0).waiting.takeWhile (fun x => x.id != 6) = [] ∧ allReturned (acceptS i) 1 [5] = true ∧
      (acceptS i).group? 1 = some grp ∧ handle? (acceptS i) 0 0 = some epiHandle) ∧
    mloopW.imm.getLsbD 25 = false ∧ mloopW.imm.getLsbD 26 = false ∧ ((blockRegs grp epiW.a 7).getD 6 0).toNat % 64 = 0 ∧ epiHandle.st = .free ∧
    epiBytes epiW ≤ epiHandle.size := by decide +kernel

/-- A descriptor of rank 2 at 0x30000: one row of 128 e4m3 elements at 0x38000. -/
def desc2 : List Byte :=
  valBytes 8 0x38000 ++ valBytes 4 (0x200 + Ty.e4m3.code) ++ valBytes 4 128 ++ valBytes 4 128 ++ List.replicate 12 0 ++
    valBytes 4 1 ++ valBytes 4 1 ++ valBytes 8 128 ++ List.replicate 80 0
def withDesc (s : State) : State := { s with hbm := cellWrites s.hbm 0x30000 desc2 }
def mloopRegs : List Word := [0x30000, 0, 0x30000, 0, 0, 0, 0, 0, 0, 0]
def startC : MCmd := command (.mloop mloopW) mloopRegs
def startS : State := withDesc (withCommand (fun c => { c with queue := [startC] }) (mem grp))
theorem witness_MloopStart : headCmd startS 0 = some startC ∧ startC.started = false ∧ startC.held = false ∧
    ∃ s1 s2 ta tb, srcTensor startS 0 startC false (startC.pair 0) = (s1, ta) ∧ tensorFault ta = none ∧ srcTensor s1 0 startC false (startC.pair 2) = (s2, tb) ∧
      tensorFault tb = none ∧ startFail s2 0 startC ta tb = none := by
  refine ⟨by decide +kernel, rfl, rfl, _, _, _, _, rfl, ?_, rfl, ?_, ?_⟩ <;> decide +kernel

/-- The first of two steps, A from handle 0 and B from the tensor. -/
def stepW : W := w4 .i8 (.v 0) (.s 4) (.v 0) (.v 0) (BitVec.ofNat 32 (2 + 2 ^ 25))
def stepC : MCmd := { command (.mloop stepW) mloopRegs with started := true, descs := List.replicate 256 0 ++ desc2 ++ List.replicate 128 0 }
def stepHandle : Handle := { free with st := .full, size := 24576, reads := 1 }
def stepS : State := withHandles [(0, stepHandle)] (withCommand (fun c => { c with queue := [stepC] }) (mem grp))
/-- The second step. -/
def lastC : MCmd := { stepC with step := 1 }
def lastS : State := withHandles [(0, stepHandle)] (withCommand (fun c => { c with queue := [lastC] }) (mem grp))
def stepB : GlobalSrc := ⟨⟨0x38000, .e4m3, 2, [128, 1] ++ List.replicate 12 1, [128, 1] ++ List.replicate 12 1, [0, 128] ++ List.replicate 12 0, 0⟩, 0, 0, 0⟩
def isHandle (x : Option (GlobalSrc ⊕ Handle)) : Bool := match x with | some (.inr h) => decide (h = stepHandle) | _ => false
def isGlobal (x : Option (GlobalSrc ⊕ Handle)) : Bool := match x with | some (.inl b) => decide (b.t = stepB.t ∧ b.row = 0 ∧ b.off = 0 ∧ b.inc = 0) | _ => false
theorem isHandle_elim (x) (h : isHandle x = true) : x = some (.inr stepHandle) := by
  unfold isHandle at h; split at h
  · rw [of_decide_eq_true h]
  · cases h
theorem isGlobal_elim (x) (h : isGlobal x = true) : x = some (.inl stepB) := by
  unfold isGlobal at h; split at h
  · rename_i b; obtain ⟨h1, h2, h3, h4⟩ := of_decide_eq_true h; cases b; simp_all [stepB]
  · cases h
def stepReader : LineReader := tileReader stepS 0 stepC.asid stepC.stamp
theorem witness_LastStep : headCmd lastS 0 = some lastC ∧ lastC.started = true ∧ lastC.held = false ∧ lastC.step + 1 = mloopK stepW ∧
    (∀ k, k < mloopM stepW * mloopN stepW → (tileOf lastS 0 (mloopAcc stepW + k)).poison = false) ∧
    isHandle (operandSrc lastS 0 lastC false) = true ∧ isGlobal (operandSrc lastS 0 lastC true) = true ∧
    okThen (readRows (tileReader lastS 0 lastC.asid lastC.stamp) lastS 0 (.inr stepHandle) (mloopFmt stepW) (32 * mloopM stepW) lastC.step (List.range (32 * mloopM stepW)))
      (fun s _ => okThen (readRows (tileReader lastS 0 lastC.asid lastC.stamp) s 0 (.inl stepB) (mloopFmt stepW) (32 * mloopN stepW) lastC.step (List.range (32 * mloopN stepW)))
        (fun _ _ => true)) = true := by
  refine ⟨by decide +kernel, rfl, rfl, by decide, by decide +kernel, by decide +kernel, by decide +kernel, by decide +kernel⟩
/-- Rows of two chunks of int8 and of binary16 elements, and an epi. -/
def ones (x : FVal) : List (List Elem) := List.replicate 32 (List.replicate 64 (x, false))
theorem witness_Arithmetic : (1023 : Nat) < 1024 ∧ (ones (.num true 128 0)).length = 32 ∧ (∀ r ∈ ones (.num true 128 0) ++ ones (.inf false), r.length = 32 * 2) ∧
    (⟨true, false, []⟩ : Tile).isInt = true ∧ (∀ e ∈ (ones (.num true 128 0)).getD 31 [] ++ (ones (.num true 128 0)).getD 0 [], ∃ s m, e.1 = .num s m 0) ∧
    (command (.epi epiW) []).instr = .epi epiW ∧ 1023 < 1024 * epiM epiW * epiN epiW := by
  refine ⟨by decide, rfl, ?_, rfl, ?_, rfl, by decide⟩
  · intro r h
    simp only [ones, List.mem_append, List.mem_replicate] at h
    rcases h with ⟨-, rfl⟩ | ⟨-, rfl⟩ <;> rfl
  · intro e h
    simp [ones] at h
    exact ⟨true, 128, by rw [h]⟩
theorem witness_MloopStep : headCmd stepS 0 = some stepC ∧ stepC.started = true ∧ stepC.held = false ∧ stepC.step + 1 ≠ mloopK stepW ∧
    (∀ k, k < mloopM stepW * mloopN stepW → (tileOf stepS 0 (mloopAcc stepW + k)).poison = false) ∧
    operandSrc stepS 0 stepC false = some (.inr stepHandle) ∧ operandSrc stepS 0 stepC true = some (.inl stepB) ∧
    ∃ s1 s2 as bs, readRows stepReader stepS 0 (.inr stepHandle) (mloopFmt stepW) (32 * mloopM stepW) stepC.step (List.range (32 * mloopM stepW)) = (s1, .ok as) ∧
      readRows stepReader s1 0 (.inl stepB) (mloopFmt stepW) (32 * mloopN stepW) stepC.step (List.range (32 * mloopN stepW)) = (s2, .ok bs) := by
  refine ⟨by decide +kernel, rfl, rfl, by decide, by decide +kernel, isHandle_elim _ (by decide +kernel), isGlobal_elim _ (by decide +kernel), ?_⟩
  obtain ⟨s1, as, e, h⟩ := ok_elim (readRows stepReader stepS 0 (.inr stepHandle) (mloopFmt stepW) (32 * mloopM stepW) stepC.step (List.range (32 * mloopM stepW)))
    (fun s _ => okThen (readRows stepReader s 0 (.inl stepB) (mloopFmt stepW) (32 * mloopN stepW) stepC.step (List.range (32 * mloopN stepW))) (fun _ _ => true))
    (by decide +kernel)
  obtain ⟨s2, bs, e2, -⟩ := ok_elim _ _ h
  exact ⟨s1, s2, as, bs, e, e2⟩

def engineS (i : Instr) : State := withHandles [(0, epiHandle)] (withCommand (fun c => { c with queue := [command i (List.replicate 6 0xFFFFFFFF ++ [0])] }) (inState grp))
def doneC : MCmd := { command (.epi epiW) (List.replicate 6 0xFFFFFFFF ++ [0]) with started := true, out := [1, 2, 3] }
def doneS : State := withHandles [(0, { epiHandle with st := .filling })] (withCommand (fun c => { c with epis := [doneC] }) (inState grp))
theorem witness_Engine : (∀ i ∈ [.mzero mzeroW, .epi epiW], headCmd (engineS i) 0 = some (command i (List.replicate 6 0xFFFFFFFF ++ [0])) ∧
      (batchesOf (engineS i) 0 1).closed = []) ∧
    vectorOk doneC (doneC.reg 0) (epiN epiW) = true ∧ vectorOk doneC (doneC.reg 1) (epiN epiW) = true ∧ vectorOk doneC 0x2000 (epiN epiW) = true ∧
    (∀ k, k < epiM epiW * epiN epiW → (tileOf (engineS (.epi epiW)) 0 (epiAcc epiW + k)).poison = false) ∧
    vectorBad (engineS (.epi epiW)) 0 (doneC.reg 0) (epiN epiW) = false ∧ vectorBad (engineS (.epi epiW)) 0 (doneC.reg 1) (epiN epiW) = false ∧
    findEpi doneS 6 = some (0, doneC) ∧ coreGoes doneS 0 = true ∧ handle? doneS 0 (doneC.reg 6 % 64) = some { epiHandle with st := .filling } ∧
    (batchesOf doneS 0 1).closed = [] ∧ cellsWf (doneS.core 0).scratch = true := by decide +kernel

/-- Puts of 16 bytes to core 3 at the end of the scratchpad: waiting, and with its bytes read; without a barrier word and with the last one. -/
def put1 (bar : Nat) (started : Bool) : Put :=
  { id := 6, grp := 1, op := 5, asid := 1, gid := 0, core := 0, block := [3, 0x7FFF0, 0x2000, 16, BitVec.ofNat 32 bar], waits := [5], stamp := 0, started := started
    bytes := if started then List.replicate 16 7 else [], bad := [], prov := 0 }
def putS (p : Put) : State := (inState grp).modCluster 0 (fun c => { c with puts := [p] })
theorem witness_Puts : ∀ b ∈ [0xFFFFFFFF, 0x1FF8], (∀ st ∈ [false, true], findPut (putS (put1 b st)) 6 = some (0, put1 b st, []) ∧
      put1 b st ∈ ((putS (put1 b st)).cluster 0).puts ∧ coreRuns (putS (put1 b st)) 0 = true ∧ allReturned (putS (put1 b st)) 1 [5] = true) ∧
    blk (put1 b true).block 3 % 4 = 0 ∧ (put1 b true).bytes.length = blk (put1 b true).block 3 ∧ cellsWf ((putS (put1 b true)).core 3).scratch = true ∧
    (blk (put1 b true).block 4 = 0xFFFFFFFF ∨ (blk (put1 b true).block 4 + 8 ≤ blk (put1 b true).block 1 ∧ scratchBad (putS (put1 b true)) 3 (blk (put1 b true).block 4) 8 = false)) := by
  decide +kernel

def dsldR : Req := { req .dsld .queued with lanes := [⟨0, dsldKey 3 0x2000, 0, 0⟩, ⟨95, dsldKey 3 0x7FFFC, 0, 0⟩] }
def mcast1 (imm : Nat) (block : List Word) : Mcast :=
  { id := 6, grp := 1, op := 5, asid := 1, gid := 0, core := 0, instr := .mcast (dwW imm), block := block, waits := [5], stamp := 0, buf := none, granted := false
    left := [0, 3], passed := 0, held := false, addr := 0, failed := false, prov := 0 }
def mcastS (m : Mcast) : State := withHandles [(0, { epiHandle with st := .full })] (withDesc ((mem grp).modCluster 0 (fun c => { c with mcasts := [m] })))
def fromH : Mcast := mcast1 1 [0, 0, 0, 9, 0x2000, 0x1FF8]
def fromG : Mcast := mcast1 0 [0x30000, 0, 0, 9, 0x2000, 0xFFFFFFFF]
/-- With its tile in the buffer, and granted. -/
def read (m : Mcast) (g : Bool) : Mcast := { m with buf := some (List.replicate 16 7), granted := g }
theorem witness_Dsld2 : (asking (opG (.dsld dsldW) .dsld) dsldR).req? 7 = some dsldR ∧ mayLeave (asking (opG (.dsld dsldW) .dsld) dsldR) dsldR = true ∧
    (asking (opG (.dsld dsldW) .dsld) dsldR).requests.takeWhile (fun x => x.id != 7) = [] ∧
    (∀ a ∈ dsldR.lanes, scratchBad (asking (opG (.dsld dsldW) .dsld) dsldR) (dsldCore 0 a.addr) (dsldOff a.addr) 4 = false) ∧ networkBusy (mcastS fromH) 0 = true := by
  decide +kernel
theorem witness_McastRead : (∀ m ∈ [fromH, fromG], findMcast (mcastS m) 6 = some (0, m) ∧ m ∈ ((mcastS m).cluster 0).mcasts ∧ coreRuns (mcastS m) 0 = true ∧
      allReturned (mcastS m) 1 [5] = true) ∧
    fromH.fromHandle = true ∧ handle? (mcastS fromH) 0 (blk fromH.block 0 % 64) = some { epiHandle with st := .full } ∧ mcastBad fromH epiHandle.size = none ∧
    bufferRoom (mcastS fromH) 0 epiHandle.size = true ∧ scratchBad (mcastS fromH) 0 epiHandle.off epiHandle.size = false ∧ fromG.fromHandle = false ∧
    ∃ s1 s2 bs, readTensor (mcastS fromG) (coreDie 0) 1 (blk fromG.block 0 + 2 ^ 32 * blk fromG.block 1) fromG.stamp = (s1, .ok stepB.t) ∧
      stepB.t.inRange (blk fromG.block 2) = true ∧ mcastBad fromG stepB.t.tileBytes = none ∧ bufferRoom s1 0 stepB.t.tileBytes = true ∧
      readTile s1 (coreDie 0) 1 stepB.t (blk fromG.block 2) fromG.stamp = (s2, .ok bs) := by
  refine ⟨by decide +kernel, by decide, by decide +kernel, by decide, by decide +kernel, by decide +kernel, by decide, ?_⟩
  have h : (match readTensor (mcastS fromG) (coreDie 0) 1 (blk fromG.block 0 + 2 ^ 32 * blk fromG.block 1) fromG.stamp with
    | (s, .ok t) => decide (t = stepB.t) && bufferRoom s 0 stepB.t.tileBytes &&
        okThen (readTile s (coreDie 0) 1 stepB.t (blk fromG.block 2) fromG.stamp) (fun _ _ => true)
    | _ => false) = true := by decide +kernel
  split at h
  · rename_i s t e
    simp only [Bool.and_eq_true, decide_eq_true_eq] at h
    obtain ⟨⟨rfl, h2⟩, h3⟩ := h
    obtain ⟨s2, bs, e2, -⟩ := ok_elim _ _ h3
    exact ⟨s, s2, bs, e, by decide +kernel, by decide +kernel, h2, e2⟩
  · cases h
def toH : Mcast := mcast1 3 [0, 0, 0, 1, 0, 0xFFFFFFFF]
def grantS (m : Mcast) : State := withHandles [(0, epiHandle)] ((mem grp).modCluster 0 (fun c => { c with mcasts := [m] }))
theorem witness_McastGrant : (∀ m ∈ [read fromH false, read { toH with left := [0] } false], findMcast (grantS m) 6 = some (0, m) ∧ m ∈ ((grantS m).cluster 0).mcasts ∧
      coreRuns (grantS m) 0 = true ∧ grantable (grantS m) 0 m = true ∧ ((grantS m).cluster 0).mcasts.takeWhile (fun q => q.id != 6) = [] ∧
      (m.toHandle = true → ∀ k ∈ m.left, handleTakes (grantS m) k (blk m.block 4 % 64) ((m.buf.map List.length).getD 0) = true)) ∧
    (∀ m ∈ [read fromH true, read fromG true], findMcast (mcastS m) 6 = some (0, m) ∧ 3 ∈ m.left ∧ coreRuns (mcastS m) 0 = true ∧ m.toHandle = false ∧
      cellsWf ((mcastS m).core 3).scratch = true ∧
      (blk m.block 5 = 0xFFFFFFFF ∨ (blk m.block 5 + 8 ≤ blk m.block 4 ∧ scratchBad (mcastS m) 3 (blk m.block 5) 8 = false))) := by decide +kernel

/-- A copy of the tile at 0x30000 to offset 0x2000 of core 3, with the barrier word of core 11 at 0x1FF8. -/
def copy1 : Copy :=
  { id := 6, grp := some 1, pkt := none, op := 5, asid := 1, gid := 0, core := 0, imm := 24, block := [0x30000, 0, 0x2000, 3, 0, 0, 0x1FF8, 11, 0], waits := [5]
    stamp := 0, started := false, descs := [], size := 0, done := [], arrStamp := 0, bytes := 0, fault := none, held := false, engine := false, prov := 0 }
/-- The copy on an engine. -/
def copy2 : Copy := { copy1 with engine := true }
def tileDescs : List Byte := desc2 ++ List.replicate 128 0 ++ List.replicate 256 0
def begun : Copy := { copy2 with started := true, descs := tileDescs, size := 128 }
def copied : Copy := { begun with done := [0], bytes := 128 }
def copyS (c : Copy) : State := withDesc ((mem grp).modDie 0 (fun d => { d with copies := [c] }))
theorem witness_CopyStart : findCopy (copyS copy1) 6 = some (0, copy1) ∧ copyReady (copyS copy1) 0 copy1 = true ∧ enginesBusy (copyS copy1) 0 < 64 ∧
    ((copyS copy1).die 0).copies.takeWhile (fun x => x.id != 6) = [] ∧ { copy1 with engine := true, held := false, fault := none } = copy2 ∧
    ∃ s1 descs, readDescs (copyS copy1) 0 copy2 = (s1, .ok descs) ∧ checkTile copy2 descs = none ∧ checkMatch copy2 descs = true ∧ checkRoom s1 copy2 descs = true ∧
      checkBarrier s1 0 copy2 descs = 0 := by
  refine ⟨by decide +kernel, by decide +kernel, by decide +kernel, by decide +kernel, by decide +kernel, ?_⟩
  obtain ⟨s1, d, e, h⟩ := ok_elim (readDescs (copyS copy1) 0 copy2) (fun s d => decide (checkTile copy2 d = none) && checkMatch copy2 d && checkRoom s copy2 d &&
    decide (checkBarrier s 0 copy2 d = 0)) (by decide +kernel)
  simp only [Bool.and_eq_true, decide_eq_true_eq] at h
  exact ⟨s1, d, e, h.1.1.1, h.1.1.2, h.1.2, h.2⟩
theorem witness_CopyPiece : findCopy (copyS begun) 6 = some (0, begun) ∧ pieceDue begun 0 = true ∧ copyRuns (copyS begun) 0 begun = true ∧ (128 : Nat) = min 128 (begun.size - 128 * 0) ∧
    (∃ s1 s2 w b bs, pieceRead (copyS begun) 0 begun (128 * 0) 128 = (s1, .ok bs) ∧ pieceWrite s1 0 begun (128 * 0) bs = (s2, .ok (w, b))) ∧
    findCopy (copyS copied) 6 = some (0, copied) ∧ copyRuns (copyS copied) 0 copied = true ∧ (∀ k ∈ copied.pieces, k ∈ copied.done) ∧ copied.bk = 1 ∧
    copied.coreOf (blk copied.block 7) = 11 ∧ blk copied.block 6 ≠ 0xFFFFFFFF ∧ scratchBad (copyS copied) 11 (blk copied.block 6) 8 = false ∧
    cellsWf ((copyS copied).core 11).scratch = true := by
  refine ⟨by decide +kernel, by decide +kernel, by decide +kernel, by decide, ?_, by decide +kernel, by decide +kernel, by decide +kernel, by decide, by decide +kernel, by decide,
    by decide +kernel, by decide +kernel⟩
  obtain ⟨s1, bs, e, h⟩ := ok_elim (pieceRead (copyS begun) 0 begun (128 * 0) 128) (fun s bs => match (pieceWrite s 0 begun (128 * 0) bs).2 with | .ok _ => true | _ => false)
    (by decide +kernel)
  split at h
  · rename_i v hv; exact ⟨s1, (pieceWrite s1 0 begun (128 * 0) bs).1, v.1, v.2, bs, e, by rw [← hv]⟩
  · cases h

def traveller : Group := { grp with migTo := some (108, 2), park := some .migrating, core := 0 }
def travelS : State := (inState traveller).modContext 1 (fun c => { c with clusters := [0, 9] })
theorem witness_Land : travelS.group? 1 = some traveller ∧ traveller.migTo = some (108, 2) ∧ sentReturned travelS 1 traveller = true ∧ coreRuns travelS 108 = true := by decide +kernel

/-! ### Steps of the Forum -/

/-- 64 bytes with some little-endian fields: offset, length, value. -/
def fields (l : List (Nat × Nat × Nat)) : List Byte := l.foldl (fun b x => putBytes b x.1 (valBytes x.2.1 x.2.2)) (List.replicate 64 0)
def packet (l : List (Nat × Nat × Nat)) : Packet :=
  { id := 20, queue := 4095, slot := 0x40000, asid := 1, priv := true, bytes := fields l, settled := List.replicate 6 false, negative := false, checked := false
    started := false, ctx := none, root := 0, pipe := none, code := none }
/-- The Forum runs; queue 4095 has the descriptor at 0xBFFC0: 16 slots from 0x40000 on, one of them written. -/
def qdesc (qp : Nat) : List Byte := valBytes 8 0x40000 ++ valBytes 4 (4 + 0x100 + 2 ^ 16 + 2 ^ 17 * qp + 2 ^ 18) ++ valBytes 4 0 ++ valBytes 8 1 ++ valBytes 8 0
def fq (mapped qp : Bool) (write : Nat) : Queue := { qx with mapped := mapped, log2n := 4, qp := qp, priv := true, write := write }
def forum (x : Queue) (g : Group) : State :=
  let s := queued x g
  { s with hbm := cellWrites (cellWrites s.hbm 0xBFFC0 (qdesc (if x.qp then 1 else 0))) 0x40000 (fields [(0, 1, 0x80)]), host := { s.host with boot := .run } }
def withPacket (p : Packet) (s : State) : State := { s with packets := [(20, p)] }
def ps (p : Packet) : State := withPacket p (forum (fq true true 0) grp)

def done1 : Packet := packet [(0, 1, 2)]
theorem witness_Complete : tabGet? (ps done1).packets 20 = some done1 ∧ done1.sig = 0 ∧ ∃ s' w, forumWrite { ps done1 with packets := tabDel (ps done1).packets 20 } done1.asid
    (done1.slot.toNat + 4) (valBytes 4 (2 ^ 31 + 256 * (0x21 % 256))) = (s', .ok w) := by
  refine ⟨by decide +kernel, by decide +kernel, ?_⟩
  obtain ⟨s', w, e, -⟩ := ok_elim (forumWrite { ps done1 with packets := tabDel (ps done1).packets 20 } done1.asid (done1.slot.toNat + 4) (valBytes 4 (2 ^ 31 + 256 * (0x21 % 256))))
    (fun _ _ => true) (by decide +kernel)
  exact ⟨s', w, e⟩

def takeS : State := forum (fq true true 1) grp
theorem witness_Take : tabGet? takeS.queues 4095 = some (fq true true 1) ∧ forumRuns takeS = true ∧ queuePackets takeS 4095 = [] ∧
    currentWrite takeS 4095 (fq true true 1) = (takeS, some 1) ∧ (fq true true 1).read < 1 ∧ slotReady takeS (fq true true 1) = true ∧
    (∃ s2 w, forumRead takeS 1 (slotAddr (fq true true 1) 0) 64 = (s2, .ok (fields [(0, 1, 0x80)], w))) ∧ (fields [(0, 1, 0x80)]).getD 0 0 ≠ 0 ∧
    (bytesAt (fields [(0, 1, 0x80)]) 0 4).testBit 8 = false ∧ (bytesAt (fields [(0, 1, 0x80)]) 0 4).testBit 9 = false ∧
    (∀ p : Packet, p.bytes = fields [(0, 1, 0x80)] → packetOk p = true ∧ (p.privileged = true → (fq true true 1).priv = true)) := by
  refine ⟨by decide +kernel, by decide +kernel, by decide +kernel, rfl, by decide, by decide +kernel, ?_, by decide +kernel, by decide +kernel, by decide +kernel, fun p hp => ⟨?_, fun _ => rfl⟩⟩
  · obtain ⟨s2, v, e, h⟩ := ok_elim (forumRead takeS 1 (slotAddr (fq true true 1) 0) 64) (fun _ v => decide (v.1 = fields [(0, 1, 0x80)])) (by decide +kernel)
    exact ⟨s2, v.2, by rw [e, ← of_decide_eq_true h]⟩
  · have h : (decide (bytesAt (fields [(0, 1, 0x80)]) 0 1 ≥ 0x80) : Bool) = true := by decide +kernel
    simp only [packetOk, Packet.firmware, Packet.type, Packet.at', hp, h, Bool.true_or]

def mapS : State := forum (fq false true 1) grp
theorem witness_Map : forumRuns mapS = true ∧ (mapS.queues.filter (fun p => p.2.mapped)).length < 32 ∧ tabGet? mapS.queues 4095 = some (fq false true 1) ∧
    ∃ s' y, loadQueue mapS 4095 = (s', some y) ∧ y.hasWork = true ∧ ∀ p ∈ mapS.queues, ∀ z, unmappedWork mapS p.1 = some z → y.since ≤ z.since := by
  refine ⟨by decide +kernel, by decide +kernel, by decide +kernel, ?_⟩
  have h : (match (loadQueue mapS 4095).2 with
    | some y => y.hasWork && mapS.queues.all (fun p => match unmappedWork mapS p.1 with | some z => decide (y.since ≤ z.since) | none => true)
    | none => false) = true := by decide +kernel
  revert h; cases loadQueue mapS 4095 with
  | mk s y => intro h; cases y with
    | none => cases h
    | some y =>
      simp only [Bool.and_eq_true, List.all_eq_true] at h
      exact ⟨s, y, rfl, h.1, fun p hp z hz => by have := h.2 p hp; rw [hz] at this; exact of_decide_eq_true this⟩

/-- Queue 4094 waits unmapped with work, and queue 4095 is empty. -/
def fullS : State :=
  let s := forum (fq true true 0) grp
  { s with queues := [(4094, { fq false true 1 with base := 0x41000 }), (4095, fq true true 0)], hbm := cellWrites s.hbm 0xBFF80 (qdesc 1) }
theorem witness_Unmap : tabGet? fullS.queues 4095 = some (fq true true 0) ∧ forumRuns fullS = true ∧ someUnmapped fullS = true ∧
    (currentWrite fullS 4095 (fq true true 0)).2 = some 0 := by decide +kernel

def signalP : Packet := packet [(0, 1, 2), (16, 8, 0x20000), (24, 8, 5)]
def andP (l : List (Nat × Nat × Nat)) : Packet := packet ((0, 1, 1) :: l)
def andQ (b : List Bool) : Packet := { andP [(56, 8, 0x20000)] with checked := true, settled := b }
/-- The signal at 0x20000 reads `v`. -/
def signalS (v : Nat) (p : Packet) : State := { ps p with hbm := cellWrites (ps p).hbm 0x20000 (valBytes 8 v) }
theorem witness_Signals : (packetOf (ps signalP) 20 2 = some signalP ∧ ∃ s' old, devAdd (ps signalP) 0 1 (signalP.at' 16 8) (signalP.at' 24 8) false = (s', .ok old)) ∧
    (∀ l ∈ [[], [(56, 8, 0x20000)]], packetOf (ps (andP l)) 20 1 = some (andP l)) ∧ (∀ k, k < 6 → signalAddr (andP []) k = 0) ∧ signalAddr (andP [(56, 8, 0x20000)]) 5 ≠ 0 ∧
    (∀ v ∈ [0, 2 ^ 63], ∀ q ∈ [List.replicate 5 true ++ [false], List.replicate 6 false], packetOf (signalS v (andQ q)) 20 1 = some (andQ q) ∧ (andQ q).settled.getD 5 true = false ∧
      ∃ s' b w, devRead (signalS v (andQ q)) 0 1 (signalAddr (andQ q) 5) 8 0 17 = (s', .ok (b, w)) ∧ tabGet? s'.packets 20 = some (andQ q) ∧ bytesVal b = v) := by
  refine ⟨⟨by decide +kernel, ?_⟩, by decide +kernel, by decide +kernel, by decide +kernel, fun v hv q hq => ⟨?_, ?_, ?_⟩⟩
  · obtain ⟨s', old, e, -⟩ := ok_elim (devAdd (ps signalP) 0 1 (signalP.at' 16 8) (signalP.at' 24 8) false) (fun _ _ => true) (by decide +kernel)
    exact ⟨s', old, e⟩
  · revert q; revert v; decide +kernel
  · revert q; decide +kernel
  · obtain ⟨s', x, e, h⟩ := ok_elim (devRead (signalS v (andQ q)) 0 1 (signalAddr (andQ q) 5) 8 0 17)
      (fun s x => decide (tabGet? s.packets 20 = some (andQ q)) && decide (bytesVal x.1 = v)) (by revert q; revert v; decide +kernel)
    simp only [Bool.and_eq_true, decide_eq_true_eq] at h
    exact ⟨s', x.1, x.2, e, h.1, h.2⟩

/-- COPY packets to core 3, with a good and a bad source offset. -/
def copyP (off : Nat) : Packet := packet [(0, 1, 6), (16, 8, 0x30000), (24, 8, off + 2 ^ 32 * 3), (52, 4, 8), (56, 1, 3)]
def firmP (st : Bool) : Packet := { packet [(0, 1, 0x80)] with started := st }
theorem witness_CopyFirm : (∀ p ∈ [(0x2000, 0), (0, 3)], packetOf (ps (copyP p.1)) 20 6 = some (copyP p.1) ∧ (3 : Nat) = (copyP p.1).at' 56 1 ∧
      copyStatus (ps (copyP p.1)) 432 (liveCore (ps (copyP p.1)) 1) 0 2 0 (wordsOf (copyP p.1).bytes 16 9) = p.2 ∧ copiesWaiting (ps (copyP p.1)) 3 < 1024) ∧
    BitVec.ofNat 32 ((copyP 0).at' 52 4) = (8 : Word) ∧ (∀ st ∈ [true, false], tabGet? (ps (firmP st)).packets 20 = some (firmP st) ∧ (firmP st).type ≥ 0x80) := by decide +kernel

/-! ### Answers of the firmware -/

def answerP (act : Nat) : Packet := packet [(0, 1, 5), (16, 1, act), (17, 1, 1), (24, 8, 77)]
def escG : Group := { handler with escal := some (77, 2), park := some .escalated, ifp := 0x20040, stackEnd := 0x30000 }
def answerS (i : Option WItem) (s : State) (act : Nat) : State := { s with packets := [(20, answerP act)], waitItems := match i with | some i => [(1, 77, i)] | none => [] }
theorem witness_Answers : (∀ act ∈ [1, 2, 3, 4], packetOf (answerS none (ps done1) act) 20 5 = some (answerP act) ∧ (answerP act).at' 16 1 = act ∧
      waitingItem (answerS none (ps done1) act) (answerP act) = none ∧
      (∀ i ∈ [WItem.group 1, .copy 0 6], waitingItem (answerS (some i) (ps done1) act) (answerP act) = some i)) ∧
    (WItem.group 1).isGroup = true ∧ (WItem.copy 0 6).isGroup = false ∧
    (let s := answerS (some (.group 1)) (inState escG) 1
     waitingItem s (answerP 1) = some (.group 1) ∧ s.context? (answerP 1).asid17 = some ctx ∧ s.group? 1 = some escG ∧ escG.escal = some (77, 2) ∧
      trapPcUsable escG = true ∧ escG.trap.cause.getLsbD 31 = false) := by decide +kernel

/-- A copy whose first piece waits for its page; and a multicast. -/
def heldC : Copy := { begun with fault := some (0, 0, 0x38000), held := true }
def heldS : State := answerS (some (.copy 0 6)) (copyS heldC) 3
def heldM : Mcast := { fromG with held := true }
theorem witness_Reissue : waitingItem heldS (answerP 3) = some (.copy 0 6) ∧ heldS.context? (answerP 3).asid17 = some ctx ∧
    (heldS.die 0).copies.find? (fun c => c.id == 6) = some heldC ∧
    waitingItem (answerS (some (.mcast 0 6)) (mcastS heldM) 4) (answerP 4) = some (.mcast 0 6) ∧
    ((answerS (some (.mcast 0 6)) (mcastS heldM) 4).cluster 0).mcasts.find? (fun m => m.id == 6) = some heldM := by decide +kernel

/-! ### Map operations -/

def mapP (l : List (Nat × Nat × Nat)) : Packet := packet ([(0, 1, 3), (17, 1, 1)] ++ l)
def opP (op : Nat) (l : List (Nat × Nat × Nat)) : Packet := mapP ((16, 1, op) :: l)
/-- Every page has a leaf below 2^36 and none at 2^40. -/
def pageP (op va : Nat) : Packet := opP op [(24, 8, va), (32, 8, leafE.toNat)]
theorem witness_Leaves : (∀ op ∈ [1, 2, 3, 4], mapIdle (ps (pageP op 0x10000)) (pageP op 0x10000) = true ∧ leafAt (ps (pageP op 0x10000)) 1 0x10000 = some (leafE, 1, 0x104000) ∧
      mapPacket (ps (pageP op 0x10000)) 20 op = some (pageP op 0x10000) ∧ (pageP op 0x10000).asid17 = 1 ∧ (pageP op 0x10000).at' 24 8 = 0x10000 ∧
      mapLeaf (pageP op 0x10000) = leafE ∧ mapIdle (ps (pageP op (2 ^ 40))) (pageP op (2 ^ 40)) = true ∧ leafAt (ps (pageP op (2 ^ 40))) 1 (2 ^ 40) = none ∧
      mapPacket (ps (pageP op (2 ^ 40))) 20 op = some (pageP op (2 ^ 40)) ∧ (pageP op (2 ^ 40)).at' 24 8 = 2 ^ 40) ∧
    pteLeaf leafE = true ∧ pteMalformed leafE 1 = false ∧ inMemory (pteFrame leafE * 2 ^ 14) = true ∧
    synonym (releaseLeaf (ps (pageP 1 0x10000)) leafE 1) (pteFrame leafE) (levelFrames 1) (granW leafE) = false ∧
    pteMalformed (setField leafE 22 38 (pteFrame leafE)) 1 = false ∧ granW leafE = true ∧ (pageP 3 0x10000).at' 18 1 ≠ 1 ∧
    (opP 3 [(18, 1, 1)]).at' 18 1 = 1 := by decide +kernel

def addP : Packet := opP 5 [(24, 8, 3), (40, 8, 2 ^ 39 - 2 ^ 14)]
def takeP (n : Nat) : Packet := opP 6 [(24, 8, 3), (40, 8, n), (48, 8, 0x20000)]
def poolS (p : Packet) : State := { ps p with pools := [(poolKey 1 3, [5, 6, 7])] }
def sweepP : Packet := opP 7 [(24, 8, 7), (40, 2, 4), (42, 2, 8)]
def spillP (len : Nat) : Packet := opP 8 [(24, 8, 7), (40, 8, 2 ^ 39 - 2 ^ 15), (32, 8, len)]
def coldP : Packet := opP 9 [(24, 8, 7), (40, 8, 2), (48, 8, 0x20000)]
def coldS : State := { ps coldP with ctls := [(7, ⟨0, 4, 8, false, [(0x4000, 1, 0), (0x8000, 1, 4)], []⟩)] }
theorem witness_Pools : (mapPacket (ps addP) 20 5 = some addP ∧ addP.at' 40 8 = 2 ^ 39 - 2 ^ 14 ∧ inMemory (2 ^ 39 - 2 ^ 14) = true ∧ paDie (2 ^ 39 - 2 ^ 14) = addP.at' 24 8 % 4 ∧
      ((ps addP).frame ((2 ^ 39 - 2 ^ 14) / 2 ^ 14)).st = 0 ∧ (poolOf (ps addP) addP.asid17 3).length < 65535) ∧
    mapPacket (ps sweepP) 20 7 = some sweepP ∧
    (∀ n ∈ [2 ^ 14, 2 ^ 15], mapPacket (ps (spillP n)) 20 8 = some (spillP n) ∧ (spillP n).at' 24 8 % 8 = 7 ∧ (spillP n).at' 40 8 = 2 ^ 39 - 2 ^ 15 ∧ (spillP n).at' 32 8 = n ∧
      inMemory (2 ^ 39 - 2 ^ 15 + n - 1) = true ∧ ctlOf (2 ^ 39 - 2 ^ 15) = 7 ∧ ctlOf (2 ^ 39 - 2 ^ 15 + n - 1) = 7 ∧
      (((ps (spillP n)).ctl 7).spill.map (fun r => r.2)).foldl (· + ·) 0 + n ≤ 2 ^ 30 ∧
      anyFrame (ps (spillP n)) ((2 ^ 39 - 2 ^ 15) / 2 ^ 14) (n / 2 ^ 14) (fun x => x.st != 0) = false) := by decide +kernel
theorem witness_PoolTake : ∀ n ∈ [2, 300], mapPacket (poolS (takeP n)) 20 6 = some (takeP n) ∧ (takeP n).at' 24 8 % 4 = 3 ∧
    ∃ s' w, forumWrite (poolS (takeP n)) 1 ((takeP n).at' 48 8) (((poolOf (poolS (takeP n)) 1 3).take ((takeP n).at' 40 8)).flatMap (fun f => valBytes 8 (f * 2 ^ 14))) = (s', .ok w) := by
  intro n h
  refine ⟨?_, ?_, ?_⟩
  · revert n; decide +kernel
  · revert n; decide +kernel
  · obtain ⟨s', w, e, -⟩ := ok_elim (forumWrite (poolS (takeP n)) 1 ((takeP n).at' 48 8)
      (((poolOf (poolS (takeP n)) 1 3).take ((takeP n).at' 40 8)).flatMap (fun f => valBytes 8 (f * 2 ^ 14)))) (fun _ _ => true) (by revert n; decide +kernel)
    exact ⟨s', w, e⟩
theorem witness_Cold : mapPacket coldS 20 9 = some coldP ∧ coldP.at' 24 8 % 8 = 7 ∧ ((coldS.ctl 7).cold.take (coldP.at' 40 8)).length = 2 ∧
    ∃ s' w, forumWrite coldS 1 (coldP.at' 48 8) (((coldS.ctl 7).cold.take (coldP.at' 40 8)).flatMap (fun x => valBytes 16 (Config.coldEntry x.1 x.2.1 x.2.2).toNat)) = (s', .ok w) := by
  refine ⟨by decide +kernel, by decide +kernel, by decide +kernel, ?_⟩
  obtain ⟨s', w, e, -⟩ := ok_elim (forumWrite coldS 1 (coldP.at' 48 8) (((coldS.ctl 7).cold.take (coldP.at' 40 8)).flatMap (fun x => valBytes 16 (Config.coldEntry x.1 x.2.1 x.2.2).toNat)))
    (fun _ _ => true) (by decide +kernel)
  exact ⟨s', w, e⟩

/-! ### Contexts -/

/-- The sections of a saved context when those that the spec does not lay out are empty. -/
def plain (sv : SavedCtx) (pipe : Bool) : List Section :=
  [⟨1, 0, []⟩] ++ sv.groups.map (fun p => ⟨2, p.2.core, groupRecord p.2⟩) ++ sv.cores.flatMap (fun p => [3, 4, 5, 6].map (fun k => ⟨k, p.1, []⟩)) ++
  sv.clusters.map (fun p => ⟨7, p.1, []⟩) ++ ((List.range 4).filter (fun d => sv.shape.any (fun p => p.1 == d) || sv.copies.any (fun p => p.1 == d))).map (fun d => ⟨8, d, []⟩) ++ (if pipe then [⟨9, 0, []⟩] else [])
theorem sections_plain (h : ∀ k, Config.sectionSize k = 0) (s : State) (asid : Nat) (c : Context) (sv : SavedCtx) :
    savedSections s asid c sv = plain sv c.pipe.isSome := by
  cases hp : c.pipe <;> simp [savedSections, plain, coreSections, openSection, h, hp]

theorem saveStopped_of (h : ∀ k, Config.sectionSize k = 0) (s : State) (asid : Nat) (st : CtxState)
    (hs : (match s.context? asid with
      | some c => decide ((sectionsBytes (plain (savedOf s asid c) c.pipe.isSome)).length ≤ c.saveLen) &&
          okThen (forumWrite s asid c.saveAddr.toNat (sectionsBytes (plain (savedOf s asid c) c.pipe.isSome))) (fun _ _ => true)
      | none => false) = true) : ∃ u, saveStopped s asid st = some u := by
  unfold saveStopped
  split at hs
  · rename_i c hc
    simp only [Bool.and_eq_true, decide_eq_true_eq] at hs
    obtain ⟨s', w, e, -⟩ := ok_elim _ _ hs.2
    simp only [sections_plain h, hc, e, Nat.not_lt.mpr hs.1, if_false]
    exact ⟨_, rfl⟩
  · cases hs

def ctxP (op : Nat) : Packet := packet [(0, 1, 4), (16, 1, op), (17, 1, 1), (24, 8, 0x30000)]
def savable : Context := { ctx with saveAddr := 0x50000, saveLen := 0x4000, pkt := none }
def ctxS (c : Context) (p : Packet) : State := { ps p with groups := [], contexts := [(1, c)] }
theorem witness_Save : packetOf (ctxS savable (ctxP 1)) 20 4 = some (ctxP 1) ∧ (ctxP 1).at' 16 1 = 1 ∧ (ctxS savable (ctxP 1)).context? (ctxP 1).asid17 = some savable ∧
    savable.st = .running ∧ inHandler (ctxS savable (ctxP 1)) 1 = false ∧
    (∀ q ∈ (ctxS savable (ctxP 1)).groups, q.2.asid = 1 → q.2.inWord ≠ some .signalled) ∧
    ((∀ k, Config.sectionSize k = 0) → ∃ u, saveStopped (stopContext (ctxS savable (ctxP 1)) 1) 1 (afterStop (stopContext (ctxS savable (ctxP 1)) 1) 1) = some u) :=
  ⟨by decide +kernel, by decide, by decide +kernel, rfl, by decide +kernel, by decide +kernel, fun h => saveStopped_of h _ _ _ (by decide +kernel)⟩

/-- A saved context of one cluster without groups, and the sections of its save area. -/
def area : List Section := [⟨1, 0, [7, 7]⟩, ⟨7, 0, [1, 2, 3]⟩, ⟨8, 0, []⟩]
def svc : SavedCtx := { shape := [(0, 1)], groups := [], cores := [], clusters := [(0, ClusterS.empty)], copies := [], image := area, rebased := false }
def savedC : Context := { savable with st := .saved, clusters := [], saved := some svc }
def savedS : State :=
  let s := ctxS savedC (ctxP 2)
  { s with hbm := cellWrites (cellWrites s.hbm 0x50000 (sectionsBytes area)) 0x30050 [2] }
def restoredB (s : State) : Bool :=
  match readSaved s 1 savedC svc with
  | (s, some _) => (s.context? 1).isSome &&
      (match restoreDies s svc.shape with | some d => waysFit s 1 (remapOf s (svc.clusters.map (fun x => x.1)) d) && copiesFit s svc (remapOf s (svc.clusters.map (fun x => x.1)) d) | none => false)
  | _ => false
theorem witness_Restore : packetOf savedS 20 4 = some (ctxP 2) ∧ (ctxP 2).at' 16 1 = 2 ∧ (ctxP 2).at' 24 8 = 0x30000 ∧ savedC.saved = some svc ∧
    ∃ s1 b w, forumRead savedS 1 (0x30000 + 80) 8 = (s1, .ok (b, w)) ∧ bytesAt b 0 1 = 2 ∧ s1.context? 1 = some savedC ∧
      ∃ s2 gs dies x, readSaved s1 1 savedC svc = (s2, some gs) ∧ restoreDies s2 svc.shape = some dies ∧ s2.context? 1 = some x ∧
        waysFit s2 1 (remapOf s2 (svc.clusters.map (fun x => x.1)) dies) = true ∧ copiesFit s2 svc (remapOf s2 (svc.clusters.map (fun x => x.1)) dies) = true := by
  refine ⟨by decide +kernel, by decide, by decide +kernel, rfl, ?_⟩
  obtain ⟨s1, v, e, h⟩ := ok_elim (forumRead savedS 1 (0x30000 + 80) 8) (fun s v => decide (bytesAt v.1 0 1 = 2) && decide (s.context? 1 = some savedC) && restoredB s)
    (by decide +kernel)
  simp only [Bool.and_eq_true, decide_eq_true_eq] at h
  obtain ⟨⟨h1, h2⟩, h3⟩ := h
  refine ⟨s1, v.1, v.2, e, h1, h2, ?_⟩
  unfold restoredB at h3
  split at h3
  · rename_i s2 gs hg
    simp only [Bool.and_eq_true] at h3
    obtain ⟨h4, h5⟩ := h3
    obtain ⟨x, hx⟩ := Option.isSome_iff_exists.mp h4
    split at h5
    · rename_i d hd
      simp only [Bool.and_eq_true] at h5
      exact ⟨s2, gs, d, x, hg, hd, hx, h5.1, h5.2⟩
    · cases h5
  · cases h3

/-- A context whose root future at 0x20000 is resolved, or failed, and that LAUNCH packet 20 waits for. -/
def endC : Context := { ctx with rootFuture := 0x20000, pkt := some 20 }
def endS (n : Nat) : State := let s := ctxS endC (ctxP 3); { s with hbm := cellWrites s.hbm 0x20010 (valBytes 4 n) }
theorem witness_TeardownEnd : (∀ st ∈ [CtxState.running, .torn], packetOf (ctxS { savable with st := st } (ctxP 3)) 20 4 = some (ctxP 3) ∧
      (ctxS { savable with st := st } (ctxP 3)).context? (ctxP 3).asid17 = some { savable with st := st }) ∧ (ctxP 3).at' 16 1 = 3 ∧ savable.pkt = none ∧
    (∀ n ∈ [1, 2], (endS n).context? 1 = some endC ∧ endC.st = .running ∧ ctxGroups (endS n) 1 = [] ∧ commandsLeft (endS n) 1 endC = false ∧ (endS n).pipes = [] ∧
      endC.discarded = false ∧ (rootState (endS n) 1 endC).2 = some n ∧ (rootState (endS n) 1 endC).1.context? 1 = some endC) := by decide +kernel

/-- LAUNCH and PIPELINE packets for ASID 2 and for ASID 1, which is held; the context descriptor is at 0x30000, the pipeline's at 0x31000. -/
def launchP (type asid : Nat) : Packet := packet [(0, 1, type), (16, 8, 0x31000), (24, 8, 0x30000), (32, 1, 1), (33, 1, asid)]
def ctxDesc : List Byte := valBytes 8 0x200000 ++ valBytes 8 0x40000 ++ valBytes 4 0x2000 ++ valBytes 4 1 ++ List.replicate 104 0
/-- One stage that the root feeds: demand 1, 64 slots, 1 to 4 cores. -/
def pipeDesc : List Byte :=
  valBytes 4 (1 + 256) ++ valBytes 4 0 ++ valBytes 8 0x32000 ++ List.replicate 112 0 ++
    valBytes 8 0x1000 ++ valBytes 4 1 ++ valBytes 4 6 ++ valBytes 4 (2 ^ 16) ++ valBytes 4 1 ++ valBytes 4 (1 + 65536 * 4) ++ List.replicate 36 0
def launchS (p : Packet) : State := let s := ps p; { s with hbm := cellWrites (cellWrites s.hbm 0x30000 ctxDesc) 0x31000 pipeDesc }
def launchB (type asid : Nat) (d : Option Nat) : Bool :=
  match readContext (launchS (launchP type asid)) (launchP type asid) with
  | (s, some c) => decide (launchRefusal s (launchP type asid) c = d) && decide (tabGet? s.packets 20 = some (launchP type asid))
  | _ => false
theorem launch_of (type asid : Nat) (d : Option Nat) (h : launchB type asid d = true) : ∃ s1 c, readContext (launchS (launchP type asid)) (launchP type asid) = (s1, some c) ∧
    launchRefusal s1 (launchP type asid) c = d ∧ tabGet? s1.packets 20 = some (launchP type asid) := by
  unfold launchB at h
  rcases e : readContext (launchS (launchP type asid)) (launchP type asid) with ⟨s, c⟩
  rw [e] at h
  cases c with
  | none => cases h
  | some c => simp only [Bool.and_eq_true, decide_eq_true_eq] at h; exact ⟨s, c, rfl, h⟩
theorem witness_Launch : (∀ a ∈ [1, 2], packetOf (launchS (launchP 7 a)) 20 7 = some (launchP 7 a) ∧ (launchP 7 a).checked = false) ∧
    (∃ s1 c, readContext (launchS (launchP 7 1)) (launchP 7 1) = (s1, some c) ∧ launchRefusal s1 (launchP 7 1) c = some 0x10 ∧ tabGet? s1.packets 20 = some (launchP 7 1)) ∧
    (∃ s1 c, readContext (launchS (launchP 7 2)) (launchP 7 2) = (s1, some c) ∧ launchRefusal s1 (launchP 7 2) c = none ∧ tabGet? s1.packets 20 = some (launchP 7 2)) :=
  ⟨by decide +kernel, launch_of _ _ _ (by decide +kernel), launch_of _ _ _ (by decide +kernel)⟩

def pipelineB (asid : Nat) (d : Option Nat) : Bool :=
  let p := launchP 8 asid
  match readContext (launchS p) p with
  | (s, some c) =>
    match readPipe s p.asid (p.at' 16 8) with
    | (s, some b) => decide (launchRefusal s p c = d) && decide (pipeRefusal s b (pipeOf b p.asid33) (12 * p.at' 32 1) = none) && decide (freePipe s = some 0) &&
        decide (tabGet? s.packets 20 = some p)
    | _ => false
  | _ => false
theorem pipeline_of (asid : Nat) (d : Option Nat) (h : pipelineB asid d = true) : ∃ s1 s2 c b, readContext (launchS (launchP 8 asid)) (launchP 8 asid) = (s1, some c) ∧
    readPipe s1 (launchP 8 asid).asid ((launchP 8 asid).at' 16 8) = (s2, some b) ∧ launchRefusal s2 (launchP 8 asid) c = d ∧
    pipeRefusal s2 b (pipeOf b (launchP 8 asid).asid33) (12 * (launchP 8 asid).at' 32 1) = none ∧ freePipe s2 = some 0 ∧ tabGet? s2.packets 20 = some (launchP 8 asid) := by
  simp only [pipelineB] at h
  rcases e : readContext (launchS (launchP 8 asid)) (launchP 8 asid) with ⟨s, c⟩
  rw [e] at h
  cases c with
  | none => cases h
  | some c =>
    simp only [] at h
    rcases hr : readPipe s (launchP 8 asid).asid ((launchP 8 asid).at' 16 8) with ⟨s2, b⟩
    rw [hr] at h
    cases b with
    | none => cases h
    | some b =>
      simp only [Bool.and_eq_true, decide_eq_true_eq] at h
      exact ⟨s, s2, c, b, rfl, hr, h.1.1.1, h.1.1.2, h.1.2, h.2⟩
theorem witness_Pipeline : (∀ a ∈ [1, 2], packetOf (launchS (launchP 8 a)) 20 8 = some (launchP 8 a) ∧ (launchP 8 a).checked = false) ∧
    (∃ s1 s2 c b, readContext (launchS (launchP 8 1)) (launchP 8 1) = (s1, some c) ∧ readPipe s1 1 ((launchP 8 1).at' 16 8) = (s2, some b) ∧
      launchRefusal s2 (launchP 8 1) c = some 0x10) ∧ pipelineB 2 none = true := by
  refine ⟨by decide +kernel, ?_, by decide +kernel⟩
  obtain ⟨s1, s2, c, b, h1, h2, h3, -⟩ := pipeline_of 1 (some 0x10) (by decide +kernel)
  exact ⟨s1, s2, c, b, h1, h2, h3⟩

/-- A launch that has been checked: its root closure at 0x32000 has its future at 0x40000, the start of the arena. -/
def rootBytes : List Byte := valBytes 8 0x1000 ++ valBytes 8 0x40000 ++ valBytes 4 0 ++ valBytes 4 1 ++ List.replicate 104 0
def placeC : Context := { Context.start with regs := arena, desc := 0x30000, descAsid := 1, root := 0x100000 }
def placeP : Packet := { launchP 7 1 with checked := true, ctx := some placeC, root := 0x32000 }
def placeS : State := let s := ps placeP; { s with groups := [], contexts := [], hbm := cellWrites s.hbm 0x32000 rootBytes }
def placed : State := placeContext placeS 20 1 placeC [0] none
theorem witness_Place : tabGet? placeS.packets 20 = some placeP ∧ placeP.pipe = none ∧ placeP.asid33 = 1 ∧ chooseClusters placeS (placeP.at' 32 1) = some [0] ∧
    ∃ s1 b w x, forumRead placed 1 0x32000 128 = (s1, .ok (b, w)) ∧ s1.context? 1 = some x ∧ futureOk x.regs (closureOf b).future = true ∧ closureOk (closureOf b) = true ∧
      ∃ s2 n pl v, takeSerial (s1.modContext 1 (fun x => { x with rootFuture := (closureOf b).future })) 1 0 = (s2, n) ∧
        ordinaryPlace s2 0 (closureOf b).demand none (closureOf b).scr = some pl ∧ startTask s2 0 (closureOf b) n 0 0x1FF true true pl = some v := by
  refine ⟨by decide +kernel, by decide +kernel, by decide +kernel, by decide +kernel, ?_⟩
  obtain ⟨s1, v, e, h⟩ := ok_elim (forumRead placed 1 0x32000 128) (fun s v =>
    (match s.context? 1 with | some x => futureOk x.regs (closureOf v.1).future | none => false) && closureOk (closureOf v.1) &&
    (let t := takeSerial (s.modContext 1 (fun x => { x with rootFuture := (closureOf v.1).future })) 1 0
     match ordinaryPlace t.1 0 (closureOf v.1).demand none (closureOf v.1).scr with
     | some pl => (startTask t.1 0 (closureOf v.1) t.2 0 0x1FF true true pl).isSome
     | none => false)) (by decide +kernel)
  simp only [Bool.and_eq_true] at h
  obtain ⟨⟨h1, h2⟩, h3⟩ := h
  split at h1
  · rename_i x hx
    split at h3
    · rename_i pl hp
      obtain ⟨u, hu⟩ := Option.isSome_iff_exists.mp h3
      exact ⟨s1, v.1, v.2, x, e, hx, h1, h2, _, _, pl, u, rfl, hp, hu⟩
    · cases h3
  · cases h1

/-- A rebase of ASID 1, whose context runs; and, with its context saved, of ASID 1 and of ASID 0. -/
def rebaseS : State := { ctxS savable (ctxP 1) with rebases := [1] }
def idleRebase : State := { savedS with rebases := [0, 1] }
theorem witness_Rebase : 1 ∈ rebaseS.rebases ∧ rebaseSet rebaseS 1 = [1] ∧ (rebaseSet rebaseS 1).filter (ctxRuns rebaseS) = [1] ∧ ctxStops rebaseS 1 = false ∧
    inHandler rebaseS 1 = false ∧ (∀ q ∈ rebaseS.groups, q.2.asid = 1 → q.2.inWord ≠ some .signalled) ∧
    ((∀ k, Config.sectionSize k = 0) → ∃ v, ([1] : List Nat).foldl (fun u a => u.bind (fun u => saveStopped (stopContext u a) a (afterStop (stopContext u a) a))) (some rebaseS) = some v) ∧
    (∀ a ∈ [0, 1], a ∈ idleRebase.rebases ∧ rebaseSet idleRebase a = [1] ∧ (rebaseSet idleRebase a).filter (ctxRuns idleRebase) = [] ∧ ctxStops idleRebase 1 = false) := by
  refine ⟨by decide +kernel, by decide +kernel, by decide +kernel, by decide +kernel, by decide +kernel, by decide +kernel, fun h => ?_, by decide +kernel⟩
  obtain ⟨u, hu⟩ := saveStopped_of h (stopContext rebaseS 1) 1 (afterStop (stopContext rebaseS 1) 1) (by decide +kernel)
  exact ⟨u, by simp [hu]⟩
/-- A saved context, with and without a rebase since. -/
def rebased (b : Bool) : State := savedS.modContext 1 (fun c => { c with saved := some { svc with rebased := b } })
theorem witness_RebaseRestore : ∀ b ∈ [true, false], (rebased b).context? 1 = some { savedC with saved := some { svc with rebased := b } } ∧
    savedC.st = .saved ∧ ∃ s2 gs x, readSaved (rebased b) 1 { savedC with saved := some { svc with rebased := b } } { svc with rebased := b } = (s2, some gs) ∧
      s2.context? 1 = some x := by
  intro b h
  have a : (match readSaved (rebased b) 1 { savedC with saved := some { svc with rebased := b } } { svc with rebased := b } with
    | (s, some _) => (s.context? 1).isSome | _ => false) = true := by revert b; decide +kernel
  refine ⟨by revert b; decide +kernel, rfl, ?_⟩
  split at a
  · rename_i s2 gs hg
    obtain ⟨x, hx⟩ := Option.isSome_iff_exists.mp a
    exact ⟨s2, gs, x, hg, hx⟩
  · cases a

/-! ### The host, the peers, the boot and the plant -/

/-- The module runs; the aperture reaches the addresses from 0 on, and from 2^40 on with no page behind them. -/
def hostS (base : DWord) : State := let s := forum (fq true false 1) grp; { s with host := { s.host with apbase := base } }
def errB {α : Type} (x : State × Except (Nat × Nat) α) : Bool := match x.2 with | .error (5, _) => !x.1.blocked | _ => false
def unblocked {α : Type} (s : State) (_ : α) : Bool := !s.blocked
theorem witness_Aperture : (hostS 0).host.boot ≠ .off ∧ (hostS 0).host.waits = [] ∧ (hostS (2 ^ 40)).host.boot ≠ .off ∧ (hostS (2 ^ 40)).host.waits = [] ∧ (hostS 0).blocked = false ∧ okThen (devWrite (hostS 0) 0 (hostAsid (hostS 0)) ((hostS 0).host.apbase.toNat + 0x20000) [1, 2, 3] 0 (hostProvOf 0)) unblocked = true ∧
    errB (devWrite (hostS (2 ^ 40)) 0 (hostAsid (hostS 0)) ((hostS (2 ^ 40)).host.apbase.toNat + 0x20000) [1, 2, 3] 0 (hostProvOf 0)) = true ∧
    okThen (devRead (hostS 0) 0 (hostAsid (hostS 0)) ((hostS 0).host.apbase.toNat + 0x20000) 16 0 1) unblocked = true ∧
    errB (devRead (hostS (2 ^ 40)) 0 (hostAsid (hostS 0)) ((hostS (2 ^ 40)).host.apbase.toNat + 0x20000) 16 0 1) = true ∧ (0x20000 + 16 ≤ 2 ^ 36) := by decide +kernel

/-- The machine in which a write of the host waits, and one in which a peer's read waits. -/
def hostWaits (a : HostAccess) : State := { hostS 0 with host := { (hostS 0).host with waits := [a] } }
theorem witness_HostWaits : (∀ a ∈ ([.write 1 0x20000 [1], .read 1 0x20000 16, .firmware 0 none, .doorbell 4095, .peer 1 0x20000 (.read 8)] : List HostAccess), (hostWaits a).host.boot ≠ .off ∧
      (hostWaits a).host.waits = [a] ∧ (hostGo { hostWaits a with host := { (hostWaits a).host with waits := [] } } a).blocked = false) ∧
    (∀ i ∈ ([.apertureWrite (2 ^ 36 - 1) [1], .apertureRead 0 (2 ^ 36), .firmwareWindowAccess 8 none, .doorbell 0] : List Instr),
      ((Claims.arrival (hostS 0) i).map (fun a => a.fromPeer)) = some (HostAccess.doorbell 4095).fromPeer) ∧
    Claims.arrival (hostS 0) (.peerAccess 255 0 (.read 16)) = some (.peer 255 0 (.read 16)) := by decide +kernel

def bootS (b : BootSt) (scrub : Bool) : State := { State.reset with host := { HostS.reset with boot := b, scrubbing := scrub } }
theorem witness_Host : (∀ b ∈ [BootSt.load, .run], ∀ c ∈ [false, true], (bootS b c).host.boot = b) ∧ (∀ b ∈ [BootSt.load, .run], moduleOn (bootS b false) = true ∧ cellsWf (bootS b false).host.fw = true) ∧ (2 ^ 24 - 2 + [(1 : Byte), 2].length ≤ 2 ^ 24) ∧
    (forumRuns (hostS 0) = true ∧ tabGet? (hostS 0).queues (4095 % 4096) = some (fq true false 1) ∧
      okThen (forumRead (hostS 0) (hostAsid (hostS 0)) (qtAddr (hostS 0) (4095 % 4096) + 16) 8) (fun s _ => !s.blocked && decide (tabGet? s.queues (4095 % 4096) = some (fq true false 1))) = true) ∧
    (forumRuns takeS = true ∧ tabGet? takeS.queues (4095 % 4096) = some (fq true true 1) ∧ takeS.host.boot ≠ .off ∧ takeS.host.waits = [] ∧ takeS.blocked = false) ∧
    (∀ n ∈ [1, 2, 4, 8, 16], 0x20000 % n = 0 ∧ okThen (devRead (hostS 0) 0 1 0x20000 n 0 1) unblocked = true ∧
      okThen (devWrite (hostS 0) 0 1 0x20000 (List.replicate n 7) 0 (hostProvOf 1)) unblocked = true) := by decide +kernel

def remote : Req := { req .load .missing with id := 8, peer := some 0x500 }
/-- Port 15 leads to module 5, over which a load has been sent. -/
def linked : State :=
  let s := hostS 0
  { s with requests := [req .load .queued, remote], host := { s.host with avstat := List.replicate 15 0 ++ [0x8005], peerPorts := [(4096 + 5, 15)] } }
theorem witness_Links : moduleOn linked = true ∧ linked.host.avstat.length = 16 ∧ (linked.host.avstat.getD 15 0).getLsbD 15 = true ∧
    onPort linked 15 (req .load .queued) = false ∧ onPort linked 15 remote = true ∧ remote ∈ linked.requests := by decide +kernel

theorem witness_Boot : (∀ b ∈ [BootSt.off, .selftest, .train0, .load, .early], (bootS b false).host.boot = b ∧ (bootS b false).host.scrubbing = false) ∧
    (∀ b ∈ [BootSt.selftest, .load, .run], moduleOn (bootS b false) = true) ∧ ((bootS .early false).die 3).trained = false ∧ (bootS .run true).host.scrubbing = true ∧
    ({ bootS .load false with host := { HostS.reset with boot := .load, fwlen := 0x1000000 } } : State).host.fwlen.toNat = 2 ^ 24 ∧
    ((0x00000A5C : Word).extractLsb' 0 16 = 0xA5C ∧ (0x00000A5C : Word).getLsbD 16 = false ∧ (0x00010A5C : Word).extractLsb' 0 16 = 0xA5C ∧ (0x00010A5C : Word).getLsbD 16 = true) ∧ (bootS .run false).host.boot = .run := by decide +kernel

def tiled : State := (withCommand (fun c => { c with tiles := [(15, ⟨true, false, [(3, 4)]⟩)] }) (hostS 0)).modDie 3 (fun d => { d with hot := true })
theorem witness_Plant : moduleOn tiled = true ∧ (tiled.die 3).hot = true ∧ inMemory (32 * (2 ^ 34 - 1)) = true ∧ (15, (⟨true, false, [(3, 4)]⟩ : Tile)) ∈ (tiled.core 0).tiles ∧
    tiled.group? 1 = some grp ∧ homeLine ∈ (asking ldG askR).slice 0 ∧ moduleOn (asking ldG askR) = true := by decide +kernel

/-- The premises of the memory form hold at reset and in a machine with tables and requests, whose steps answer a next state. -/
theorem witness_Form : ∀ s ∈ [State.reset, mem gm, asking stG storeR], memoryWf s = true ∧ (match step s with | .next _ => true | _ => false) = true := by
  decide +kernel

/-- A peer's atomic over two lanes of a line that the home holds, of which the second may be poisoned. -/
def peerS (bad : BitVec 128) : State :=
  let s := hostS 0
  { s with slices := [(0, [{ homeLine with poison := bad }])] }
def peerLanes : List (Nat × DWord × DWord) := [(0, 5, 0), (4, 6, 0)]
def peerX (d : BitVec 1024) (m p : BitVec 128) (c : Nat × Nat) : Performed :=
  performLanes (.atomic 0 false .i32 false) 4 (peerLanes.zipIdx.map (fun (a, n) => ⟨n, BitVec.ofNat 64 (0x10000 / 128 * 128 + a.1 % 128), a.2.1, a.2.2⟩)) d m p c
def peerB (s : State) (n : Nat) : Bool :=
  match mtuCheck s 0 1 0x10000 27 with
  | (s1, .ok r) => okThen (homeAccess s1 r 1 0x10000 none) (fun s2 v =>
      let x := peerX v.1 v.2.1 v.2.2.1 (v.2.2.2.2.1, v.2.2.2.2.2)
      x.mask ≠ 0 && x.un.length == n && x.un.all (fun a => decide (byteMask (a.addr.toNat % 128) 4 &&& ~~~ v.2.1 = 0)) &&
      (match homeWrite s2 (homeSlice r.place r.home 0x10000) (tagAsid 1 0x10000) (0x10000 / 128) 0 x.data x.mask 0 (hostProvOf 1) with
        | (h, some _) => !h.blocked | _ => false))
  | _ => false
theorem witness_PeerAtomic : (∀ b ∈ [0, 1], (peerS (if b = 0 then 0 else 0xF0)).host.boot ≠ .off ∧ (peerS (if b = 0 then 0 else 0xF0)).host.waits = [] ∧
    peerB (peerS (if b = 0 then 0 else 0xF0)) b = true) ∧ 0x10000 % Ty.bytes .i32 = 0 := by decide +kernel

/-! ### Decoding (R67 to R83)

A word is laid out here from the table of R67 and the operand codes of R69; MAJ and MIN stand as R81 and R74 give them. -/

def code : Opd → Nat
  | .v n => n.val
  | .s n => 256 + n.val
  | .imm => 320 | .zero => 321 | .lane => 322 | .beat => 323 | .blane => 324 | .ones => 325 | .immHi => 326 | .immZ => 327
def word (majMin : Nat) (w : W) : InstrWord :=
  BitVec.ofNat 96 (majMin * 2 ^ 80 + (if w.sw then 2 ^ 79 else 0) + w.ms.val * 2 ^ 76 + (if w.mn then 2 ^ 75 else 0) + code w.d * 2 ^ 66 +
    code w.a * 2 ^ 57 + code w.b * 2 ^ 48 + code w.c * 2 ^ 39 + w.mod.toNat * 2 ^ 32 + w.imm.toNat)
def redW (t : Ty) : W := w4 t (.s 20) (.v 2) (.v 0) (.v 0)

/-- Control words (R130 to R139). -/
def control : List (Nat × (W → Instr) × W) :=
  [(0x0000, .nop, nopW), (0x0100, .bra, braW), (0x0101, .braNz, braA 4), (0x0102, .braZ, braA 4), (0x0103, .braEmpty, braA 46),
   (0x0104, .braFull, braA 46), (0x0200, .brx, braA 4), (0x0300, .call, w4 .i8 (.s 8) (.v 0) (.v 0) (.v 0)), (0x0400, .ret, braA 4), (0x0500, .loop, w4 .i8 (.s 7) (.v 0) (.v 0) (.v 0) 3),
   (0x0600, .waitc, waitcW), (0x0700, .sleep, braA 4), (0x0800, .errst, mfkW 63)]
theorem test_decode_control : ∀ r ∈ control, decodeWord false (word r.1 r.2.2) = .ok (r.2.1 r.2.2) := by
  intro r h; apply okay_of; revert r; decide +kernel

/-- Integer and bitwise words (R97 to R103). -/
def integer : List (Nat × (W → Instr) × W) :=
  [(0x1000, .add, bin .i8), (0x1104, .sub, bin .z8), (0x1202, .mul, bin .i32), (0x1306, .mulhi, bin .z32), (0x1401, .mad, tri .i16),
   (0x1500, .abs, un .i8), (0x1600, .min, bin .i8), (0x1705, .max, bin .z16), (0x1808, .and, bin .b32), (0x1908, .or, bin .b32),
   (0x1A08, .xor, bin .b32), (0x1B08, .not, un .b32), (0x1C08, .shl, bin .b32), (0x1D08, .shr, bin .b32),
   (0x1E08, .sar, bin .b32), (0x1F08, .rot, bin .b32), (0x2008, .clz, un .b32), (0x2108, .popc, un .b32),
   (0x2208, .brev, un .b32), (0x2308, .ffs, un .b32), (0x2460, .cmp, { cmpW with v := 3 }),
   (0x2508, .sel, w4 .b32 (.v 1) (.v 2) (.v 3) (.s 40)), (0x2608, .mov, un .b32),
   (0x2708, .movi, w4 .b32 (.v 1) (.v 0) (.v 0) (.v 0) 5), (0x2729, .moviHi, w4 .b64 (.v 2) (.v 0) (.v 0) (.v 0) 5 0 1)]
theorem test_decode_integer : ∀ r ∈ integer, decodeWord false (word r.1 r.2.2) = .ok (r.2.1 r.2.2) := by
  intro r h; apply okay_of; revert r; decide +kernel

/-- Floating point, conversions, bitfields and special functions (R104 to R119). -/
def floating : List (Nat × (W → Instr) × W) :=
  [(0x400B, .fadd, bin .f32), (0x410C, .fsub, bin .f16), (0x420D, .fmul, bin .bf16), (0x430B, .ffma, tri .f32),
   (0x440B, .fmin, bin .f32), (0x450B, .fmax, bin .f32), (0x46EB, .fcmp, { fcmpW with v := 7 }), (0x470B, .fclass, un .f32),
   (0x480B, .frnd, un .f32), (0x490B, .fdiv, bin .f32), (0x4A0B, .fsqrt, un .f32), (0x7000, .cvt, cvtW), (0x710E, .pk, pkW),
   (0x720E, .upk, upkW), (0x730E, .mxs, mxsW), (0x9020, .bfx, { tri .i8 with v := 1 }), (0x9100, .bfi, tri .i8),
   (0x9220, .fsh, { tri .i8 with v := 1 }), (0x980B, .rcp, un .f32), (0x990B, .rsq, un .f32), (0x9A0B, .exp2, un .f32),
   (0x9B0B, .log2, un .f32), (0x9C0C, .sinpi, un .f16), (0x9D0C, .cospi, un .f16), (0x9E0C, .tanh, un .f16)]
theorem test_decode_floating : ∀ r ∈ floating, decodeWord false (word r.1 r.2.2) = .ok (r.2.1 r.2.2) := by
  intro r h; apply okay_of; revert r; decide +kernel

/-- Words over the lanes (R124 to R129). -/
def lanes : List (Nat × (W → Instr) × W) :=
  [(0x8068, .shfl, { bin .b32 with v := 3 }), (0x8108, .bcast, w4 .b32 (.v 1) (.v 2) (.s 4) (.v 0)), (0x8240, .vote, ballotW),
   (0x8308, .matchLanes, un .b32), (0x8402, .redsum, redW .i32), (0x850B, .redmin, redW .f32), (0x8607, .redmax, redW .z64),
   (0x8708, .redand, redW .b32), (0x8809, .redor, redW .b64), (0x8922, .scan, { un .i32 with v := 1 })]
theorem test_decode_lanes : ∀ r ∈ lanes, decodeWord false (word r.1 r.2.2) = .ok (r.2.1 r.2.2) := by
  intro r h; apply okay_of; revert r; decide +kernel

/-- Memory and system words (R212 to R239). -/
def memory : List (Nat × (W → Instr) × W) :=
  [(0xA008, .ld, ldW), (0xA108, .st, stW), (0xA208, .ldx, ldxW), (0xA308, .stx, stxW), (0xA408, .ldS, ldW), (0xA508, .stS, stSW),
   (0xA600, .ldd, lddW), (0xA702, .atomS, atomSW), (0xA802, .atom, atomW), (0xA90B, .atomFadd, faddW), (0xAA00, .watch, watchW),
   (0xAB00, .fence, fenceW 1), (0xF000, .mfk, mfkW 0x1008), (0xF100, .mtk, mtkW 0x1010), (0xF200, .sys, sysW),
   (0xF300, .sysret, nopW), (0xF400, .trap, sysW), (0xF500, .mapft, mapftW), (0xF600, .fltrd, fltrdW),
   (0xF500, .mapft, { mapftW with b := .zero }), (0xF600, .fltrd, { fltrdW with d := .v 7, a := .v 2 })]
theorem test_decode_memory : ∀ r ∈ memory, decodeWord false (word r.1 r.2.2) = .ok (r.2.1 r.2.2) := by
  intro r h; apply okay_of; revert r; decide +kernel

/-- Tasks, handles and pipelines (R187 to R206, R385 to R388, R410). -/
def tasks : List (Nat × (W → Instr) × W) :=
  [(0xC000, .spawn, spawnW), (0xC001, .spawnS, spawnSW), (0xC002, .spawnL, spawnW), (0xC003, .spawnG, spawnGW),
   (0xC100, .join, joinW), (0xC200, .joinall, joinallW), (0xC300, .fprobe, joinW), (0xC400, .fres, fresW),
   (0xC401, .fresFail, fresW), (0xC500, .yield, yieldW), (0xC600, .tret, tretW), (0xC700, .tid, mfkW 4), (0xC800, .stage, mfkW 0),
   (0xC900, .bufget, bufgetW), (0xCA00, .bufput, bufputW 1), (0xCB00, .bufwaitFull, bufputW 0), (0xCB01, .bufwaitFree, bufputW 0),
   (0xCC00, .enq, enqW), (0xCC01, .enqEos, eosW), (0xCD00, .arcq, bufputW 1), (0xCE00, .qput, qputW)]
theorem test_decode_tasks : ∀ r ∈ tasks, decodeWord false (word r.1 r.2.2) = .ok (r.2.1 r.2.2) := by
  intro r h; apply okay_of; revert r; decide +kernel

/-- Matrix, cluster and die words (R245 to R282, R315 to R330). -/
def engines : List (Nat × (W → Instr) × W) :=
  [(0xD000, .mloop, mloopW), (0xD100, .mfence, mfkW 0), (0xD200, .mwait, bufputW 0), (0xD300, .mzero, mzeroW), (0xD400, .epi, epiW),
   (0xD500, .mstat, mfkW 0x101), (0xE000, .put, dwW 0), (0xE108, .dsld, dsldW), (0xE200, .mcast, dwW 3),
   (0xE300, .phregSig, dwW 0), (0xE301, .phregWait, dwW 0), (0xE302, .phregSw, dwW 0), (0xE400, .phdrop, dwW 0),
   (0xE500, .phsig, dwW 0), (0xE600, .phwait, dwW 0), (0xE700, .phsw, dwW 0), (0xE800, .copy, dwW 24), (0xE900, .barInit, barW),
   (0xE901, .barExp, barW), (0xE902, .barArr, barW), (0xE903, .barWait, barWaitW), (0xE904, .barTest, barTestW),
   (0xEA00, .migrate, dwW 0)]
theorem test_decode_engines : ∀ r ∈ engines, decodeWord false (word r.1 r.2.2) = .ok (r.2.1 r.2.2) := by
  intro r h; apply okay_of; revert r; decide +kernel

/-- The paired word of R79, and the same with both destinations in bank 0: detail 10 (R78). -/
theorem test_decode_paired :
    decodeWord true 0x0C04_0101_8000_0406_8202_8000 = .ok (.pairedWord .fmul32 ⟨0, 8, 2, 3, 0, 0⟩ .addI ⟨0, 13, 4, 5, 0, 0⟩) ∧
    decodeWord true 0x0C04_0101_8000_0406_0202_8000 = .error 10 := ⟨okay_of _ _ (by decide +kernel), error_of _ _ (by decide +kernel)⟩

/-- An illegal half beside a legal one that names a register beyond demand: the lower detail of R83 is reported. -/
theorem test_decode_lowest : decodeFor 1 true 0x0000_0000_0000_0406_8202_8000 = .error 8 := error_of _ _ (by decide +kernel)

/-- Words written out in the spec's chapters: spawn and join (R187, R190), ffma, the atomic of R224. -/
theorem test_decode_atom : decodeTableWord 96 0xA806_0026_1541_0400_0000_0000 = some (.atom (w4 .z32 (.v 9) (.s 10) .zero (.v 8))) := by decide +kernel
/-- Zero-filled slots are nops (R68). -/
theorem test_decode_zero : decodeTableWord 96 0 = some (.nop nopW) := by decide +kernel

/-- One word for each detail code of R83 that a word alone can raise: an unassigned MAJ (2), a MIN outside R81 (3), an unused field (4), a
reserved operand code (5), a form error (6), a pair with an odd base (7), a slot number from 5 to 7 (11). -/
theorem test_decode_details : ∀ p ∈ ([(0x09 * 2 ^ 88, 2), (0x10 * 2 ^ 88 + 0x08 * 2 ^ 80, 3), (1, 4), (0x10 * 2 ^ 88 + 328 * 2 ^ 57, 5),
      (0x26 * 2 ^ 88 + 8 * 2 ^ 80 + 256 * 2 ^ 66, 6), (0x26 * 2 ^ 88 + 9 * 2 ^ 80 + 1 * 2 ^ 66, 7), (0x01 * 2 ^ 88 + 5, 11)] : List (Nat × Nat)),
    decodeWord false (BitVec.ofNat 96 p.1) = .error p.2 := by
  intro p h; apply error_of; revert p; decide +kernel

/-! ### Well-formed instructions: an ill-formed term for each check -/

/-- A type that the instruction does not have, a field it does not use, a MOD bit it does not use, MN without MS, a special code as a
destination, a vector source of a scalar form, an odd pair, a block that runs past s63, K numbers that do not exist, an mloop without steps. -/
theorem test_wf_refuses : ∀ i ∈ ([.add (bin .b32), .add (tri .i8), .add { bin .i8 with mod := 0x40 }, .nop { nopW with mn := true }, .mov (w4 .b32 .imm (.v 2) (.v 0) (.v 0)),
      .mov (w4 .b32 (.s 4) (.v 2) (.v 0) (.v 0)), .mov (w4 .b64 (.v 1) (.v 2) (.v 0) (.v 0)), .qput (w4 .i8 (.s 20) (.s 4) (.s 50) (.v 0)), .mfk (mfkW 0x500),
      .mloop { mloopW with imm := 0 }, .braEmpty (braA 45), .pk (w4 .e4m3 (.v 1) (.v 2) (.v 3) (.v 11) 1),
      .pairedWord .fmul32 ⟨0, 8, 2, 3, 0, 0⟩ .addI ⟨0, 12, 4, 5, 0, 0⟩, .pairedWord .fmul32 ⟨0, 8, 2, 3, 0, 5⟩ .addI ⟨0, 13, 4, 5, 0, 0⟩,
      .pairedWord .fmul32 ⟨0, 8, 2, 3, 0, 0⟩ .addI ⟨0, 13, 2, 3, 0, 0⟩] : List Instr), i.wf = false := by decide +kernel
theorem test_wf_accepts : ∀ r ∈ control ++ integer ++ floating ++ lanes ++ memory ++ tasks ++ engines, (r.2.1 r.2.2).wf = true := by decide +kernel

/-! ### Single steps, with results that the spec's examples give -/

/-- Vector register `d` in lane 5 after a word, with v1 to v4 as given and v7 before it. -/
def vecG (v1 v2 v3 v4 v7 : Word) : Group :=
  ((((grp.setV 1 allLanes (fun _ => v1)).setV 2 allLanes (fun _ => v2)).setV 3 allLanes (fun _ => v3)).setV 4 allLanes (fun _ => v4)).setV 7 allLanes (fun _ => v7)
def after (i : Instr) (g : Group) : Option (Word × Flags) :=
  match exec i (inState g) with | .next t => (t.group? 1).map (fun g => (g.v 7 5, g.flags)) | _ => none
def op7 (t : Ty) (c : Opd := .v 0) (imm : Word := 0) (mod : BitVec 7 := 0) (v : Fin 8 := 0) : W := w4 t (.v 7) (.v 1) (.v 2) c imm mod v
def flagSAT' : Flags := 0x20
/-- R97: 100 + 80 as .i8, with .sat and as .z8; mulhi of 0xFFFFFFFD and 5, signed and unsigned. -/
theorem test_integer : after (.add (op7 .i8)) (vecG 0xFFFFFF64 0x50 0 0 0) = some (0xFFFFFFB4, 0) ∧
    after (.add (op7 .i8 (mod := 8))) (vecG 0xFFFFFF64 0x50 0 0 0) = some (0x7F, flagSAT') ∧
    after (.add (op7 .z8)) (vecG 0xFFFFFF64 0x50 0 0 0) = some (0xB4, 0) ∧
    after (.mulhi (op7 .i32)) (vecG 0xFFFFFFFD 5 0 0 0) = some (0xFFFFFFFF, 0) ∧ after (.mulhi (op7 .z32)) (vecG 0xFFFFFFFD 5 0 0 0) = some (4, 0) := by decide +kernel
/-- R116: a field at bit 30 is cut at bit 31. R117: funnel shifts by 8 and by 40. -/
theorem test_bitfields : after (.bfi (w4 .i8 (.v 7) (.v 1) (.v 2) (.v 3))) (vecG 5 30 4 0 0xAAAAAAAA) = some (0x6AAAAAAA, 0) ∧
    after (.fsh (op7 .i8 (.v 3))) (vecG 0x12345678 0x9ABCDEF0 8 0 0) = some (0x3456789A, 0) ∧
    after (.fsh (op7 .i8 (.v 3) (v := 1))) (vecG 0x12345678 0x9ABCDEF0 8 0 0) = some (0x789ABCDE, 0) ∧
    after (.fsh (op7 .i8 (.v 3))) (vecG 0x12345678 0x9ABCDEF0 40 0 0) = some (0x9ABCDEF0, 0) ∧
    after (.fsh (op7 .i8 (.v 3) (v := 1))) (vecG 0x12345678 0x9ABCDEF0 40 0 0) = some (0x12345678, 0) := by decide +kernel
/-- R110: conversions among integers. R112: E4M3 and E5M2 NaNs widen. R113: 10.0 under the scale 2^2 becomes code 4, and 5 under .ru. -/
theorem test_conversions : (after (.cvt (w4 .z32 (.v 7) (.v 1) (.v 0) (.v 2) 0 8)) (vecG 0xFFFFFFFB 0 0 0 0)) = some (0, flagSAT') ∧
    after (.cvt (w4 .i32 (.v 7) (.v 1) (.v 0) (.v 6) 0 8)) (vecG 0x80000000 0 0 0 0) = some (0x7FFFFFFF, flagSAT') ∧
    after (.cvt (w4 .z32 (.v 7) (.v 1) (.v 0) (.v 2))) (vecG 0xFFFFFFFB 0 0 0 0) = some (0xFFFFFFFB, 0) ∧
    after (.upk (w4 .e4m3 (.v 7) (.v 1) (.v 0) (.v 11))) (vecG 0x7F 0 0 0 0) = some (0x7FF00000, 0) ∧
    (after (.upk (w4 .e5m2 (.v 7) (.v 1) (.v 0) (.v 11))) (vecG 0xFD 0 0 0 0)).map (fun p => p.1) = some 0xFFE00000 ∧
    (after (.mxs (w4 .e2m1 (.v 7) (.v 1) (.v 2) (.v 0))) (vecG 0x41200000 0x81 0 0 0)).map (fun p => p.1) = some 4 ∧
    (after (.mxs (w4 .e2m1 (.v 7) (.v 1) (.v 2) (.v 0) 0 2)) (vecG 0x41200000 0x81 0 0 0)).map (fun p => p.1) = some 5 := by decide +kernel
/-- R307: the line at 0x20_0000_1000 under ALL has its home in slice 160. -/
theorem test_home : homeSlice 0 0 0x2000001000 = 160 := by decide +kernel
/-- The very next step runs the word that is placed: movi.b32 s20, 7 (assumption 3). -/
theorem test_step : (match step (State.reset.withFetchWord 96 (0x2708 * 2 ^ 80 + (256 + 20) * 2 ^ 66 + 7)) with
    | .next t => (t.group? 1).map (fun g => (g.s 20, g.pc)) | _ => none) = some (7, 0x100C) := by decide +kernel

/-- R452: what the host reads after power-on: SELFTEST, the caps of 600 W, and zero where no register is. -/
theorem test_hostRegister : [0x00, 0x0C, 0x30, 0x40, 0x400].map (fun k => (hostRegister State.reset k).toNat) = [1, 0, 0xFF, 0x0258_0258, 0] := by
  decide +kernel

/-- R442: MEASURE's hash, by the example of FIPS 180-4 (the bytes of "abc"). -/
theorem test_sha384 : sha384 [0x61, 0x62, 0x63] =
    0xa725c834a1ecba5823cce7a12b078680ed5bff435a608b1a63d1de0eab322c270750c69a693da0b58b5ea3453f7500cb := by decide +kernel

end Sys2Proof.Tests
end

section
/-! SUPPORT. What a register, a triple and a table entry hold after a write to it or to another one. -/

namespace Sys2Proof.Machine

/-! ### Tables -/

/-- An entry that is found stands in the table. -/
theorem mem_of_tabGet? {α : Type} (t : Tab α) (k : Nat) (a : α) (h : tabGet? t k = some a) : (k, a) ∈ t := by
  induction t with
  | nil => simp [tabGet?] at h
  | cons p r ih =>
    obtain ⟨i, b⟩ := p
    by_cases hi : i = k
    · simp only [tabGet?, hi, if_true, Option.some.injEq] at h
      simp [hi, h]
    · simp only [tabGet?, hi, if_false] at h
      exact List.mem_cons_of_mem _ (ih h)

/-! ### Registers read back -/

theorem vregAt_vregOf (f : Nat → Word) (l : Nat) (h : l < 96) : vregAt (vregOf f) l = f l := by
  simp [vregAt, vregOf, h]

/-- A lane of a vector register after the lanes of a mask of one register are written (R20). -/
theorem Group.v_setV (g : Group) (n : Nat) (m : LaneMask) (f : Nat → Word) (k l : Nat) (hl : l < 96) :
    (g.setV n m f).v k l = if k = n ∧ m.getLsbD l = true then f l else g.v k l := by
  by_cases hm : m = 0
  · subst hm; simp [Group.setV]
  · rw [Group.setV, if_neg hm]
    by_cases hk : k = n
    · subst hk
      simp [Group.v, Group.vreg, tabGet_tabPut_same, vregAt_vregOf _ _ hl]
    · simp [hk, Group.v, Group.vreg, tabGet_tabPut_other]

@[simp] theorem Group.s_setV (g : Group) (n : Nat) (m : LaneMask) (f : Nat → Word) (k : Nat) : (g.setV n m f).s k = g.s k := by
  simp [Group.s]

@[simp] theorem Group.v_setS (g : Group) (n : Nat) (x : Word) (k l : Nat) : (g.setS n x).v k l = g.v k l := by
  simp [Group.v, Group.vreg]

theorem Group.s_setS_same (g : Group) (n : Nat) (x : Word) (h : n < 64) : (g.setS n x).s n = x := by
  simp [Group.setS, Group.s, h, Vector.toArray_set]

theorem Group.s_setS_other (g : Group) (n k : Nat) (x : Word) (h : k ≠ n) : (g.setS n x).s k = g.s k := by
  unfold Group.setS
  split
  · simp [Group.s, Ne.symm h, Vector.toArray_set]
  · rfl

@[simp] theorem Group.s_unpoison (g : Group) (c : List Nat) (k : Nat) : (g.unpoison c).s k = g.s k := by simp [Group.s]

@[simp] theorem Group.v_unpoison (g : Group) (c : List Nat) (k l : Nat) : (g.unpoison c).v k l = g.v k l := by
  simp [Group.v, Group.vreg]

/-! ### Triples read back -/

theorem Group.s_setTriple_other (g : Group) (n k : Nat) (m : LaneMask) (h : k < n ∨ n + 2 < k) : (g.setTriple n m).s k = g.s k := by
  rw [Group.setTriple, Group.s_setS_other _ _ _ _ (by omega), Group.s_setS_other _ _ _ _ (by omega), Group.s_setS_other _ _ _ _ (by omega)]

/-- A triple holds the mask that was written to it (R17). -/
theorem Group.triple_setTriple (g : Group) (n : Nat) (m : LaneMask) (h : n + 2 < 64) : (g.setTriple n m).triple n = m := by
  have h2 : (g.setTriple n m).s (n + 2) = m.extractLsb' 64 32 := Group.s_setS_same _ _ _ h
  have h1 : (g.setTriple n m).s (n + 1) = m.extractLsb' 32 32 := by
    rw [Group.setTriple, Group.s_setS_other _ _ _ _ (by omega), Group.s_setS_same _ _ _ (by omega)]
  have h0 : (g.setTriple n m).s n = m.extractLsb' 0 32 := by
    rw [Group.setTriple, Group.s_setS_other _ _ _ _ (by omega), Group.s_setS_other _ _ _ _ (by omega), Group.s_setS_same _ _ _ (by omega)]
  rw [Group.triple, h2, h1, h0]
  apply BitVec.eq_of_getLsbD_eq
  intro k hk
  simp only [BitVec.getLsbD_append, BitVec.getLsbD_extractLsb']
  by_cases hk0 : k < 32
  · simp [hk0, show k < 64 by omega]
  · by_cases hk1 : k < 64
    · simp [hk0, hk1, show k - 32 < 32 by omega, show 32 + (k - 32) = k by omega]
    · simp [hk1, show k - 64 < 32 by omega, show 64 + (k - 64) = k by omega]

theorem Group.am_setAm (g : Group) (m : LaneMask) : (g.setAm m).am = m := g.triple_setTriple 61 m (by decide)

theorem Group.s_setAm (g : Group) (n : Nat) (m : LaneMask) (h : n < 61) : (g.setAm m).s n = g.s n :=
  g.s_setTriple_other 61 n m (.inl h)

end Sys2Proof.Machine
end

section
/-! SUPPORT. What a register word leaves alone of its group and of the machine (R13, R20). -/

namespace Sys2Proof.Machine

/-! ### Words that start a result or find no room -/

/-- A word that finds no room leaves only its park reason and the count of issues behind (R147). -/
theorem runWord_hold {s : State} {g : Group} (h : Ready s g) (i : Instr) (w : W) (pipe : Bool) (body : State → Nat → Group → WOut)
    (hm : MarkerFree g w) (ha : pipe = true → g.acquireHeld = false) (p : Park)
    (hb : body (issueTick s s.cur) s.cur (tick s g) = .hold (issueTick s s.cur) p) :
    runWord i w pipe s body = .next (({ s with ticks := s.ticks + 1 }).setGroup s.cur { g with park := some p }) := by
  rw [runWord_ready h i w pipe body hm ha, hb]
  simp only [finishWord, unissued, h.tick_state, h.group, State.group?_setGroup_same, State.setGroup_setGroup, State.modGroup_setGroup]
  rfl

/-- A word whose result a unit with room returns later (R94, R121). -/
theorem runWord_started {s : State} {g : Group} (h : Ready s g) (i : Instr) (w : W) (pipe : Bool) (body : State → Nat → Group → WOut)
    (hm : MarkerFree g w) (ha : pipe = true → g.acquireHeld = false) (u : ResUnit) (cells : List WrCell) (fl : Flags) (lane : Nat)
    (hr : ¬ (u != .cross ∧ u != .join ∧ unitLoad (issueTick s s.cur) (tick s g) u ≥ 4))
    (hb : body (issueTick s s.cur) s.cur (tick s g) = startUnit (issueTick s s.cur) s.cur (tick s g) u cells fl lane) :
    runWord i w pipe s body = .next (Claims.started s g u cells fl lane) := by
  have e : startUnit (({ s with ticks := s.ticks + 1 } : State).setGroup s.cur (tick s g)) s.cur (tick s g) u cells fl lane =
      .done ((({ s with ticks := s.ticks + 1, nextId := s.nextId + 1 } : State).setGroup s.cur (tick s g)).modGroup s.cur (fun x =>
        { x with pend := x.pend ++ [⟨s.nextId, u, cells, fl, lane, x.pc, none⟩] })) := by
    rw [startUnit, if_neg (h.tick_state ▸ hr)]; rfl
  rw [runWord_done h i w pipe body hm ha _ (by rw [hb, h.tick_state, e]), State.modGroup_setGroup, goOn_setGroup]
  rfl

/-! ### What stays of the group -/

/-- What a register word leaves of its group: every register element that is not of D, the mode, the stamps, the operations, the trap
registers but the budget that is left, and the flags that were set (R20, R45). -/
structure Kept (g : Group) (w : W) (wide : Bool) (x : Group) : Prop where
  scalars : ∀ n, n < 64 → ¬ Claims.isDstS w wide n → x.s n = g.s n
  vectors : ∀ n l, l < 96 → ¬ Claims.isDstV g w wide n l → x.v n l = g.v n l
  gmode   : x.gmode = g.gmode
  view    : x.view = g.view
  ops     : x.ops = g.ops
  sup     : x.sup = g.sup
  trap    : { x.trap with left := g.trap.left } = g.trap
  flags   : g.flags &&& x.flags = g.flags

/-- The parts of a group that `Kept` speaks of. -/
def keptParts (x : Group) : (Vector Word 64 × Tab VReg) × Word × Stamp × List Op × Bool × TrapRegs × Flags :=
  ((x.sregs, x.vregs), x.gmode, x.view, x.ops, x.sup, x.trap, x.flags)

/-- Another part of a group is free to change. -/
theorem Kept.congr {g x y : Group} {w : W} {wide : Bool} (h : Kept g w wide x) (e : keptParts y = keptParts x) : Kept g w wide y := by
  simp only [keptParts, Prod.mk.injEq] at e
  obtain ⟨⟨hs, hv⟩, hgm, hvw, hops, hsup, htr, hfl⟩ := e
  exact ⟨fun n hn hd => by rw [Group.s, hs]; exact h.scalars n hn hd, fun n l hl hd => by rw [Group.v, Group.vreg, hv]; exact h.vectors n l hl hd,
    hgm ▸ h.gmode, hvw ▸ h.view, hops ▸ h.ops, hsup ▸ h.sup, htr ▸ h.trap, hfl ▸ h.flags⟩

theorem Kept.refl (g : Group) (w : W) (wide : Bool) : Kept g w wide g :=
  ⟨fun _ _ _ => rfl, fun _ _ _ _ => rfl, rfl, rfl, rfl, rfl, rfl, BitVec.and_self⟩

/-- The bookkeeping of the issue takes one from the trap budget alone. -/
theorem Kept.tick (s : State) (g : Group) (w : W) (wide : Bool) : Kept g w wide (tick s g) :=
  { Kept.refl g w wide with trap := by unfold Machine.tick; split <;> rfl }

/-- D is written, and nothing else of the registers. -/
theorem Kept.writeDst {g x : Group} {w : W} {wide : Bool} (h : Kept g w wide x) (f : Nat → DWord) :
    Kept g w wide (writeDst x w.d wide (emOf g w) f) := by
  refine ⟨fun n hn hd => ?_, fun n l hl hd => ?_, ?_, ?_, ?_, ?_, ?_, ?_⟩
  · rw [← h.scalars n hn hd]
    cases hw : w.d with
    | s m =>
      have h1 : n ≠ m.val := fun e => hd ⟨m, hw, .inl e⟩
      cases wide with
      | false => simp [Machine.writeDst, Group.s_setS_other, h1]
      | true =>
        have h2 : n ≠ m.val + 1 := fun e => hd ⟨m, hw, .inr ⟨rfl, e⟩⟩
        simp [Machine.writeDst, Group.s_setS_other, h1, h2]
    | v m => cases wide <;> simp [Machine.writeDst]
    | _ => rfl
  · rw [← h.vectors n l hl hd]
    cases hw : w.d with
    | v m =>
      have h1 : ¬ (n = m.val ∧ (emOf g w).getLsbD l = true) := fun e => hd ⟨e.2, m, hw, .inl e.1⟩
      cases wide with
      | false => simp only [Machine.writeDst, Group.v_unpoison, Group.v_setV _ _ _ _ _ _ hl, if_neg h1, Bool.false_eq_true, if_false]
      | true =>
        have h2 : ¬ (n = m.val + 1 ∧ (emOf g w).getLsbD l = true) := fun e => hd ⟨e.2, m, hw, .inr ⟨rfl, e.1⟩⟩
        simp only [Machine.writeDst, Group.v_unpoison, Group.v_setV _ _ _ _ _ _ hl, if_neg h1, if_neg h2, if_true]
    | s m => cases wide <;> simp [Machine.writeDst]
    | _ => rfl
  · simpa using h.gmode
  · simpa using h.view
  · simpa using h.ops
  · simpa using h.sup
  · simpa using h.trap
  · simpa using h.flags

/-- More flags are merged into the sticky set (R45). -/
theorem Kept.mergeFlags {g x : Group} {w : W} {wide : Bool} (h : Kept g w wide x) (fl : Flags) :
    Kept g w wide { x with flags := g.flags ||| fl } :=
  { h.congr (y := { x with flags := x.flags }) rfl with
    flags := by
      apply BitVec.eq_of_getLsbD_eq
      intro k _
      cases hg : g.flags.getLsbD k <;> simp [hg] }

/-! ### What a word's body does -/

/-- A step that changed one group, as far as `Kept` allows, the count of issues and the next key. -/
def Framed (s t : State) (g : Group) (w : W) (wide : Bool) : Prop :=
  ∃ (k n : Nat) (x : Group), t = ({ s with ticks := k, nextId := n }).setGroup s.cur x ∧ Kept g w wide x

/-- What the body of a register word does: nothing when em is empty; otherwise, in a context without an error log, it writes D and
flags at once or gives a unit a result to return. -/
def WritesRegisters (w : W) (wide : Bool) (body : State → Nat → Group → WOut) : Prop :=
  ∀ (s : State) (g : Group), Ready s g →
    let s1 := issueTick s s.cur
    (emOf g w = 0 → body s1 s.cur (tick s g) = .done s1) ∧
    (emOf g w ≠ 0 → Claims.NoLog s g →
      (∃ x, body s1 s.cur (tick s g) = .done (s1.setGroup s.cur x) ∧ x.pc = g.pc ∧ Kept g w wide x) ∨
      ∃ u cells fl lane, body s1 s.cur (tick s g) = startUnit s1 s.cur (tick s g) u cells fl lane)

theorem Framed.wordDone {s : State} {g x : Group} {w : W} {wide : Bool} (h : Kept g w wide x) : Framed s (wordDone s x) g w wide :=
  ⟨s.ticks + 1, s.nextId, _, rfl, h.congr rfl⟩

/-- A register word leaves all but its group alone, whether its result is written, started or finds no room. -/
theorem WritesRegisters.framed {s : State} {g : Group} {w w' : W} {wide : Bool} {body : State → Nat → Group → WOut}
    (h : WritesRegisters w wide body) (hr : Ready s g) (i : Instr) (hm : MarkerFree g w') (hn : Claims.NoLog s g) :
    ∃ t, runWord i w' false s body = .next t ∧ Framed s t g w wide := by
  obtain ⟨hidle, hacts⟩ := h s g hr
  by_cases he : emOf g w = 0
  · exact ⟨_, runWord_group hr i w' false body hm (by simp) (tick s g) rfl (by rw [hidle he, hr.tick_state, State.setGroup_setGroup]),
      .wordDone (.tick s g w wide)⟩
  · rcases hacts he hn with ⟨x, hb, hpc, hk⟩ | ⟨u, cells, fl, lane, hb⟩
    · exact ⟨_, runWord_group hr i w' false body hm (by simp) x hpc hb, .wordDone hk⟩
    · by_cases hroom : u != .cross ∧ u != .join ∧ unitLoad (issueTick s s.cur) (tick s g) u ≥ 4
      · exact ⟨_, runWord_hold hr i w' false body hm (by simp) .room (by rw [hb, startUnit, if_pos hroom]),
          s.ticks + 1, s.nextId, _, rfl, (Kept.refl g w wide).congr rfl⟩
      · exact ⟨_, runWord_started hr i w' false body hm (by simp) u cells fl lane hroom hb,
          s.ticks + 1, s.nextId + 1, _, rfl, (Kept.tick s g w wide).congr rfl⟩

/-- A computing word writes registers (R93). -/
theorem compute_writesRegisters (i : Instr) (w : W) (wide : Bool) (u : Option ResUnit) (f : Group → Bool → Srcs → Nat → DWord × Flags) :
    WritesRegisters w wide (compute i w wide u f) := by
  intro s g hr s1
  refine ⟨fun he => if_pos he, fun he hn => ?_⟩
  have he' : ¬ emOf (tick s g) w = 0 := he
  cases u with
  | some u => exact .inr ⟨u, _, _, _, if_neg he'⟩
  | none =>
    refine .inl ⟨_, (if_neg he').trans (congrArg WOut.done
      ((raiseFlags_noLog _ _ _ _ _ _ _ (State.group?_setGroup_same _ _ _) ?_).trans (State.setGroup_setGroup _ _ _ _))), ?_, ?_⟩
    · rw [writeDst_asid, writeDst_window]
      exact ⟨by rw [show s1 = _ from hr.tick_state]; exact hn.1, by simp [tick, hn.2]⟩
    · simp
    · rw [writeDst_flags]
      exact ((Kept.tick s g w wide).writeDst _).mergeFlags _

/-- The body of a word over lanes whose result depends on its sources alone (R121, R124, R125, R127). -/
theorem laneBody_writesRegisters (w : W) (wide fixed : Bool) (f : Group → Nat → DWord) :
    WritesRegisters w wide (fun s grp g =>
      if emOf g w = 0 then .done s
      else if fixed then .done (s.setGroup grp (writeDst g w.d wide (emOf g w) (f g)))
      else startUnit s grp g .cross (dstCells w.d wide (maskLanes (emOf g w)) (f g)) 0 0xFF) := by
  intro s g hr s1
  refine ⟨fun he => if_pos he, fun he _ => ?_⟩
  have he' : ¬ emOf (tick s g) w = 0 := he
  cases fixed with
  | true => exact .inl ⟨_, if_neg he', by simp, (Kept.tick s g w wide).writeDst _⟩
  | false => exact .inr ⟨.cross, _, 0, 0xFF, if_neg he'⟩

/-- A body that starts a result unless em is empty. -/
theorem startUnit_writesRegisters (w : W) (wide : Bool) (u : ResUnit) (cells : Group → List WrCell) (fl : Group → Flags) (lane : Group → Nat) :
    WritesRegisters w wide (fun s grp g => if emOf g w = 0 then .done s else startUnit s grp g u (cells g) (fl g) (lane g)) :=
  fun _ _ _ => ⟨fun he => if_pos he, fun he _ => .inr ⟨u, _, _, _, if_neg he⟩⟩

/-- What leaves all but one register alone leaves all but a pair alone. -/
theorem WritesRegisters.widen {w : W} {body : State → Nat → Group → WOut} (hb : WritesRegisters w false body) (wide : Bool) :
    WritesRegisters w wide body := by
  intro s g hr s1
  obtain ⟨hidle, hacts⟩ := hb s g hr
  refine ⟨hidle, fun he hn => (hacts he hn).imp_left ?_⟩
  rintro ⟨x, hx, hpc, hk⟩
  refine ⟨x, hx, hpc, { hk with scalars := fun n hn hd => hk.scalars n hn fun ⟨m, hm, hnm⟩ => hd ⟨m, hm, ?_⟩,
                                vectors := fun n l hl hd => hk.vectors n l hl fun ⟨hem, m, hm, hnm⟩ => hd ⟨hem, m, hm, ?_⟩ }⟩
  · exact hnm.imp_right (fun h => absurd h.1 (by simp))
  · exact hnm.imp_right (fun h => absurd h.1 (by simp))

/-! ### The upper half of a pair (R103) -/

/-- A legal word has a legal destination field (R83). -/
theorem fieldDetails_dst {i : Instr} {ms : Nat} {mn : Bool} {imm : Word} {r : RawCodes} (h : fieldDetails i ms mn imm r = []) :
    (shapeOf i).d.details r.d = [] := by
  simp only [fieldDetails, List.append_eq_nil_iff] at h
  obtain ⟨⟨⟨⟨⟨⟨⟨⟨_, hd⟩, _⟩, _⟩, _⟩, _⟩, _⟩, _⟩, _⟩ := h
  exact hd

/-- A wide destination that is a register is even (R69). -/
theorem moviHi_dst_even (w : W) (h : (Instr.moviHi w).wf = true) (hd : w.d.code < 320) : w.d.code % 2 = 0 := by
  have hdst : (Fld.dst true).details w.d.code = [] := fieldDetails_dst (Instr.wf_fields (.moviHi w) w rfl h)
  simp only [Fld.details, hd, if_true, List.append_eq_nil_iff] at hdst
  rcases Nat.mod_two_eq_zero_or_one w.d.code with heven | hodd
  · exact heven
  · exact absurd hdst.2 (by rw [if_pos hodd]; exact List.cons_ne_nil _ _)

/-- The odd register of a pair has the next number. -/
theorem oddOf_eq_s (w : W) (h : (Instr.moviHi w).wf = true) (m : Fin 64) (hm : oddOf w.d = .s m) :
    ∃ j : Fin 64, w.d = .s j ∧ m.val = j.val + 1 := by
  cases hw : w.d with
  | s j =>
    have heven := moviHi_dst_even w h (by rw [hw]; simp only [Opd.code]; omega)
    simp only [hw, Opd.code] at heven
    rw [hw] at hm
    exact ⟨j, rfl, Opd.s.inj hm ▸ Nat.mod_eq_of_lt (show j.val + 1 < 64 by omega)⟩
  | _ => simp [oddOf, hw] at hm

theorem oddOf_eq_v (w : W) (h : (Instr.moviHi w).wf = true) (m : Fin 256) (hm : oddOf w.d = .v m) :
    ∃ j : Fin 256, w.d = .v j ∧ m.val = j.val + 1 := by
  cases hw : w.d with
  | v j =>
    have heven := moviHi_dst_even w h (by rw [hw]; simp only [Opd.code]; omega)
    simp only [hw, Opd.code] at heven
    rw [hw] at hm
    exact ⟨j, rfl, Opd.v.inj hm ▸ Nat.mod_eq_of_lt (show j.val + 1 < 256 by omega)⟩
  | _ => simp [oddOf, hw] at hm

/-- What leaves all but the odd register of D's pair alone leaves all but D alone. -/
theorem Kept.of_odd {g x : Group} {w : W} (h : (Instr.moviHi w).wf = true) (hk : Kept g { w with d := oddOf w.d } false x) :
    Kept g w true x := by
  refine { hk with scalars := fun n hn hd => hk.scalars n hn fun ⟨m, hm, hnm⟩ => hd ?_,
                   vectors := fun n l hl hd => hk.vectors n l hl fun ⟨hem, m, hm, hnm⟩ => hd ⟨hem, ?_⟩ }
  · obtain ⟨j, hj, hmj⟩ := oddOf_eq_s w h m hm
    exact ⟨j, hj, .inr ⟨rfl, by simpa [hmj] using hnm⟩⟩
  · obtain ⟨j, hj, hmj⟩ := oddOf_eq_v w h m hm
    exact ⟨j, hj, .inr ⟨rfl, by simpa [hmj] using hnm⟩⟩

theorem WritesRegisters.of_odd {w : W} {body : State → Nat → Group → WOut} (h : (Instr.moviHi w).wf = true)
    (hb : WritesRegisters { w with d := oddOf w.d } false body) : WritesRegisters w true body := by
  intro s g hr s1
  obtain ⟨hidle, hacts⟩ := hb s g hr
  refine ⟨hidle, fun he hn => (hacts he hn).imp_left ?_⟩
  rintro ⟨x, hx, hpc, hk⟩
  exact ⟨x, hx, hpc, hk.of_odd h⟩

/-! ### The meanings of the register words -/

/-- How a register word runs: its body writes registers, and a conversion may add one to K_SRSEED after it (R49). The word that the
body sees has the operands of the encoded one, but moviHi's D. -/
inductive RegisterMeaning (mk : W → Instr) (wide : W → Bool) (w : W) : Prop where
  | plain (w' : W) (body : State → Nat → Group → WOut) (hsw : w'.sw = w.sw) (hb : (mk w).wf = true → WritesRegisters w (wide w) body)
      (h : ∀ s, exec (mk w) s = runWord (mk w) w' false s body)
  | seeded (body : State → Nat → Group → WOut) (hb : WritesRegisters w (wide w) body)
      (h : ∀ s, exec (mk w) s = bumpSeed w w.rnd (runWord (mk w) w false s body) s)

/-- With an empty em no random number is drawn. -/
theorem bumpSeed_idle (s t : State) (g : Group) (w : W) (rnd : Nat) (h : s.group? s.cur = some g) (he : emOf g w = 0) :
    bumpSeed w rnd (.next t) s = .next t := by
  simp only [bumpSeed, h]
  cases t.group? s.cur <;> simp [he]

theorem Framed.bumpSeed {s t : State} {g : Group} {w : W} {wide : Bool} (h : s.group? s.cur = some g) (rnd : Nat) (hf : Framed s t g w wide) :
    ∃ t', bumpSeed w rnd (.next t) s = .next t' ∧ Framed s t' g w wide := by
  obtain ⟨k, n, x, rfl, hk⟩ := hf
  simp only [Machine.bumpSeed, h, State.group?_setGroup_same, State.setGroup_setGroup]
  split
  · exact ⟨_, rfl, k, n, _, rfl, hk.congr rfl⟩
  · exact ⟨_, rfl, k, n, x, rfl, hk⟩

/-- A register word with an empty em only goes on (R16, R20). -/
theorem RegisterMeaning.idle {mk : W → Instr} {wide : W → Bool} {w : W} (hm : RegisterMeaning mk wide w) {s : State} {g : Group}
    (hf : Claims.Fits s g (mk w) w) (he : emOf g w = 0) : exec (mk w) s = .next (wordDone s (tick s g)) := by
  have hr := hf.ready
  have hdone : ∀ (w' : W) (body : State → Nat → Group → WOut), w'.sw = w.sw → WritesRegisters w (wide w) body →
      runWord (mk w) w' false s body = .next (wordDone s (tick s g)) := fun w' body hsw hb =>
    runWord_group hr _ w' false body (by rw [MarkerFree, hsw]; exact hf.marker) (by simp) _ rfl
      (by rw [(hb s g hr).1 he, hr.tick_state, State.setGroup_setGroup])
  cases hm with
  | plain w' body hsw hb h => rw [h, hdone w' body hsw (hb hf.wf)]
  | seeded body hb h => rw [h, hdone w body rfl hb, bumpSeed_idle s _ g w _ hr.group he]

/-- A register word in a context without an error log leaves all but its group alone (R13, R20). -/
theorem RegisterMeaning.framed {mk : W → Instr} {wide : W → Bool} {w : W} (hm : RegisterMeaning mk wide w) {s : State} {g : Group}
    (hf : Claims.Fits s g (mk w) w) (hn : Claims.NoLog s g) : ∃ t, exec (mk w) s = .next t ∧ Framed s t g w (wide w) := by
  cases hm with
  | plain w' body hsw hb h =>
    rw [h]
    exact (hb hf.wf).framed hf.ready _ (by rw [MarkerFree, hsw]; exact hf.marker) hn
  | seeded body hb h =>
    obtain ⟨t, ht, hk⟩ := hb.framed hf.ready (mk w) hf.marker hn
    rw [h, ht]
    exact hk.bumpSeed hf.ready.group _

/-! ### The table of the register words -/

/-- The word computes each lane for itself (R93). -/
theorem RegisterMeaning.computes {mk : W → Instr} {wide : W → Bool} (run : W → State → Out)
    (arm : ∀ w s, exec (mk w) s = run w s := by intros; rfl)
    (hc : ∀ w, ∃ u f, ∀ s, run w s = runCompute (mk w) w (wide w) u f s := by exact fun _ => ⟨_, _, fun _ => rfl⟩) (w : W) :
    RegisterMeaning mk wide w := by
  obtain ⟨u, f, h⟩ := hc w
  exact .plain w _ rfl (fun _ => compute_writesRegisters (mk w) w (wide w) u f) (fun s => (arm w s).trans (h s))

/-- The word converts each lane for itself and may round stochastically (R49). -/
theorem RegisterMeaning.converts {mk : W → Instr} {wide : W → Bool} (run : W → State → Out)
    (arm : ∀ w s, exec (mk w) s = run w s := by intros; rfl)
    (hc : ∀ w, ∃ f, ∀ s, run w s = bumpSeed w w.rnd (runCompute (mk w) w (wide w) none f s) s := by exact fun _ => ⟨_, fun _ => rfl⟩) (w : W) :
    RegisterMeaning mk wide w := by
  obtain ⟨f, h⟩ := hc w
  exact .seeded _ (compute_writesRegisters (mk w) w (wide w) none f) (fun s => (arm w s).trans (h s))

/-- The word moves values between lanes (R121). -/
theorem RegisterMeaning.overLanes {mk : W → Instr} {wide : W → Bool} (run : W → State → Out)
    (arm : ∀ w s, exec (mk w) s = run w s := by intros; rfl)
    (hc : ∀ w, ∃ fixed f, ∀ s, run w s = laneResult (mk w) w (wide w) fixed f s := by exact fun _ => ⟨_, _, fun _ => rfl⟩) (w : W) :
    RegisterMeaning mk wide w := by
  obtain ⟨fixed, f, h⟩ := hc w
  exact .plain w _ rfl (fun _ => laneBody_writesRegisters w (wide w) fixed f) (fun s => (arm w s).trans (h s))

/-- The word computes each lane for itself into one register, whatever its type (R117). -/
theorem RegisterMeaning.narrow {mk : W → Instr} {wide : W → Bool} (run : W → State → Out)
    (arm : ∀ w s, exec (mk w) s = run w s := by intros; rfl)
    (hc : ∀ w, ∃ u f, ∀ s, run w s = runCompute (mk w) w false u f s := by exact fun _ => ⟨_, _, fun _ => rfl⟩) (w : W) :
    RegisterMeaning mk wide w := by
  obtain ⟨u, f, h⟩ := hc w
  exact .plain w _ rfl (fun _ => (compute_writesRegisters (mk w) w false u f).widen _) (fun s => (arm w s).trans (h s))

theorem RegisterMeaning.moviHi (w : W) : RegisterMeaning .moviHi (fun _ => true) w :=
  .plain { w with d := oddOf w.d } _ rfl (fun h => (compute_writesRegisters (.moviHi w) _ false none _).of_odd h) (fun _ => rfl)

theorem RegisterMeaning.scan (w : W) : RegisterMeaning .scan (fun w => w.t.isWide) w :=
  .plain w _ rfl (fun _ => startUnit_writesRegisters w _ .cross _ _ _) (fun _ => rfl)

section
open RegisterMeaning

theorem integerWords_meaning : ∀ p ∈ Claims.integerWords, ∀ w, RegisterMeaning p.1 (fun w => w.t.isWide) w := by
  simp only [Claims.integerWords, List.forall_mem_cons, List.not_mem_nil, false_imp_iff, implies_true, and_true]
  exact ⟨computes execAdd, computes execSub, computes execMul, computes execMulhi, computes execMad, computes execAbs, computes execMin,
    computes execMax⟩

theorem plainWords_meaning : ∀ p ∈ Claims.plainWords, ∀ w, RegisterMeaning p.1 p.2.1 w := by
  simp only [Claims.plainWords, List.forall_mem_cons, List.not_mem_nil, false_imp_iff, implies_true, and_true]
  exact ⟨computes execAnd, computes execOr, computes execXor, computes execNot, computes execMov, computes execMovi, computes execSel,
    computes execShl, computes execShr, computes execSar, computes execRot, computes execFsh⟩

theorem bitWords_meaning : ∀ p ∈ Claims.bitWords, ∀ w, RegisterMeaning p.1 p.2.1 w := by
  simp only [Claims.bitWords, List.forall_mem_cons, List.not_mem_nil, false_imp_iff, implies_true, and_true]
  exact ⟨computes execClz, computes execPopc, computes execBrev, computes execFfs, computes execBfx, computes execBfi⟩

theorem floatWords_meaning : ∀ p ∈ Claims.floatWords, ∀ w, RegisterMeaning p.1 (fun w => w.t.isWide) w := by
  simp only [Claims.floatWords, List.forall_mem_cons, List.not_mem_nil, false_imp_iff, implies_true, and_true]
  exact ⟨computes execFadd, computes execFsub, computes execFmul, computes execFfma, computes execFrnd⟩

theorem unitWords_meaning : ∀ p ∈ Claims.unitWords, ∀ w, RegisterMeaning p.1 (fun w => w.t.isWide) w := by
  simp only [Claims.unitWords, List.forall_mem_cons, List.not_mem_nil, false_imp_iff, implies_true, and_true]
  exact ⟨computes execFdiv, computes execFsqrt, narrow execRcp, narrow execRsq, narrow execExp2, narrow execLog2, narrow execSinpi,
    narrow execCospi, narrow execTanh⟩

theorem laneWords_meaning : ∀ p ∈ Claims.laneWords, ∀ w, RegisterMeaning p.1 p.2.1 w := by
  simp only [Claims.laneWords, List.forall_mem_cons, List.not_mem_nil, false_imp_iff, implies_true, and_true]
  exact ⟨overLanes execShfl, overLanes execBcast, overLanes execMatchLanes⟩

theorem registerWords_meaning : ∀ p ∈ Claims.registerWords, ∀ w, RegisterMeaning p.1 p.2 w := by
  simp only [Claims.registerWords, List.forall_mem_append, List.forall_mem_map, List.forall_mem_cons, List.not_mem_nil, false_imp_iff,
    implies_true, and_true]
  exact ⟨⟨⟨⟨⟨⟨⟨integerWords_meaning, plainWords_meaning⟩, moviHi⟩, bitWords_meaning⟩, floatWords_meaning⟩, unitWords_meaning⟩,
    laneWords_meaning⟩, computes execFmin, computes execFmax, computes execFclass, converts execCvt, converts execPk, computes execUpk,
    converts execMxs, scan⟩

end

/-! ### The obligation -/

theorem emptyMaskDoesNothing : Claims.EmptyMaskDoesNothing :=
  fun p hp _ _ w hf he => (registerWords_meaning p hp w).idle hf he

theorem registerWordsFrame : Claims.RegisterWordsFrame := by
  intro p hp s t g w hf hn ht
  obtain ⟨_, ht', k, n, x, rfl, hk⟩ := (registerWords_meaning p hp w).framed hf hn
  obtain rfl := Host.Outcome.next.inj (ht.symm.trans ht')
  refine ⟨rfl, fun j hj => State.group?_setGroup_other _ _ _ _ hj, fun _ => rfl, fun _ _ => rfl, x, State.group?_setGroup_same _ _ _, ?_⟩
  exact ⟨hk.scalars, hk.vectors, hk.gmode, hk.view, hk.ops, hk.sup, hk.trap, hk.flags⟩

/-- Settles O10: each register word is a body that leaves its group when em is empty, and otherwise writes D and flags or starts a result. -/
theorem emptyMaskAndFrame : Obligations.EmptyMaskAndFrame := ⟨emptyMaskDoesNothing, registerWordsFrame⟩

end Sys2Proof.Machine
end

section
/-! SUPPORT. What taking a trap and escalating one do to a group and to the machine (R164, R167). -/

namespace Sys2Proof.Machine

/-! ### Taking a trap in user mode -/

/-- The group as it enters its handler: am holds the lanes `m` (R164). -/
def handlerGroup (g : Group) (t : TrapInfo) (m : LaneMask) : Group :=
  { g.setAm m with
    trap := { g.trap with am := g.am, pend := t.pend, pc := t.resume, addr := t.addr, cause := trapCause t, left := g.trap.budget }
    sup := true, pc := g.trap.vec, arrival := some true, park := none, inWord := none
    replay := if t.rd then g.replay else none, answers := [], wanted := [], active := true }

theorem takeTrap_user (s : State) (k : Nat) (g : Group) (t : TrapInfo) (h : s.group? k = some g) (hs : g.sup = false) :
    takeTrap s k t = s.setGroup k (handlerGroup g t (if t.pend = 0 then allLanes else t.pend)) := by
  simp [takeTrap, h, hs, handlerGroup]

/-- A trap in user mode saves the group's place and enters the handler, as R164 says. -/
theorem takeTrap_trapTaken (s : State) (k : Nat) (g : Group) (t : TrapInfo) (h : s.group? k = some g) (hs : g.sup = false) :
    Claims.TrapTaken s (takeTrap s k t) k g t.cause t.detail t.lane t.addr t.resume t.pend t.rd := by
  rw [takeTrap_user s k g t h hs]
  generalize hm : (if t.pend = 0 then allLanes else t.pend) = m
  refine ⟨rfl, fun j hj => State.group?_setGroup_other _ _ _ _ hj, _, State.group?_setGroup_same _ _ _, ?_⟩
  exact ⟨rfl, rfl, rfl, rfl, rfl, rfl, (g.am_setAm m).trans hm.symm, rfl, rfl, rfl, rfl, rfl, fun n hn => g.s_setAm n m hn,
    g.setAm_vregs m, g.setAm_flags m, g.setAm_view m, congrArg List.length (g.setAm_ops m), g.setAm_pend m, g.setAm_gmode m, rfl⟩

/-- A trap that is taken just after the state of the group's operations has changed. -/
theorem TrapTaken.of_ops {s t : State} {k : Nat} {g : Group} {ops : List Op} {cause detail lane : Nat} {addr resume : DWord} {pend : LaneMask}
    {rd : Bool} (h : Claims.TrapTaken (s.setGroup k { g with ops := ops }) t k { g with ops := ops } cause detail lane addr resume pend rd)
    (hl : ops.length = g.ops.length) : Claims.TrapTaken s t k g cause detail lane addr resume pend rd :=
  ⟨h.frame, fun j hj => (h.others j hj).trans (State.group?_setGroup_other _ _ _ _ hj), hl ▸ h.enters⟩

/-! ### Escalation -/

@[simp] theorem queueRec_groups (s : State) (asid : Nat) (body : List Byte) (item : Option WItem) (die : Nat) :
    (queueRec s asid body item die).groups = s.groups := by unfold queueRec; split <;> rfl
@[simp] theorem queueRec_hbm (s : State) (asid : Nat) (body : List Byte) (item : Option WItem) (die : Nat) :
    (queueRec s asid body item die).hbm = s.hbm := by unfold queueRec; split <;> rfl
@[simp] theorem queueRec_cores (s : State) (asid : Nat) (body : List Byte) (item : Option WItem) (die : Nat) :
    (queueRec s asid body item die).cores = s.cores := by unfold queueRec; split <;> rfl

/-- A running context's record waits for room in its ring (R373). -/
theorem queueRec_ringWaits (s : State) (asid : Nat) (body : List Byte) (item : Option WItem) (die : Nat) (h : s.context? asid ≠ none) :
    ∃ x, (queueRec s asid body item die).ringWaits = s.ringWaits ++ [x] ∧ x.asid = asid ∧ x.item = item ∧ x.bytes = body := by
  unfold queueRec
  split
  case h_1 e => exact absurd e h
  case h_2 => exact ⟨_, rfl, rfl, rfl, rfl⟩

/-- A record starts with its type, its ASID and its reason (R374). -/
theorem recBody_take (type asid reason unit : Nat) (gid : Word) (addr w24 : Nat) (rest : List Byte) :
    (recBody type asid reason unit gid addr w24 rest).take 3 = [BitVec.ofNat 8 type, BitVec.ofNat 8 asid, BitVec.ofNat 8 reason] := by
  simp [recBody, valBytes]

/-- Escalation stops the group as it is and hands an ESCALATE record to the context's ring (R167). -/
theorem escalateTrap_escalated (s : State) (k : Nat) (g : Group) (reason : Nat) (h : s.group? k = some g) :
    Claims.Escalated s (escalateTrap s k reason) k g reason := by
  simp only [escalateTrap, escalate, h]
  refine ⟨⟨_, (State.group?_congr k (queueRec_groups _ _ _ _ _)).trans (State.group?_setGroup_same _ _ _), rfl, rfl, rfl, rfl, rfl, rfl, rfl, rfl⟩,
    fun j hj => (State.group?_congr j (queueRec_groups _ _ _ _ _)).trans (State.group?_setGroup_other _ _ _ _ hj), fun hc => ?_, ?_⟩
  · obtain ⟨x, hx, ha, hi, hb⟩ := queueRec_ringWaits (s.setGroup k { g with park := some .escalated, escal := some (0, reason), arrival := none })
      g.asid (recBody 5 g.asid reason 0 g.gid g.trap.addr.toNat g.trap.pc.toNat (valBytes 4 g.trap.cause.toNat ++ valBytes 4 g.task.serial.toNat))
      (some (.group k)) (coreDie g.core) hc
    exact ⟨x, hx, ha, hi, by rw [hb, recBody_take]; rfl⟩
  · simp

end Sys2Proof.Machine
end

section
/-! SUPPORT. The steps of a core that are no instruction word (R29, R33, R62, R137, R142, R158, R166, R167, R202, R335). -/

namespace Sys2Proof.Machine

/-! ### The scheduler -/

/-- Of the entry kept so far and the next one, the one that issued earlier; the first of two that issued together. -/
def keepLeast (m : Option (Nat × Group)) (p : Nat × Group) : Option (Nat × Group) :=
  match m with
  | none => some p
  | some q => if p.2.lastIssue < q.2.lastIssue then some p else some q

theorem leastRecent_eq_foldl (l : List (Nat × Group)) : leastRecent l = (l.foldl keepLeast none).map Prod.fst := rfl

/-- The entry that is kept issued no later than those that have been met. -/
theorem foldl_keepLeast (l : List (Nat × Group)) (q : Nat × Group) :
    ∃ r, l.foldl keepLeast (some q) = some r ∧ r ∈ q :: l ∧ ∀ p ∈ q :: l, r.2.lastIssue ≤ p.2.lastIssue := by
  induction l generalizing q with
  | nil => exact ⟨q, rfl, by simp, by simp⟩
  | cons p l ih =>
    by_cases hp : p.2.lastIssue < q.2.lastIssue
    · obtain ⟨r, hr, hm, hle⟩ := ih p
      refine ⟨r, by simpa [keepLeast, hp] using hr, List.mem_cons_of_mem _ hm, List.forall_mem_cons.2 ⟨?_, hle⟩⟩
      exact Nat.le_trans (hle p List.mem_cons_self) (Nat.le_of_lt hp)
    · obtain ⟨r, hr, hm, hle⟩ := ih q
      obtain ⟨hq, hl⟩ := List.forall_mem_cons.1 hle
      refine ⟨r, by simpa [keepLeast, hp] using hr, ?_, List.forall_mem_cons.2 ⟨hq, List.forall_mem_cons.2 ⟨Nat.le_trans hq (Nat.le_of_not_lt hp), hl⟩⟩⟩
      rcases List.mem_cons.1 hm with rfl | hm
      · simp
      · simp [hm]

/-- An entry that issued before all entries of other keys names the least recent group. -/
theorem leastRecent_eq (l : List (Nat × Group)) (j : Nat) (x : Group) (hx : (j, x) ∈ l)
    (hmin : ∀ q ∈ l, q.1 ≠ j → x.lastIssue < q.2.lastIssue) : leastRecent l = some j := by
  cases l with
  | nil => simp at hx
  | cons q l =>
    obtain ⟨r, hr, hm, hle⟩ := foldl_keepLeast l q
    have hj : r.1 = j :=
      Decidable.byContradiction fun hne => absurd (hle (j, x) hx) (Nat.not_le.2 (hmin r hm hne))
    rw [leastRecent_eq_foldl, List.foldl_cons, show keepLeast none q = some q from rfl, hr, Option.map_some, hj]

/-- A ready pending group takes the place of the active group that issued least recently (R33). -/
theorem schedulerDisplace_displaces (s : State) (k j : Nat) (g x : Group) (hg : s.group? k = some g) (hx : s.group? j = some x)
    (hpending : g.active = false) (hready : g.since.isSome = true) (hrun : canRun s g = true)
    (hfull : 8 ≤ (activeGroups s g.core g.part).length) (hcore : x.core = g.core) (hpart : x.part = g.part) (hactive : x.active = true)
    (htrap : x.inTrap = false) (hleast : ∀ q ∈ activeGroups s g.core g.part, q.1 ≠ j → q.2.inTrap = false → x.lastIssue < q.2.lastIssue) :
    exec (.schedulerDisplace k) s = .next ((s.setGroup j { x with active := false, since := none, seen := none }).setGroup k
      { g with active := true, since := none, seen := none }) := by
  have hkj : k ≠ j := by
    rintro rfl
    have : g = x := Option.some.inj (hg.symm.trans hx)
    simp [this, hactive] at hpending
  have hd : displaced s g.core g.part = some j := by
    refine leastRecent_eq _ j x ?_ (fun q hq hne => ?_)
    · have := mem_of_tabGet? s.groups j x hx
      simp [activeGroups, this, hcore, hpart, hactive, htrap]
    · obtain ⟨hq, ht⟩ := List.mem_filter.1 hq
      exact hleast q hq hne (by simpa using ht)
  have hlen : ¬ (activeGroups s g.core g.part).length < 8 := Nat.not_lt.2 hfull
  have hn : g.since.isNone = false := by cases hs : g.since <;> simp_all
  have htry : displaceTry k s = some (enterSet (leaveSet s j) k) := by
    simp [displaceTry, hg, hpending, hn, hrun, hlen, hd]
  change orSame s (displaceTry k s) = _
  rw [htry, orSame_some, leaveSet, State.modGroup_of s j x _ hx, enterSet,
    State.modGroup_of _ k g _ ((State.group?_setGroup_other _ _ _ _ hkj).trans hg)]

/-! ### Starting a task -/

/-- The group that `startTask` puts into a place has begun the entry's task (R29, R30). -/
theorem startGroup_begun (u : State) (r : CtxRegs) (asid core gen team base region stop origin key : Nat) (root active : Bool) (e : Entry)
    (p : Place) :
    ∃ g, Claims.Begun (u.setGroup key { startGroup r asid core p.part p.slot (gidOf gen p.slot p.part core) e.clo.demand e.clo.entry e.clo.args with
        view := e.stamp, ifp := BitVec.ofNat 64 (base + 32), region := region, stackEnd := stop, team := team
        tasks := [⟨e.clo.entry, e.clo.future, e.serial, e.clo.entry, origin, root, e.clo.demand, base, false, 0, none⟩], active := active })
      core e p base g := by
  refine ⟨_, ⟨rfl, rfl, rfl, rfl⟩, ⟨rfl, rfl, ?_, rfl, rfl, rfl, rfl, rfl⟩, fun n hn => ?_, fun n h1 h2 => ?_, ⟨rfl, rfl, rfl, rfl, rfl⟩, ⟨rfl, rfl⟩,
    key, State.group?_setGroup_same _ _ _⟩
  · simp [Group.am, Group.triple, Group.s, startGroup, startSregs, allLanes]
  · simp [Group.s, startGroup, startSregs, hn, show n < 64 by omega]
  · simp [Group.s, startGroup, startSregs, h2, show n < 64 by omega, show ¬ n < 18 by omega]

/-- An entry whose header can be written starts (R178). -/
theorem startEntry_begun (s : State) (core base : Nat) (e : Entry) (p : Place) (h : Claims.HeaderWritten s core e base) :
    ∃ t g, startEntry s core e p = some t ∧ Claims.Begun t core e p base g := by
  obtain ⟨c, w, hc, hbase, hw⟩ := h
  have hctx : (dropEntry s core e.serial).context? (coreAsid (dropEntry s core e.serial) core) = some c := hc
  have hregion : regionBase c.regs (freeRegion (dropEntry s core e.serial) (coreAsid (dropEntry s core e.serial) core)) = base := hbase.symm
  obtain ⟨u, hu⟩ : ∃ u, groupWrite (dropEntry s core e.serial) core (coreAsid (dropEntry s core e.serial) core) base
      (headerBytes e.clo.future 0 e.serial) e.stamp
      (provOf (coreAsid (dropEntry s core e.serial) core) e.serial e.clo.entry e.clo.entry) = (u, .ok w) := ⟨_, Prod.ext rfl hw⟩
  simp only [startEntry, startTask, hctx, hregion, hu]
  obtain ⟨g, hg⟩ := startGroup_begun _ _ _ core _ _ base _ _ _ _ _ _ e p
  exact ⟨_, g, rfl, hg⟩

/-- The hottest entry that can start at once begins its task (R29, R33). -/
theorem groupStart_begins (s : State) (core base : Nat) (e : Entry) (p : Place) (hrun : coreRuns s core = true)
    (hnext : nextStart s core = some (e, p)) (h : Claims.HeaderWritten s core e base) :
    ∃ t g, exec (.groupStart core) s = .next t ∧ Claims.Begun t core e p base g := by
  obtain ⟨t, g, ht, hg⟩ := startEntry_begun s core base e p h
  have htry : groupStartTry core s = some t := by simp [groupStartTry, hrun, hnext, ht]
  exact ⟨t, g, congrArg (orSame s) htry, hg⟩

/-- While every resident group waits in a join, an entry begins its task in the reserve slot (R150, R202). -/
theorem reserveStart_begins (s : State) (core base : Nat) (e : Entry) (hrun : coreRuns s core = true) (hjoin : allJoining s core = true)
    (hfree : ∀ q ∈ residents s core 0, q.2.slot ≠ 16) (hentry : reserveEntry s core = some e) (h : Claims.HeaderWritten s core e base) :
    ∃ t g p, exec (.reserveStart core) s = .next t ∧ p.part = 0 ∧ p.slot = 16 ∧ Claims.Begun t core e p base g := by
  obtain ⟨t, g, ht, hg⟩ := startEntry_begun s core base e ⟨0, 16, match entryTeam e with | some t => .inl t | none => .inr (32, 0)⟩ h
  have hnone : (residents s core 0).any (fun p => p.2.slot == 16) = false := by simpa using hfree
  have htry : reserveTry core s = some t := by
    simp only [reserveTry, hrun, hjoin, hnone, hentry]
    exact ht
  exact ⟨t, g, _, congrArg (orSame s) htry, rfl, rfl, hg⟩

/-! ### Traps that are due -/

/-- A change of the operations that keeps what is outstanding and the paths commutes with the fall of the counters (R25). -/
theorem pruneOps_map (f : Op → Op) (hout : ∀ o, (f o).outstanding = o.outstanding) (hpath : ∀ o, (f o).path = o.path) (ops : List Op)
    (blocked : List Nat) : pruneOps (ops.map f) blocked = (pruneOps ops blocked).map f := by
  induction ops generalizing blocked with
  | nil => rfl
  | cons o r ih =>
    simp only [List.map_cons, pruneOps, hout, hpath]
    cases o.path with
    | none => cases o.outstanding <;> simp [ih]
    | some p =>
      cases o.outstanding with
      | true => simp [ih]
      | false => by_cases hb : p ∈ blocked <;> simp [ih, hb]

/-- Marking a held trap as taken keeps every operation (R166). -/
theorem modOp_heldTaken (g : Group) (id : Nat) (h : pruneOps g.ops [] = g.ops) :
    ∃ ops, g.modOp id (fun o => { o with heldTaken := true }) = { g with ops := ops } ∧ ops.length = g.ops.length := by
  refine ⟨_, rfl, ?_⟩
  rw [pruneOps_map _ (fun o => by split <;> rfl) (fun o => by split <;> rfl), h, List.length_map]

/-- The trap of a held operation, by the form of its word (R166, R218). -/
theorem heldInfo_of (g : Group) (o : Op) (a : LaneAcc) (r : List LaneAcc) (h : o.held = a :: r) :
    heldInfo g o = ⟨o.heldCause.1, o.heldCause.2, if o.scalar then 0xFF else a.lane, laneAddr o a,
      if o.scalar then 0 else lanesMask (o.held.map (fun x => x.lane)), g.pc, true⟩ := by
  cases hs : o.scalar <;> simp [heldInfo, h, hs]

theorem heldTrap_user (s : State) (k : Nat) (g : Group) (o : Op) (hg : s.group? k = some g) (hrun : canRun s g = true)
    (hdue : dueHeld g = some o) (hops : pruneOps g.ops [] = g.ops) (hs : g.sup = false) :
    ∃ t, exec (.heldTrap k) s = .next t ∧ Claims.TrapTaken s t k g (heldInfo g o).cause (heldInfo g o).detail (heldInfo g o).lane
      (heldInfo g o).addr (heldInfo g o).resume (heldInfo g o).pend (heldInfo g o).rd := by
  obtain ⟨ops, hmod, hlen⟩ := modOp_heldTaken g o.id hops
  have hstate : s.modOp k o.id (fun o => { o with heldTaken := true }) = s.setGroup k { g with ops := ops } := by
    rw [State.modOp, State.modGroup_of s k g _ hg, hmod]
  have htry : heldTrapTry k s = some (takeTrap (s.setGroup k { g with ops := ops }) k (heldInfo g o)) := by
    simp [heldTrapTry, hg, hrun, hdue, hs, hstate]
  exact ⟨_, congrArg (orSame s) htry,
    TrapTaken.of_ops (takeTrap_trapTaken _ k { g with ops := ops } _ (State.group?_setGroup_same _ _ _) hs) hlen⟩

theorem heldTrap_handler (s : State) (k : Nat) (g : Group) (o : Op) (hg : s.group? k = some g) (hrun : canRun s g = true)
    (hdue : dueHeld g = some o) (hs : g.sup = true) : ∃ t, exec (.heldTrap k) s = .next t ∧ Claims.Escalated s t k g 2 := by
  have htry : heldTrapTry k s = some (escalateTrap s k 2) := by simp [heldTrapTry, hg, hrun, hdue, hs, takeTrap]
  exact ⟨_, congrArg (orSame s) htry, escalateTrap_escalated s k g 2 hg⟩

/-- A handler whose budget is used up is escalated (R167). -/
theorem trapBudget_escalates (s : State) (k : Nat) (g : Group) (hg : s.group? k = some g) (hrun : canRun s g = true) (hs : g.sup = true)
    (hleft : g.trap.left = 0) (hin : g.inWord = none) : ∃ t, exec (.trapBudgetEscalate k) s = .next t ∧ Claims.Escalated s t k g 1 := by
  have htry : budgetTry k s = some (escalateTrap s k 1) := by simp [budgetTry, hg, hrun, hs, hleft, hin]
  exact ⟨_, congrArg (orSame s) htry, escalateTrap_escalated s k g 1 hg⟩

/-! ### Fills -/

/-- A line that the group waits for arrives in the instruction cache (R62, R154). -/
theorem icacheFill_arrives (s s' : State) (k line : Nat) (g : Group) (d : BitVec 512) (hg : s.group? k = some g) (hmay : mayFill s g = true)
    (hwant : g.wanted.find? (fun x => decide (x ≥ 2 ^ 64)) = some (2 ^ 64 + line))
    (hmiss : findILine s g.core g.asid (BitVec.ofNat 64 (64 * line)) = none) (hfetch : fetchLine s g.core g.asid (64 * line) = (s', .ok d))
    (hgood : lineGood d = true) :
    ∃ t, exec (.icacheFill k) s = .next t ∧ (t.core g.core).icache.head? = some ⟨tagAsid g.asid (64 * line), line, d, false⟩ := by
  have htry : icacheTry k s = some (fillLine s k g line) := by
    simp only [icacheTry, hg, hwant, hmay, if_true, Nat.add_sub_cancel_left]
  refine ⟨_, congrArg (orSame s) htry, ?_⟩
  simp [fillLine, hmiss, hfetch, hgood, installILine]

/-- A record that the group waits for arrives in the PLB (R158). -/
theorem plbFill_arrives (s s' : State) (k page level pte : Nat) (e : DWord) (g : Group) (hg : s.group? k = some g) (hmay : mayFill s g = true)
    (hwant : g.wanted.find? (fun x => decide (x < 2 ^ 64)) = some page)
    (hwalk : mtuWalk s (coreDie g.core) g.asid (page * 2 ^ 14) = (s', .leaf e level pte)) :
    ∃ t, exec (.plbFill k) s = .next t ∧ (t.core g.core).plb.head? = some (leafRec g.asid (page * 2 ^ 14) e level) := by
  have htry : plbTry k s = some (fillPage s k g page) := by simp only [plbTry, hg, hwant, hmay, if_true]
  refine ⟨_, congrArg (orSame s) htry, ?_⟩
  simp only [fillPage, hwalk]
  simp [installPlb]

/-! ### The obligation -/

/-- Settles O45: each event finds its condition met and performs its one operation. -/
theorem coreStepsTakePlace : Obligations.CoreStepsTakePlace := by
  refine ⟨groupStart_begins, reserveStart_begins, schedulerDisplace_displaces, ?sleep, ?held, trapBudget_escalates, ?window, ?drift,
    icacheFill_arrives, plbFill_arrives⟩
  case sleep =>
    intro s k g hg hp
    have htry : sleepTry k s = some (s.setGroup k { g with park := none, sleepLeft := 0 }) := by simp [sleepTry, hg, hp]
    exact congrArg (orSame s) htry
  case held =>
    intro s k g o a r hg hrun hdue hheld hops
    refine ⟨fun hs => ?_, heldTrap_handler s k g o hg hrun hdue⟩
    have h := heldTrap_user s k g o hg hrun hdue hops hs
    rw [heldInfo_of g o a r hheld] at h
    exact h
  case window =>
    intro s k g hg hw
    have htry : windowTry k s = some (s.setGroup k { g with window := none }) := by simp [windowTry, hg, hw]
    exact congrArg (orSame s) htry
  case drift =>
    intro s k g hg hd
    have htry : driftTry k s = some (s.setGroup k { g with drift := 257, view := g.view + 1 }) := by simp [driftTry, hg, hd]
    exact ⟨_, congrArg (orSame s) htry, rfl, rfl⟩

end Sys2Proof.Machine
end

section
/-! SUPPORT. What a word leaves that traps or escalates at its own place, and the traps of privileged words (R161, R164, R167, R188). -/

namespace Sys2Proof.Machine

/-! ### A word that does not issue -/

/-- Taking the bookkeeping of the issue back leaves the group as it was. -/
theorem Ready.unissued_tick {s : State} {g : Group} (h : Ready s g) :
    unissued s s.cur (issueTick s s.cur) = ({ s with ticks := s.ticks + 1 }).setGroup s.cur g := by
  simp only [unissued, h.tick_state, h.group, State.group?_setGroup_same, State.setGroup_setGroup]
  rfl

/-- A trap at the word's own place is taken as if the word had not issued (R164). -/
theorem runWord_trap {s : State} {g : Group} (h : Ready s g) (i : Instr) (w : W) (pipe : Bool) (body : State → Nat → Group → WOut)
    (hm : MarkerFree g w) (ha : pipe = true → g.acquireHeld = false) (x : TrapInfo) (hx : x.resume = g.pc)
    (hb : body (issueTick s s.cur) s.cur (tick s g) = .trap (issueTick s s.cur) x) :
    runWord i w pipe s body = .next (takeTrap (({ s with ticks := s.ticks + 1 }).setGroup s.cur g) s.cur x) := by
  rw [runWord_ready h i w pipe body hm ha, hb]
  simp only [hx, beq_self_eq_true, if_true, h.unissued_tick, finishWord]

/-- A word that escalates its handler's trap has not issued (R167). -/
theorem runWord_escal {s : State} {g : Group} (h : Ready s g) (i : Instr) (w : W) (pipe : Bool) (body : State → Nat → Group → WOut)
    (hm : MarkerFree g w) (ha : pipe = true → g.acquireHeld = false) (reason : Nat)
    (hb : body (issueTick s s.cur) s.cur (tick s g) = .escal (issueTick s s.cur) reason) :
    runWord i w pipe s body = .next (escalateTrap (({ s with ticks := s.ticks + 1 }).setGroup s.cur g) s.cur reason) := by
  rw [runWord_ready h i w pipe body hm ha, hb]
  simp only [h.unissued_tick, finishWord]

/-- The count of issues is no part of what a trap saves or leaves. -/
theorem TrapTaken.of_unissued {s t : State} {n k : Nat} {g : Group} {cause detail lane : Nat} {addr resume : DWord} {pend : LaneMask} {rd : Bool}
    (h : Claims.TrapTaken (({ s with ticks := n }).setGroup k g) t k g cause detail lane addr resume pend rd) :
    Claims.TrapTaken s t k g cause detail lane addr resume pend rd :=
  ⟨h.frame, fun j hj => (h.others j hj).trans (State.group?_setGroup_other _ _ _ _ hj), h.enters⟩

theorem Escalated.of_unissued {s t : State} {n k : Nat} {g : Group} {reason : Nat}
    (h : Claims.Escalated (({ s with ticks := n }).setGroup k g) t k g reason) : Claims.Escalated s t k g reason :=
  ⟨h.stops, fun j hj => (h.others j hj).trans (State.group?_setGroup_other _ _ _ _ hj), h.record, h.memory⟩

/-! ### A trap cause in either mode -/

/-- In supervisor mode a trap cause is escalated with reason 2 (R167). -/
theorem takeTrap_escalated (s : State) (k : Nat) (g : Group) (x : TrapInfo) (h : s.group? k = some g) (hs : g.sup = true) :
    Claims.Escalated s (takeTrap s k x) k g 2 := by
  have he : takeTrap s k x = escalateTrap s k 2 := by simp only [takeTrap, h, hs, if_true]
  exact he ▸ escalateTrap_escalated s k g 2 h

/-- Settles O17: the trap registers are saved as the handler is entered, and a handler's own trap is escalated. -/
theorem trapEntryAndEscalation : Obligations.TrapEntryAndEscalation := ⟨takeTrap_trapTaken, takeTrap_escalated⟩

/-! ### The privilege trap -/

section
variable {s : State} {g : Group} {i : Instr} {w : W} {out : Out} {pipe : Bool} {body : State → Nat → Group → WOut}

/-- A word whose body raises the privilege trap takes it in user mode and does nothing else (R161, R164). -/
theorem privilege_user (hf : Claims.Fits s g i w) (hx : out = runWord i w pipe s body) (ha : pipe = true → g.acquireHeld = false)
    (hs : g.sup = false) (hb : body (issueTick s s.cur) s.cur (tick s g) = privilege (issueTick s s.cur) (tick s g)) :
    ∃ t, out = .next t ∧ Claims.TrapTaken s t s.cur g 4 0 0xFF g.pc g.pc 0 false :=
  ⟨_, hx.trans (runWord_trap hf.ready i w pipe body hf.marker ha (wordTrap g 4 0 g.pc) rfl hb),
    TrapTaken.of_unissued (takeTrap_trapTaken _ s.cur g _ (State.group?_setGroup_same _ _ _) hs)⟩

/-- In supervisor mode the privilege trap escalates (R167). -/
theorem privilege_handler (hf : Claims.Fits s g i w) (hx : out = runWord i w pipe s body) (ha : pipe = true → g.acquireHeld = false)
    (hs : g.sup = true) (hb : body (issueTick s s.cur) s.cur (tick s g) = privilege (issueTick s s.cur) (tick s g)) :
    ∃ t, out = .next t ∧ Claims.Escalated s t s.cur g 2 :=
  ⟨_, hx.trans (runWord_trap hf.ready i w pipe body hf.marker ha (wordTrap g 4 0 g.pc) rfl hb),
    Escalated.of_unissued (takeTrap_escalated _ s.cur g _ (State.group?_setGroup_same _ _ _) hs)⟩

end

/-- A word with an active lane does what its body says (R16). -/
theorem whenActive_active {g : Group} {w : W} (he : emOf g w ≠ 0) (s : State) (f : Unit → WOut) : whenActive g w s f = f () := if_neg he

/-- A task word in supervisor mode raises the privilege trap (R188). -/
theorem userWord_handler {g : Group} (hs : g.sup = true) (s : State) (f : Unit → WOut) : userWord g s f = privilege s g := if_pos hs

/-- A group that is inside no word is inside no inline run. -/
theorem inRun_of_outside {g : Group} (h : g.inWord = none) : inRun g = false := by rw [inRun, h]

/-! ### Words of supervisor mode (R235 to R239) -/

theorem sysret_user {s : State} {g : Group} {w : W} (hs : g.sup = false) (hf : Claims.Fits s g (.sysret w) w) :
    ∃ t, execSysret w s = .next t ∧ Claims.TrapTaken s t s.cur g 4 0 0xFF g.pc g.pc 0 false :=
  privilege_user (pipe := false) hf rfl (by simp) hs (by simp only [tick_sup, hs, Bool.not_false, if_true])

/-- A question to the MTU belongs to supervisor mode (R238, R239). -/
theorem mtuOp_user {s : State} {g : Group} {i : Instr} {w : W} (kind : ReqKind) (addr : Group → Nat → DWord) (hs : g.sup = false)
    (hi : Claims.Issues s g i w) (ha : g.acquireHeld = false) :
    ∃ t, mtuOp i w kind addr s = .next t ∧ Claims.TrapTaken s t s.cur g 4 0 0xFF g.pc g.pc 0 false :=
  privilege_user hi.toFits rfl (fun _ => ha) hs (by
    rw [whenActive_active (g := tick s g) hi.active]
    simp only [tick_sup, hs, Bool.not_false, if_true])

/-- The own checks of a legal word's shape find nothing (R83). -/
theorem fieldDetails_own {i : Instr} {ms : Nat} {mn : Bool} {imm : Word} {r : RawCodes} (h : fieldDetails i ms mn imm r = []) :
    (shapeOf i).own = [] := by
  simp only [fieldDetails, List.append_eq_nil_iff] at h
  obtain ⟨⟨⟨⟨⟨⟨⟨⟨hown, _⟩, _⟩, _⟩, _⟩, _⟩, _⟩, _⟩, _⟩ := h
  exact hown

/-- A legal mtk names a control register (R234). -/
theorem mtk_kSel {w : W} (h : (Instr.mtk w).wf = true) : ∃ r, kSel w = some r := by
  have hown : modZero w ++ kDetails true w = [] := fieldDetails_own (Instr.wf_fields (.mtk w) w rfl h)
  have hdet : kDetails true w = [] := (List.append_eq_nil_iff.mp hown).2
  cases hk : kSel w with
  | some r => exact ⟨r, rfl⟩
  | none => simp [kDetails, hk] at hdet

/-- A write to a register of supervisor mode raises the privilege trap (R235). -/
theorem mtk_user {s : State} {g : Group} {w : W} (hs : g.sup = false) (hi : Claims.Issues s g (.mtk w) w) (hc : s.context? g.asid ≠ none)
    (hk : ∀ r, kSel w = some r → r.1.userWrite = false) :
    ∃ t, execMtk w s = .next t ∧ Claims.TrapTaken s t s.cur g 4 0 0xFF g.pc g.pc 0 false := by
  obtain ⟨r, hr⟩ := mtk_kSel hi.wf
  obtain ⟨c, hctx⟩ := Option.ne_none_iff_exists'.mp hc
  have hctx' : (issueTick s s.cur).context? (tick s g).asid = some c := by rw [hi.ready.tick_state]; exact hctx
  refine privilege_user (pipe := false) hi.toFits rfl (by simp) hs ?_
  rw [whenActive_active (g := tick s g) hi.active]
  simp only [hr, hctx', hk r hr, tick_sup, hs, Bool.not_false, Bool.and_self, if_true]

theorem supervisorWordsTrapInUserMode : Claims.SupervisorWordsTrapInUserMode := by
  intro s g w hs
  refine ⟨sysret_user hs, ?_, mtk_user hs⟩
  simp only [List.forall_mem_cons, List.not_mem_nil, false_imp_iff, implies_true, and_true]
  exact ⟨mtuOp_user _ _ hs, mtuOp_user _ _ hs⟩

/-! ### Words of user mode (R188, R329, R385) -/

/-- A word whose body raises the privilege trap in a handler, once a lane is active and no inline run goes on. -/
def UserOnly (w : W) (body : State → Nat → Group → WOut) : Prop :=
  ∀ t k x, x.inWord = none → emOf x w ≠ 0 → x.sup = true → body t k x = privilege t x

/-- A word of user mode with an active lane escalates in a handler. -/
theorem UserOnly.escalates {i : Instr} {w : W} {run : State → Out} {body : State → Nat → Group → WOut} (h : UserOnly w body)
    (hx : ∀ s, run s = runWord i w true s body) (s : State) (g : Group) (hs : g.sup = true) (ha : g.acquireHeld = false)
    (hi : Claims.Issues s g i w) : ∃ t, run s = .next t ∧ Claims.Escalated s t s.cur g 2 :=
  privilege_handler hi.toFits (hx s) (fun _ => ha) hs (h _ _ (tick s g) hi.ready.inWord hi.active hs)

/-- A word that goes on with its inline run, if it is inside one, and otherwise is of user mode (R188, R200). -/
theorem userOnly_task {w : W} {run : State → Nat → Group → WOut} {rest : State → Nat → Group → Unit → WOut} :
    UserOnly w (fun t k x => if inRun x then run t k x else whenActive x w t (fun _ => userWord x t (rest t k x))) := by
  intro t k x hout hact hsup
  simp only [inRun_of_outside hout, whenActive_active hact, userWord_handler hsup, Bool.false_eq_true, if_false]

theorem userOnly_plain {w : W} {rest : State → Nat → Group → Unit → WOut} :
    UserOnly w (fun t k x => whenActive x w t (fun _ => userWord x t (rest t k x))) := by
  intro t k x _ hact hsup
  simp only [whenActive_active hact, userWord_handler hsup]

/-- The four forms of spawn (R189). -/
theorem spawnOp_escalates (i : Instr) (w : W) (form : Nat) (s : State) (g : Group) (hs : g.sup = true) (ha : g.acquireHeld = false)
    (hi : Claims.Issues s g i w) : ∃ t, spawnOp i w form s = .next t ∧ Claims.Escalated s t s.cur g 2 :=
  userOnly_task.escalates (fun _ => rfl) s g hs ha hi

theorem enq_escalates {s : State} {g : Group} {w : W} (hs : g.sup = true) (ha : g.acquireHeld = false) (hi : Claims.Issues s g (.enq w) w) :
    ∃ t, execEnq w s = .next t ∧ Claims.Escalated s t s.cur g 2 :=
  privilege_handler (pipe := true) hi.toFits rfl (fun _ => ha) hs (by
    have hout : (tick s g).inWord = none := hi.ready.inWord
    simp only [hout, whenActive_active (g := tick s g) hi.active, userWord_handler (g := tick s g) hs])

/-- tret escalates in a handler whatever em is (R188). -/
theorem tret_escalates {s : State} {g : Group} {w : W} (hs : g.sup = true) (ha : g.acquireHeld = false) (hf : Claims.Fits s g (.tret w) w) :
    ∃ t, execTret w s = .next t ∧ Claims.Escalated s t s.cur g 2 :=
  privilege_handler (pipe := true) hf rfl (fun _ => ha) hs (by
    have hout : (tick s g).inWord = none := hf.ready.inWord
    simp only [inRun_of_outside hout, hout, userWord_handler (g := tick s g) hs, Bool.false_eq_true, if_false, reduceCtorEq])

theorem userWordsEscalateInSupervisorMode : Claims.UserWordsEscalateInSupervisorMode := by
  intro s g w hs ha
  refine ⟨?_, tret_escalates hs ha⟩
  simp only [List.forall_mem_cons, List.not_mem_nil, false_imp_iff, implies_true, and_true]
  have spawns i form := spawnOp_escalates i w form s g hs ha
  exact ⟨spawns _ 0, spawns _ 1, spawns _ 2, spawns _ 3, userOnly_task.escalates (run := execJoin w) (fun _ => rfl) s g hs ha,
    userOnly_task.escalates (run := execJoinall w) (fun _ => rfl) s g hs ha, userOnly_task.escalates (run := execYield w) (fun _ => rfl) s g hs ha,
    userOnly_plain.escalates (run := execMigrate w) (fun _ => rfl) s g hs ha, enq_escalates hs ha,
    userOnly_plain.escalates (run := execEnqEos w) (fun _ => rfl) s g hs ha⟩

/-- Settles O19: each word of the other mode finds the mode wrong before it does anything. -/
theorem privilegedWordsTrapInUserMode : Obligations.PrivilegedWordsTrapInUserMode :=
  ⟨supervisorWordsTrapInUserMode, userWordsEscalateInSupervisorMode⟩

end Sys2Proof.Machine
end

section
/-! SUPPORT. The return from a handler, with and without the reissue of a held operation (R148, R165). -/

namespace Sys2Proof.Machine

/-! ### What leaves the groups alone -/

/-- A fold whose steps keep a part of the state keeps it. -/
theorem foldl_keeps {α β γ : Type} (p : α → γ) (f : α → β → α) (h : ∀ a b, p (f a b) = p a) (l : List β) (a : α) : p (l.foldl f a) = p a := by
  induction l generalizing a with
  | nil => rfl
  | cons b r ih => exact (ih (f a b)).trans (h a b)

@[simp] theorem mtuWalk_groups (s : State) (die asid va : Nat) : (mtuWalk s die asid va).1.groups = s.groups := by
  unfold mtuWalk
  split
  · exact State.modDie_groups _ _ _
  · split <;> rfl
  · rfl

@[simp] theorem mtuCheck_groups (s : State) (die asid va need : Nat) : (mtuCheck s die asid va need).1.groups = s.groups := by
  have hw := mtuWalk_groups s die asid va
  unfold mtuCheck
  split
  · rfl
  · split
    case h_1 e => rw [e] at hw; dsimp only; split <;> exact hw
    case h_2 e => rw [e] at hw; exact hw
    case h_3 e => rw [e] at hw; exact hw

@[simp] theorem replayCheck_groups (s : State) (g : Group) (k : ReqKind) (a : LaneAcc) : (replayCheck s g k a).1.groups = s.groups := by
  have hc := mtuCheck_groups s (coreDie g.core) g.asid a.addr.toNat 0
  unfold replayCheck
  split
  · rfl
  · split
    · rfl
    · split
      case h_1 e => rw [e] at hc; exact hc
      case h_2 e => rw [e] at hc; exact hc

@[simp] theorem makeReqs_groups (s : State) (proto : Req) (l : List (LaneAcc × Chk)) : (makeReqs s proto l).groups = s.groups := by
  unfold makeReqs
  exact foldl_keeps State.groups _ (fun _ _ => by rfl) _ s

@[simp] theorem Op.restamp_groups (o : Op) (s : State) : (o.restamp s).groups = s.groups := by
  unfold Op.restamp; split <;> rfl

@[simp] theorem dsldLocal_groups (s : State) (grp : Nat) : (dsldLocal s grp).groups = s.groups := by
  unfold dsldLocal
  exact foldl_keeps State.groups _ (fun _ _ => by rfl) _ s

/-! ### The reissue of a held operation (R165, R219) -/

/-- An acquire changes at most the view stamp (R228). -/
theorem Group.acquired_eq (g : Group) (o : Op) : ∃ v, g.acquired o = { g with view := v } := by
  unfold Group.acquired
  split
  · split
    · unfold Group.acquire; split <;> exact ⟨_, rfl⟩
    · exact ⟨_, rfl⟩
  · exact ⟨_, rfl⟩

/-- A reissue changes its operation in the group, and no other group (R219). -/
theorem reissueOp_groups (s : State) (k : Nat) (g : Group) (o : Op) (l : List LaneAcc) :
    ∃ (s1 : State) (o' : Op), s1.groups = s.groups ∧
      (reissueOp s k g o l).groups = (s1.modGroup k (fun x => (x.acquired o').modOp o.id (fun _ => o'))).groups := by
  unfold reissueOp
  dsimp only
  generalize hchecks : List.foldl _ (s, ([] : List (LaneAcc × Chk))) l = checked
  have hkeep : checked.1.groups = s.groups := by
    rw [← hchecks]
    refine foldl_keeps (fun acc : State × List (LaneAcc × Chk) => acc.1.groups) _ (fun acc a => ?_) l (s, [])
    simp only [apply_ite Prod.fst, apply_ite State.groups, replayCheck_groups, ite_self]
  refine ⟨checked.1, ?o', hkeep, ?groups⟩
  case groups => split <;> simp only [dsldLocal_groups, Op.restamp_groups, makeReqs_groups] <;> rfl

/-- A reissue changes the view stamp and the operations of its group at most. -/
theorem reissueOp_group (s : State) (k : Nat) (g x : Group) (o : Op) (l : List LaneAcc) (h : s.group? k = some x) :
    ∃ v ops, (reissueOp s k g o l).group? k = some { x with view := v, ops := ops } := by
  obtain ⟨s1, o', h1, hgroups⟩ := reissueOp_groups s k g o l
  obtain ⟨v, hv⟩ := x.acquired_eq o'
  have hx : s1.group? k = some x := (State.group?_congr k h1).trans h
  rw [State.group?_congr k hgroups, State.modGroup_of s1 k x _ hx, State.group?_setGroup_same, hv]
  exact ⟨v, _, rfl⟩

/-! ### Leaving the handler -/

theorem leaveTrap_eq (g : Group) : leaveTrap g = { g.setAm g.trap.am with
    sup := false, pc := g.trap.pc, park := none, inWord := none, arrival := none, answers := [], wanted := [], refind := g.tasks.length
    replay := if g.trap.cause.getLsbD 31 then g.replay else if g.trap.pend = 0 then none else some g.trap.pend } := by
  simp only [leaveTrap, Group.setAm_trap, Group.setAm_tasks, Group.setAm_replay]
  split <;> simp

/-- With RD = 0 the group alone changes (R165). -/
theorem sysretGo_of_rd_clear (s : State) (k : Nat) (g : Group) (h : g.trap.cause.getLsbD 31 = false) : sysretGo s k g = s.setGroup k (leaveTrap g) := by
  simp only [sysretGo, h, Bool.false_eq_true, if_false]

/-- What a group `x` has of the group `g` that runs sysret (R165). -/
structure Resumed (g x : Group) : Prop where
  am      : x.am = g.trap.am
  sup     : x.sup = false
  pc      : x.pc = g.trap.pc
  scalars : ∀ n, n < 61 → x.s n = g.s n
  vregs   : x.vregs = g.vregs
  flags   : x.flags = g.flags
  inWord  : x.inWord = none

theorem leaveTrap_resumed (g : Group) : Resumed g (leaveTrap g) := by
  rw [leaveTrap_eq]
  exact ⟨g.am_setAm g.trap.am, rfl, rfl, fun n hn => g.s_setAm n g.trap.am hn, g.setAm_vregs g.trap.am, g.setAm_flags g.trap.am, rfl⟩

/-- The group that sysret leaves goes on where its trap was taken, whether an operation is reissued or not. -/
theorem sysretGo_resumed (s : State) (k : Nat) (g : Group) : ∃ x, (sysretGo s k g).group? k = some x ∧ Resumed g x := by
  have hleft : (s.setGroup k (leaveTrap g)).group? k = some (leaveTrap g) := State.group?_setGroup_same _ _ _
  have h := leaveTrap_resumed g
  unfold sysretGo
  dsimp only
  split
  · split
    case h_1 o _ =>
      obtain ⟨v, ops, hx⟩ := reissueOp_group _ k g _ o (replayLanes o g.trap.pend) hleft
      exact ⟨_, hx, h.am, h.sup, h.pc, h.scalars, h.vregs, h.flags, h.inWord⟩
    case h_2 => exact ⟨_, hleft, h⟩
  · exact ⟨_, hleft, h⟩

/-! ### sysret (R165) -/

/-- In a handler the issue of a word takes one from its budget (R167). -/
theorem tick_trap_handler (s : State) (g : Group) (h : g.sup = true) : (tick s g).trap = { g.trap with left := g.trap.left - 1 } := if_pos h

theorem trapPcUsable_iff (g : Group) : trapPcUsable g = true ↔ wordAddress g.trap.pc = true ∧ highBits g.trap.pc = false := by
  simp [trapPcUsable]

section
variable {s : State} {g : Group} {w : W} (hf : Claims.Fits s g (.sysret w) w) (hs : g.sup = true)
include hf hs

/-- What sysret would reissue does not depend on the bookkeeping of its issue. -/
theorem heldLack_tick : heldLack (issueTick s s.cur) (tick s g) = heldLack s g := by
  rw [hf.ready.tick_state]
  simp only [heldLack, tick_trap_handler s g hs]
  rfl

/-- A usable K_TRAPPC and room for what is reissued let the handler return. -/
theorem sysret_returns (hpc : trapPcUsable g = true) (hroom : heldLack s g = false) :
    execSysret w s = .next (sysretGo (issueTick s s.cur) s.cur (tick s g)) := by
  have husable : trapPcUsable (tick s g) = true := by rw [trapPcUsable, tick_trap_handler s g hs]; exact hpc
  refine runWord_over hf.ready (.sysret w) w false _ hf.marker (by simp) _ ?_
  simp only [tick_sup, hs, husable, heldLack_tick hf hs, hroom, Bool.not_true, Bool.false_eq_true, if_false]

/-- A K_TRAPPC that is not usable escalates with reason 5. -/
theorem sysret_escalates (hpc : trapPcUsable g = false) : ∃ t, execSysret w s = .next t ∧ Claims.Escalated s t s.cur g 5 := by
  have husable : trapPcUsable (tick s g) = false := by rw [trapPcUsable, tick_trap_handler s g hs]; exact hpc
  refine ⟨_, runWord_escal hf.ready (.sysret w) w false _ hf.marker (by simp) 5 ?_,
    Escalated.of_unissued (escalateTrap_escalated _ s.cur g 5 (State.group?_setGroup_same _ _ _))⟩
  simp only [tick_sup, hs, husable, Bool.not_true, Bool.not_false, Bool.false_eq_true, if_false, if_true]

end

/-- With RD = 0 sysret changes its group alone, and replays the unfinished lanes (R165). -/
theorem sysretGo_replays (s : State) (g : Group) (hr : Ready s g) (hs : g.sup = true) (hrd : g.trap.cause.getLsbD 31 = false) :
    let x := leaveTrap (tick s g)
    sysretGo (issueTick s s.cur) s.cur (tick s g) = ({ s with ticks := s.ticks + 1 }).setGroup s.cur x ∧ x.ops = g.ops ∧
      x.trap = { g.trap with left := g.trap.left - 1 } ∧ x.replay = if g.trap.pend = 0 then none else some g.trap.pend := by
  have htrap := tick_trap_handler s g hs
  have hrd' : (tick s g).trap.cause.getLsbD 31 = false := by rw [htrap]; exact hrd
  refine ⟨?_, ?_, ?_, ?_⟩
  · rw [sysretGo_of_rd_clear _ _ _ hrd', hr.tick_state, State.setGroup_setGroup]
  · rw [leaveTrap_eq]; exact (tick s g).setAm_ops (tick s g).trap.am
  · rw [leaveTrap_eq]; exact ((tick s g).setAm_trap (tick s g).trap.am).trans htrap
  · simp only [leaveTrap_eq, htrap, hrd, Bool.false_eq_true, if_false]

/-- Settles O20: sysret leaves the handler as `leaveTrap` says, and a reissue changes no more of the group than its stamp and operations. -/
theorem sysretReturnsFromTheHandler : Obligations.SysretReturnsFromTheHandler := by
  intro s g w hf hs
  refine ⟨fun hword hhigh hroom => ?_, fun hbad => sysret_escalates hf hs (Bool.eq_false_iff.mpr (mt (trapPcUsable_iff g).mp hbad))⟩
  have hexec := sysret_returns hf hs ((trapPcUsable_iff g).mpr ⟨hword, hhigh⟩) hroom
  have htrap := tick_trap_handler s g hs
  obtain ⟨x, hx, h⟩ := sysretGo_resumed (issueTick s s.cur) s.cur (tick s g)
  refine ⟨_, x, hexec, hx, ?_, h.sup, ?_, h.scalars, h.vregs, h.flags, h.inWord, fun hrd => ?_⟩
  · rw [h.am, htrap]
  · rw [h.pc, htrap]
  · have hgo := sysretGo_replays s g hf.ready hs hrd
    have hleft : x = leaveTrap (tick s g) := by
      rw [hgo.1, State.group?_setGroup_same] at hx
      exact (Option.some.inj hx).symm
    exact hleft ▸ hgo

end Sys2Proof.Machine
end
